-- ==== Sys2Proof/Word.lean ====
section
/-! DEFINITION. The words, numbers and line names every other file uses (R1, R2, 00_scope.md "Units of the store"). -/

namespace Sys2Proof

/-- One byte of a record in host memory (R177). -/
abbrev Byte := BitVec 8

/-- The 64 data bits of a store word (R4). -/
abbrev Word := BitVec 64

/-- A value of the 48-bit microsecond time base (00_scope.md "Time"). -/
abbrev Time := BitVec 48

/-- A bank, 0 to 15 (R3). -/
abbrev Bank := Fin 16

/-- A logical segment, 0 to 511 (R1). -/
abbrev LogSeg := Fin 512

/-- A physical segment, 0 to 519 (R2). -/
abbrev PhysSeg := Fin 520

/-- A line in a segment, 0 to 1,048,575 (R1). -/
abbrev LineOff := Fin 1048576

/-- A context of a port, 0 to 63 (R117). -/
abbrev CtxId := Fin 64

/-- A transfer slot of a port, 0 to 3 (R121). -/
abbrev SlotId := Fin 4

/-- A lock, 0 to 255 (R86). -/
abbrev LockId := Fin 256

/-- An owner, a 16-bit number chosen by a host (R86). -/
abbrev Owner := BitVec 16

/-- The two host ports. -/
inductive PortId
  | p0
  | p1
deriving DecidableEq, Repr

/-- The other port. -/
def PortId.other : PortId → PortId
  | .p0 => .p1
  | .p1 => .p0

/-- A logical line, held as its segment and its line in segment (R1). -/
structure LLine where
  seg : LogSeg
  off : LineOff
deriving DecidableEq, Repr

/-- A physical line, held as its physical segment and its line in segment (R2). -/
structure PLine where
  seg : PhysSeg
  off : LineOff
deriving DecidableEq, Repr

/-- The number of a physical line: physical segment × 1,048,576 + line in segment (R2). -/
def PLine.number (l : PLine) : Nat := l.seg.val * 1048576 + l.off.val

/-- The number of a logical line (R1). -/
def LLine.number (l : LLine) : Nat := l.seg.val * 1048576 + l.off.val

end Sys2Proof
end

