-- ==== Sys2Proof/Syntax.lean ====
section
/-! DEFINITION. The commands: one constructor for every row of spec/opcode_table.json, with what the outside decides as operands. -/

namespace Sys2Proof

/-- The part of SETUP that a host write replaces (R174). -/
inductive SetupPart
  | whole (v : BitVec 64)
  | low (v : BitVec 32)
  | high (v : BitVec 32)
deriving DecidableEq, Repr

/-- What a flash write that was interrupted or failed leaves in the slot it was writing (R25, R26). -/
inductive SlotRemnant
  | blank
  | invalid
  /-- The check value was programmed correctly: the slot is valid and holds the new image. -/
  | programmed
deriving DecidableEq, Repr

/-- The result the Retirement Memory hands to the Migration Unit (R25). -/
inductive WriteOutcome
  | succeeded
  | failed (left : SlotRemnant)
deriving DecidableEq, Repr

/-- A host write to a register window: offset in the 4 KiB window, width in bytes, value (R174). -/
structure WindowWrite where
  offset : BitVec 12
  width : Nat
  value : BitVec 64
deriving DecidableEq, Repr

/-- The commands and events of the block, in the order of spec/opcode_table.json. -/
inductive Instr
  /-- `left`: what a Retirement Memory write in progress, if any, left in its slot (R26). -/
  | powerOnReset (left : SlotRemnant)
  /-- `answered`: the flash answered and both slots were read (R24). -/
  | retirementReadDone (answered : Bool)
  | setupWrite (p : PortId) (part : SetupPart)
  | enable (p : PortId)
  | disable (p : PortId)
  | reset (p : PortId)
  | submit (p : PortId) (v : BitVec 32)
  | consume (p : PortId) (v : BitVec 32)
  | registerWriteDiscarded (p : PortId) (w : WindowWrite)
  /-- `delivered`: how many of the port's posted writes had reached host memory (R106). -/
  | linkDown (p : PortId) (delivered : Nat)
  | linkUp (p : PortId)
  /-- `block`: the 64 bytes returned, byte 0 lowest, or none for a failed read (R108). -/
  | setupFetchDone (p : PortId) (block : Option (BitVec 512))
  | recordFetch (p : PortId)
  /-- `record`: the 64 bytes returned, byte 0 lowest, or none for a failed read (R112). -/
  | recordFetchDone (p : PortId) (record : Option (BitVec 512))
  | read (p : PortId)
  | write (p : PortId)
  | fill (p : PortId)
  | copy (p : PortId)
  | scan (p : PortId)
  | guardCheck (p : PortId)
  /-- `list`: the entries returned, 16 bytes each, or none for a failed read (R129). -/
  | scatterListReadDone (p : PortId) (slot : SlotId) (list : Option (List (BitVec 128)))
  /-- `words`: the words of the piece, or none for a failed read (R134, R136). -/
  | hostDataReadDone (p : PortId) (slot : SlotId) (words : Option (List Word))
  | referenceIssue (p : PortId)
  | grant (b : Bank)
  /-- `arbiterFirst`: the arbiter of the freed bank acts before the source acts on the result (R65, R68). -/
  | operationDone (b : Bank) (arbiterFirst : Bool)
  /-- The oldest report handed by bank `b` is taken (R35). -/
  | healthReport (b : Bank)
  | migrationStart
  | chunkLockHeld
  | retirementWriteDone (outcome : WriteOutcome)
  | pacingTick
  | acquire (p : PortId)
  | release (p : PortId)
  /-- The waiter is named by its port and context (R87). -/
  | waiterDeadlineExpiry (p : PortId) (ctx : CtxId)
  | lockRunningNotice (p : PortId)
  | lockDrainNotice (p : PortId)
  | lockFaultNotice (p : PortId)
  | lockResetNotice (p : PortId)
  | mapQuery
  | incidents
  | tune
  | relocate
  | maintCheckReadDone (returned : Bool)
  /-- `stale`: the report belongs to a record write outstanding at an earlier entry to RESETTING (R160). -/
  | completionWriteAccepted (p : PortId) (stale : Bool)
  | completionWriteRefused (p : PortId) (stale : Bool)
  | quietTimerExpiry (p : PortId)
  | drainEnd (p : PortId)
  | resetComplete (p : PortId)
  | bufferWrite
  /-- Bits 0 to 63 are data bits, bits 64 to 71 check bits (R4, R6). -/
  | bitInError (line : PLine) (word : Fin 8) (bit : Fin 72)
deriving DecidableEq, Repr

end Sys2Proof
end

