-- ==== Sys2Proof/WellFormed.lean ====
section
/-! DEFINITION. Which terms of `Instr` name an event that the outside can send. -/

namespace Sys2Proof

/-- A window write that R174 discards: a read-only or undefined offset, a width or alignment R174 does not take, or a
CONTROL write that names no single action (R105, R175). R174 names accesses narrower than 32 bits, of 32 and of 64 bits; that a
write of any other width is discarded too is the model's choice (notes/assumptions/45.md). -/
def WindowWrite.discarded (w : WindowWrite) : Bool :=
  let o := w.offset.toNat
  let action := w.value.toNat % 8
  !((w.width == 8 && o == 0x00)
    || (w.width == 4 && (o == 0x00 || o == 0x04 || o == 0x0C || o == 0x10))
    || (w.width == 4 && o == 0x08 && (action == 1 || action == 2 || action == 4)))

/-- A well-formed command. The other operands are held to their ranges by their types. That the outside sends window writes of 1,
2, 4 and 8 bytes alone is the model's choice (notes/assumptions/45.md); `exec` has a meaning for every width. -/
def Instr.wf : Instr → Bool
  | .registerWriteDiscarded _ w => w.discarded && (w.width == 1 || w.width == 2 || w.width == 4 || w.width == 8)
  | .scatterListReadDone _ _ (some l) => 1 ≤ l.length && l.length ≤ 64
  | .hostDataReadDone _ _ (some ws) => 1 ≤ ws.length && ws.length ≤ 8
  | _ => true

end Sys2Proof
end

