-- ==== Sys2Proof/Decode.lean ====
section
/-! DEFINITION. Reading commands from bits: the table gives no row bits, and a register write spells its command by its offset, width and value (R174, R175). -/

namespace Sys2Proof

/-- The command that a word spells by the bits of spec/opcode_table.json. No row of the table has bits, so no word
spells one (notes/assumptions/3.md). -/
def decodeTableWord (_nbits _w : Nat) : Option Instr := none

/-- The command that a host write to the window of port `p` is (R174, R175); one of a width R174 does not name is discarded
(notes/assumptions/45.md). -/
def decodeWindowWrite (p : PortId) (w : WindowWrite) : Instr :=
  if w.width = 8 ∧ w.offset = 0x000#12 then .setupWrite p (.whole w.value)
  else if w.width = 4 ∧ w.offset = 0x000#12 then .setupWrite p (.low (w.value.setWidth 32))
  else if w.width = 4 ∧ w.offset = 0x004#12 then .setupWrite p (.high (w.value.setWidth 32))
  else if w.width = 4 ∧ w.offset = 0x008#12 then
    match w.value.extractLsb' 0 3 with
    | 1#3 => .enable p
    | 2#3 => .disable p
    | 4#3 => .reset p
    | _ => .registerWriteDiscarded p w
  else if w.width = 4 ∧ w.offset = 0x00C#12 then .submit p (w.value.setWidth 32)
  else if w.width = 4 ∧ w.offset = 0x010#12 then .consume p (w.value.setWidth 32)
  else .registerWriteDiscarded p w

end Sys2Proof
end

