-- ==== Sys2Proof/Config.lean ====
section
/-! DEFINITION. What the manual leaves open: constants without a body, so that no proof can rest on their value. -/

namespace Sys2Proof.Config

/-- FREE VALUE (notes/assumptions/6.md). The 72 stored bits of a word that nothing has written since power-on reset
number `epoch`: "the contents of every word of the store are undefined" (R16). The low 64 bits are the data bits, the
high 8 bits the difference between the stored check bits and the code of the data bits. -/
opaque undefinedBits : (epoch wordNumber : Nat) → BitVec 72

/-- FREE VALUE (notes/assumptions/5.md). The syndrome the part's check code gives to an error of one data bit. The
manual does not give the code; R5 and R6 limit it, and `Machine.columnOf` keeps to those limits. -/
opaque columnChoice : (dataBit : Nat) → BitVec 8

/-- FREE VALUE (notes/assumptions/5.md). The check bits the part's check code computes from 64 zero data bits. -/
opaque codeOfZero : BitVec 8

/-- FREE VALUE (notes/assumptions/10.md). The generation of an image that follows one of generation `g`, for the `g`
after which the range R23 gives ends: FFFFFFFEh and FFFFFFFFh. -/
opaque generationAfterLast : (g : BitVec 32) → BitVec 32

/-- FREE VALUE (notes/assumptions/18.md). A port takes the notice of the Incident List in the event that gives it, and not
later: for the notice of number `n` given to port `port` since power-on reset number `epoch`. -/
opaque noticeTakenAtOnce : (epoch port n : Nat) → Bool

/-- FREE VALUE (notes/assumptions/18.md). With notices of the Incident List waiting at both ports, port 0 takes its oldest
first, when the two ports have taken `n` since power-on reset number `epoch`. -/
opaque portZeroTakesFirst : (epoch n : Nat) → Bool

end Sys2Proof.Config
end

