-- ==== Sys2Proof/Machine/Blocks.lean ====
section
/-! DEFINITION. The types of the state each block holds, in the order of the manual's chapters. Plain data. -/

namespace Sys2Proof.Machine

/-! ## The Store Array (chapter 1) -/

/-- A stored word (R4): 64 data bits and 8 check bits, the check bits held as their difference from the code of the data
bits, which is the syndrome of R5 (notes/assumptions/4.md). -/
structure StoredWord where
  data : Word
  diff : BitVec 8
deriving DecidableEq, Repr

/-- The stored words that have been written since power-on, by word number, strictly rising. -/
abbrev Memory := List (Nat × StoredWord)

/-- The outcome of decoding one word (R5). -/
inductive WordOutcome
  | clean
  | corrected
  | poisoned
  | uncorrectable
deriving DecidableEq, Repr

/-- What a read hands back for one word: outcome and data delivered (R5, R7). -/
structure WordResult where
  outcome : WordOutcome
  data : Word
deriving DecidableEq, Repr

/-- The result of a read of one line, one entry per word (R7). -/
abbrev LineResult := Vector WordResult 8

/-- The operands of a WRITE_LINE (R11). Bit w of a mask stands for word w. -/
structure WriteOperand where
  mask : BitVec 8
  data : Vector Word 8
  poison : BitVec 8
deriving DecidableEq, Repr

/-- A line operation (section 1.3). -/
inductive LineOp
  | readLine
  | writeLine (w : WriteOperand)
  | scrubLine
  | initLine
deriving DecidableEq, Repr

/-- The queue that issued a reference: T0, T1, M or S (R59). -/
inductive Source
  | host (p : PortId)
  | migration
  | scrub
deriving DecidableEq, Repr

/-- One entry of a health report (R8): a word found CORRECTED, or UNCORRECTABLE. -/
structure Finding where
  word : Fin 8
  uncorrectable : Bool
deriving DecidableEq, Repr

/-- A health report (R8). `scrubbed`: the operation was SCRUB_LINE, else READ_LINE. -/
structure HealthReport where
  line : PLine
  source : Source
  scrubbed : Bool
  findings : List Finding
deriving DecidableEq, Repr

/-! ## The Segment Map Unit (chapter 2) -/

inductive SegState
  | mapped
  | queued
  | migrating
  | atRisk
deriving DecidableEq, Repr

/-- One entry of the map (R18). -/
structure MapEntry where
  phys : PhysSeg
  state : SegState
  again : Bool
deriving DecidableEq, Repr

inductive Role
  | mapped
  | spare
  | reserved
  | retired
deriving DecidableEq, Repr

/-- One entry of the physical segment table (R19). -/
structure PhysEntry where
  role : Role
  logical : Option LogSeg
  counter : Nat
deriving DecidableEq, Repr

/-- The state of the Segment Map Unit (chapter 2, head table). -/
structure SegMap where
  map : Vector MapEntry 512
  phys : Vector PhysEntry 520
  spares : List PhysSeg
  retired : List PhysSeg
  queue : List LogSeg
  threshold : Nat
deriving DecidableEq, Repr

/-- The cause of an offer (R31). -/
inductive Cause
  | uncorrectable
  | threshold
  | relocateAgain
  | relocate
deriving DecidableEq, Repr

/-- The answer to a RELOCATE offer (R39). -/
inductive OfferAnswer
  | already
  | queued
  | noSpare
deriving DecidableEq, Repr

/-! ## The Retirement Memory (section 2.3) -/

/-- An image as its slot holds it (R23). `checkOk`: the check value matches the other fields. R23 names no function for the
32-bit check, so the model keeps whether it matches in place of its value (notes/assumptions/39.md). -/
structure Image where
  generation : BitVec 32
  entries : List Nat
  checkOk : Bool
deriving DecidableEq, Repr

inductive SlotImage
  | blank
  | image (i : Image)
deriving DecidableEq, Repr

inductive SlotNo
  | slot0
  | slot1
deriving DecidableEq, Repr

/-- The Retirement Memory (R23 to R26): two slots, the current slot and its generation, the power-on read in progress,
and the image of a write in progress. -/
structure RetMem where
  slot0 : SlotImage
  slot1 : SlotImage
  current : Option SlotNo
  generation : BitVec 32
  reading : Bool
  writing : Option Image
deriving DecidableEq, Repr

/-! ## The Migration Unit (chapter 3) -/

inductive MigState
  | idle
  | stepping
  | copying
  | recording
deriving DecidableEq, Repr

inductive LockStatus
  | none
  | closing
  | held
deriving DecidableEq, Repr

/-- Migrating segment, source and destination: present or absent together (R40). -/
structure Job where
  seg : LogSeg
  source : PhysSeg
  dest : PhysSeg
deriving DecidableEq, Repr

/-- The held-over set, a subset of T0, T1 and S (R46). -/
structure HeldOver where
  t0 : Bool
  t1 : Bool
  s : Bool
deriving DecidableEq, Repr

inductive CopyStep
  | read
  | write
deriving DecidableEq, Repr

/-- The state of the Migration Unit (chapter 3, head table), with what it keeps besides: `kept` is a line of the chunk and the
result of its READ_LINE, while its WRITE_LINE waits for the one before it to leave queue M (notes/assumptions/40.md). -/
structure Migration where
  state : MigState
  job : Option Job
  watermark : Nat
  lock : LockStatus
  heldOver : HeldOver
  copyLine : Nat
  copyStep : CopyStep
  kept : Option (Nat × LineResult)
deriving DecidableEq, Repr

/-! ## The Bank Scheduler (chapter 4) -/

inductive Pass
  | sweep
  | patrol
deriving DecidableEq, Repr

/-- The origin of a reference, returned with its result (R60). -/
inductive Origin
  | transfer (ctx : CtxId) (line : Nat)
  | copy (chunk line : Nat) (step : CopyStep)
  | scrub (pass : Pass)
deriving DecidableEq, Repr

/-- The line a reference names: logical for T0 and T1, physical for M and S (R60). -/
inductive RefLine
  | logical (l : LLine)
  | physical (l : PLine)
deriving DecidableEq, Repr

/-- A reference (R60). `granted` is none while WAITING and the resolved physical line when IN_PROGRESS. -/
structure Ref where
  origin : Origin
  line : RefLine
  op : LineOp
  granted : Option PLine
deriving DecidableEq, Repr

/-- The content of a BUSY bank record (R65). -/
structure BankOp where
  source : Source
  ref : Ref
  line : PLine
deriving DecidableEq, Repr

/-- The state of the Bank Scheduler (chapter 4, head table). Queues are oldest first. -/
structure Scheduler where
  t0 : List Ref
  t1 : List Ref
  m : List Ref
  s : List Ref
  banks : Vector (Option BankOp) 16
  turns : Vector PortId 16
deriving DecidableEq, Repr

/-! ## The Scrub Unit (chapter 5) -/

inductive StoreState
  | initializing
  | ready
deriving DecidableEq, Repr

/-- The scrub position: a line, or ENDED during SWEEP (R77). -/
inductive ScrubPos
  | at (l : PLine)
  | ended
deriving DecidableEq, Repr

/-- The state of the Scrub Unit (chapter 5, head table). -/
structure ScrubUnit where
  store : StoreState
  pass : Pass
  pos : ScrubPos
  rate : Nat
  credit : Nat
  outstanding : Nat
deriving DecidableEq, Repr

/-! ## The Lock Unit (chapter 6) -/

/-- A party that holds or waits for a lock: a (port, owner) pair (R86). -/
structure Party where
  port : PortId
  owner : Owner
deriving DecidableEq, Repr

/-- A lock's record less its waiter queue, which is the pool's entries for the lock (R86, R87). -/
structure LockRecord where
  holder : Option Party
  abandoned : Bool
deriving DecidableEq, Repr

/-- A waiter entry in use (R87). `due`: the time base has reached the deadline (R93). -/
structure Waiter where
  lock : LockId
  party : Party
  ctx : CtxId
  deadline : Option Time
  due : Bool
deriving DecidableEq, Repr

/-- The port state the Lock Unit holds for a port, from the last notice it has taken (R88). -/
inductive LockView
  | off
  | running
  | draining
  | faulted
  | resetting
deriving DecidableEq, Repr

/-- The state of the Lock Unit (chapter 6, head table). The pool lists the entries in use in the order they were entered. -/
structure LockUnit where
  table : Vector LockRecord 256
  pool : List Waiter
  view0 : LockView
  view1 : LockView
deriving DecidableEq, Repr

/-- What a port hands to the Lock Unit: requests and notices (R88, R96). -/
inductive LockMail
  | acquire (ctx : CtxId) (lock : LockId) (owner : Owner) (timeout : Nat)
  | release (ctx : CtxId) (lock : LockId) (owner : Owner)
  | guardCheck (ctx : CtxId) (lock : LockId) (owner : Owner)
  | notice (view : LockView)
deriving DecidableEq, Repr

/-! ## Completions (chapters 8 to 11) -/

/-- The statuses of section 11.4. -/
inductive Status
  | ok
  | corrected
  | notFound
  | already
  | dataError
  | range
  | malformed
  | notHolder
  | timeout
  | lockBusy
  | waitLimit
  | duplicate
  | noSpare
  | hostFault
  | cancelled
deriving DecidableEq, Repr

/-- The results of a transfer (R144). -/
structure TransferResults where
  bytesDone : Nat
  corrected : Nat
  bad : Nat
  firstBad : Option Nat
  found : Option Nat
deriving DecidableEq, Repr

/-- The results of a completion by kind (R148). -/
inductive Results
  | none
  | transfer (r : TransferResults)
  /-- ABANDONED reported, holder seen (R92). -/
  | lock (abandoned : Bool) (holder : Option Party)
  | mapQuery (entries : Nat)
  | incidents (copied dropped : Nat)
  | tune (threshold rate : Nat)
deriving DecidableEq, Repr

/-- A completion as handed to the completion writer (R148). -/
structure Completion where
  ctx : CtxId
  tag : BitVec 16
  opcode : Byte
  notify : Bool
  status : Status
  results : Results
deriving DecidableEq, Repr

/-- What the Lock Unit hands back to a port: a completion (R92), entry as a waiter (R90), an end notice (R88, R98), or
the answer (R101) or the end notice (R88, R145) of a guard check. -/
inductive LockAnswer
  | completion (ctx : CtxId) (status : Status) (abandoned : Bool) (holder : Option Party)
  | waiting (ctx : CtxId)
  | endNotice (ctx : CtxId)
  | guardAnswer (ctx : CtxId) (held : Bool)
  | guardEnd (ctx : CtxId)
deriving DecidableEq, Repr

/-! ## Commands as taken (R115, R177) -/

/-- The host side of a READ or WRITE: a host address, or a scatter list's count and address (R126, R177). -/
inductive HostSide
  | direct (addr : Nat)
  | scatter (count addr : Nat)
deriving DecidableEq, Repr

/-- The fields of a taken record by kind (R117, R177), as its owner uses them; the context keeps the record whole beside them. `rejected`: a record that completed MALFORMED or RANGE. -/
inductive Command
  | rejected
  | nop
  | read (start len : Nat) (host : HostSide)
  | write (start len : Nat) (host : HostSide)
  | fill (start len : Nat) (pattern : Word)
  | copy (source len dest : Nat)
  | scan (start len : Nat) (pattern mask : Word)
  | acquire (lock : LockId) (owner : Owner) (timeout : Nat)
  | release (lock : LockId) (owner : Owner)
  | mapQuery (first count buffer : Nat)
  | incidents (maximum buffer : Nat)
  | tune (threshold rate : Option Nat)
  | relocate (seg : LogSeg)
deriving DecidableEq, Repr

/-- What taking decides of a record: answered at once with a status, or accepted for the work list (R115, R116). -/
inductive Verdict
  | answered (status : Status)
  | accepted (cmd : Command)
deriving DecidableEq, Repr

inductive CtxState
  | free
  | waiting
  | active
  | lockWait
  | relocateWait
  | done
deriving DecidableEq, Repr

/-- A context (R117). `place` is its place in taking order, `record` the 64 bytes of the record as taken, and `cmd` the fields
of its kind, decoded once at the taking. -/
structure Context where
  state : CtxState
  place : Nat
  record : BitVec 512
  cmd : Command
deriving DecidableEq, Repr

/-! ## The transfer unit (chapter 8) -/

inductive Phase
  | checking
  | listing
  | moving
  | finishing
deriving DecidableEq, Repr

/-- A cause that ends a transfer early (R127). -/
inductive Ending
  | hostFault
  | malformed
  | notHolder
deriving DecidableEq, Repr

/-- The decision of a SCAN (R139, R140). -/
inductive Decision
  | matched (offset : Nat)
  | bad (offset : Nat)
  | notFound
deriving DecidableEq, Repr

/-- A slot that holds a transfer (R127). `next` is the next line, for a COPY the next destination line, with
`nextSource` its next source line: its sequence position is their sum (R137). `entries` is the host side in entry order
(R130). `piece` and `gathered` are a WRITE's progress on its next line, `staged` that line's data (R134). `lines` holds
the staged source lines of a COPY (R137) and the held results of a SCAN (R139). -/
structure Transfer where
  ctx : CtxId
  cmd : Command
  phase : Phase
  next : Nat
  nextSource : Nat
  outstanding : Nat
  entries : List (Nat × Nat)
  piece : Nat
  gathered : List Word
  staged : Option (Vector Word 8)
  lines : List (Nat × LineResult)
  frontier : Nat
  decision : Option Decision
  corrected : Nat
  bad : Nat
  firstBad : Option Nat
  ending : Option Ending
deriving DecidableEq, Repr

/-- A host read outstanding for a slot: the scatter list, or one piece of host data (R127). -/
inductive SlotRead
  | list (addr count : Nat)
  | data (addr words : Nat)
deriving DecidableEq, Repr

/-! ## The host port (chapters 7 and 9) -/

inductive PortState
  | off
  | setup
  | running
  | draining
  | faulted
  | resetting
deriving DecidableEq, Repr

inductive FaultCode
  | none
  | setupInvalid
  | setupFetchError
  | tailInvalid
  | headOverrun
  | fetchError
  | postError
deriving DecidableEq, Repr

inductive Hold
  | clear
  | paused
deriving DecidableEq, Repr

/-- The setup values adopted from the setup block (R108). -/
structure SetupValues where
  sqBase : Nat
  sqEntries : Nat
  cqBase : Nat
  cqEntries : Nat
  msgAddr : BitVec 64
  msgData : BitVec 32
  msgEnable : Bool
  coalesce : Nat
  quiet : Nat
  selector : Fin 4
deriving DecidableEq, Repr

/-- A RUNNING quiet timer (R152). `due`: the time base has reached the deadline (R153). -/
structure QuietTimer where
  deadline : Time
  due : Bool
deriving DecidableEq, Repr

/-- A posted write issued on the link: READ data words (R133), a maintenance buffer write (R163), a completion record
(R150), or a message (R157). -/
inductive LinkWrite
  | readData (addr : Nat) (words : List Word)
  | buffer (addr : Nat) (bytes : List Byte)
  | record (addr : Nat) (bytes : List Byte)
  | message (addr : BitVec 64) (data : BitVec 32)
deriving DecidableEq, Repr

/-- A record write outstanding (R150). `mark`: how many posted writes the link had been given, this one included. -/
structure RecordWrite where
  completion : Completion
  mark : Nat
deriving DecidableEq, Repr

/-- A notice of the Incident List to a port (R172). -/
inductive AlertNotice
  | nonEmpty
  | empty
deriving DecidableEq, Repr

/-- The state of one host port: its register window, intake, context table, transfer unit, completion writer, event
unit and link, what it has handed to the Lock Unit and the Maintenance Unit, and the notices of the
Incident List it has not yet taken (head tables of chapters 7 to 10, R172). `noticesTaken`, the model's own, counts those it
has taken. -/
structure HostPort where
  linkUp : Bool
  setupReg : BitVec 64
  state : PortState
  faultCode : FaultCode
  values : Option SetupValues
  setupRead : Option Nat
  sqHead : Nat
  sqTail : Nat
  cqHead : Nat
  unconsumed : Nat
  hold : Hold
  fetch : Option Nat
  contexts : Vector Context 64
  taken : Nat
  workList : List CtxId
  slots : Vector (Option Transfer) 4
  slotReads : Vector (Option SlotRead) 4
  lastIssuer : SlotId
  cqTail : Nat
  phase : Bool
  unannounced : Nat
  announced : Nat
  quietTimer : Option QuietTimer
  writeList : List Completion
  recordWrite : Option RecordWrite
  staleWrites : Nat
  faultCause : Bool
  alertCause : Bool
  doneCause : Bool
  notices : List AlertNotice
  noticesTaken : Nat
  sent : List LinkWrite
  sentSure : Nat
  lockMail : List LockMail
  maintQueue : List CtxId
deriving DecidableEq, Repr

/-! ## Maintenance Unit and Incident List (chapter 10) -/

/-- Why a running command was stopped (R164). -/
inductive Stop
  | fault
  | reset
deriving DecidableEq, Repr

/-- The progress of a running MAP_QUERY or INCIDENTS: the buffer writes of the snapshot still to issue with the address
of the next (R165), or n, the number issued and the buffer address (R173). -/
inductive MaintJob
  | mapQuery (count next : Nat) (remaining : List (List Byte))
  | incidents (n issued buffer : Nat)
deriving DecidableEq, Repr

/-- A check read outstanding (R163, R179): `bytes` bytes of host memory from `addr` on. `mark`: the number of posted writes
issued on the link before it. -/
structure CheckRead where
  addr : Nat
  bytes : Nat
  mark : Nat
deriving DecidableEq, Repr

/-- The running command (R161), with its check read while that is outstanding (R163). -/
structure Running where
  port : PortId
  ctx : CtxId
  job : MaintJob
  checkRead : Option CheckRead
  stop : Option Stop
deriving DecidableEq, Repr

structure MaintUnit where
  running : Option Running
  turn : PortId
deriving DecidableEq, Repr

inductive IncidentKind
  | threshold
  | uncorrectable
  | poisonCopied
  | migrated
  | noSpare
  | nvFault
deriving DecidableEq, Repr

inductive IncidentSource
  | host0
  | host1
  | migration
  | scrub
  | powerOn
deriving DecidableEq, Repr

/-- An incident as its appender gives it (R38, R56). -/
structure Incident where
  kind : IncidentKind
  source : IncidentSource
  logical : Option LogSeg
  physical : Option PhysSeg
  second : Option PhysSeg
  lineOffset : Option LineOff
deriving DecidableEq, Repr

/-- A stored incident record (R171). -/
structure IncidentRecord where
  seq : BitVec 16
  timestamp : Time
  incident : Incident
deriving DecidableEq, Repr

structure IncidentList where
  records : List IncidentRecord
  seq : BitVec 16
  dropped : Nat
deriving DecidableEq, Repr

end Sys2Proof.Machine
end

