-- ==== Sys2Proof/Machine/Tables.lean ====
section
/-! DEFINITION. Fixed tables, line numbers (R1 to R3) and little-endian bytes (R177): the plain arithmetic every block shares. -/

namespace Sys2Proof.Machine

/-- The table of `n` entries whose entry `i` is `f i`. -/
def tabulate {α : Type} (n : Nat) (f : Nat → α) : Vector α n :=
  ⟨⟨(List.range' 0 n).map f⟩, by simp⟩

/-- `f` applied to every entry of a table. -/
def mapTable {α β : Type} {n : Nat} (f : α → β) (v : Vector α n) : Vector β n :=
  ⟨⟨v.toList.map f⟩, by simp⟩

/-! ## Lines (R1 to R3) -/

/-- Lines in a segment. -/
def linesPerSegment : Nat := 1048576

/-- Bytes of the logical store. -/
def storeBytes : Nat := 34359738368

/-- The bank of a line: the line number modulo 16, the same in logical and in physical terms (R2, R3). -/
def bankOf (off : LineOff) : Bank := Fin.ofNat 16 off.val

/-- The chunk in segment (R1). -/
def chunkOf (off : LineOff) : Nat := off.val / 64

/-- The line in chunk (R1). -/
def lineInChunk (off : LineOff) : Nat := off.val % 64

/-- The logical line of a number: its segment and line in segment (R1). -/
def logicalLine (n : Nat) : LLine := ⟨Fin.ofNat 512 (n / 1048576), Fin.ofNat 1048576 n⟩

/-- The logical line that holds a logical byte address (R1). -/
def lineOfAddress (a : Nat) : LLine := logicalLine (a / 64)

/-- The word in line of a logical byte address (R1). -/
def wordInLine (a : Nat) : Nat := a / 8 % 8

/-- Line `k` of chunk `c` of a segment (R1, R48). -/
def chunkLine (c k : Nat) : LineOff := Fin.ofNat 1048576 (64 * c + k)

/-! ## Fields and bytes (R177) -/

/-- The field of `width` bits whose lowest-addressed byte is byte `byte` of a block, little-endian (R177). -/
def field {n : Nat} (r : BitVec n) (byte width : Nat) : BitVec width := r.extractLsb' (8 * byte) width

/-- The value of the field of `bytes` bytes at byte `byte`. -/
def fieldNat {n : Nat} (r : BitVec n) (byte bytes : Nat) : Nat := (field r byte (8 * bytes)).toNat

/-- Every byte from `first` up to, not including, `last` is zero: a reserved field (R177). -/
def reservedZero {n : Nat} (r : BitVec n) (first last : Nat) : Bool := fieldNat r first (last - first) == 0

/-- A value as `n` bytes, least significant first (R177). -/
def bytesOf : (n : Nat) → (v : Nat) → List Byte
  | 0, _ => []
  | n + 1, v => BitVec.ofNat 8 v :: bytesOf n (v / 256)

/-- A field whose value may be absent: absent is written with every bit set (R177). -/
def bytesOrAbsent (n : Nat) : Option Nat → List Byte
  | some v => bytesOf n v
  | none => List.replicate n 0xFF#8

/-- A field of eight 16-bit entries, the ones beyond the list written FFFFh (section 11.3). -/
def eightEntries (l : List Nat) : List Byte :=
  (List.range' 0 8).flatMap fun i => bytesOrAbsent 2 (l[i]?)

/-- The set bits of a predicate on the eight words of a line. -/
def mask8 (f : Nat → Bool) : BitVec 8 :=
  (List.range' 0 8).foldl (fun m w => if f w then m ||| BitVec.twoPow 8 w else m) 0#8

end Sys2Proof.Machine
end

