-- ==== Sys2Proof/Machine/MapBuild.lean ====
section
/-! DEFINITION. The power-on map build (R27) and the reading of the Retirement Memory's slots (R23, R24). -/

namespace Sys2Proof.Machine

/-- The physical segments not on the retired list, in ascending order (R27, step 2). -/
def nonRetired (retired : List PhysSeg) : List PhysSeg :=
  ((List.range' 0 520).map (Fin.ofNat 520)).filter fun p => !retired.contains p

/-- How many non-retired physical segments lie below `p`: its place in the pairing of R27, step 2. -/
def buildRank (retired : List PhysSeg) (p : PhysSeg) : Nat :=
  p.val - (retired.filter fun r => r.val < p.val).length

/-- The entry the build gives a physical segment (R27, steps 1 to 4). -/
def buildPhys (retired : List PhysSeg) (p : PhysSeg) : PhysEntry :=
  if retired.contains p then ⟨.retired, none, 0⟩
  else if buildRank retired p < 512 then ⟨.mapped, some (Fin.ofNat 512 (buildRank retired p)), 0⟩
  else ⟨.spare, none, 0⟩

/-- The power-on map build from the working retired list (R27). -/
def mapBuild (retired : List PhysSeg) : SegMap where
  map := tabulate 512 fun i => ⟨(nonRetired retired)[i]?.getD 0, .mapped, false⟩
  phys := tabulate 520 fun i => buildPhys retired (Fin.ofNat 520 i)
  spares := (nonRetired retired).drop 512
  retired := retired
  queue := []
  threshold := 64

/-- A slot's image is valid: its check value matches, its count is 0 to 8, its entries are distinct and 0 to 519 (R23). -/
def Image.valid (i : Image) : Bool :=
  i.checkOk && i.entries.length ≤ 8 && decide i.entries.Nodup && i.entries.all fun e => e < 520

/-- The image of a valid slot (R23). -/
def SlotImage.validImage : SlotImage → Option Image
  | .blank => none
  | .image i => if i.valid then some i else none

/-- What the power-on read finds (R24): the working retired list, the current slot with its generation, and whether
NV_FAULT is appended. -/
structure PowerOnRead where
  retired : List PhysSeg
  current : Option (SlotNo × BitVec 32)
  nvFault : Bool
deriving DecidableEq, Repr

/-- An image's entries as physical segments. -/
def Image.segments (i : Image) : List PhysSeg := i.entries.map (Fin.ofNat 520)

/-- The outcome of the power-on read of both slots (the table of R24). -/
def powerOnRead (answered : Bool) (slot0 slot1 : SlotImage) : PowerOnRead :=
  if answered then
    match slot0.validImage, slot1.validImage with
    | some a, some b =>
      if a.generation < b.generation then ⟨b.segments, some (.slot1, b.generation), false⟩
      else ⟨a.segments, some (.slot0, a.generation), false⟩
    | some a, none => ⟨a.segments, some (.slot0, a.generation), false⟩
    | none, some b => ⟨b.segments, some (.slot1, b.generation), false⟩
    | none, none => ⟨[], none, !(slot0 == .blank && slot1 == .blank)⟩
  else ⟨[], none, true⟩

end Sys2Proof.Machine
end

