-- ==== Sys2Proof/Machine/State.lean ====
section
/-! DEFINITION. The machine's whole state, its outcomes, and the state after reset. -/

namespace Sys2Proof.Machine

/-- The state of the part: the manual's blocks in the order of its chapters, the model's own `epoch` (the number of
power-on resets, which feeds the free value of undefined words), and the queue of commands that wait. -/
structure State where
  timeBase : Time
  epoch : Nat
  store : Memory
  reports : List HealthReport
  sched : Scheduler
  seg : SegMap
  mig : Migration
  ret : RetMem
  scrub : ScrubUnit
  locks : LockUnit
  maint : MaintUnit
  incidents : IncidentList
  port0 : HostPort
  port1 : HostPort
  pending : List Instr
deriving DecidableEq, Repr

/-- No command of this block stops it: the manual gives every row an effect (notes/assumptions/33.md). -/
inductive Fault
deriving DecidableEq, Repr

inductive Refusal
  /-- Raised by exec's arm of a command that has no meaning yet; no arm raises it. Safe. -/
  | notModelled (mnemonic : String)
deriving DecidableEq, Repr

/-- A FREE context. R117 gives it its state alone: that its place, its record and its fields are then zeros and `rejected`, after
a power-on reset and after a freeing, is the model's choice (notes/assumptions/42.md). -/
def Context.free : Context := ⟨.free, 0, 0, .rejected⟩

/-- A host port after power-on reset (head tables of chapters 7 to 10). -/
def HostPort.powerOn : HostPort where
  linkUp := true
  setupReg := 0
  state := .off
  faultCode := .none
  values := none
  setupRead := none
  sqHead := 0
  sqTail := 0
  cqHead := 0
  unconsumed := 0
  hold := .clear
  fetch := none
  contexts := Vector.replicate 64 Context.free
  taken := 0
  workList := []
  slots := Vector.replicate 4 none
  slotReads := Vector.replicate 4 none
  lastIssuer := 3
  cqTail := 0
  phase := true
  unannounced := 0
  announced := 0
  quietTimer := none
  writeList := []
  recordWrite := none
  staleWrites := 0
  faultCause := false
  alertCause := false
  doneCause := false
  notices := []
  noticesTaken := 0
  sent := []
  sentSure := 0
  lockMail := []
  maintQueue := []

/-- The machine right after power-on reset, the read of the Retirement Memory under way (R16, R24, R58, R75, R85, R103).
The map and the roles are those of an empty retired list until the build (notes/assumptions/8.md). -/
def State.reset : State where
  timeBase := 0
  epoch := 0
  store := []
  reports := []
  sched := ⟨[], [], [], [], Vector.replicate 16 none, Vector.replicate 16 .p0⟩
  seg := mapBuild []
  mig := ⟨.idle, none, 0, .none, ⟨false, false, false⟩, 0, .read, none⟩
  ret := ⟨.blank, .blank, none, 0, true, none⟩
  scrub := ⟨.initializing, .sweep, .at ⟨0, 0⟩, 256, 0, 0⟩
  locks := ⟨Vector.replicate 256 ⟨none, false⟩, [], .off, .off⟩
  maint := ⟨none, .p0⟩
  incidents := ⟨[], 0, 0⟩
  port0 := HostPort.powerOn
  port1 := HostPort.powerOn
  pending := []

/-- The port of a number. -/
def State.port (s : State) : PortId → HostPort
  | .p0 => s.port0
  | .p1 => s.port1

/-- The state with a port replaced. -/
def State.setPort (s : State) (p : PortId) (h : HostPort) : State :=
  match p with
  | .p0 => { s with port0 := h }
  | .p1 => { s with port1 := h }

/-- The state with a port changed by `f`. -/
def State.modPort (s : State) (p : PortId) (f : HostPort → HostPort) : State := s.setPort p (f (s.port p))

end Sys2Proof.Machine
end

