-- ==== Sys2Proof/Machine/Operands.lean ====
section
/-! DEFINITION. The layouts of chapter 11: reading submission records, setup blocks and scatter entries, and writing completion records, map reports and incident records (R115, R116, R177, R178). -/

namespace Sys2Proof.Machine

/-! ## Submission records -/

def recordOpcode (r : BitVec 512) : Byte := field r 0 8
def recordFlags (r : BitVec 512) : Byte := field r 1 8
def recordTag (r : BitVec 512) : BitVec 16 := field r 2 16

/-- Flag bits: bit 0 FENCE, bit 1 NOTIFY, bit 2 GUARD, bit 3 SCATTER (section 11.2). -/
def flagFence (flags : Byte) : Bool := flags.getLsbD 0
def flagNotify (flags : Byte) : Bool := flags.getLsbD 1
def flagGuard (flags : Byte) : Bool := flags.getLsbD 2
def flagScatter (flags : Byte) : Bool := flags.getLsbD 3

/-- Opcode, flags and tag of the record a context holds (R117). -/
def Context.opcode (x : Context) : Byte := recordOpcode x.record
def Context.flags (x : Context) : Byte := recordFlags x.record
def Context.tag (x : Context) : BitVec 16 := recordTag x.record

/-- The opcode is READ, WRITE, FILL, COPY or SCAN (section 11.4). -/
def isTransferOpcode (op : Byte) : Bool := 0x01#8 ≤ op && op ≤ 0x05#8

/-- The checks every record has beside its opcode and its reserved bytes: no undefined flag, GUARD on transfers only with
a lock number of 0 to 255, SCATTER on READ and WRITE only, guard fields zero without GUARD (R115, R177, R178). -/
def commonFieldsOk (r : BitVec 512) : Bool :=
  let flags := recordFlags r
  let op := recordOpcode r
  (flags.extractLsb' 4 4 == 0#4)
    && (!flagGuard flags || (isTransferOpcode op && fieldNat r 4 2 ≤ 255))
    && (flagGuard flags || reservedZero r 4 8)
    && (!flagScatter flags || op == 0x01#8 || op == 0x02#8)

/-- The guard lock and guard owner of a record that carries GUARD (section 11.2). -/
def recordGuard (r : BitVec 512) : Option (LockId × Owner) :=
  if flagGuard (recordFlags r) then some (Fin.ofNat 256 (fieldNat r 4 2), field r 6 16) else none

/-- The guard of the command in a context, if it carries GUARD (R117, R121). -/
def Context.guard (x : Context) : Option (LockId × Owner) := recordGuard x.record

/-- A store address is a multiple of 8, and the length a multiple of 8 from 8 to 16,777,216 (R115). -/
def lengthOk (len : Nat) : Bool := len % 8 == 0 && 8 ≤ len && len ≤ 16777216

/-- The host side of a READ or WRITE, if it passes R115. -/
def hostSideOf (r : BitVec 512) : Option HostSide :=
  let addr := fieldNat r 24 8
  let count := fieldNat r 20 2
  if addr % 8 = 0 then
    if flagScatter (recordFlags r) then
      if 1 ≤ count ∧ count ≤ 64 then some (.scatter count addr) else none
    else if count = 0 then some (.direct addr) else none
  else none

/-- Two ranges of one length share no word (R115). -/
def disjointRanges (a b len : Nat) : Bool := a + len ≤ b || b + len ≤ a

/-- `some c` where a check holds. -/
def checked (ok : Bool) (c : Command) : Option Command := if ok then some c else none

/-- The fields of a record by opcode, if it passes every check of R115 beside the common ones. -/
def fieldsOf (r : BitVec 512) : Option Command :=
  let start := fieldNat r 8 8
  let len := fieldNat r 16 4
  let other := fieldNat r 24 8
  match (recordOpcode r).toNat with
  | 0x00 => checked (reservedZero r 4 64) .nop
  | 0x01 =>
    match hostSideOf r with
    | some h => checked (start % 8 == 0 && lengthOk len && reservedZero r 22 24 && reservedZero r 32 64) (.read start len h)
    | none => none
  | 0x02 =>
    match hostSideOf r with
    | some h => checked (start % 8 == 0 && lengthOk len && reservedZero r 22 24 && reservedZero r 32 64) (.write start len h)
    | none => none
  | 0x03 => checked (start % 8 == 0 && lengthOk len && reservedZero r 20 24 && reservedZero r 32 64)
      (.fill start len (field r 24 64))
  | 0x04 => checked (start % 8 == 0 && other % 8 == 0 && lengthOk len && disjointRanges start other len
      && reservedZero r 20 24 && reservedZero r 32 64) (.copy start len other)
  | 0x05 => checked (start % 8 == 0 && lengthOk len && reservedZero r 20 24 && reservedZero r 40 64)
      (.scan start len (field r 24 64) (field r 32 64))
  | 0x10 => checked (fieldNat r 8 2 ≤ 255 && reservedZero r 14 64)
      (.acquire (Fin.ofNat 256 (fieldNat r 8 2)) (field r 10 16) (fieldNat r 12 2))
  | 0x11 => checked (fieldNat r 8 2 ≤ 255 && reservedZero r 12 64)
      (.release (Fin.ofNat 256 (fieldNat r 8 2)) (field r 10 16))
  | 0x20 => checked (fieldNat r 8 2 ≤ 511 && 1 ≤ fieldNat r 10 2 && fieldNat r 10 2 ≤ 512
      && fieldNat r 8 2 + fieldNat r 10 2 ≤ 512 && fieldNat r 16 8 % 8 == 0
      && fieldNat r 10 2 * 16 + 64 ≤ fieldNat r 12 4 && reservedZero r 24 64)
      (.mapQuery (fieldNat r 8 2) (fieldNat r 10 2) (fieldNat r 16 8))
  | 0x21 => checked (1 ≤ fieldNat r 8 2 && fieldNat r 8 2 ≤ 16 && fieldNat r 16 8 % 8 == 0
      && reservedZero r 10 16 && reservedZero r 24 64) (.incidents (fieldNat r 8 2) (fieldNat r 16 8))
  | 0x22 =>
    let which : BitVec 16 := field r 8 16
    let threshold := if which.getLsbD 0 then some (fieldNat r 10 2) else none
    let rate := if which.getLsbD 1 then some (fieldNat r 12 2) else none
    checked (which.extractLsb' 2 14 == 0#14 && which != 0#16 && threshold != some 0
      && rate.all (fun x => x ≤ 4096) && reservedZero r 14 64) (.tune threshold rate)
  | 0x23 => checked (fieldNat r 8 2 ≤ 511 && reservedZero r 10 64) (.relocate (Fin.ofNat 512 (fieldNat r 8 2)))
  | _ => none

/-- The store ranges of a command, each a start address and a length (R126). -/
def storeRanges : Command → List (Nat × Nat)
  | .read a n _ => [(a, n)]
  | .write a n _ => [(a, n)]
  | .fill a n _ => [(a, n)]
  | .copy a n d => [(a, n), (d, n)]
  | .scan a n _ _ => [(a, n)]
  | _ => []

/-- A store range passes the store (R116). -/
def passesStore (r : Nat × Nat) : Bool := storeBytes < r.1 + r.2

/-- What taking decides of a record: MALFORMED by R115, then RANGE by R116, a NOP answered OK, else accepted. -/
def verdictOf (r : BitVec 512) : Verdict :=
  if commonFieldsOk r then
    match fieldsOf r with
    | none => .answered .malformed
    | some .nop => .answered .ok
    | some c => if (storeRanges c).any passesStore then .answered .range else .accepted c
  else .answered .malformed

/-! ## Setup blocks and scatter entries -/

/-- A ring size: a power of two, 16 to 4,096 (R108). -/
def ringSizeOk (n : Nat) : Bool := [16, 32, 64, 128, 256, 512, 1024, 2048, 4096].contains n

/-- The setup values of a block whose fields are all in range (the tables of R108 and section 11.2). -/
def setupValuesOf (b : BitVec 512) : Option SetupValues :=
  let sqBase := fieldNat b 0 8
  let cqBase := fieldNat b 8 8
  let sqEntries := fieldNat b 16 2
  let cqEntries := fieldNat b 18 2
  let msgAddr : BitVec 64 := field b 20 64
  let enable := fieldNat b 32 1
  let coalesce := fieldNat b 33 1
  let selector := fieldNat b 36 1
  if sqBase % 64 = 0 ∧ cqBase % 32 = 0 ∧ ringSizeOk sqEntries = true ∧ ringSizeOk cqEntries = true ∧ enable ≤ 1
      ∧ (enable = 1 → msgAddr.toNat % 4 = 0) ∧ 1 ≤ coalesce ∧ selector ≤ 3 ∧ reservedZero b 37 64 = true then
    some ⟨sqBase, sqEntries, cqBase, cqEntries, msgAddr, field b 28 32, enable == 1, coalesce, fieldNat b 34 2,
      Fin.ofNat 4 selector⟩
  else none

/-- A scatter entry's host address and length (section 11.2). -/
def scatterEntryOf (e : BitVec 128) : Nat × Nat := (fieldNat e 0 8, fieldNat e 8 4)

/-- A scatter entry passes: host address a multiple of 8, length a multiple of 8 and at least 8, reserved bytes zero
(R129). -/
def scatterEntryOk (e : BitVec 128) : Bool :=
  fieldNat e 0 8 % 8 == 0 && fieldNat e 8 4 % 8 == 0 && 8 ≤ fieldNat e 8 4 && reservedZero e 12 16

/-! ## Codes -/

/-- Status codes (section 11.4). -/
def Status.code : Status → Nat
  | .ok => 0
  | .corrected => 1
  | .notFound => 2
  | .already => 3
  | .dataError => 8
  | .range => 9
  | .malformed => 10
  | .notHolder => 11
  | .timeout => 12
  | .lockBusy => 13
  | .waitLimit => 14
  | .duplicate => 15
  | .noSpare => 16
  | .hostFault => 17
  | .cancelled => 18

def portNumber : PortId → Nat
  | .p0 => 0
  | .p1 => 1

/-- Map states as written in a report entry (section 11.3). -/
def SegState.code : SegState → Nat
  | .mapped => 0
  | .queued => 1
  | .migrating => 2
  | .atRisk => 3

def MigState.code : MigState → Nat
  | .idle => 0
  | .stepping => 1
  | .copying => 2
  | .recording => 3

def LockStatus.code : LockStatus → Nat
  | .none => 0
  | .closing => 1
  | .held => 2

def IncidentKind.code : IncidentKind → Nat
  | .threshold => 1
  | .uncorrectable => 2
  | .poisonCopied => 3
  | .migrated => 4
  | .noSpare => 5
  | .nvFault => 6

def IncidentSource.code : IncidentSource → Nat
  | .host0 => 0
  | .host1 => 1
  | .migration => 2
  | .scrub => 3
  | .powerOn => 4

def boolNat (b : Bool) : Nat := if b then 1 else 0

/-! ## Records the part writes -/

/-- Bytes filled up with zeros to a length (R177). -/
def padded (n : Nat) (l : List Byte) : List Byte := l ++ List.replicate (n - l.length) 0#8

/-- The results bytes of a completion record, bytes 8 to 31 (section 11.2). -/
def resultBytes : Results → List Byte
  | .none => []
  | .transfer r => bytesOf 4 r.bytesDone ++ bytesOf 4 r.corrected ++ bytesOf 4 r.bad ++ bytesOrAbsent 4 r.firstBad
      ++ bytesOrAbsent 4 r.found
  | .lock _ (some h) => [1#8, BitVec.ofNat 8 (portNumber h.port)] ++ bytesOf 2 h.owner.toNat
  | .lock _ none => []
  | .mapQuery n => bytesOf 4 n
  | .incidents copied dropped => bytesOf 1 copied ++ bytesOf 1 dropped
  | .tune threshold rate => bytesOf 2 threshold ++ bytesOf 2 rate

/-- ABANDONED is reported by the completion (R91, R92). -/
def Results.abandoned : Results → Bool
  | .lock a _ => a
  | _ => false

/-- The 32-byte completion record (section 11.2). A record completed MALFORMED or RANGE has no results. -/
def recordBytes (c : Completion) (phase : Bool) (sqHead : Nat) : List Byte :=
  padded 32 (bytesOf 1 c.opcode.toNat ++ bytesOf 1 c.status.code ++ bytesOf 2 c.tag.toNat ++ bytesOf 2 sqHead
    ++ bytesOf 1 c.ctx.val ++ bytesOf 1 (boolNat phase + 2 * boolNat c.results.abandoned)
    ++ (if c.status = .malformed ∨ c.status = .range then [] else resultBytes c.results))

/-- The 16-byte map report entry of a logical segment (R165, section 11.3). -/
def mapEntryBytes (g : SegMap) (dest : Option PhysSeg) (l : LogSeg) : List Byte :=
  let e := g.map[l]
  let d := if e.state = .migrating then dest else none
  padded 16 (bytesOf 2 l.val ++ bytesOf 2 e.phys.val ++ bytesOf 1 e.state.code ++ bytesOf 1 (boolNat e.again)
    ++ bytesOf 2 (g.phys[e.phys]).counter ++ bytesOrAbsent 2 (d.map (·.val))
    ++ bytesOf 2 ((d.map fun x => (g.phys[x]).counter).getD 0))

/-- The count of the image in the current slot, 0 when there is none (R166). -/
def recordedCount (r : RetMem) : Nat :=
  match r.current with
  | none => 0
  | some n =>
    match (match n with | .slot0 => r.slot0 | .slot1 => r.slot1) with
    | .blank => 0
    | .image i => i.entries.length

/-- The 64-byte trailer of a MAP_QUERY (R166, section 11.3). -/
def trailerBytes (g : SegMap) (m : Migration) (r : RetMem) (rate : Nat) : List Byte :=
  bytesOf 1 (g.spares.length + 16 * g.retired.length) ++ bytesOf 1 (recordedCount r + 16 * g.queue.length)
    ++ bytesOf 1 (m.state.code + 16 * m.lock.code) ++ [0#8] ++ bytesOf 2 m.watermark
    ++ bytesOrAbsent 2 (m.job.map (·.seg.val)) ++ bytesOrAbsent 2 (m.job.map (·.source.val))
    ++ bytesOrAbsent 2 (m.job.map (·.dest.val)) ++ bytesOf 2 g.threshold ++ bytesOf 2 rate
    ++ eightEntries (g.spares.map (·.val)) ++ eightEntries (g.retired.map (·.val)) ++ eightEntries (g.queue.map (·.val))

/-- The 32-byte incident record (R171, section 11.3). -/
def incidentBytes (r : IncidentRecord) : List Byte :=
  bytesOf 2 r.seq.toNat ++ bytesOf 1 r.incident.kind.code ++ bytesOf 1 r.incident.source.code
    ++ bytesOf 6 r.timestamp.toNat ++ bytesOf 2 0 ++ bytesOrAbsent 2 (r.incident.logical.map (·.val))
    ++ bytesOrAbsent 2 (r.incident.physical.map (·.val)) ++ bytesOrAbsent 2 (r.incident.second.map (·.val))
    ++ bytesOf 2 0 ++ bytesOrAbsent 4 (r.incident.lineOffset.map (·.val)) ++ bytesOf 8 0

end Sys2Proof.Machine
end

