-- ==== Sys2Proof/Machine/Flags.lean ====
section
/-! DEFINITION. What the registers show: STATUS, EVENTS, the hold reason, and every read of a register window (R111, R125, R158, R174, R176). -/

namespace Sys2Proof.Machine

/-- Contexts in use: every state except FREE (R117). -/
def HostPort.inUse (p : HostPort) : Nat := p.contexts.toList.countP fun c => c.state != .free

def PortState.code : PortState → Nat
  | .off => 0
  | .setup => 1
  | .running => 2
  | .draining => 3
  | .faulted => 4
  | .resetting => 5

def FaultCode.code : FaultCode → Nat
  | .none => 0
  | .setupInvalid => 1
  | .setupFetchError => 2
  | .tailInvalid => 3
  | .headOverrun => 4
  | .fetchError => 5
  | .postError => 6

def StoreState.code : StoreState → Nat
  | .initializing => 0
  | .ready => 1

/-- Contexts in use plus the unconsumed count is less than CQ entries (R111, condition 3). -/
def HostPort.hasRoom (p : HostPort) : Bool :=
  match p.values with
  | some v => p.inUse + p.unconsumed < v.cqEntries
  | none => false

/-- The hold reason's code: 0 NONE, 1 STORE_INIT, 2 MARK, 3 CQ_ROOM, the first of R111's conditions 1 to 3 that fails,
shown in RUNNING alone. -/
def holdReason (st : StoreState) (p : HostPort) : Nat :=
  if p.state ≠ .running then 0
  else if st ≠ .ready then 1
  else if p.hold ≠ .clear then 2
  else if p.hasRoom then 0
  else 3

/-- STATUS (R125, R176). The revision is 1h. -/
def statusWord (st : StoreState) (p : HostPort) : BitVec 32 :=
  BitVec.ofNat 4 1 ++ BitVec.ofNat 12 p.sqHead ++ BitVec.ofNat 7 p.inUse ++ BitVec.ofNat 1 st.code
    ++ BitVec.ofNat 2 (holdReason st p) ++ BitVec.ofNat 3 p.faultCode.code ++ BitVec.ofNat 3 p.state.code

/-- The highest pending cause: FAULT 1, ALERT 2, DONE 3, NONE 0 (R158). -/
def highestCause (p : HostPort) : Nat :=
  if p.faultCause then 1 else if p.alertCause then 2 else if p.doneCause then 3 else 0

/-- EVENTS (R158, R176). -/
def eventsWord (p : HostPort) : BitVec 32 :=
  BitVec.ofNat 26 0 ++ BitVec.ofNat 2 (highestCause p) ++ BitVec.ofNat 1 0 ++ BitVec.ofBool p.doneCause
    ++ BitVec.ofBool p.alertCause ++ BitVec.ofBool p.faultCause

/-- What a read of a register window returns: offset, width in bytes (R174). A read changes nothing. One of a width R174 does not
name returns 0, the model's choice (notes/assumptions/45.md). -/
def readWindow (st : StoreState) (p : HostPort) (offset : BitVec 12) (width : Nat) : BitVec 64 :=
  if width = 8 ∧ offset = 0x000#12 then p.setupReg
  else if width = 4 ∧ offset = 0x000#12 then (p.setupReg.extractLsb' 0 32).setWidth 64
  else if width = 4 ∧ offset = 0x004#12 then (p.setupReg.extractLsb' 32 32).setWidth 64
  else if width = 4 ∧ offset = 0x014#12 then (eventsWord p).setWidth 64
  else if width = 4 ∧ offset = 0x018#12 then (statusWord st p).setWidth 64
  else 0

end Sys2Proof.Machine
end

