-- ==== Sys2Proof/Machine/PortOps.lean ====
section
/-! DEFINITION. The shared operations of one host port: link, contexts, work list, completion writer, announces, and entry to FAULTED and RESETTING (chapters 7 and 9). Each changes that port alone. -/

namespace Sys2Proof.Machine

/-! ## Link and messages -/

/-- The port is RUNNING or DRAINING. -/
def HostPort.inService (p : HostPort) : Bool := p.state == .running || p.state == .draining

/-- A posted write is issued on the link; the link keeps posted writes in order (R133). -/
def send (w : LinkWrite) (p : HostPort) : HostPort := { p with sent := p.sent ++ [w] }

/-- A message, written when message enable is 1 (R157). -/
def sendMessage (p : HostPort) : HostPort :=
  match p.values with
  | some v => if v.msgEnable then send (.message v.msgAddr v.msgData) p else p
  | none => p

/-- Every posted write up to `mark` is known to have reached host memory (R133, R163). -/
def confirmSent (mark : Nat) (p : HostPort) : HostPort := { p with sentSure := max p.sentSure mark }

/-! ## Contexts and intake marks -/

/-- Contexts in use at which intake pauses (R113). -/
def pauseMark (selector : Fin 4) : Nat :=
  match selector.val with
  | 0 => 16
  | 1 => 32
  | 2 => 48
  | _ => 64

/-- Contexts in use at which intake resumes (R113). -/
def resumeMark (selector : Fin 4) : Nat :=
  match selector.val with
  | 0 => 8
  | 1 => 16
  | 2 => 32
  | _ => 48

/-- Context `c` changed by `f`. -/
def setContext (c : CtxId) (f : Context → Context) (p : HostPort) : HostPort :=
  { p with contexts := p.contexts.set c (f p.contexts[c]) }

/-- Context `c` enters a state. -/
def setCtxState (c : CtxId) (st : CtxState) (p : HostPort) : HostPort :=
  setContext c (fun x => { x with state := st }) p

/-- The intake hold state after a freeing: CLEAR once contexts in use come down to the resume mark (R113). -/
def holdAfterFreeing (p : HostPort) : Hold :=
  match p.values with
  | some v => if p.hold = .paused ∧ p.inUse = resumeMark v.selector then .clear else p.hold
  | none => p.hold

/-- A context in use is freed (R118). -/
def freeContext (c : CtxId) (p : HostPort) : HostPort :=
  if (p.contexts[c]).state = .free then p
  else
    let q := { p with contexts := p.contexts.set c Context.free }
    { q with hold := holdAfterFreeing q }

/-- Several contexts are freed, one after another. -/
def freeContexts (cs : List CtxId) (p : HostPort) : HostPort := cs.foldl (fun p c => freeContext c p) p

/-! ## Work list -/

/-- FENCE: every command taken before context `c` has completed, its context DONE or FREE (R120). -/
def fenceOk (p : HostPort) (c : CtxId) : Bool :=
  !flagFence (p.contexts[c]).flags
    || p.contexts.toList.all fun d => d.state == .free || d.state == .done || !(d.place < (p.contexts[c]).place)

/-- The head of the work list can run, but for the slot a transfer needs (R119). -/
def HostPort.canRun (p : HostPort) (c : CtxId) : Bool := p.inService && fenceOk p c

/-- The head leaves the work list and is ACTIVE (R117, R119). -/
def activateHead (c : CtxId) (p : HostPort) : HostPort := setCtxState c .active { p with workList := p.workList.tail }

/-- A request or notice is handed to the Lock Unit (R88, R96). -/
def mailLock (m : LockMail) (p : HostPort) : HostPort := { p with lockMail := p.lockMail ++ [m] }

/-- The work list activates its head, and then each new head, while the head can run (R119, R121). A transfer at the
head is activated by its own row (notes/assumptions/21.md). -/
def advanceBy : Nat → HostPort → HostPort
  | 0, p => p
  | n + 1, p =>
    match p.workList with
    | [] => p
    | c :: _ =>
      if p.canRun c then
        match (p.contexts[c]).cmd with
        | .acquire k o t => advanceBy n (mailLock (.acquire c k o t) (activateHead c p))
        | .release k o => advanceBy n (mailLock (.release c k o) (activateHead c p))
        | .mapQuery .. | .incidents .. | .tune .. | .relocate .. =>
          let q := activateHead c p
          advanceBy n { q with maintQueue := q.maintQueue ++ [c] }
        | _ => p
      else p

/-- The test of the work list at an event that may let its head run (R119). -/
def advance (p : HostPort) : HostPort := advanceBy p.workList.length p

/-! ## Completion writer -/

/-- The writer issues the record write at the front of its list (R150). -/
def issueRecord (p : HostPort) : HostPort :=
  if p.inService && p.recordWrite.isNone then
    match p.writeList, p.values with
    | c :: _, some v =>
      let q := send (.record (v.cqBase + p.cqTail * 32) (recordBytes c p.phase p.sqHead)) p
      { q with recordWrite := some ⟨c, q.sent.length⟩ }
    | _, _ => p
  else p

/-- The completion of the command in a context (R148). -/
def completionOf (p : HostPort) (c : CtxId) (status : Status) (results : Results) : Completion :=
  let x := p.contexts[c]
  ⟨c, x.tag, x.opcode, flagNotify x.flags, status, results⟩

/-- A completion is handed to the writer, which takes it by the port state (R149); the work list is then tested (R119). -/
def handCompletion (c : CtxId) (status : Status) (results : Results) (p : HostPort) : HostPort :=
  if p.inService then
    let q := setCtxState c .done { p with writeList := p.writeList ++ [completionOf p c status results] }
    advance (issueRecord q)
  else if p.state = .faulted then freeContext c p
  else p

/-- An end notice for a context: a port in FAULTED frees it (R88, R98, R164); a port in RESETTING discards it (R124). -/
def endNotice (c : CtxId) (p : HostPort) : HostPort := if p.state = .faulted then freeContext c p else p

/-- An announce (R154). -/
def announce (p : HostPort) : HostPort :=
  let q := { p with unannounced := 0, quietTimer := none, announced := p.unconsumed }
  if p.unconsumed = 0 then q else sendMessage { q with doneCause := true }

/-- The tests made for a record just written, on the counts it has left (R152). -/
def announceTests (now : Time) (notify : Bool) (p : HostPort) : HostPort :=
  match p.values with
  | none => p
  | some v =>
    if notify || p.unannounced == v.coalesce then announce p
    else if p.unannounced = 1 ∧ v.quiet ≠ 0 then
      { p with quietTimer := some ⟨now + BitVec.ofNat 48 v.quiet, false⟩ }
    else p

/-- A record is in the ring: the tail advances, the phase inverts at the wrap, the unconsumed count rises and the context
is freed (R150, steps 2 and 3). -/
def recordInRing (c : CtxId) (p : HostPort) : HostPort :=
  match p.values with
  | none => p
  | some v =>
    let wraps := p.cqTail + 1 == v.cqEntries
    freeContext c
      { p with
        cqTail := if wraps then 0 else p.cqTail + 1
        phase := if wraps then !p.phase else p.phase
        unconsumed := p.unconsumed + 1 }

/-! ## Entry to FAULTED and RESETTING -/

/-- The completions still in the write list with no record write outstanding for them. -/
def unissued (p : HostPort) : List Completion :=
  if p.recordWrite.isSome then p.writeList.tail else p.writeList

/-- Entry to FAULTED (R123, R159): the fault code and the FAULT cause are set, the WAITING contexts, the discarded
completions and the commands waiting at the Maintenance Unit (R164) are freed, the fault notice goes to the Lock Unit, and
the FAULT message is written if the port was RUNNING or DRAINING (R156). -/
def enterFaulted (code : FaultCode) (p : HostPort) : HostPort :=
  let q := freeContexts (p.workList ++ (unissued p).map Completion.ctx ++ p.maintQueue)
    { p with
      state := .faulted
      faultCode := code
      faultCause := true
      quietTimer := none
      workList := []
      writeList := []
      maintQueue := []
      lockMail := p.lockMail ++ [.notice .faulted] }
  if p.inService then sendMessage q else q

/-- Entry to RESETTING (R124, R160): every context and slot is freed, the hold state, the DONE and FAULT causes, the quiet
timer and the counts of announces are cleared, and the reset notices are handed. -/
def enterResetting (p : HostPort) : HostPort :=
  { p with
    state := .resetting
    contexts := Vector.replicate 64 Context.free
    workList := []
    slots := Vector.replicate 4 none
    lastIssuer := 3
    hold := .clear
    lockMail := p.lockMail ++ [.notice .resetting]
    maintQueue := []
    doneCause := false
    faultCause := false
    writeList := []
    recordWrite := none
    staleWrites := if p.recordWrite.isSome then p.staleWrites + 1 else p.staleWrites
    quietTimer := none
    unannounced := 0
    announced := 0 }

/-- No host read of the port is outstanding, but for a maintenance command's check read (R124). -/
def HostPort.readsEnded (p : HostPort) : Bool :=
  p.setupRead.isNone && p.fetch.isNone && p.slotReads.toList.all Option.isNone

end Sys2Proof.Machine
end

