-- ==== Sys2Proof/Machine/SegOps.lean ====
section
/-! DEFINITION. The Segment Map Unit's claims (chapter 2) and the Incident List (section 10.5). A claim gives the unit's state after it and the incidents it appends, in order. -/

namespace Sys2Proof.Machine

/-! ## Incidents (R170, R172) -/

/-- The notice *non-empty* is taken: ALERT is pending in every port state, with a message in RUNNING and DRAINING (R156, R157,
R172). -/
def alertNonEmpty (p : HostPort) : HostPort :=
  let q := { p with alertCause := true }
  if q.inService then sendMessage q else q

/-- The notice *empty* is taken (R156, R172). -/
def alertEmpty (p : HostPort) : HostPort := { p with alertCause := false }

/-- A port takes the oldest notice of the Incident List that waits at it (R172). -/
def takeAlert (p : HostPort) : HostPort :=
  match p.notices with
  | [] => p
  | n :: rest =>
    let q := { p with notices := rest, noticesTaken := p.noticesTaken + 1 }
    match n with
    | .nonEmpty => alertNonEmpty q
    | .empty => alertEmpty q

/-- A port takes every notice that waits at it, in order. -/
def takeAlerts (p : HostPort) : HostPort := p.notices.foldl (fun q _ => takeAlert q) p

/-- A notice is given to a port, which takes what waits at it in the same event or lets it wait (R172).
Nothing of the port but the four fields named depends on which. -/
def giveAlert (atOnce : Bool) (n : AlertNotice) (p : HostPort) : HostPort :=
  let waits := { p with notices := p.notices ++ [n] }
  let q := if atOnce then takeAlerts waits else waits
  { p with notices := q.notices, noticesTaken := q.noticesTaken, alertCause := q.alertCause, sent := q.sent }

/-- The port takes the next notice given to it in the event that gives it: a free value (notes/assumptions/18.md). -/
def takesAtOnce (s : State) (p : PortId) : Bool :=
  let h := s.port p
  Config.noticeTakenAtOnce s.epoch (match p with | .p0 => 0 | .p1 => 1) (h.noticesTaken + h.notices.length)

/-- A notice is given to both ports, which take it separately (R172). -/
def notifyPorts (atOnce : PortId → Bool) (n : AlertNotice) (s : State) : State :=
  (s.modPort .p0 (giveAlert (atOnce .p0) n)).modPort .p1 (giveAlert (atOnce .p1) n)

/-- An append to the Incident List, with its notices (R170, R172). -/
def appendTelling (atOnce : PortId → Bool) (i : Incident) (s : State) : State :=
  let l := s.incidents
  if l.records.length < 16 then
    let s1 := { s with incidents := { l with records := l.records ++ [⟨l.seq, s.timeBase, i⟩], seq := l.seq + 1 } }
    if l.records = [] then notifyPorts atOnce .nonEmpty s1 else s1
  else { s with incidents := { l with seq := l.seq + 1, dropped := min 255 (l.dropped + 1) } }

/-- An append at which each port takes the notice at once or later (R170, R172). -/
def appendIncident (i : Incident) (s : State) : State := appendTelling (takesAtOnce s) i s

/-- While the block idles, one port takes its oldest notice: the one at which notices wait, or of both either, a free value
(R172; notes/assumptions/18.md). -/
def takeWaitingAlert (s : State) : State :=
  match s.port0.notices, s.port1.notices with
  | [], [] => s
  | _ :: _, [] => s.modPort .p0 takeAlert
  | [], _ :: _ => s.modPort .p1 takeAlert
  | _ :: _, _ :: _ =>
    if Config.portZeroTakesFirst s.epoch (s.port0.noticesTaken + s.port1.noticesTaken) then s.modPort .p0 takeAlert
    else s.modPort .p1 takeAlert

/-- Several appends, in order. -/
def appendIncidents (is : List Incident) (s : State) : State := is.foldl (fun s i => appendIncident i s) s

/-- The incident source of a queue (R38). -/
def incidentSource : Source → IncidentSource
  | .host .p0 => .host0
  | .host .p1 => .host1
  | .migration => .migration
  | .scrub => .scrub

/-! ## The join rule (R31) -/

/-- Logical segment `l` enters a state. -/
def setSegState (l : LogSeg) (st : SegState) (g : SegMap) : SegMap :=
  { g with map := g.map.set l { g.map[l] with state := st } }

/-- RELOCATE-again is set or cleared. -/
def setAgain (l : LogSeg) (b : Bool) (g : SegMap) : SegMap := { g with map := g.map.set l { g.map[l] with again := b } }

/-- A physical segment's entry is replaced. -/
def setPhys (p : PhysSeg) (e : PhysEntry) (g : SegMap) : SegMap := { g with phys := g.phys.set p e }

/-- The join rule's test and insertion: accepted only while the queue is shorter than the spare list (R31). -/
def join (l : LogSeg) (front : Bool) (g : SegMap) : Option SegMap :=
  if g.queue.length < g.spares.length then
    some (setSegState l .queued { g with queue := if front then l :: g.queue else g.queue ++ [l] })
  else none

/-- An offer with cause UNCORRECTABLE, THRESHOLD or RELOCATE_AGAIN: refused, the segment is AT_RISK and `noSpare` is
appended (R31). -/
def offer (l : LogSeg) (front : Bool) (noSpare : Incident) (g : SegMap) : SegMap × List Incident :=
  match join l front g with
  | some g' => (g', [])
  | none => (setSegState l .atRisk g, [noSpare])

/-! ## Taking a health report (R35 to R38) -/

/-- The report has an UNCORRECTABLE entry. -/
def HealthReport.hasUncorrectable (r : HealthReport) : Bool := r.findings.any (·.uncorrectable)

/-- How many CORRECTED entries the report has. -/
def HealthReport.correctedCount (r : HealthReport) : Nat := r.findings.countP fun f => !f.uncorrectable

/-- An incident of a report, of a kind, on a logical segment (R38). -/
def reportIncident (r : HealthReport) (kind : IncidentKind) (l : Option LogSeg) : Incident :=
  ⟨kind, incidentSource r.source, l, some r.line.seg, none, some r.line.off⟩

/-- The uncorrectable action, taken once for a report (R36). -/
def uncorrectableAction (r : HealthReport) (g : SegMap) : SegMap × List Incident :=
  let e := g.phys[r.line.seg]
  if r.source = .migration then (g, [reportIncident r .poisonCopied e.logical])
  else
    let first := reportIncident r .uncorrectable e.logical
    match e.role, e.logical with
    | .mapped, some l =>
      if (g.map[l]).state = .mapped then
        let x := offer l true (reportIncident r .noSpare (some l)) g
        (x.1, first :: x.2)
      else (g, [first])
    | .reserved, some l => (setAgain l true g, [first])
    | _, _ => (g, [first])

/-- The report's CORRECTED entries are counted on its physical segment, staying at 65535 once there (R28). -/
def countCorrected (r : HealthReport) (g : SegMap) : SegMap :=
  let e := g.phys[r.line.seg]
  setPhys r.line.seg { e with counter := min 65535 (e.counter + r.correctedCount) } g

/-- The threshold check (R37). -/
def thresholdCheck (r : HealthReport) (g : SegMap) : SegMap × List Incident :=
  let e := g.phys[r.line.seg]
  match e.role, e.logical with
  | .mapped, some l =>
    if (g.map[l]).state = .mapped ∧ g.threshold ≤ e.counter then
      let x := offer l false (reportIncident r .noSpare (some l)) g
      (x.1, reportIncident r .threshold (some l) :: x.2)
    else (g, [])
  | _, _ => (g, [])

/-- A health report taken whole, in the order of R35. -/
def takeReport (r : HealthReport) (g : SegMap) : SegMap × List Incident :=
  let a := if r.hasUncorrectable then uncorrectableAction r g else (g, [])
  let b := countCorrected r a.1
  let c := if r.correctedCount ≠ 0 then thresholdCheck r b else (b, [])
  (c.1, a.2 ++ c.2)

/-! ## The start and switch claims and the RELOCATE offer (R33, R34, R39) -/

/-- The start claim: the queue head and the lowest spare leave together (R33). -/
def startClaim (g : SegMap) : Option (SegMap × Job) :=
  match g.queue, g.spares with
  | l :: ls, d :: ds =>
    let e := g.map[l]
    some
      (setPhys d { g.phys[d] with role := .reserved, logical := some l }
        { g with queue := ls, spares := ds, map := g.map.set l { e with state := .migrating, again := false } },
        ⟨l, e.phys, d⟩)
  | _, _ => none

/-- The switch claim (R34). -/
def switchClaim (j : Job) (g : SegMap) : SegMap × List Incident :=
  let again := (g.map[j.seg]).again
  let g1 : SegMap :=
    { g with
      map := g.map.set j.seg ⟨j.dest, .mapped, false⟩
      phys := (g.phys.set j.dest { g.phys[j.dest] with role := .mapped, logical := some j.seg }).set j.source
        { g.phys[j.source] with role := .retired, logical := some j.seg }
      retired := g.retired ++ [j.source] }
  if again then offer j.seg false ⟨.noSpare, .migration, some j.seg, some j.dest, none, none⟩ g1 else (g1, [])

/-- The answer to a RELOCATE offer, by the segment's state (R39). -/
def relocateOffer (l : LogSeg) (g : SegMap) : SegMap × OfferAnswer :=
  match (g.map[l]).state with
  | .queued => (g, .already)
  | .migrating => (g, .already)
  | .atRisk => (g, .noSpare)
  | .mapped =>
    match join l false g with
    | some g' => (g', .queued)
    | none => (g, .noSpare)

end Sys2Proof.Machine
end

