-- ==== Sys2Proof/Machine/StoreSide.lean ====
section
/-! DEFINITION. The store side's shared operations: resolution, the chunk lock and the held-over set (chapter 3), the reference queues and bank arbiters (chapter 4), and the issue of scrub references (chapter 5). -/

namespace Sys2Proof.Machine

/-! ## Queues (R59 to R61) -/

/-- The queue of a source, oldest first (R59). -/
def Scheduler.queue (q : Scheduler) : Source → List Ref
  | .host .p0 => q.t0
  | .host .p1 => q.t1
  | .migration => q.m
  | .scrub => q.s

/-- A source's queue is replaced. -/
def Scheduler.setQueue (q : Scheduler) (src : Source) (l : List Ref) : Scheduler :=
  match src with
  | .host .p0 => { q with t0 := l }
  | .host .p1 => { q with t1 := l }
  | .migration => { q with m := l }
  | .scrub => { q with s := l }

/-- The reference is WAITING (R59). -/
def Ref.waiting (r : Ref) : Bool := r.granted.isNone

/-- The head of a queue: its oldest WAITING reference (R59). -/
def headOf (q : List Ref) : Option Ref := q.find? Ref.waiting

/-- The line in segment a reference names, the same before and after resolution (R2). -/
def Ref.off (r : Ref) : LineOff :=
  match r.line with
  | .logical l => l.off
  | .physical l => l.off

/-- The bank of a reference (R62). -/
def Ref.bank (r : Ref) : Bank := bankOf r.off

/-- A source issues a reference at the back of its queue, WAITING (R61). -/
def issueRef (src : Source) (r : Ref) (s : State) : State :=
  { s with sched := s.sched.setQueue src (s.sched.queue src ++ [r]) }

/-! ## Resolution and the chunk lock (R44, R45) -/

/-- A migration is in progress: from the start claim to the switch claim (section 3.1). -/
def Migration.inProgress (m : Migration) : Bool := m.state == .stepping || m.state == .copying

/-- The physical line a logical line resolves to at this moment (R44). -/
def resolve (g : SegMap) (m : Migration) (l : LLine) : PLine :=
  match m.job with
  | some j =>
    if m.inProgress && l.seg == j.seg then
      if chunkOf l.off < m.watermark then ⟨j.dest, l.off⟩ else ⟨j.source, l.off⟩
    else ⟨(g.map[l.seg]).phys, l.off⟩
  | none => ⟨(g.map[l.seg]).phys, l.off⟩

/-- The physical line a reference would resolve to (R62). -/
def resolvedLine (g : SegMap) (m : Migration) (r : Ref) : PLine :=
  match r.line with
  | .logical l => resolve g m l
  | .physical l => l

/-- A physical line is one of the 128 lines of the watermark chunk, in the source or in the destination (R45). -/
def inWatermarkChunk (m : Migration) (l : PLine) : Bool :=
  match m.job with
  | some j => (l.seg == j.source || l.seg == j.dest) && chunkOf l.off == m.watermark
  | none => false

/-- A physical line is one of the 128 lines of the chunk lock while its status is CLOSING or HELD (R45, R63). -/
def lockedLine (m : Migration) (l : PLine) : Bool := m.lock != .none && inWatermarkChunk m l

/-! ## The held-over set (R46) -/

/-- A head names a line of chunk `c` of the migrating segment: a logical line for T0 and T1, a physical line in source or
destination for S (R46). -/
def namesChunk (j : Job) (c : Nat) (r : Ref) : Bool :=
  match r.line with
  | .logical l => l.seg == j.seg && chunkOf l.off == c
  | .physical l => (l.seg == j.source || l.seg == j.dest) && chunkOf l.off == c

/-- The held-over set formed at the end of the copy of chunk `c` (R46). -/
def formHeldOver (q : Scheduler) (j : Job) (c : Nat) : HeldOver :=
  let held (src : Source) : Bool := (headOf (q.queue src)).any (namesChunk j c)
  ⟨held (.host .p0), held (.host .p1), held .scrub⟩

def HeldOver.isEmpty (h : HeldOver) : Bool := !h.t0 && !h.t1 && !h.s

/-- A queue leaves the held-over set (R46). -/
def HeldOver.leave (h : HeldOver) : Source → HeldOver
  | .host .p0 => { h with t0 := false }
  | .host .p1 => { h with t1 := false }
  | .scrub => { h with s := false }
  | .migration => h

/-- In STEPPING, the lock becomes CLOSING on the watermark chunk when the held-over set is empty (R46). -/
def closeIfFree (m : Migration) : Migration :=
  if m.state = .stepping ∧ m.lock = .none ∧ m.heldOver.isEmpty = true then { m with lock := .closing } else m

/-- A queue's held-over head is granted or leaves without a grant (R46). -/
def leaveHeldOver (src : Source) (m : Migration) : Migration := closeIfFree { m with heldOver := m.heldOver.leave src }

/-! ## Scrub references (R77, R79, R80) -/

/-- The segment's role is RETIRED. -/
def isRetired (g : SegMap) (p : PhysSeg) : Bool := (g.phys[p]).role == .retired

/-- The lowest-numbered physical segment whose role is not RETIRED (R77). -/
def lowestServed (g : SegMap) : PhysSeg :=
  (((List.range' 0 520).map (Fin.ofNat 520)).find? fun p => !isRetired g p).getD 0

/-- The next non-RETIRED segment above `p` (R77). -/
def nextAbove (g : SegMap) (p : PhysSeg) : Option PhysSeg :=
  ((List.range' (p.val + 1) (519 - p.val)).map (Fin.ofNat 520)).find? fun q => !isRetired g q

/-- The next segment in the walk order, 519 being followed by 0, whose role is not RETIRED (R79). -/
def nextServed (g : SegMap) (p : PhysSeg) : PhysSeg :=
  (((List.range' (p.val + 1) 520).map (Fin.ofNat 520)).find? fun q => !isRetired g q).getD p

/-- The scrub position after a line is issued in the sweep (R77). -/
def afterSweepLine (g : SegMap) (l : PLine) : ScrubPos :=
  if l.off.val = 1048575 then
    match nextAbove g l.seg with
    | some q => .at ⟨q, 0⟩
    | none => .ended
  else .at ⟨l.seg, l.off + 1⟩

/-- The scrub position after a line is issued in the patrol: segment 519 is followed by 0 (R79). -/
def afterPatrolLine (l : PLine) : ScrubPos :=
  if l.off.val = 1048575 then .at ⟨l.seg + 1, 0⟩ else .at ⟨l.seg, l.off + 1⟩

/-- The line the patrol issues at a position: a RETIRED segment is left for the next one in service (R79). -/
def patrolLine (g : SegMap) (l : PLine) : PLine := if isRetired g l.seg then ⟨nextServed g l.seg, 0⟩ else l

/-- A scrub reference. -/
def scrubRef (pass : Pass) (l : PLine) : Ref :=
  ⟨.scrub pass, .physical l, (match pass with | .sweep => .initLine | .patrol => .scrubLine), none⟩

/-- One issue of the Scrub Unit, if it may issue: with fewer than 4 references in queue S, in SWEEP while the position is
not ENDED (R77), in PATROL while the credit is 1,000 or more (R80). -/
def scrubIssueOne (g : SegMap) (x : List Ref × ScrubUnit) : List Ref × ScrubUnit :=
  let (q, u) := x
  if q.length < 4 then
    match u.pass, u.pos with
    | .sweep, .at l =>
      (q ++ [scrubRef .sweep l], { u with pos := afterSweepLine g l, outstanding := u.outstanding + 1 })
    | .patrol, .at l =>
      if 1000 ≤ u.credit then
        (q ++ [scrubRef .patrol (patrolLine g l)],
          { u with pos := afterPatrolLine (patrolLine g l), credit := u.credit - 1000 })
      else x
    | _, .ended => x
  else x

/-- The Scrub Unit issues while it may: at most four references, the depth of queue S. -/
def scrubIssue (s : State) : State :=
  let one := scrubIssueOne s.seg
  let x := one (one (one (one (s.sched.s, s.scrub))))
  { s with sched := { s.sched with s := x.1 }, scrub := x.2 }

/-! ## The bank arbiter (R63 to R67, R70) -/

/-- The head of a source targets bank `b` and meets the conditions of its source, the bank being IDLE (R63). -/
def eligible (s : State) (b : Bank) (src : Source) : Bool :=
  match headOf (s.sched.queue src) with
  | none => false
  | some r =>
    r.bank == b &&
      let l := resolvedLine s.seg s.mig r
      match src with
      | .migration => true
      | .host _ => !lockedLine s.mig l
      | .scrub => !lockedLine s.mig l && !isRetired s.seg l.seg

/-- The order in which the arbiter of bank `b` chooses (R65). -/
def arbiterOrder (s : State) (b : Bank) : List Source :=
  let turn := s.sched.turns[b]
  [.migration] ++ (if s.mig.heldOver.s then [.scrub] else []) ++ [.host turn, .host turn.other, .scrub]

/-- The head of S is discarded while it targets bank `b` with a line of a RETIRED segment (R70). -/
def dropRetired (g : SegMap) (b : Bank) : List Ref → List Ref
  | [] => []
  | r :: rs =>
    if !r.waiting then r :: dropRetired g b rs
    else
      match r.line with
      | .physical l => if r.bank = b ∧ isRetired g l.seg = true then dropRetired g b rs else r :: rs
      | .logical _ => r :: rs

/-- The queue with its head IN_PROGRESS on a line (R67). -/
def grantHead (l : PLine) : List Ref → List Ref
  | [] => []
  | r :: rs => if r.waiting then { r with granted := some l } :: rs else r :: grantHead l rs

/-- The host turn of a bank after a grant (R66). -/
def turnAfter (src : Source) (turn : PortId) : PortId :=
  match src with
  | .host p => p.other
  | _ => turn

/-- A grant of bank `b` to the head of a source (R66, R67), which leaves the held-over set (R46). -/
def grantTo (b : Bank) (src : Source) (s : State) : State :=
  match headOf (s.sched.queue src) with
  | none => s
  | some r =>
    let l := resolvedLine s.seg s.mig r
    let q := s.sched.setQueue src (grantHead l (s.sched.queue src))
    { s with
      sched :=
        { q with
          banks := q.banks.set b (some ⟨src, { r with granted := some l }, l⟩)
          turns := q.turns.set b (turnAfter src q.turns[b]) }
      mig := leaveHeldOver src s.mig }

/-- The S heads that target bank `b` in a RETIRED segment are discarded (R70). -/
def discardScrub (b : Bank) (s : State) : State :=
  let q := dropRetired s.seg b s.sched.s
  if q.length = s.sched.s.length then s
  else { s with sched := { s.sched with s := q }, mig := leaveHeldOver .scrub s.mig }

/-- The arbiter of bank `b` acts (R65): discards, one grant, and then, if a discard freed a place in queue S, the Scrub
Unit's test for issue (R80). A BUSY bank makes no grant. -/
def arbiterAct (b : Bank) (s : State) : State :=
  if (s.sched.banks[b]).isSome then s
  else
    let s1 := discardScrub b s
    let s2 :=
      match (arbiterOrder s1 b).find? (eligible s1 b) with
      | some src => grantTo b src s1
      | none => s1
    if s1.sched.s.length = s.sched.s.length then s2 else scrubIssue s2

/-! ## Entry of a port to RESETTING (R73) -/

/-- Every WAITING reference of the port's queue is removed; a held-over head leaves the held-over set (R46, R73). -/
def purgeQueue (p : PortId) (s : State) : State :=
  { s with
    sched := s.sched.setQueue (.host p) ((s.sched.queue (.host p)).filter fun r => !r.waiting)
    mig := leaveHeldOver (.host p) s.mig }

/-! ## The chunk copy (R48 to R50) -/

/-- The READ_LINE of line `k` of the chunk being copied (R48). -/
def copyReadRef (j : Job) (c k : Nat) : Ref :=
  ⟨.copy c k .read, .physical ⟨j.source, chunkLine c k⟩, .readLine, none⟩

/-- The WRITE_LINE of line `k`: all 8 words, the data delivered, and a poison mask naming each word UNCORRECTABLE or
POISONED (R48, R49). -/
def copyWriteRef (j : Job) (c k : Nat) (r : LineResult) : Ref :=
  ⟨.copy c k .write, .physical ⟨j.dest, chunkLine c k⟩,
    .writeLine
      ⟨0xFF#8, mapTable WordResult.data r,
        mask8 fun w =>
          match (r[Fin.ofNat 8 w]).outcome with
          | .uncorrectable => true
          | .poisoned => true
          | _ => false⟩,
    none⟩

end Sys2Proof.Machine
end

