-- ==== Sys2Proof/Machine/MaintOps.lean ====
section
/-! DEFINITION. The Maintenance Unit's shared operations (chapter 10), and the entries of a port to FAULTED and RESETTING with all that they hand to the shared units (R123, R124, R164). -/

namespace Sys2Proof.Machine

/-! ## Notices of a port (R164) -/

/-- No command runs. -/
def endRunning (s : State) : State := { s with maint := { s.maint with running := none } }

/-- The Maintenance Unit takes the fault or reset notice of port `p` for its running command: with no check read
outstanding the command ends at once, for a fault with an end notice; else its check read is awaited (R164). -/
def stopRunning (p : PortId) (why : Stop) (s : State) : State :=
  match s.maint.running with
  | none => s
  | some r =>
    if r.port = p then
      if r.checkRead.isSome then { s with maint := { s.maint with running := some { r with stop := some why } } }
      else
        match why with
        | .fault => (endRunning s).modPort p (endNotice r.ctx)
        | .reset => endRunning s
    else s

/-- A port enters FAULTED, and the Maintenance Unit takes the notice in the same step (R123, R164; notes/assumptions/41.md). -/
def faultPort (p : PortId) (code : FaultCode) (s : State) : State :=
  stopRunning p .fault (s.modPort p (enterFaulted code))

/-- A port enters RESETTING, and the Bank Scheduler and the Maintenance Unit take the notice in the same
step (R124, R73, R164; notes/assumptions/41.md). -/
def resetPort (p : PortId) (s : State) : State :=
  stopRunning p .reset (purgeQueue p (s.modPort p enterResetting))

/-- A check read of port `p` is outstanding (R163). -/
def checkReadOf (p : PortId) (s : State) : Bool :=
  match s.maint.running with
  | some r => r.port == p && r.checkRead.isSome
  | none => false

/-! ## The arbiter (R162) -/

/-- The command the arbiter starts: port and context. -/
def nextCommand (s : State) : Option (PortId × CtxId) :=
  if s.maint.running.isSome then none
  else
    match s.port0.maintQueue, s.port1.maintQueue with
    | [], [] => none
    | c :: _, [] => some (.p0, c)
    | [], c :: _ => some (.p1, c)
    | a :: _, b :: _ =>
      match s.maint.turn with
      | .p0 => some (.p0, a)
      | .p1 => some (.p1, b)

/-- The command of the context the arbiter starts. -/
def nextMaint (s : State) : Option (PortId × CtxId × Command) :=
  (nextCommand s).map fun x => (x.1, x.2, ((s.port x.1).contexts[x.2]).cmd)

/-- The oldest command of port `p` leaves its queue, and the turn passes to the other port (R162). -/
def startCommand (p : PortId) (s : State) : State :=
  let s1 := s.modPort p fun h => { h with maintQueue := h.maintQueue.tail }
  { s1 with maint := { s1.maint with turn := p.other } }

/-- A started MAP_QUERY or INCIDENTS runs. -/
def setRunning (p : PortId) (c : CtxId) (job : MaintJob) (s : State) : State :=
  { s with maint := { s.maint with running := some ⟨p, c, job, none, none⟩ } }

/-! ## MAP_QUERY and INCIDENTS (R165, R173) -/

/-- The snapshot of a MAP_QUERY as its buffer writes: one entry a logical segment and the trailer (R165, R166;
notes/assumptions/24.md). -/
def snapshot (first count : Nat) (s : State) : List (List Byte) :=
  ((List.range' first count).map fun l => mapEntryBytes s.seg (s.mig.job.map Job.dest) (Fin.ofNat 512 l))
    ++ [trailerBytes s.seg s.mig s.ret s.scrub.rate]

/-- The number INCIDENTS copies (R173). -/
def incidentsToCopy (maximum : Nat) (s : State) : Nat := min maximum s.incidents.records.length

/-- An INCIDENTS reads the dropped count, sets it to 0 and hands its completion (R173). -/
def completeIncidents (p : PortId) (c : CtxId) (st : Status) (n : Nat) (s : State) : State :=
  let s1 := { s with incidents := { s.incidents with dropped := 0 } }
  s1.modPort p (handCompletion c st (.incidents n s.incidents.dropped))

/-- The number of posted writes port `p` has given its link. -/
def postedWrites (p : PortId) (s : State) : Nat := (s.port p).sent.length

/-- The host address after the last byte a command has written: a MAP_QUERY's next write, or 32 bytes a record (R163,
R173). -/
def MaintJob.writtenEnd : MaintJob → Nat
  | .mapQuery _ next _ => next
  | .incidents _ issued buffer => buffer + 32 * issued

/-- The check read of a command: the last 8 bytes it wrote (R163, R179). -/
def checkReadOfJob (job : MaintJob) (mark : Nat) : CheckRead := ⟨job.writtenEnd - 8, 8, mark⟩

/-- The progress of the running command after a buffer write; the last one is followed by the check read (R163). -/
def wroteBuffer (r : Running) (job : MaintJob) (last : Bool) (s : State) : State :=
  { s with
    maint :=
      { s.maint with
        running :=
          some { r with job := job, checkRead := if last then some (checkReadOfJob job (postedWrites r.port s)) else none } } }

/-- The oldest incident record is removed, with the notice *empty* when none is left (R172, R173). -/
def removeIncident (s : State) : State :=
  let s1 := { s with incidents := { s.incidents with records := s.incidents.records.tail } }
  if s1.incidents.records = [] then notifyPorts (takesAtOnce s1) .empty s1 else s1

/-- The next buffer write of a running command (R163, R165, R173). -/
def issueBufferWrite (r : Running) (s : State) : State :=
  match r.job with
  | .mapQuery count next (b :: rest) =>
    wroteBuffer r (.mapQuery count (next + b.length) rest) rest.isEmpty (s.modPort r.port (send (.buffer next b)))
  | .incidents n issued buffer =>
    match s.incidents.records with
    | x :: _ =>
      if issued < n then
        removeIncident
          (wroteBuffer r (.incidents n (issued + 1) buffer) (issued + 1 == n)
            (s.modPort r.port (send (.buffer (buffer + 32 * issued) (incidentBytes x)))))
      else s
    | [] => s
  | .mapQuery _ _ [] => s

/-- The completion of a command whose check read has ended (R163). -/
def completeMaint (r : Running) (st : Status) (s : State) : State :=
  match r.job with
  | .mapQuery count _ _ => s.modPort r.port (handCompletion r.ctx st (.mapQuery count))
  | .incidents n _ _ => completeIncidents r.port r.ctx st n s

/-- The check read of the running command ends (R163, R164). -/
def endCheckRead (r : Running) (mark : Nat) (returned : Bool) (s : State) : State :=
  let s1 := if returned then s.modPort r.port (confirmSent mark) else s
  let s2 := endRunning s1
  match r.stop with
  | none => completeMaint r (if returned then .ok else .hostFault) s2
  | some .fault => s2.modPort r.port (endNotice r.ctx)
  | some .reset => s2

/-! ## TUNE (R81, R167) -/

/-- The new threshold, if named, reaches the Segment Map Unit. -/
def tuneThreshold (v : Option Nat) (s : State) : State :=
  match v with
  | some t => { s with seg := { s.seg with threshold := t } }
  | none => s

/-- The new scrub rate, if named, reaches the Scrub Unit; a rate of 0 sets the credit to 0 (R81). -/
def tuneRate (v : Option Nat) (s : State) : State :=
  match v with
  | some r => { s with scrub := { s.scrub with rate := r, credit := if r = 0 then 0 else s.scrub.credit } }
  | none => s

end Sys2Proof.Machine
end

