-- ==== Sys2Proof/Machine/CheckCode.lean ====
section
/-! DEFINITION. The check code (R4 to R6): syndromes, encoding and decoding of one word. -/

namespace Sys2Proof.Machine

/-- The poison syndrome: all eight syndrome bits set (R5). -/
def poisonSyndrome : BitVec 8 := 0xFF#8

/-- The syndrome of an error of one bit under a code whose data bit i has syndrome `c i`: bits 0 to 63 are the data
bits, bits 64 to 71 the check bits, whose inversion shows in their own syndrome bit (R5). -/
def syndromeOf (c : Nat → BitVec 8) (bit : Nat) : BitVec 8 :=
  if bit < 64 then c bit else BitVec.twoPow 8 (bit - 64)

/-- The 72 single-bit syndromes (R5). -/
def singles (c : Nat → BitVec 8) : List (BitVec 8) := (List.range' 0 72).map (syndromeOf c)

/-- The limits R6 sets on the code: the 72 single-bit syndromes are distinct from each other, from zero and from the
poison syndrome, and two errors, or poison and one error, give none of these. -/
abbrev CodeOk (c : Nat → BitVec 8) : Prop :=
  (0#8 :: poisonSyndrome :: singles c).Nodup ∧
    ∀ a ∈ poisonSyndrome :: singles c, ∀ b ∈ poisonSyndrome :: singles c, a ≠ b → a ^^^ b ∉ poisonSyndrome :: singles c

/-- A code that keeps to R6, taken where `Config.columnChoice` does not: it only shows that such codes exist. -/
def exampleColumn (i : Nat) : BitVec 8 :=
  ([0x07#8, 0x0B#8, 0x0D#8, 0x0E#8, 0x13#8, 0x15#8, 0x16#8, 0x19#8, 0x1A#8, 0x1C#8, 0x1F#8, 0x23#8, 0x25#8, 0x26#8, 0x29#8, 0x2A#8,
    0x2C#8, 0x2F#8, 0x31#8, 0x32#8, 0x34#8, 0x37#8, 0x38#8, 0x3B#8, 0x3D#8, 0x3E#8, 0x43#8, 0x45#8, 0x46#8, 0x58#8, 0x5B#8, 0x5D#8,
    0x5E#8, 0x68#8, 0x6B#8, 0x6D#8, 0x6E#8, 0x70#8, 0x73#8, 0x75#8, 0x76#8, 0x83#8, 0x85#8, 0x86#8, 0x98#8, 0x9B#8, 0x9D#8, 0x9E#8,
    0xA8#8, 0xAB#8, 0xAD#8, 0xAE#8, 0xB0#8, 0xB3#8, 0xB5#8, 0xB6#8, 0xC9#8, 0xCA#8, 0xCC#8, 0xCF#8, 0xD1#8, 0xD2#8, 0xD4#8, 0xD7#8]
    : List (BitVec 8)).getD i 0

/-- The syndrome of an error of one data bit: the part's own code, any that R6 allows (notes/assumptions/5.md). -/
def columnOf (dataBit : Nat) : BitVec 8 :=
  if CodeOk Config.columnChoice then Config.columnChoice dataBit else exampleColumn dataBit

/-- The check bits the code computes from data bits (R4): each data bit changes them by its own syndrome, whatever the
other bits hold, since R5 gives each data bit one syndrome (notes/assumptions/4.md). -/
def checkBits (d : Word) : BitVec 8 :=
  (List.range' 0 64).foldl (fun c i => if d.getLsbD i then c ^^^ columnOf i else c) Config.codeOfZero

/-- The stored check bits of a word (R4). -/
def StoredWord.check (w : StoredWord) : BitVec 8 := checkBits w.data ^^^ w.diff

/-- A write with a valid code (R4). -/
def validWord (d : Word) : StoredWord := ⟨d, 0#8⟩

/-- A write with the poison code: the valid code with all eight check bits inverted (R4). -/
def poisonWord (d : Word) : StoredWord := ⟨d, poisonSyndrome⟩

/-- A syndrome with exactly one bit set: the indicated bit is a check bit (R5). -/
def oneCheckBit (x : BitVec 8) : Bool := (List.range' 0 8).any fun i => x == BitVec.twoPow 8 i

/-- The data bit a syndrome indicates (R5). -/
def indicatedDataBit (x : BitVec 8) : Option Nat := (List.range' 0 64).find? fun i => columnOf i == x

/-- Decoding of one stored word: outcome and data delivered, by its syndrome (the table of R5). -/
def decodeStored (w : StoredWord) : WordResult :=
  if w.diff = 0#8 then ⟨.clean, w.data⟩
  else if w.diff = poisonSyndrome then ⟨.poisoned, w.data⟩
  else if oneCheckBit w.diff then ⟨.corrected, w.data⟩
  else
    match indicatedDataBit w.diff with
    | some i => ⟨.corrected, w.data ^^^ BitVec.twoPow 64 i⟩
    | none => ⟨.uncorrectable, w.data⟩

/-- A stored bit flips: bits 0 to 63 are the data bits, bits 64 to 71 the check bits (R6). A flipped data bit changes the
code of the data bits by its column, so the difference changes by that column. -/
def flipBit (w : StoredWord) (bit : Fin 72) : StoredWord :=
  if bit.val < 64 then ⟨w.data ^^^ BitVec.twoPow 64 bit.val, w.diff ^^^ columnOf bit.val⟩
  else ⟨w.data, w.diff ^^^ BitVec.twoPow 8 (bit.val - 64)⟩

end Sys2Proof.Machine
end

