-- ==== Sys2Proof/Machine/Ops.lean ====
section
/-! DEFINITION. The named operations over the store: reading and writing words and lines, and the four line operations (chapter 1). -/

namespace Sys2Proof.Machine

/-! ## Words of the store -/

/-- The number of a stored word: physical line × 8 + word in line (R1, R2). -/
def wordNumber (l : PLine) (w : Nat) : Nat := l.number * 8 + w

/-- What is listed for a word number. -/
def memoryFind : Memory → Nat → Option StoredWord
  | [], _ => none
  | (k, v) :: rest, n => if k = n then some v else memoryFind rest n

/-- The memory with a word written, kept in strictly rising order. -/
def memoryPut : Memory → Nat → StoredWord → Memory
  | [], n, v => [(n, v)]
  | (k, u) :: rest, n, v =>
    if n < k then (n, v) :: (k, u) :: rest
    else if n = k then (n, v) :: rest
    else (k, u) :: memoryPut rest n v

/-- How many words the physical store has (R2). -/
def wordsInStore : Nat := 520 * 1048576 * 8

/-- The canonical form: word numbers strictly rising and inside the store. An unlisted word has no value of its own
(it reads a free value), so no entry equals what an unlisted word reads as. -/
def Memory.wf : Memory → Bool
  | [] => true
  | [(k, _)] => k < wordsInStore
  | (k, _) :: (j, v) :: rest => k < j && Memory.wf ((j, v) :: rest)

/-- What a word that nothing has written since power-on holds: a free value (R16, notes/assumptions/6.md). -/
def undefinedWord (epoch n : Nat) : StoredWord :=
  ⟨(Config.undefinedBits epoch n).extractLsb' 0 64, (Config.undefinedBits epoch n).extractLsb' 64 8⟩

/-- The 72 stored bits of a word. -/
def storedAt (epoch : Nat) (m : Memory) (n : Nat) : StoredWord := (memoryFind m n).getD (undefinedWord epoch n)

/-! ## Lines of the store -/

/-- All eight words of a line, decoded (R7, R10). -/
def readResults (epoch : Nat) (m : Memory) (l : PLine) : LineResult :=
  tabulate 8 fun w => decodeStored (storedAt epoch m (wordNumber l w))

/-- A stored word written where there is one to write. -/
def putWord (m : Memory) (n : Nat) : Option StoredWord → Memory
  | some v => memoryPut m n v
  | none => m

/-- Some words of a line written: each word `w` of the list for which `f w` gives a stored word. -/
def writeListed (m : Memory) (l : PLine) (f : Nat → Option StoredWord) (ws : List Nat) : Memory :=
  ws.foldl (fun m w => putWord m (wordNumber l w) (f w)) m

/-- The line with each word `w` for which `f w` gives a stored word written, the others kept (R4). -/
def writeWords (m : Memory) (l : PLine) (f : Nat → Option StoredWord) : Memory := writeListed m l f (List.range' 0 8)

/-- Entry `i` of a table of eight, by number. -/
def at8 {α : Type} (v : Vector α 8) (i : Nat) : α := v[Fin.ofNat 8 i]

/-- What a WRITE_LINE stores in a word: nothing outside its word mask, the poison code where the poison mask names the
word, a valid code elsewhere (R11). -/
def writeLineWord (o : WriteOperand) (w : Nat) : Option StoredWord :=
  if o.mask.getLsbD w then
    some (if o.poison.getLsbD w then poisonWord (at8 o.data w) else validWord (at8 o.data w))
  else none

/-- What a SCRUB_LINE writes back for a word it read (the table of R12). -/
def scrubWord (r : WordResult) : Option StoredWord :=
  match r.outcome with
  | .clean => none
  | .corrected => some (validWord r.data)
  | .uncorrectable => some (poisonWord r.data)
  | .poisoned => none

/-- A line operation performed whole: the store it leaves, and for an operation that reads, what the read found (R9 to
R13). -/
def performOp (epoch : Nat) (m : Memory) (op : LineOp) (l : PLine) : Memory × Option LineResult :=
  match op with
  | .readLine => (m, some (readResults epoch m l))
  | .writeLine o => (writeWords m l (writeLineWord o), none)
  | .scrubLine =>
    let r := readResults epoch m l
    (writeWords m l fun w => scrubWord (at8 r w), some r)
  | .initLine => (writeWords m l fun _ => some (validWord 0), none)

/-- The word findings of a health report, in ascending word order (R8). -/
def findings (r : LineResult) : List Finding :=
  ((List.range' 0 8).map (Fin.ofNat 8)).filterMap fun w =>
    match r[w].outcome with
    | .corrected => some ⟨w, false⟩
    | .uncorrectable => some ⟨w, true⟩
    | .clean => none
    | .poisoned => none

/-- The health report of an operation, if its read found a word CORRECTED or UNCORRECTABLE (R8). -/
def healthReportOf (src : Source) (op : LineOp) (l : PLine) (r : Option LineResult) : List HealthReport :=
  match r with
  | none => []
  | some r => if findings r = [] then [] else [⟨l, src, decide (op = .scrubLine), findings r⟩]

end Sys2Proof.Machine
end

