-- ==== Sys2Proof/Machine/TransferOps.lean ====
section
/-! DEFINITION. The transfer unit's shared operations: lines, words and pieces of a range, readiness and issue of references, results, and the end of a transfer (chapter 8). Each changes one port alone. -/

namespace Sys2Proof.Machine

/-! ## Lines and words (R131) -/

/-- How many lines a range touches (R131). -/
def rangeLines (start len : Nat) : Nat := (start + len - 8) / 64 - start / 64 + 1

/-- The address of word `w` of line index `i` of a range. -/
def rangeAddress (start i w : Nat) : Nat := (start / 64 + i) * 64 + 8 * w

/-- Word `w` of line index `i` is a covered word (the table of R131). -/
def covered (start len i w : Nat) : Bool := start ≤ rangeAddress start i w && rangeAddress start i w < start + len

/-- The covered words of a line, ascending. -/
def coveredWords (start len i : Nat) : List Nat := (List.range' 0 8).filter (covered start len i)

/-- The covered words as a word mask. -/
def coveredMask (start len i : Nat) : BitVec 8 := mask8 (covered start len i)

/-- The offset of a word in its range (R126). -/
def offsetOf (start i w : Nat) : Nat := rangeAddress start i w - start

/-- The covered bytes of lines 0 to n − 1 of a range (R136). -/
def coveredBytes (start len n : Nat) : Nat := if n = 0 then 0 else min len ((start / 64 + n) * 64 - start)

/-- The logical line of a line index. -/
def rangeLine (start i : Nat) : LLine := logicalLine (start / 64 + i)

/-! ## The host side (R130) -/

/-- The entry an offset falls in, counted from `k`, and its host address. -/
def hostPlace : List (Nat × Nat) → (offset k : Nat) → Option (Nat × Nat)
  | [], _, _ => none
  | (a, n) :: rest, o, k => if o < n then some (k, a + o) else hostPlace rest (o - n) (k + 1)

/-- A run of words of one line that fall in one entry (R130). -/
structure Piece where
  entry : Nat
  addr : Nat
  words : List Nat
deriving DecidableEq, Repr

/-- Words with their places gathered into pieces. -/
def gatherPieces : List (Nat × Nat × Nat) → List Piece
  | [] => []
  | (w, k, a) :: rest =>
    match gatherPieces rest with
    | [] => [⟨k, a, [w]⟩]
    | q :: qs => if q.entry = k then ⟨k, a, w :: q.words⟩ :: qs else ⟨k, a, [w]⟩ :: q :: qs

/-- The pieces of line index `i`, in ascending offset order (R130). -/
def piecesOf (entries : List (Nat × Nat)) (start len i : Nat) : List Piece :=
  gatherPieces ((coveredWords start len i).filterMap fun w =>
    (hostPlace entries (offsetOf start i w) 0).map fun q => (w, q.1, q.2))

/-! ## The ranges of a transfer -/

/-- Start and length of the range a transfer's results are counted on, the source range for a COPY (R126). -/
def rangeOf : Command → Nat × Nat
  | .read a n _ => (a, n)
  | .write a n _ => (a, n)
  | .fill a n _ => (a, n)
  | .copy a n _ => (a, n)
  | .scan a n _ _ => (a, n)
  | _ => (0, 0)

def Command.isTransfer : Command → Bool
  | .read .. | .write .. | .fill .. | .copy .. | .scan .. => true
  | _ => false

def Command.isWrite : Command → Bool
  | .write .. => true
  | _ => false

/-- The lines a transfer counts up with `next`: for a COPY the destination lines. -/
def Transfer.lineCount (t : Transfer) : Nat :=
  match t.cmd with
  | .copy _ n d => rangeLines d n
  | c => rangeLines (rangeOf c).1 (rangeOf c).2

/-- A transfer that has just taken its slot (R128). -/
def Transfer.fresh (c : CtxId) (cmd : Command) : Transfer where
  ctx := c
  cmd := cmd
  phase := .moving
  next := 0
  nextSource := 0
  outstanding := 0
  entries := []
  piece := 0
  gathered := []
  staged := none
  lines := []
  frontier := 0
  decision := none
  corrected := 0
  bad := 0
  firstBad := none
  ending := none

/-! ## COPY (R137, R138) -/

/-- The source line index that holds offset `o` of a COPY. -/
def sourceIndex (src o : Nat) : Nat := (src + o) / 64 - src / 64

/-- The first source line that destination line `j` draws from. -/
def drawsFirst (src dst j : Nat) : Nat := sourceIndex src ((dst / 64 + j) * 64 - dst)

/-- The last source line that destination line `j` draws from. -/
def drawsLast (src len dst j : Nat) : Nat := sourceIndex src (min (len - 8) ((dst / 64 + j) * 64 + 56 - dst))

/-- The result staged for a line index. -/
def stagedLine (lines : List (Nat × LineResult)) (i : Nat) : Option LineResult := (lines.find? fun x => x.1 == i).map (·.2)

/-- Every source line that destination line `j` draws from has returned (R132, R137). -/
def sourcesReady (lines : List (Nat × LineResult)) (src len dst j : Nat) : Bool :=
  (stagedLine lines (drawsFirst src dst j)).isSome && (stagedLine lines (drawsLast src len dst j)).isSome

/-- Word `i` of a line's result. -/
def resultWord (r : LineResult) (i : Nat) : WordResult := r[Fin.ofNat 8 i]

/-- The source word of word `w` of destination line `j`. -/
def sourceWord (lines : List (Nat × LineResult)) (src dst j w : Nat) : Option WordResult :=
  let o := offsetOf dst j w
  (stagedLine lines (sourceIndex src o)).map fun r => resultWord r ((src + o) / 8 % 8)

/-- The outcome is UNCORRECTABLE or POISONED. -/
def WordOutcome.isBad : WordOutcome → Bool
  | .uncorrectable => true
  | .poisoned => true
  | _ => false

/-- The WRITE_LINE of destination line `j` of a COPY (R138). The data words outside the word mask, which R11 does not use, are 0: the
model's choice (notes/assumptions/44.md). -/
def copyWrite (lines : List (Nat × LineResult)) (src len dst j : Nat) : WriteOperand where
  mask := coveredMask dst len j
  data := tabulate 8 fun w => if covered dst len j w then ((sourceWord lines src dst j w).map (·.data)).getD 0 else 0
  poison := mask8 fun w => covered dst len j w && ((sourceWord lines src dst j w).map (·.outcome.isBad)).getD false

/-! ## Readiness and issue (R132) -/

/-- A slot has a reference ready (the table of R132). -/
def Transfer.ready (t : Transfer) : Bool :=
  t.phase == .moving && t.next < t.lineCount &&
    match t.cmd with
    | .read .. | .scan .. | .fill .. => true
    | .write .. => t.staged.isSome
    | .copy src len dst =>
      t.nextSource ≤ drawsLast src len dst t.next || sourcesReady t.lines src len dst t.next
    | _ => false

/-- FINISHING once the reference of the last line is issued (R132). -/
def Transfer.phaseAfterIssue (t : Transfer) : Phase := if t.next + 1 = t.lineCount then .finishing else t.phase

/-- The next reference of a ready slot, and the slot after its issue (R132 to R138). -/
def Transfer.issue (t : Transfer) : Ref × Transfer :=
  let ref (start i : Nat) (op : LineOp) : Ref := ⟨.transfer t.ctx i, .logical (rangeLine start i), op, none⟩
  let issued : Transfer := { t with next := t.next + 1, outstanding := t.outstanding + 1, phase := t.phaseAfterIssue }
  match t.cmd with
  | .write a n _ =>
    (ref a t.next (.writeLine ⟨coveredMask a n t.next, t.staged.getD (Vector.replicate 8 0), 0#8⟩),
      { issued with staged := none, piece := 0, gathered := [] })
  | .fill a n pattern =>
    (ref a t.next (.writeLine ⟨coveredMask a n t.next, Vector.replicate 8 pattern, 0#8⟩), issued)
  | .copy src len dst =>
    if t.nextSource ≤ drawsLast src len dst t.next then
      (ref src t.nextSource .readLine, { t with nextSource := t.nextSource + 1, outstanding := t.outstanding + 1 })
    else
      (ref dst t.next (.writeLine (copyWrite t.lines src len dst t.next)),
        { issued with lines := t.lines.filter fun x => drawsFirst src dst (t.next + 1) ≤ x.1 })
  | c => (ref (rangeOf c).1 t.next .readLine, issued)

/-- The host read of the next piece of a WRITE's next line (R134). -/
def Transfer.pieceRead (t : Transfer) : Option SlotRead :=
  match t.cmd with
  | .write a n _ =>
    if t.phase = .moving ∧ t.next < t.lineCount then
      ((piecesOf t.entries a n t.next)[t.piece]?).map fun q => .data q.addr q.words.length
    else none
  | _ => none

/-- The slots in rotation, starting after the last issuer (R132). -/
def rotation (last : SlotId) : List SlotId := [last + 1, last + 2, last + 3, last]

/-- The slot that a free place is offered to and that takes it (R132). -/
def issuingSlot (p : HostPort) : Option (SlotId × Transfer) :=
  (rotation p.lastIssuer).findSome? fun i =>
    match p.slots[i] with
    | some t => if t.ready then some (i, t) else none
    | none => none

/-- A slot's record is replaced. -/
def setSlot (i : SlotId) (t : Option Transfer) (p : HostPort) : HostPort := { p with slots := p.slots.set i t }

/-- A slot's outstanding host read is replaced. -/
def setSlotRead (i : SlotId) (r : Option SlotRead) (p : HostPort) : HostPort := { p with slotReads := p.slotReads.set i r }

/-- Slot `i` issues its reference; a WRITE then begins the host-data read of its next line (R134, step 3). -/
def issueFrom (i : SlotId) (t : Transfer) (p : HostPort) : HostPort :=
  let q := setSlot i (some t.issue.2) { p with lastIssuer := i }
  if t.cmd.isWrite then setSlotRead i t.issue.2.pieceRead q else q

/-! ## Results (R133, R139, R142) -/

/-- A counted word (R142). -/
def countWord (offset : Nat) (o : WordOutcome) (t : Transfer) : Transfer :=
  match o with
  | .clean => t
  | .corrected => { t with corrected := t.corrected + 1 }
  | .poisoned => bad
  | .uncorrectable => bad
where
  bad : Transfer :=
    { t with bad := t.bad + 1
             firstBad := match t.firstBad with
               | none => some offset
               | some f => some (min f offset) }

/-- The covered words of a line counted (R133, R142). -/
def countLine (start len i : Nat) (r : LineResult) (t : Transfer) : Transfer :=
  (coveredWords start len i).foldl (fun t w => countWord (offsetOf start i w) (resultWord r w).outcome t) t

/-- The host writes of a READ's line: one for each piece, with the delivered data (R133). -/
def readWrites (entries : List (Nat × Nat)) (start len i : Nat) (r : LineResult) : List LinkWrite :=
  (piecesOf entries start len i).map fun q => .readData q.addr (q.words.map fun w => (resultWord r w).data)

/-- A word matches when every bit set in the mask has the same value in the word as in the pattern (section 8.8). -/
def wordMatches (pattern mask d : Word) : Bool := (d ^^^ pattern) &&& mask == 0#64

/-- The covered words of the frontier line examined in ascending order, up to the deciding word (the table of R139). -/
def examineWords (start i : Nat) (pattern mask : Word) (r : LineResult) : List Nat → Transfer → Transfer
  | [], t => t
  | w :: ws, t =>
    let x := resultWord r w
    let o := offsetOf start i w
    let t' := countWord o x.outcome t
    if x.outcome.isBad then { t' with decision := some (.bad o) }
    else if wordMatches pattern mask x.data then { t' with decision := some (.matched o) }
    else examineWords start i pattern mask r ws t'

/-- The frontier line and each held line above it examined, until a line whose result has not returned (R139). -/
def examineHeld (start len : Nat) (pattern mask : Word) : Nat → Transfer → Transfer
  | 0, t => t
  | n + 1, t =>
    match stagedLine t.lines t.frontier with
    | none => t
    | some r =>
      let t' := examineWords start t.frontier pattern mask r (coveredWords start len t.frontier) t
      if t'.decision.isSome then t'
      else if t.frontier + 1 = t.lineCount then { t' with frontier := t.frontier + 1, decision := some .notFound }
      else
        examineHeld start len pattern mask n
          { t' with frontier := t.frontier + 1, lines := t'.lines.filter fun x => x.1 != t.frontier }

/-- A SCAN takes the result of a line: discarded once it is decided (R140), else held and examined behind the frontier
(R139). -/
def scanResult (start len : Nat) (pattern mask : Word) (i : Nat) (r : LineResult) (t : Transfer) : Transfer :=
  if t.decision.isSome then t
  else
    let t' := examineHeld start len pattern mask (t.lines.length + 1) { t with lines := t.lines ++ [(i, r)] }
    if t'.decision.isSome then { t' with phase := .finishing, lines := [] } else t'

/-- A slot takes a result of its reference: the slot after it, and the host writes it issues (R133, R137, R139). -/
def Transfer.takeResult (i : Nat) (r : Option LineResult) (t : Transfer) : Transfer × List LinkWrite :=
  let u : Transfer := { t with outstanding := t.outstanding - 1 }
  match t.cmd, r with
  | .read a n _, some r => (countLine a n i r u, readWrites t.entries a n i r)
  | .copy a n _, some r => ({ countLine a n i r u with lines := u.lines ++ [(i, r)] }, [])
  | .scan a n pattern mask, some r => (scanResult a n pattern mask i r u, [])
  | _, _ => (u, [])

/-! ## The end of a transfer (R141, R143, R144) -/

/-- The status, by precedence (R143). -/
def Transfer.status (t : Transfer) : Status :=
  match t.ending with
  | some .notHolder => .notHolder
  | some .malformed => .malformed
  | some .hostFault => .hostFault
  | none =>
    if t.bad ≠ 0 then .dataError
    else if t.decision = some .notFound then .notFound
    else if t.corrected ≠ 0 then .corrected
    else .ok

/-- Bytes done (R136, R140, R144). -/
def Transfer.bytesDone (t : Transfer) : Nat :=
  match t.ending with
  | some _ => coveredBytes (rangeOf t.cmd).1 (rangeOf t.cmd).2 t.next
  | none =>
    match t.decision with
    | some (.matched o) => o + 8
    | some (.bad o) => o + 8
    | _ => (rangeOf t.cmd).2

/-- Found offset (R140, R144). -/
def Transfer.found (t : Transfer) : Option Nat :=
  match t.decision with
  | some (.matched o) => some o
  | some (.bad o) => some o
  | _ => none

/-- The results of a transfer (R144). -/
def Transfer.results (t : Transfer) : Results :=
  .transfer ⟨t.bytesDone, t.corrected, t.bad, t.firstBad, t.found⟩

/-- A transfer in FINISHING with nothing outstanding ends: its slot becomes FREE and its completion is handed (R141). -/
def endIfDone (i : SlotId) (p : HostPort) : HostPort :=
  match p.slots[i] with
  | none => p
  | some t =>
    if t.phase = .finishing ∧ t.outstanding = 0 ∧ p.slotReads[i] = none then
      handCompletion t.ctx t.status t.results (setSlot i none p)
    else p

/-- The slot of a context's transfer. -/
def slotOf (p : HostPort) (c : CtxId) : Option (SlotId × Transfer) :=
  ([0, 1, 2, 3] : List SlotId).findSome? fun i =>
    match p.slots[i] with
    | some t => if t.ctx = c then some (i, t) else none
    | none => none

/-- The transfer unit takes the result of a reference by its origin; with no slot of that context it is discarded (R69,
R146). -/
def takeTransferResult (c : CtxId) (line : Nat) (r : Option LineResult) (p : HostPort) : HostPort :=
  match slotOf p c with
  | none => p
  | some (i, t) =>
    let q := setSlot i (some (t.takeResult line r).1) p
    endIfDone i { q with sent := q.sent ++ (t.takeResult line r).2 }

/-! ## Activation (R128) -/

/-- Step 3 of R128: MOVING, a WRITE beginning the host-data read of line 0. -/
def enterMoving (i : SlotId) (t : Transfer) (p : HostPort) : HostPort :=
  let u : Transfer := { t with phase := .moving }
  setSlotRead i u.pieceRead (setSlot i (some u) p)

/-- The host side of a command, if it has one (R126). -/
def hostOf : Command → Option HostSide
  | .read _ _ h => some h
  | .write _ _ h => some h
  | _ => none

/-- Steps 2 and 3 of R128. -/
def enterAfterGuard (i : SlotId) (t : Transfer) (p : HostPort) : HostPort :=
  match hostOf t.cmd with
  | some (.scatter count addr) =>
    setSlotRead i (some (.list addr count)) (setSlot i (some { t with phase := .listing }) p)
  | some (.direct addr) => enterMoving i { t with entries := [(addr, (rangeOf t.cmd).2)] } p
  | none => enterMoving i t p

/-- The lowest-numbered FREE slot (R128). -/
def freeSlot (p : HostPort) : Option SlotId := ([0, 1, 2, 3] : List SlotId).find? fun i => (p.slots[i]).isNone

/-- A transfer takes slot `i` at its activation (R121, R128). -/
def startTransfer (c : CtxId) (i : SlotId) (p : HostPort) : HostPort :=
  let x := p.contexts[c]
  let q := activateHead c p
  match x.guard with
  | some (k, o) => mailLock (.guardCheck c k o) (setSlot i (some { Transfer.fresh c x.cmd with phase := .checking }) q)
  | none => enterAfterGuard i (Transfer.fresh c x.cmd) q

/-- The head of the work list is activated if it is a transfer of a kind and can run, and the new heads are tested
(R119, R121). -/
def activateTransfer (kind : Command → Bool) (p : HostPort) : HostPort :=
  match p.workList, freeSlot p with
  | c :: _, some i =>
    if p.canRun c && kind (p.contexts[c]).cmd then advance (startTransfer c i p) else p
  | _, _ => p

/-- The answer to a guard check, for a slot in CHECKING (R101, R128); for a freed slot it is discarded (R146). -/
def takeGuardAnswer (c : CtxId) (held : Bool) (p : HostPort) : HostPort :=
  match slotOf p c with
  | none => p
  | some (i, t) =>
    if t.phase ≠ .checking then p
    else if held then enterAfterGuard i t p
    else endIfDone i (setSlot i (some { t with phase := .finishing, ending := some .notHolder }) p)

/-- The end notice of a guard check, in a port in FAULTED: the transfer in CHECKING ends at once, without a completion,
and its context is FREE (R88, R145). For a freed slot it is discarded (R146). -/
def takeGuardEnd (c : CtxId) (p : HostPort) : HostPort :=
  match slotOf p c with
  | none => p
  | some (i, t) => if t.phase = .checking ∧ p.state = .faulted then freeContext c (setSlot i none p) else p

/-! ## Host reads that end (R129, R134, R136) -/

/-- The ending a returned scatter list gives, if it fails its checks (R129). -/
def listFault (len : Nat) (l : List (BitVec 128)) : Option Ending :=
  if !l.all scatterEntryOk then some .malformed
  else if (l.map fun e => (scatterEntryOf e).2).sum ≠ len then some .malformed
  else none

/-- The entries of a scatter-list read of `count` entries; one missing from the data reads as zero
(notes/assumptions/36.md). -/
def listEntries (count : Nat) (l : List (BitVec 128)) : List (BitVec 128) :=
  (List.range' 0 count).map fun i => l.getD i 0

/-- A transfer that ends early enters FINISHING (R129, R136). -/
def endEarly (i : SlotId) (e : Ending) (t : Transfer) (p : HostPort) : HostPort :=
  endIfDone i (setSlot i (some { t with phase := .finishing, ending := some e, gathered := [], staged := none }) p)

/-- The end of a scatter-list read (the table of R129). -/
def takeList (i : SlotId) (count : Nat) (list : Option (List (BitVec 128))) (p : HostPort) : HostPort :=
  let q := setSlotRead i none p
  match p.slots[i] with
  | none => q
  | some t =>
    match list with
    | none => endEarly i .hostFault t q
    | some l =>
      match listFault (rangeOf t.cmd).2 (listEntries count l) with
      | some e => endEarly i e t q
      | none => enterMoving i { t with entries := (listEntries count l).map scatterEntryOf } q

/-- The covered words of a line put in their places (R134). The places that are not covered, which the word mask leaves out and R11
does not use, hold 0: the model's choice (notes/assumptions/44.md). -/
def stageLine (start len i : Nat) (words : List Word) : Vector Word 8 :=
  tabulate 8 fun w =>
    if covered start len i w then words.getD (w - (if i = 0 then start / 8 % 8 else 0)) 0 else 0

/-- The end of the host-data read of one piece (R134, R136). -/
def takeData (i : SlotId) (count : Nat) (words : Option (List Word)) (p : HostPort) : HostPort :=
  let q := setSlotRead i none p
  match p.slots[i] with
  | none => q
  | some t =>
    match words with
    | none => endEarly i .hostFault t q
    | some ws =>
      let start := (rangeOf t.cmd).1
      let len := (rangeOf t.cmd).2
      let got := t.gathered ++ (List.range' 0 count).map fun k => ws.getD k 0
      if t.piece + 1 < (piecesOf t.entries start len t.next).length then
        let u : Transfer := { t with piece := t.piece + 1, gathered := got }
        setSlotRead i u.pieceRead (setSlot i (some u) q)
      else
        setSlot i (some { t with piece := 0, gathered := [], staged := some (stageLine start len t.next got) }) q

end Sys2Proof.Machine
end

