-- ==== Sys2Proof/Machine/BankOps.lean ====
section
/-! DEFINITION. What an operation done event does: the operation is performed, its result goes to the source, and the Migration Unit and the Scrub Unit act on theirs (R9, R48 to R50, R54, R55, R68, R69, R77, R78). -/

namespace Sys2Proof.Machine

/-! ## The Retirement Memory write (R25) -/

/-- The slot a write targets: the slot other than the current one, or slot 0 when there is none (R25). -/
def RetMem.target (r : RetMem) : SlotNo :=
  match r.current with
  | some .slot0 => .slot1
  | some .slot1 => .slot0
  | none => .slot0

/-- The generation of the next image: the current one plus one, or 1 when no slot is current (R23, R25). Where that sum
leaves the range of R23, after FFFFFFFEh and FFFFFFFFh, it is a free value (notes/assumptions/10.md). -/
def RetMem.nextGeneration (r : RetMem) : BitVec 32 :=
  match r.current with
  | none => 1
  | some _ => if r.generation < 0xFFFFFFFE#32 then r.generation + 1 else Config.generationAfterLast r.generation

/-- A write of the working retired list starts (R25). -/
def RetMem.startWrite (retired : List PhysSeg) (r : RetMem) : RetMem :=
  { r with writing := some ⟨r.nextGeneration, retired.map (·.val), true⟩ }

/-- A slot's content is replaced. -/
def RetMem.setSlot (n : SlotNo) (i : SlotImage) (r : RetMem) : RetMem :=
  match n with
  | .slot0 => { r with slot0 := i }
  | .slot1 => { r with slot1 := i }

/-- What a write that was interrupted or failed leaves in its slot (R25, R26). -/
def remnantOf (left : SlotRemnant) (i : Image) : SlotImage :=
  match left with
  | .blank => .blank
  | .invalid => .image { i with checkOk := false }
  | .programmed => .image i

/-- The write of image `i` has ended, and only a successful one changes the current slot and generation (R25). -/
def RetMem.endWrite (outcome : WriteOutcome) (i : Image) (r : RetMem) : RetMem :=
  match outcome with
  | .succeeded =>
    { r.setSlot r.target (.image i) with current := some r.target, generation := i.generation, writing := none }
  | .failed left => { r.setSlot r.target (remnantOf left i) with writing := none }

/-! ## Results of the Migration Unit -/

/-- The WRITE_LINE of line `k` is issued, and with it the READ_LINE of the next line, if the chunk has one (R48). R69's table has
that READ_LINE issued on the result of the WRITE_LINE: the model follows R48 (notes/assumptions/43.md). The position
line 0, READ stands for a chunk with no reference left to issue (notes/assumptions/29.md). -/
def issueCopyLine (j : Job) (k : Nat) (r : LineResult) (s : State) : State :=
  let c := s.mig.watermark
  let s1 := issueRef .migration (copyWriteRef j c k r) s
  if k < 63 then
    issueRef .migration (copyReadRef j c (k + 1))
      { s1 with mig := { s.mig with copyLine := k + 1, copyStep := .write, kept := none } }
  else { s1 with mig := { s.mig with copyLine := 0, copyStep := .read, kept := none } }

/-- The READ_LINE of line `k` has returned. With queue M empty its WRITE_LINE is issued (R48, R69); while the WRITE_LINE of the
line before it is still in progress there, which R71 allows, the unit keeps the result until that write leaves, so that queue M
holds the write of one line and the read of the next at most (R48, R54; notes/assumptions/40.md). -/
def copyReadDone (j : Job) (k : Nat) (r : LineResult) (s : State) : State :=
  if s.sched.m = [] then issueCopyLine j k r s else { s with mig := { s.mig with kept := some (k, r) } }

/-- A WRITE_LINE but that of line 63 is done: a result kept behind it is written now, and the next line read (R48); with none kept
nothing is issued, where R69's table has the next READ_LINE issued (notes/assumptions/40.md, 43.md). -/
def copyWriteDone (j : Job) (s : State) : State :=
  match s.mig.kept with
  | some (k, r) => issueCopyLine j k r s
  | none => s

/-- The switch claim, the entry to RECORDING and the start of the Retirement Memory write (R54, R55). -/
def switchOver (j : Job) (s : State) : State :=
  let x := switchClaim j s.seg
  appendIncidents x.2
    { s with
      seg := x.1
      mig := { s.mig with state := .recording }
      ret := s.ret.startWrite x.1.retired }

/-- The copy of the watermark chunk has ended: the watermark advances and the lock is released, then STEPPING with the
held-over set of the chunk, or the switch after chunk 16,383 (R50). -/
def endChunk (j : Job) (s : State) : State :=
  let c := s.mig.watermark
  let s1 := { s with mig := { s.mig with watermark := c + 1, lock := .none } }
  if c + 1 < 16384 then
    { s1 with mig := closeIfFree { s1.mig with state := .stepping, heldOver := formHeldOver s1.sched j c } }
  else switchOver j s1

/-- The Migration Unit, in COPYING, takes a result by its copy position (R48, R50, R69). The WRITE_LINE of line 63 ends the
chunk; queue M is then empty, for that write was issued into an empty queue and no read follows it (R54). -/
def takeCopyResult (k : Nat) (step : CopyStep) (r : Option LineResult) (s : State) : State :=
  match s.mig.state, s.mig.job with
  | .copying, some j =>
    match step, r with
    | .read, some r => copyReadDone j k r s
    | .read, none => s
    | .write, _ => if k = 63 then endChunk j s else copyWriteDone j s
  | _, _ => s

/-! ## Results of the Scrub Unit -/

/-- The sweep completes (R78). -/
def sweepDone (g : SegMap) (u : ScrubUnit) : ScrubUnit :=
  { u with store := .ready, pass := .patrol, pos := .at ⟨lowestServed g, 0⟩, credit := 0 }

/-- An INIT_LINE is done: the count of sweep references falls, and the sweep completes when it is 0 at ENDED (R77, R78). -/
def initLineDone (g : SegMap) (u : ScrubUnit) : ScrubUnit :=
  let v := { u with outstanding := u.outstanding - 1 }
  if v.outstanding = 0 ∧ v.pos = .ended then sweepDone g v else v

/-- The Scrub Unit takes a result and issues into the place it freed (R77, R80, R82). -/
def takeScrubResult (pass : Pass) (s : State) : State :=
  match pass with
  | .sweep => scrubIssue { s with scrub := initLineDone s.seg s.scrub }
  | .patrol => scrubIssue s

/-! ## The operation done event -/

/-- The reference in progress at a bank leaves its queue (R59, R68). -/
def dropGranted (b : Bank) (q : List Ref) : List Ref := q.eraseP fun r => r.granted.isSome && r.bank == b

/-- Bank `b` has performed its operation: the store, the health report handed, the IDLE record and the freed place (R9,
R68, R8). -/
def bankDone (b : Bank) (o : BankOp) (s : State) : State :=
  let r := performOp s.epoch s.store o.ref.op o.line
  let q := s.sched.setQueue o.source (dropGranted b (s.sched.queue o.source))
  { s with
    store := r.1
    reports := s.reports ++ healthReportOf o.source o.ref.op o.line r.2
    sched := { q with banks := q.banks.set b none } }

/-- The result of the operation of a bank (R69). -/
def resultOf (o : BankOp) (s : State) : Option LineResult := (performOp s.epoch s.store o.ref.op o.line).2

/-- The result is handed to the source that issued the reference, by its origin (R69). -/
def giveResult (o : BankOp) (r : Option LineResult) (s : State) : State :=
  match o.source, o.ref.origin with
  | .host p, .transfer c line => s.modPort p (takeTransferResult c line r)
  | .migration, .copy _ k step => takeCopyResult k step r s
  | .scrub, .scrub pass => takeScrubResult pass s
  | _, _ => s

end Sys2Proof.Machine
end

