-- ==== Sys2Proof/Machine/LockOps.lean ====
section
/-! DEFINITION. The Lock Unit's shared operations (chapter 6): each gives the lock table it leaves and what it hands to the ports, in order. -/

namespace Sys2Proof.Machine

/-- What the Lock Unit hands to the ports, in order. -/
abbrev Answers := List (PortId × LockAnswer)

/-- A lock's waiter queue, oldest first (R86). -/
def lockQueue (u : LockUnit) (k : LockId) : List Waiter := u.pool.filter fun w => w.lock = k

/-- A port's waiter count: the entries in use that belong to it (R87). -/
def waiterCount (u : LockUnit) (p : PortId) : Nat := u.pool.countP fun w => w.party.port = p

/-- The port state the Lock Unit holds (R88). -/
def LockUnit.view (u : LockUnit) : PortId → LockView
  | .p0 => u.view0
  | .p1 => u.view1

def LockUnit.setView (u : LockUnit) (p : PortId) (v : LockView) : LockUnit :=
  match p with
  | .p0 => { u with view0 := v }
  | .p1 => { u with view1 := v }

/-- The Lock Unit takes requests from a port in RUNNING or DRAINING (R88). -/
def LockUnit.takes (u : LockUnit) (p : PortId) : Bool := u.view p == .running || u.view p == .draining

/-- A lock's record is replaced. -/
def setLock (k : LockId) (r : LockRecord) (u : LockUnit) : LockUnit := { u with table := u.table.set k r }

/-- A lock given up passes to its oldest waiter, or is free; `abandoned` says that the giving up is an abandonment, which
the waiter's completion reports, or else the mark keeps for the next grant (R91, R94, R100). -/
def passLock (abandoned : Bool) (k : LockId) (u : LockUnit) : LockUnit × Answers :=
  match u.pool.find? fun w => w.lock = k with
  | some w =>
    (setLock k ⟨some w.party, false⟩ { u with pool := u.pool.eraseP fun w => w.lock = k },
      [(w.party.port, .completion w.ctx .ok abandoned (some w.party))])
  | none => (setLock k ⟨none, abandoned⟩ u, [])

/-- The deadline of a waiter entered at time `now` (the table of R90). -/
def waiterDeadline (now : Time) (timeout : Nat) : Option Time :=
  if timeout = 65535 then none else some (now + BitVec.ofNat 48 (timeout * 1000))

/-- The Lock Unit takes an ACQUIRE from port `p` (the cases of R89, in order; R88 for a port it takes no request from). -/
def takeAcquire (now : Time) (p : PortId) (c : CtxId) (k : LockId) (o : Owner) (timeout : Nat) (u : LockUnit) :
    LockUnit × Answers :=
  let me : Party := ⟨p, o⟩
  let r := u.table[k]
  let refuse (st : Status) : LockUnit × Answers := (u, [(p, .completion c st false r.holder)])
  if !u.takes p then (u, [(p, .endNotice c)])
  else if r.holder = none then
    (setLock k ⟨some me, false⟩ u, [(p, .completion c .ok r.abandoned (some me))])
  else if r.holder = some me then refuse .already
  else if timeout = 0 then refuse .lockBusy
  else if u.pool.any fun w => w.lock = k ∧ w.party = me then refuse .duplicate
  else if u.view p = .draining then refuse .cancelled
  else if 64 ≤ u.pool.length ∨ 40 ≤ waiterCount u p then refuse .waitLimit
  else
    ({ u with pool := u.pool ++ [⟨k, me, c, waiterDeadline now timeout, false⟩] }, [(p, .waiting c)])

/-- The Lock Unit takes a RELEASE from port `p` (the table of R94). -/
def takeRelease (p : PortId) (c : CtxId) (k : LockId) (o : Owner) (u : LockUnit) : LockUnit × Answers :=
  let r := u.table[k]
  if !u.takes p then (u, [(p, .endNotice c)])
  else if r.holder = some ⟨p, o⟩ then
    let q := passLock false k u
    (q.1, q.2 ++ [(p, .completion c .ok false none)])
  else (u, [(p, .completion c .notHolder false r.holder)])

/-- The Lock Unit takes a guard check, which changes nothing (R101); of a port it takes no request from, it hands the end
notice alone (R88). -/
def takeGuardCheck (p : PortId) (c : CtxId) (k : LockId) (o : Owner) (u : LockUnit) : Answers :=
  if !u.takes p then [(p, .guardEnd c)]
  else [(p, .guardAnswer c ((u.table[k]).holder = some ⟨p, o⟩))]

/-- The waiter entry of a port's context. -/
def isWaiterOf (p : PortId) (c : CtxId) (w : Waiter) : Bool := w.party.port = p && w.ctx = c

/-- The Lock Unit takes the expiry of the waiter of a port's context, once its deadline was reached (R93). -/
def takeExpiry (p : PortId) (c : CtxId) (u : LockUnit) : LockUnit × Answers :=
  match u.pool.find? (isWaiterOf p c) with
  | some w =>
    if w.due then
      ({ u with pool := u.pool.eraseP (isWaiterOf p c) },
        [(p, .completion c .timeout false (u.table[w.lock]).holder)])
    else (u, [])
  | none => (u, [])

/-- The waiters of a port, in ascending order of lock number and within one lock in queue order (R97). -/
def waitersOf (p : PortId) (u : LockUnit) : List Waiter :=
  (List.range' 0 256).flatMap fun k => u.pool.filter fun w => w.lock.val = k && w.party.port = p

/-- Every waiter entry of a port is removed from the pool (R97 to R99). -/
def dropWaiters (p : PortId) (u : LockUnit) : LockUnit :=
  { u with pool := u.pool.filter fun w => w.party.port ≠ p }

/-- The drain notice of port `p` (R97). -/
def takeDrain (p : PortId) (u : LockUnit) : LockUnit × Answers :=
  ((dropWaiters p u).setView p .draining,
    (waitersOf p u).map fun w => (p, .completion w.ctx .cancelled false (u.table[w.lock]).holder))

/-- The fault notice of port `p` (R98). -/
def takeFault (p : PortId) (u : LockUnit) : LockUnit × Answers :=
  ((dropWaiters p u).setView p .faulted, (waitersOf p u).map fun w => (p, .endNotice w.ctx))

/-- Lock `k` is released with abandonment if its holder belongs to port `p` (R99, step 2; R100). -/
def abandonLock (p : PortId) (x : LockUnit × Answers) (k : LockId) : LockUnit × Answers :=
  if ((x.1.table[k]).holder.map Party.port) = some p then
    let q := passLock true k x.1
    (q.1, x.2 ++ q.2)
  else x

/-- The port reset notice of port `p`, in its two steps (R99). -/
def takeReset (p : PortId) (u : LockUnit) : LockUnit × Answers :=
  ((List.range' 0 256).map (Fin.ofNat 256)).foldl (abandonLock p) ((dropWaiters p u).setView p .resetting, [])

/-- The time base has reached a value: the waiters whose deadline it is may expire (R93). -/
def markWaiters (now : Time) (u : LockUnit) : LockUnit :=
  { u with pool := u.pool.map fun w => if w.deadline = some now then { w with due := true } else w }

/-! ## What a port does with an answer -/

/-- A port takes what the Lock Unit hands it (R90, R92, R101). -/
def takeLockAnswer (a : LockAnswer) (p : HostPort) : HostPort :=
  match a with
  | .completion c st ab holder => handCompletion c st (.lock ab holder) p
  | .waiting c => if (p.contexts[c]).state = .active then setCtxState c .lockWait p else p
  | .endNotice c => endNotice c p
  | .guardAnswer c held => takeGuardAnswer c held p
  | .guardEnd c => takeGuardEnd c p

/-- The answers reach their ports in the order they were handed. -/
def deliver (as : Answers) (s : State) : State := as.foldl (fun s a => s.modPort a.1 (takeLockAnswer a.2)) s

/-- The first notice a port has handed and the Lock Unit not yet taken (R96). -/
def nextNotice (mail : List LockMail) : Option LockView :=
  mail.findSome? fun
    | .notice v => some v
    | _ => none

/-- The mail with its first notice taken. -/
def dropNotice (mail : List LockMail) : List LockMail :=
  mail.eraseP fun
    | .notice _ => true
    | _ => false

/-- A notice of port `p` is taken by `f`, if it is the first notice waiting and of kind `v` (R96). -/
def takeNotice (v : LockView) (p : PortId) (f : LockUnit → LockUnit × Answers) (s : State) : State :=
  if nextNotice (s.port p).lockMail = some v then
    let s1 := s.modPort p fun h => { h with lockMail := dropNotice h.lockMail }
    deliver (f s.locks).2 { s1 with locks := (f s.locks).1 }
  else s

end Sys2Proof.Machine
end

