-- ==== Sys2Proof/Machine/Banks.lean ====
section
/-! DEFINITION. The meanings of the rows of banks and pacing: GRANT, OPERATION_DONE, PACING_TICK (chapters 4 and 5). -/

namespace Sys2Proof.Machine

/-- GRANT: the arbiter of bank `b` acts (R65, R67, R70). -/
def execGrant (b : Bank) (s : State) : Host.Outcome State Fault Refusal := .next (arbiterAct b s)

/-- OPERATION_DONE: the operation of bank `b` ends. With `arbiterFirst` its arbiter acts before the source has acted on
the result: either order is a valid outcome (R65, R68, R69). The source acts here, before the Segment Map Unit takes the
report of the same operation at its own row: R15 and R68 allow either order, and this one is the model's
(notes/assumptions/19.md). -/
def execOperationDone (b : Bank) (arbiterFirst : Bool) (s : State) : Host.Outcome State Fault Refusal :=
  match s.sched.banks[b] with
  | none => .next s
  | some o =>
    let s1 := bankDone b o s
    .next (giveResult o (resultOf o s) (if arbiterFirst then arbiterAct b s1 else s1))

/-- The quiet timer's deadline is the time base's new value (R153). -/
def markTimer (now : Time) (h : HostPort) : HostPort :=
  { h with quietTimer := h.quietTimer.map fun t => if t.deadline = now then { t with due := true } else t }

/-- The time base moves on by one microsecond, and the deadlines it reaches are marked (00_scope.md "Time", R93, R153). -/
def advanceTime (s : State) : State :=
  let now := s.timeBase + 1
  { s with
    timeBase := now
    locks := markWaiters now s.locks
    port0 := markTimer now s.port0
    port1 := markTimer now s.port1 }

/-- The pacing credit of one more microsecond (R80). -/
def accrue (u : ScrubUnit) : ScrubUnit := { u with credit := min 4000 (u.credit + u.rate) }

/-- The patrol's test for issue; in the sweep the pacing has no part in issue (R77, R80). -/
def patrolIssue (s : State) : State :=
  match s.scrub.pass with
  | .patrol => scrubIssue s
  | .sweep => s

/-- PACING_TICK: one microsecond of the time base (R80; notes/assumptions/20.md). -/
def execPacingTick (s : State) : Host.Outcome State Fault Refusal :=
  let s1 := advanceTime s
  .next (patrolIssue { s1 with scrub := accrue s1.scrub })

end Sys2Proof.Machine
end

