-- ==== Sys2Proof/Machine/Completions.lean ====
section
/-! DEFINITION. The meanings of the completion writer's rows: COMPLETION_WRITE_ACCEPTED, COMPLETION_WRITE_REFUSED, QUIET_TIMER_EXPIRY (chapter 9). -/

namespace Sys2Proof.Machine

/-- A report for a record write of before a reset is discarded (R160; notes/assumptions/14.md). -/
def discardReport (h : HostPort) : HostPort := { h with staleWrites := h.staleWrites - 1 }

/-- The four steps of R150 for the record of `r`, the tests of R152, and the issue of the next record. -/
def recordAccepted (now : Time) (r : RecordWrite) (h : HostPort) : HostPort :=
  let q := recordInRing r.completion.ctx
    (confirmSent r.mark { h with recordWrite := none, writeList := h.writeList.tail })
  issueRecord (announceTests now r.completion.notify { q with unannounced := q.unannounced + 1 })

/-- COMPLETION_WRITE_ACCEPTED: the record is written (R150); in FAULTED without the unannounced count and the announce
(R159). -/
def execCompletionWriteAccepted (p : PortId) (stale : Bool) (s : State) : Host.Outcome State Fault Refusal :=
  let h := s.port p
  if stale then .next (s.modPort p discardReport)
  else
    match h.recordWrite with
    | none => .next s
    | some r =>
      if h.inService then .next (s.modPort p (recordAccepted s.timeBase r))
      else if h.state = .faulted then
        .next (s.modPort p fun h => recordInRing r.completion.ctx (confirmSent r.mark { h with recordWrite := none }))
      else .next s

/-- COMPLETION_WRITE_REFUSED: the port enters FAULTED with POST_ERROR and discards its write list (R151); in FAULTED the
context alone is freed (R159). -/
def execCompletionWriteRefused (p : PortId) (stale : Bool) (s : State) : Host.Outcome State Fault Refusal :=
  let h := s.port p
  if stale then .next (s.modPort p discardReport)
  else
    match h.recordWrite with
    | none => .next s
    | some r =>
      let s1 := s.modPort p fun h => { h with recordWrite := none }
      if h.inService then .next (faultPort p .postError s1)
      else if h.state = .faulted then .next (s1.modPort p (freeContext r.completion.ctx))
      else .next s

/-- The quiet timer runs and the time base has reached its deadline (R153). -/
def timerDue (h : HostPort) : Bool := h.quietTimer.any QuietTimer.due

/-- QUIET_TIMER_EXPIRY: the writer announces (R153). -/
def execQuietTimerExpiry (p : PortId) (s : State) : Host.Outcome State Fault Refusal :=
  if (s.port p).inService && timerDue (s.port p) then .next (s.modPort p announce) else .next s

end Sys2Proof.Machine
end

