-- ==== Sys2Proof/Machine/Health.lean ====
section
/-! DEFINITION. The meanings of the rows of health and migration: HEALTH_REPORT, MIGRATION_START, CHUNK_LOCK_HELD, RETIREMENT_WRITE_DONE (chapters 2 and 3). -/

namespace Sys2Proof.Machine

/-- The report was handed by bank `b`. -/
def reportOfBank (b : Bank) (r : HealthReport) : Bool := bankOf r.line.off == b

/-- A report is taken whole: its actions, and the incidents they append (R35). -/
def absorbReport (r : HealthReport) (s : State) : State :=
  let x := takeReport r s.seg
  appendIncidents x.2 { s with seg := x.1 }

/-- HEALTH_REPORT: the Segment Map Unit takes the oldest report that bank `b` has handed (R35 to R37). -/
def execHealthReport (b : Bank) (s : State) : Host.Outcome State Fault Refusal :=
  match s.reports.find? (reportOfBank b) with
  | none => .next s
  | some r => .next (absorbReport r { s with reports := s.reports.eraseP (reportOfBank b) })

/-- The Migration Unit after a start claim: STEPPING with watermark 0 and an empty held-over set, so that chunk 0 closes
at once (R42, R46). -/
def startedMigration (j : Job) : Migration :=
  closeIfFree ⟨.stepping, some j, 0, .none, ⟨false, false, false⟩, 0, .read, none⟩

/-- MIGRATION_START: with the unit IDLE and the store READY, the start claim takes the queue's head (R33, R42). -/
def execMigrationStart (s : State) : Host.Outcome State Fault Refusal :=
  if s.mig.state = .idle ∧ s.scrub.store = .ready then
    match startClaim s.seg with
    | some (g, j) => .next { s with seg := g, mig := startedMigration j }
    | none => .next s
  else .next s

/-- Bank record `o` is of T0, T1 or S and its line lies in the watermark chunk (R47). -/
def holdsChunk (m : Migration) : Option BankOp → Bool
  | some o => o.source != .migration && inWatermarkChunk m o.line
  | none => false

/-- No operation of T0, T1 or S is in progress on the watermark chunk (R47). -/
def chunkQuiet (s : State) : Bool := !s.sched.banks.toList.any (holdsChunk s.mig)

/-- CHUNK_LOCK_HELD: the closing chunk is at rest, the lock is HELD and the first copy read is issued (R47, R48). -/
def execChunkLockHeld (s : State) : Host.Outcome State Fault Refusal :=
  match s.mig.job with
  | none => .next s
  | some j =>
    if s.mig.state = .stepping ∧ s.mig.lock = .closing ∧ chunkQuiet s = true then
      let m := { s.mig with state := .copying, lock := .held, copyLine := 0, copyStep := .write, kept := none }
      .next (issueRef .migration (copyReadRef j s.mig.watermark 0) { s with mig := m })
    else .next s

/-- The incidents that complete a migration (R56). -/
def migratedIncidents (j : Job) (outcome : WriteOutcome) : List Incident :=
  ⟨.migrated, .migration, some j.seg, some j.source, some j.dest, none⟩ ::
    match outcome with
    | .succeeded => []
    | .failed _ => [⟨.nvFault, .migration, some j.seg, some j.source, none, none⟩]

/-- The context waits in RELOCATE_WAIT for a segment (R57). -/
def awaitsMigration (l : LogSeg) (x : Context) : Bool := x.state == .relocateWait && x.cmd == .relocate l

/-- The migrated notice at one port: its contexts in RELOCATE_WAIT for the segment complete OK, in ascending order of
context (R57, R169; notes/assumptions/23.md). -/
def migratedNotice (l : LogSeg) (h : HostPort) : HostPort :=
  (((List.range' 0 64).map (Fin.ofNat 64)).filter fun c => awaitsMigration l h.contexts[c]).foldl
    (fun h c => handCompletion c .ok .none h) h

/-- RETIREMENT_WRITE_DONE: the Retirement Memory's write ends and the migration is completed (R25, R56). -/
def execRetirementWriteDone (outcome : WriteOutcome) (s : State) : Host.Outcome State Fault Refusal :=
  match s.mig.job, s.ret.writing with
  | some j, some i =>
    if s.mig.state = .recording then
      let s1 := appendIncidents (migratedIncidents j outcome) { s with ret := s.ret.endWrite outcome i }
      let s2 := (s1.modPort .p0 (migratedNotice j.seg)).modPort .p1 (migratedNotice j.seg)
      .next
        { s2 with
          mig := { s2.mig with state := .idle, job := none, watermark := 0, copyLine := 0, copyStep := .read, kept := none } }
    else .next s
  | _, _ => .next s

end Sys2Proof.Machine
end

