-- ==== Sys2Proof/Machine/Intake.lean ====
section
/-! DEFINITION. The meanings of the intake rows and of the ends of drain and reset: SETUP_FETCH_DONE, RECORD_FETCH, RECORD_FETCH_DONE, DRAIN_END, RESET_COMPLETE (chapter 7). -/

namespace Sys2Proof.Machine

/-! ## Setup block -/

/-- The setup values are adopted and the port enters RUNNING, with the notice to the Lock Unit (R88) and the ALERT message
if ALERT is pending (R108, R157). -/
def enterRunning (v : SetupValues) (h : HostPort) : HostPort :=
  let q := mailLock (.notice .running) { h with values := some v, state := .running }
  if q.alertCause then sendMessage q else q

/-- SETUP_FETCH_DONE: the read of the setup block ends (R108). -/
def execSetupFetchDone (p : PortId) (block : Option (BitVec 512)) (s : State) : Host.Outcome State Fault Refusal :=
  if (s.port p).setupRead.isSome then
    let s1 := s.modPort p fun h => { h with setupRead := none }
    if (s.port p).state = .setup then
      match block with
      | none => .next (faultPort p .setupFetchError s1)
      | some b =>
        match setupValuesOf b with
        | none => .next (faultPort p .setupInvalid s1)
        | some v => .next (s1.modPort p (enterRunning v))
    else .next s1
  else .next s

/-! ## Taking records -/

/-- Every condition of R111 for a fetch holds. -/
def mayFetch (st : StoreState) (h : HostPort) : Bool :=
  h.state == .running && h.sqHead != h.sqTail && st == .ready && h.hold == .clear && h.hasRoom && h.fetch.isNone

/-- RECORD_FETCH: the intake reads the record at SQ base + SQ head × 64 (R111). -/
def execRecordFetch (p : PortId) (s : State) : Host.Outcome State Fault Refusal :=
  match (s.port p).values with
  | some v =>
    if mayFetch s.scrub.store (s.port p) then
      .next (s.modPort p fun h => { h with fetch := some (v.sqBase + h.sqHead * 64) })
    else .next s
  | none => .next s

/-- The lowest-numbered FREE context (R112). -/
def lowestFree (h : HostPort) : Option CtxId :=
  ((List.range' 0 64).map (Fin.ofNat 64)).find? fun c => (h.contexts[c]).state == .free

/-- The context of a record just taken, which keeps the record (R112, R117). -/
def takenContext (r : BitVec 512) (place : Nat) : Context :=
  match verdictOf r with
  | .accepted cmd => ⟨.waiting, place, r, cmd⟩
  | .answered .ok => ⟨.done, place, r, .nop⟩
  | .answered _ => ⟨.done, place, r, .rejected⟩

/-- A taking brings contexts in use to the pause mark (R113). -/
def holdAfterTaking (v : SetupValues) (h : HostPort) : Hold :=
  if h.inUse = pauseMark v.selector then .paused else h.hold

/-- The record has its context, the SQ head has advanced, and the pause mark is tested (R112, R113). -/
def occupyContext (v : SetupValues) (c : CtxId) (r : BitVec 512) (h : HostPort) : HostPort :=
  let q : HostPort :=
    { h with
      contexts := h.contexts.set c (takenContext r h.taken)
      taken := h.taken + 1
      sqHead := (h.sqHead + 1) % v.sqEntries }
  { q with hold := holdAfterTaking v q }

/-- A record is taken into context `c`: answered at once or put at the back of the work list (R112, R115, R116). -/
def takeRecord (v : SetupValues) (c : CtxId) (r : BitVec 512) (h : HostPort) : HostPort :=
  let q := occupyContext v c r h
  match verdictOf r with
  | .answered st => handCompletion c st .none q
  | .accepted _ => advance { q with workList := q.workList ++ [c] }

/-- RECORD_FETCH_DONE: the record fetch ends (the table of R112). -/
def execRecordFetchDone (p : PortId) (record : Option (BitVec 512)) (s : State) : Host.Outcome State Fault Refusal :=
  if (s.port p).fetch.isSome then
    let s1 := s.modPort p fun h => { h with fetch := none }
    if (s.port p).state = .running then
      match record with
      | none => .next (faultPort p .fetchError s1)
      | some r =>
        match (s.port p).values, lowestFree (s.port p) with
        | some v, some c => .next (s1.modPort p (takeRecord v c r))
        | _, _ => .next s1
    else .next s1
  else .next s

/-! ## Ends of drain and reset -/

/-- The drain ends: an announce if a record is unannounced, then OFF (R122, R154). -/
def endDrain (h : HostPort) : HostPort :=
  let q := if h.unannounced = 0 then h else announce h
  { q with state := .off }

/-- DRAIN_END: no context in use and no record fetch outstanding (R122). -/
def execDrainEnd (p : PortId) (s : State) : Host.Outcome State Fault Refusal :=
  let h := s.port p
  if h.state == .draining && h.inUse == 0 && h.fetch.isNone then .next (s.modPort p endDrain) else .next s

/-- The conditions of R124 for leaving RESETTING. -/
def resetDone (p : PortId) (s : State) : Bool :=
  (s.port p).state == .resetting && (s.sched.queue (.host p)).isEmpty && (s.port p).readsEnded && !checkReadOf p s
    && (s.port p).lockMail.isEmpty

/-- RESET_COMPLETE: the port leaves RESETTING for OFF (R124, R74). -/
def execResetComplete (p : PortId) (s : State) : Host.Outcome State Fault Refusal :=
  if resetDone p s then .next (s.modPort p fun h => { h with state := .off }) else .next s

end Sys2Proof.Machine
end

