-- ==== Sys2Proof/Machine/Locks.lean ====
section
/-! DEFINITION. The meanings of the Lock Unit's rows: ACQUIRE, RELEASE, GUARD_CHECK, WAITER_DEADLINE_EXPIRY and the four port notices (chapter 6). -/

namespace Sys2Proof.Machine

/-- ACQUIRE: the Lock Unit takes the request of port `p` that is next in the order it was handed, an ACQUIRE (R88, R89,
R90). -/
def execAcquire (p : PortId) (s : State) : Host.Outcome State Fault Refusal :=
  match (s.port p).lockMail with
  | .acquire c k o timeout :: rest =>
    let r := takeAcquire s.timeBase p c k o timeout s.locks
    let s1 := s.modPort p fun h => { h with lockMail := rest }
    .next (deliver r.2 { s1 with locks := r.1 })
  | _ => .next s

/-- RELEASE: the Lock Unit takes the next request of port `p`, a RELEASE (R94). -/
def execRelease (p : PortId) (s : State) : Host.Outcome State Fault Refusal :=
  match (s.port p).lockMail with
  | .release c k o :: rest =>
    let r := takeRelease p c k o s.locks
    let s1 := s.modPort p fun h => { h with lockMail := rest }
    .next (deliver r.2 { s1 with locks := r.1 })
  | _ => .next s

/-- GUARD_CHECK: the Lock Unit takes the next request of port `p`, a guard check, and the transfer goes on or ends
NOT_HOLDER (R101, R128). -/
def execGuardCheck (p : PortId) (s : State) : Host.Outcome State Fault Refusal :=
  match (s.port p).lockMail with
  | .guardCheck c k o :: rest =>
    .next (deliver (takeGuardCheck p c k o s.locks) (s.modPort p fun h => { h with lockMail := rest }))
  | _ => .next s

/-- WAITER_DEADLINE_EXPIRY: the Lock Unit takes the expiry of a waiter whose deadline was reached (R93). -/
def execWaiterDeadlineExpiry (p : PortId) (ctx : CtxId) (s : State) : Host.Outcome State Fault Refusal :=
  let r := takeExpiry p ctx s.locks
  .next (deliver r.2 { s with locks := r.1 })

/-- LOCK_RUNNING_NOTICE: only the port state held changes (R88). -/
def execLockRunningNotice (p : PortId) (s : State) : Host.Outcome State Fault Refusal :=
  .next (takeNotice .running p (fun u => (u.setView p .running, [])) s)

/-- LOCK_DRAIN_NOTICE: the port's waiters are cancelled (R97). -/
def execLockDrainNotice (p : PortId) (s : State) : Host.Outcome State Fault Refusal :=
  .next (takeNotice .draining p (takeDrain p) s)

/-- LOCK_FAULT_NOTICE: the port's waiters are removed with end notices (R98). -/
def execLockFaultNotice (p : PortId) (s : State) : Host.Outcome State Fault Refusal :=
  .next (takeNotice .faulted p (takeFault p) s)

/-- LOCK_RESET_NOTICE: the port's waiters are removed and its locks released with abandonment (R99). -/
def execLockResetNotice (p : PortId) (s : State) : Host.Outcome State Fault Refusal :=
  .next (takeNotice .resetting p (takeReset p) s)

end Sys2Proof.Machine
end

