-- ==== Sys2Proof/Machine/Maintenance.lean ====
section
/-! DEFINITION. The meanings of the Maintenance Unit's rows: MAP_QUERY, INCIDENTS, TUNE, RELOCATE, BUFFER_WRITE and MAINT_CHECK_READ_DONE (chapter 10). -/

namespace Sys2Proof.Machine

/-- MAP_QUERY: the arbiter starts a MAP_QUERY, which takes its snapshot (R162, R165). -/
def execMapQuery (s : State) : Host.Outcome State Fault Refusal :=
  match nextMaint s with
  | some (p, c, .mapQuery first count buffer) =>
    .next (setRunning p c (.mapQuery count buffer (snapshot first count s)) (startCommand p s))
  | _ => .next s

/-- INCIDENTS: the arbiter starts an INCIDENTS, which fixes the number it copies; with an empty list it completes at once
(R162, R173). -/
def execIncidents (s : State) : Host.Outcome State Fault Refusal :=
  match nextMaint s with
  | some (p, c, .incidents maximum buffer) =>
    if incidentsToCopy maximum s = 0 then .next (completeIncidents p c .ok 0 (startCommand p s))
    else .next (setRunning p c (.incidents (incidentsToCopy maximum s) 0 buffer) (startCommand p s))
  | _ => .next s

/-- TUNE: the arbiter starts a TUNE, which sets the values named and completes OK with the two values as they stood
(R162, R167). -/
def execTune (s : State) : Host.Outcome State Fault Refusal :=
  match nextMaint s with
  | some (p, c, .tune threshold rate) =>
    .next ((tuneRate rate (tuneThreshold threshold (startCommand p s))).modPort p
      (handCompletion c .ok (.tune s.seg.threshold s.scrub.rate)))
  | _ => .next s

/-- RELOCATE: the arbiter starts a RELOCATE, which offers its segment and ends by the answer (R162, R168). -/
def execRelocate (s : State) : Host.Outcome State Fault Refusal :=
  match nextMaint s with
  | some (p, c, .relocate seg) =>
    let x := relocateOffer seg s.seg
    let s1 := startCommand p s
    let s2 := { s1 with seg := x.1 }
    match x.2 with
    | .already => .next (s2.modPort p (handCompletion c .already .none))
    | .noSpare => .next (s2.modPort p (handCompletion c .noSpare .none))
    | .queued => .next (s2.modPort p (setCtxState c .relocateWait))
  | _ => .next s

/-- BUFFER_WRITE: the running command issues its next buffer write, and after the last one its check read (R163). -/
def execBufferWrite (s : State) : Host.Outcome State Fault Refusal :=
  match s.maint.running with
  | some r => if r.checkRead.isSome then .next s else .next (issueBufferWrite r s)
  | none => .next s

/-- MAINT_CHECK_READ_DONE: the check read of the running command returns or fails (R163, R164). -/
def execMaintCheckReadDone (returned : Bool) (s : State) : Host.Outcome State Fault Refusal :=
  match s.maint.running with
  | some r =>
    match r.checkRead with
    | some x => .next (endCheckRead r x.mark returned s)
    | none => .next s
  | none => .next s

end Sys2Proof.Machine
end

