-- ==== Sys2Proof/Machine/Power.lean ====
section
/-! DEFINITION. The meanings of POWER_ON_RESET, RETIREMENT_READ_DONE and BIT_IN_ERROR. -/

namespace Sys2Proof.Machine

/-- The Retirement Memory after a power-on reset: its slots are kept, but for the slot of a write in progress, and their
read starts (R24, R26). -/
def RetMem.powerOn (left : SlotRemnant) (r : RetMem) : RetMem :=
  let kept :=
    match r.writing with
    | some i => r.setSlot r.target (remnantOf left i)
    | none => r
  { kept with current := none, generation := 0, reading := true, writing := none }

/-- POWER_ON_RESET: every block takes its power-on values, and the read of the Retirement Memory starts. The links are as
they were (notes/assumptions/12.md), and the commands that wait are the outside's (R9, R16, R24, R26, R58, R75, R85,
R103). -/
def execPowerOnReset (left : SlotRemnant) (s : State) : Host.Outcome State Fault Refusal :=
  .next
    { State.reset with
      epoch := s.epoch + 1
      ret := s.ret.powerOn left
      port0 := { HostPort.powerOn with linkUp := s.port0.linkUp }
      port1 := { HostPort.powerOn with linkUp := s.port1.linkUp }
      pending := s.pending }

/-- The NV_FAULT incident of the power-on build (R24, R38). -/
def powerOnFault : Incident := ⟨.nvFault, .powerOn, none, none, none, none⟩

/-- A port that is still OFF holds ALERT from the power-on append on (R172); in another state the port takes the notice at
once or later. -/
def powerOnTakes (s : State) (p : PortId) : Bool := (s.port p).state == .off || takesAtOnce s p

/-- The current slot and its generation as the read leaves them (R23, R24). -/
def RetMem.afterRead (c : Option (SlotNo × BitVec 32)) (r : RetMem) : RetMem :=
  match c with
  | some (n, g) => { r with current := some n, generation := g, reading := false }
  | none => { r with current := none, generation := 0, reading := false }

/-- RETIREMENT_READ_DONE: the working retired list and the current slot come from the read, the map is built, NV_FAULT is
appended if the read gave it, and the sweep begins (R24, R27, R77). The Migration Unit is IDLE from power-on to here (R58). -/
def execRetirementReadDone (answered : Bool) (s : State) : Host.Outcome State Fault Refusal :=
  if s.ret.reading = true ∧ s.mig.state = .idle then
    let x := powerOnRead answered s.ret.slot0 s.ret.slot1
    let s1 := { s with ret := s.ret.afterRead x.current, seg := mapBuild x.retired }
    let s2 := if x.nvFault then appendTelling (powerOnTakes s1) powerOnFault s1 else s1
    .next (scrubIssue { s2 with scrub := { s2.scrub with pos := .at ⟨lowestServed s2.seg, 0⟩ } })
  else .next s

/-- BIT_IN_ERROR: one of the 72 stored bits of a word flips (R4, R6). -/
def execBitInError (line : PLine) (word : Fin 8) (bit : Fin 72) (s : State) : Host.Outcome State Fault Refusal :=
  let n := wordNumber line word.val
  .next { s with store := memoryPut s.store n (flipBit (storedAt s.epoch s.store n) bit) }

end Sys2Proof.Machine
end

