-- ==== Sys2Proof/Machine/Registers.lean ====
section
/-! DEFINITION. The meanings of the register writes and of the link: SETUP_WRITE, ENABLE, DISABLE, RESET, SUBMIT, CONSUME, REGISTER_WRITE_DISCARDED, LINK_DOWN, LINK_UP (chapter 7, R174, R175). ENABLE arrives over the link, so it comes about only with the link up (notes/assumptions/12.md); the other register writes make no use of the link. -/

namespace Sys2Proof.Machine

/-! ## SETUP and CONTROL -/

/-- The SETUP value after a write of the whole or of one half (R174). -/
def setupAfter (part : SetupPart) (old : BitVec 64) : BitVec 64 :=
  match part with
  | .whole v => v
  | .low v => old.extractLsb' 32 32 ++ v
  | .high v => v ++ old.extractLsb' 0 32

/-- SETUP_WRITE: replaces SETUP in every port state (R107, R174). -/
def execSetupWrite (p : PortId) (part : SetupPart) (s : State) : Host.Outcome State Fault Refusal :=
  .next (s.modPort p fun h => { h with setupReg := setupAfter part h.setupReg })

/-- Steps 1 and 2 of R107, with the writer's and the event unit's values at ENABLE (head table of chapter 9). -/
def enterSetup (h : HostPort) : HostPort :=
  { h with
    state := .setup
    sqHead := 0
    sqTail := 0
    cqHead := 0
    unconsumed := 0
    hold := .clear
    faultCode := .none
    cqTail := 0
    phase := true
    unannounced := 0
    announced := 0
    quietTimer := none
    writeList := []
    recordWrite := none
    faultCause := false
    doneCause := false }

/-- The setup block is aligned: SETUP is a multiple of 64 (R107, step 3). -/
def setupAligned (h : HostPort) : Bool := h.setupReg.toNat % 64 == 0

/-- ENABLE: a port in OFF enters SETUP and reads its setup block, or faults on a misaligned address (R105, R107). -/
def execEnable (p : PortId) (s : State) : Host.Outcome State Fault Refusal :=
  let h := s.port p
  if h.linkUp && h.state == .off then
    if setupAligned h then
      .next (s.modPort p fun h => { enterSetup h with setupRead := some h.setupReg.toNat })
    else .next (faultPort p .setupInvalid (s.modPort p enterSetup))
  else .next s

/-- The entry of a port to DRAINING: the drain notice is handed and the work list tested (R122, R119). -/
def enterDraining (h : HostPort) : HostPort := advance (mailLock (.notice .draining) { h with state := .draining })

/-- DISABLE: a port in RUNNING enters DRAINING (R105, R122). -/
def execDisable (p : PortId) (s : State) : Host.Outcome State Fault Refusal :=
  if (s.port p).state = .running then .next (s.modPort p enterDraining) else .next s

/-- RESET: a port in any other state enters RESETTING (R105, R124). -/
def execReset (p : PortId) (s : State) : Host.Outcome State Fault Refusal :=
  if (s.port p).state = .resetting then .next s else .next (resetPort p s)

/-! ## Doorbells -/

/-- SUBMIT: a new SQ tail, or the ring fault TAIL_INVALID, in RUNNING and DRAINING alone (R109). -/
def execSubmit (p : PortId) (v : BitVec 32) (s : State) : Host.Outcome State Fault Refusal :=
  let h := s.port p
  if h.inService then
    match h.values with
    | some x =>
      if v.toNat < x.sqEntries then .next (s.modPort p fun h => { h with sqTail := v.toNat })
      else .next (faultPort p .tailInvalid s)
    | none => .next s
  else .next s

/-- The number of records a CONSUME consumes: new head minus old head, modulo CQ entries (R110). -/
def consumedBy (v cqHead cqEntries : Nat) : Nat := (v + cqEntries - cqHead) % cqEntries

/-- A valid CONSUME of `k` records with new head `v` (R110, R155). -/
def takeConsume (v k : Nat) (h : HostPort) : HostPort :=
  { h with
    cqHead := v
    unconsumed := h.unconsumed - k
    announced := h.announced - k
    doneCause := if h.announced - k = 0 then false else h.doneCause }

/-- CONSUME: a new CQ head, or the ring fault HEAD_OVERRUN, in RUNNING and DRAINING alone (R110, R155). -/
def execConsume (p : PortId) (v : BitVec 32) (s : State) : Host.Outcome State Fault Refusal :=
  let h := s.port p
  if h.inService then
    match h.values with
    | some x =>
      if v.toNat < x.cqEntries ∧ consumedBy v.toNat h.cqHead x.cqEntries ≤ h.unconsumed then
        .next (s.modPort p (takeConsume v.toNat (consumedBy v.toNat h.cqHead x.cqEntries)))
      else .next (faultPort p .headOverrun s)
    | none => .next s
  else .next s

/-- REGISTER_WRITE_DISCARDED: no state changes and no fault code is set (R174). -/
def execRegisterWriteDiscarded (_p : PortId) (_w : WindowWrite) (s : State) : Host.Outcome State Fault Refusal := .next s

/-! ## Link -/

/-- Every host read of the port that its own units made ends as a failed read (R106). -/
def failReads (h : HostPort) : HostPort :=
  { h with setupRead := none, fetch := none, slotReads := Vector.replicate 4 none }

/-- The check read of port `p` ends as a failed read; its command, stopped by the reset, ends (R106, R164). -/
def failCheckRead (p : PortId) (s : State) : State := if checkReadOf p s then endRunning s else s

/-- The posted writes that had not been delivered are lost; those known delivered are not (R106;
notes/assumptions/13.md). -/
def loseWrites (delivered : Nat) (h : HostPort) : HostPort :=
  let keep := max h.sentSure (min delivered h.sent.length)
  { h with sent := h.sent.take keep, sentSure := keep }

/-- LINK_DOWN: the port enters RESETTING unless it is there, its outstanding host reads end as failed, and its
undelivered writes are lost (R106). -/
def execLinkDown (p : PortId) (delivered : Nat) (s : State) : Host.Outcome State Fault Refusal :=
  if (s.port p).linkUp then
    let s1 := if (s.port p).state = .resetting then s else resetPort p s
    .next ((failCheckRead p s1).modPort p fun h => { loseWrites delivered (failReads h) with linkUp := false })
  else .next s

/-- LINK_UP: the link is back, and the port stays as it is (R106). -/
def execLinkUp (p : PortId) (s : State) : Host.Outcome State Fault Refusal :=
  .next (s.modPort p fun h => { h with linkUp := true })

end Sys2Proof.Machine
end

