-- ==== Sys2Proof/Machine/Transfers.lean ====
section
/-! DEFINITION. The meanings of the transfer unit's rows: READ, WRITE, FILL, COPY, SCAN, SCATTER_LIST_READ_DONE, HOST_DATA_READ_DONE, REFERENCE_ISSUE (chapter 8). -/

namespace Sys2Proof.Machine

def isRead : Command → Bool
  | .read .. => true
  | _ => false

def isFill : Command → Bool
  | .fill .. => true
  | _ => false

def isCopy : Command → Bool
  | .copy .. => true
  | _ => false

def isScan : Command → Bool
  | .scan .. => true
  | _ => false

/-- READ: the READ at the head of the work list takes a slot (R119, R128). -/
def execRead (p : PortId) (s : State) : Host.Outcome State Fault Refusal := .next (s.modPort p (activateTransfer isRead))

/-- WRITE: the WRITE at the head of the work list takes a slot (R119, R128, R134). -/
def execWrite (p : PortId) (s : State) : Host.Outcome State Fault Refusal :=
  .next (s.modPort p (activateTransfer Command.isWrite))

/-- FILL: the FILL at the head of the work list takes a slot (R119, R128, R135). -/
def execFill (p : PortId) (s : State) : Host.Outcome State Fault Refusal := .next (s.modPort p (activateTransfer isFill))

/-- COPY: the COPY at the head of the work list takes a slot (R119, R128, R137). -/
def execCopy (p : PortId) (s : State) : Host.Outcome State Fault Refusal := .next (s.modPort p (activateTransfer isCopy))

/-- SCAN: the SCAN at the head of the work list takes a slot (R119, R128, R139). -/
def execScan (p : PortId) (s : State) : Host.Outcome State Fault Refusal := .next (s.modPort p (activateTransfer isScan))

/-- SCATTER_LIST_READ_DONE: the scatter-list read of a slot ends (R129). -/
def execScatterListReadDone (p : PortId) (slot : SlotId) (list : Option (List (BitVec 128))) (s : State) :
    Host.Outcome State Fault Refusal :=
  match (s.port p).slotReads[slot] with
  | some (.list _ count) => .next (s.modPort p (takeList slot count list))
  | _ => .next s

/-- HOST_DATA_READ_DONE: the host-data read of one piece ends (R134, R136). -/
def execHostDataReadDone (p : PortId) (slot : SlotId) (words : Option (List Word)) (s : State) :
    Host.Outcome State Fault Refusal :=
  match (s.port p).slotReads[slot] with
  | some (.data _ count) => .next (s.modPort p (takeData slot count words))
  | _ => .next s

/-- REFERENCE_ISSUE: with a free place in queue Tp the first slot in rotation with a reference ready issues it (R61,
R132). -/
def execReferenceIssue (p : PortId) (s : State) : Host.Outcome State Fault Refusal :=
  if (s.port p).state != .resetting && (s.sched.queue (.host p)).length < 4 then
    match issuingSlot (s.port p) with
    | some (i, t) => .next (issueRef (.host p) t.issue.1 (s.modPort p (issueFrom i t)))
    | none => .next s
  else .next s

end Sys2Proof.Machine
end

