-- ==== Sys2Proof/Machine/Dispatch.lean ====
section
/-! DEFINITION. The dispatch: one arm for every row of spec/opcode_table.json, each one call of that row's meaning. -/

namespace Sys2Proof.Machine

def exec (i : Instr) (s : State) : Host.Outcome State Fault Refusal :=
  match i with
  | .powerOnReset left => Sys2Proof.Machine.execPowerOnReset left s
  | .retirementReadDone answered => Sys2Proof.Machine.execRetirementReadDone answered s
  | .setupWrite p part => Sys2Proof.Machine.execSetupWrite p part s
  | .enable p => Sys2Proof.Machine.execEnable p s
  | .disable p => Sys2Proof.Machine.execDisable p s
  | .reset p => Sys2Proof.Machine.execReset p s
  | .submit p v => Sys2Proof.Machine.execSubmit p v s
  | .consume p v => Sys2Proof.Machine.execConsume p v s
  | .registerWriteDiscarded p w => Sys2Proof.Machine.execRegisterWriteDiscarded p w s
  | .linkDown p delivered => Sys2Proof.Machine.execLinkDown p delivered s
  | .linkUp p => Sys2Proof.Machine.execLinkUp p s
  | .setupFetchDone p block => Sys2Proof.Machine.execSetupFetchDone p block s
  | .recordFetch p => Sys2Proof.Machine.execRecordFetch p s
  | .recordFetchDone p record => Sys2Proof.Machine.execRecordFetchDone p record s
  | .read p => Sys2Proof.Machine.execRead p s
  | .write p => Sys2Proof.Machine.execWrite p s
  | .fill p => Sys2Proof.Machine.execFill p s
  | .copy p => Sys2Proof.Machine.execCopy p s
  | .scan p => Sys2Proof.Machine.execScan p s
  | .guardCheck p => Sys2Proof.Machine.execGuardCheck p s
  | .scatterListReadDone p slot list => Sys2Proof.Machine.execScatterListReadDone p slot list s
  | .hostDataReadDone p slot words => Sys2Proof.Machine.execHostDataReadDone p slot words s
  | .referenceIssue p => Sys2Proof.Machine.execReferenceIssue p s
  | .grant b => Sys2Proof.Machine.execGrant b s
  | .operationDone b arbiterFirst => Sys2Proof.Machine.execOperationDone b arbiterFirst s
  | .healthReport b => Sys2Proof.Machine.execHealthReport b s
  | .migrationStart => Sys2Proof.Machine.execMigrationStart s
  | .chunkLockHeld => Sys2Proof.Machine.execChunkLockHeld s
  | .retirementWriteDone outcome => Sys2Proof.Machine.execRetirementWriteDone outcome s
  | .pacingTick => Sys2Proof.Machine.execPacingTick s
  | .acquire p => Sys2Proof.Machine.execAcquire p s
  | .release p => Sys2Proof.Machine.execRelease p s
  | .waiterDeadlineExpiry p ctx => Sys2Proof.Machine.execWaiterDeadlineExpiry p ctx s
  | .lockRunningNotice p => Sys2Proof.Machine.execLockRunningNotice p s
  | .lockDrainNotice p => Sys2Proof.Machine.execLockDrainNotice p s
  | .lockFaultNotice p => Sys2Proof.Machine.execLockFaultNotice p s
  | .lockResetNotice p => Sys2Proof.Machine.execLockResetNotice p s
  | .mapQuery => Sys2Proof.Machine.execMapQuery s
  | .incidents => Sys2Proof.Machine.execIncidents s
  | .tune => Sys2Proof.Machine.execTune s
  | .relocate => Sys2Proof.Machine.execRelocate s
  | .maintCheckReadDone returned => Sys2Proof.Machine.execMaintCheckReadDone returned s
  | .completionWriteAccepted p stale => Sys2Proof.Machine.execCompletionWriteAccepted p stale s
  | .completionWriteRefused p stale => Sys2Proof.Machine.execCompletionWriteRefused p stale s
  | .quietTimerExpiry p => Sys2Proof.Machine.execQuietTimerExpiry p s
  | .drainEnd p => Sys2Proof.Machine.execDrainEnd p s
  | .resetComplete p => Sys2Proof.Machine.execResetComplete p s
  | .bufferWrite => Sys2Proof.Machine.execBufferWrite s
  | .bitInError line word bit => Sys2Proof.Machine.execBitInError line word bit s

end Sys2Proof.Machine
end

