-- ==== Sys2Proof/Machine/Step.lean ====
section
/-! DEFINITION. The step: the command at the front of the queue is taken. -/

namespace Sys2Proof.Machine

/-- The state with the queue of waiting commands replaced. -/
def State.withPending (s : State) (l : List Instr) : State := { s with pending := l }

/-- One step: the command at the front of `pending` leaves it and has its effect. On an empty queue
the block idles (notes/assumptions/2.md), but that a port takes a notice of the Incident List that waits at it: no row of the
table is that event (R172; notes/assumptions/18.md). -/
def step (s : State) : Host.Outcome State Fault Refusal :=
  match s.pending with
  | [] => .next (takeWaitingAlert s)
  | c :: rest => exec c (s.withPending rest)

/-- The state with the command that a word of the opcode table spells put at the front of its queue; no row of the table
has bits, so no word spells one (notes/assumptions/3.md). -/
def State.withFetchWord (s : State) (nbits w : Nat) : State :=
  match decodeTableWord nbits w with
  | some c => s.withPending (c :: s.pending)
  | none => s

end Sys2Proof.Machine
end

