-- ==== Sys2Proof/Safety.lean ====
section
/-! DEFINITION. What holds of the machine between its steps, in the terms statements use: the manual's rules about the whole state. -/

namespace Sys2Proof.Machine

/-! ## The store -/

/-- The listed words of the store are in canonical form. -/
def StoreOk (s : State) : Prop := Memory.wf s.store = true

/-! ## Map, roles and queue (R19, R21, R22, R30, R40) -/

/-- A physical segment is MAPPED to a logical one exactly when the map names it, and a MAPPED one has a logical segment (R19). -/
def RolesAgree (g : SegMap) : Prop :=
  (∀ (p : PhysSeg) (l : LogSeg), ((g.phys[p]).role = .mapped ∧ (g.phys[p]).logical = some l) ↔ (g.map[l]).phys = p) ∧
    ∀ p : PhysSeg, (g.phys[p]).role = .mapped → (g.phys[p]).logical.isSome = true

/-- The spare list holds the SPARE segments, ascending (R21), and the retired list the RETIRED ones, without duplicates
(R22). -/
def ListsAgree (g : SegMap) : Prop :=
  g.spares.Pairwise (· < ·) ∧ (∀ p : PhysSeg, p ∈ g.spares ↔ (g.phys[p]).role = .spare) ∧
    g.retired.Nodup ∧ ∀ p : PhysSeg, p ∈ g.retired ↔ (g.phys[p]).role = .retired

/-- The relocation queue holds the QUEUED segments, none twice, and no more than there are spares (R30). -/
def QueueAgrees (g : SegMap) : Prop :=
  g.queue.Nodup ∧ (∀ l : LogSeg, l ∈ g.queue ↔ (g.map[l]).state = .queued) ∧ g.queue.length ≤ g.spares.length

/-- A segment is MIGRATING and one RESERVED exactly while a migration is in progress, from the mapped source to the
RESERVED destination (R19, R40). -/
def MigrationAgrees (g : SegMap) (m : Migration) : Prop :=
  (∀ l : LogSeg, (g.map[l]).state = .migrating ↔ m.inProgress = true ∧ m.job.map Job.seg = some l) ∧
    (∀ p : PhysSeg, (g.phys[p]).role = .reserved ↔ m.inProgress = true ∧ m.job.map Job.dest = some p) ∧
    ∀ j : Job, m.inProgress = true → m.job = some j →
      (g.map[j.seg]).phys = j.source ∧ (g.phys[j.dest]).logical = some j.seg

/-- RELOCATE-again is set in MIGRATING alone (R18). -/
def AgainOk (g : SegMap) : Prop := ∀ l : LogSeg, (g.map[l]).again = true → (g.map[l]).state = .migrating

/-- The fields the Migration Unit holds in each of its states (the table of R40). -/
def MigrationFieldsOk (m : Migration) : Prop :=
  match m.state with
  | .idle => m.job = none ∧ m.watermark = 0 ∧ m.lock = .none
  | .stepping => m.job.isSome = true ∧ m.watermark ≤ 16383 ∧ (m.lock = .none ∨ m.lock = .closing)
  | .copying => m.job.isSome = true ∧ m.watermark ≤ 16383 ∧ m.lock = .held
  | .recording => m.job.isSome = true ∧ m.watermark = 16384 ∧ m.lock = .none

/-- The held-over set is empty outside STEPPING, and in STEPPING the lock is CLOSING exactly while it is empty (R46). -/
def HeldOverOk (m : Migration) : Prop :=
  let empty := m.heldOver.t0 = false ∧ m.heldOver.t1 = false ∧ m.heldOver.s = false
  if m.state = .stepping then (m.lock = .closing ↔ empty) else empty

/-- The rules of the map, the roles, the lists, the queue and the migration hold together. -/
def SegmentsOk (s : State) : Prop :=
  RolesAgree s.seg ∧ ListsAgree s.seg ∧ QueueAgrees s.seg ∧ MigrationAgrees s.seg s.mig ∧ AgainOk s.seg ∧
    MigrationFieldsOk s.mig ∧ HeldOverOk s.mig

/-! ## The lock table (R86, R87) -/

/-- Two waiter entries are not of one party for one lock (R86). -/
def Waiter.distinct (a b : Waiter) : Prop := ¬ (a.lock = b.lock ∧ a.party = b.party)

/-- The pool's limits, and the properties of R86: a free lock has no waiter, no waiter is the holder, no party waits twice
for one lock, and the ABANDONED mark stands on a free lock alone. -/
def LocksOk (u : LockUnit) : Prop :=
  u.pool.length ≤ 64 ∧ (∀ p, waiterCount u p ≤ 40) ∧
    (∀ w ∈ u.pool, (u.table[w.lock]).holder.isSome = true ∧ (u.table[w.lock]).holder ≠ some w.party) ∧
    u.pool.Pairwise Waiter.distinct ∧
    ∀ k : LockId, (u.table[k]).abandoned = true → (u.table[k]).holder = none

/-! ## The event causes (R106, R155, R156, R172) -/

/-- The ALERT cause of a port, the notices of the Incident List that wait at it, in order, and whether the list has a record:
each notice tells of one change, and after the last of them ALERT stands as the list does (R172). -/
def AlertFollows : (alert : Bool) → (notices : List AlertNotice) → (listed : Bool) → Prop
  | alert, [], listed => alert = listed
  | alert, .nonEmpty :: rest, listed => alert = false ∧ AlertFollows true rest listed
  | alert, .empty :: rest, listed => alert = true ∧ AlertFollows false rest listed

/-- At one port: DONE is pending exactly while the announced count is non-zero, announced records are unconsumed, FAULT is
pending exactly in FAULTED, ALERT with the notices that wait follows the Incident List, so that with none waiting it is
pending exactly while the list has a record, and a port whose link is down is in RESETTING or OFF. -/
def PortOk (records : List IncidentRecord) (h : HostPort) : Prop :=
  (h.doneCause = true ↔ h.announced ≠ 0) ∧ h.announced ≤ h.unconsumed ∧ (h.faultCause = true ↔ h.state = .faulted) ∧
    AlertFollows h.alertCause h.notices (!records.isEmpty) ∧ (h.linkUp = false → h.state = .off ∨ h.state = .resetting)

/-- Both ports keep to the rules of their event causes. -/
def PortsOk (s : State) : Prop := PortOk s.incidents.records s.port0 ∧ PortOk s.incidents.records s.port1

/-! ## Contexts, their owners, the intake and the completion ring (R111 to R114, R117, R118) -/

/-- The contexts of the lock requests a port has handed and the Lock Unit not yet taken. -/
def requestContexts (mail : List LockMail) : List CtxId :=
  mail.filterMap fun
    | .acquire c .. => some c
    | .release c .. => some c
    | _ => none

/-- The notices a port has handed and the Lock Unit not yet taken. -/
def noticesOf (mail : List LockMail) : List LockView :=
  mail.filterMap fun
    | .notice v => some v
    | _ => none

/-- Every place that names a context of port `p` as its own: the work list, the transfer slots, the record write and the
completions behind it, the Maintenance Unit's queue and running command, the requests under way to the Lock Unit and the
waiters in its pool. -/
def owners (p : PortId) (s : State) : List CtxId :=
  let h := s.port p
  h.workList ++ h.slots.toList.filterMap (fun x => x.map Transfer.ctx) ++
    (h.recordWrite.map fun r => r.completion.ctx).toList ++ (unissued h).map Completion.ctx ++ h.maintQueue ++
    (s.maint.running.toList.filter fun r => r.port = p).map Running.ctx ++ requestContexts h.lockMail ++
    (s.locks.pool.filter fun w => w.party.port = p).map Waiter.ctx

/-- A context has at most one owner, and one that has an owner is in use and not in RELOCATE_WAIT (R117, R118). -/
def ContextsOwned (p : PortId) (s : State) : Prop :=
  (owners p s).Nodup ∧
    ∀ c ∈ owners p s, (((s.port p).contexts[c]).state ≠ .free ∧ ((s.port p).contexts[c]).state ≠ .relocateWait)

/-- In RESETTING the port itself names no context, a check read it waits for is outstanding, and until the Lock Unit has
taken the reset notice that notice is the last one handed; from then on no waiter of the port is left (R124). -/
def ResettingOk (p : PortId) (s : State) : Prop :=
  let h := s.port p
  h.workList = [] ∧ (∀ i : SlotId, h.slots[i] = none) ∧ h.recordWrite = none ∧ h.writeList = [] ∧ h.maintQueue = [] ∧
    (∀ r, s.maint.running = some r → r.port = p → r.checkRead.isSome = true) ∧
    ((noticesOf h.lockMail).getLast? = some .resetting ∨
      noticesOf h.lockMail = [] ∧ s.locks.view p = .resetting ∧ ∀ w ∈ s.locks.pool, w.party.port ≠ p)

/-- The record write outstanding is that of the front of the write list, and a port in FAULTED has no write list (R150,
R159). -/
def WriterOk (h : HostPort) : Prop :=
  (∀ r, h.recordWrite = some r → h.inService = true → h.writeList.head? = some r.completion) ∧
    (h.state = .faulted → h.writeList = [])

/-- Contexts in use and unconsumed records never exceed CQ entries, and leave room for one more record while a record is
being fetched (R114, R111). A port in OFF, SETUP or RESETTING has no context in use, and one in SETUP no unconsumed
record (R107). -/
def RingRoomOk (h : HostPort) : Prop :=
  (∀ v, h.values = some v →
      h.inUse + h.unconsumed ≤ v.cqEntries ∧
        (h.state = .running → h.fetch.isSome = true → h.inUse + h.unconsumed < v.cqEntries)) ∧
    (h.state = .off ∨ h.state = .setup ∨ h.state = .resetting → ∀ c : CtxId, (h.contexts[c]).state = .free) ∧
    (h.state = .setup → h.unconsumed = 0)

/-- The intake hold state agrees with contexts in use: CLEAR stands below the pause mark of the selector alone, PAUSED above its
resume mark alone (R113). -/
def HoldAgrees (h : HostPort) : Prop :=
  ∀ v, h.values = some v →
    (h.hold = .clear → h.inUse < #v[16, 32, 48, 64][v.selector]) ∧
      (h.hold = .paused → #v[8, 16, 32, 48][v.selector] < h.inUse)

/-- A port in RUNNING or DRAINING has its setup values (R108), the hold state agrees with contexts in use (R113) and is CLEAR in
SETUP (R107); and while a port in RUNNING fetches a record, it is CLEAR and a context is FREE for that record (R111, R112). -/
def IntakeOk (h : HostPort) : Prop :=
  (h.inService = true → h.values.isSome = true) ∧ HoldAgrees h ∧ (h.state = .setup → h.hold = .clear) ∧
    (h.state = .running → h.fetch.isSome = true → h.hold = .clear ∧ ∃ c : CtxId, (h.contexts[c]).state = .free)

/-- The rule of R114 at a port, with the intake's conditions and the ownership of contexts it rests on. -/
def CompletionRoomOk (p : PortId) (s : State) : Prop :=
  RingRoomOk (s.port p) ∧ IntakeOk (s.port p) ∧ WriterOk (s.port p) ∧
    (if (s.port p).state = .resetting then ResettingOk p s else ContextsOwned p s)

/-! ## Queues and banks (R48, R54, R59, R65) -/

/-- Queue M and the copy position in the copy of a chunk (R48, R59): the READ_LINE of the line at the position, alone or behind
the WRITE_LINE of the line before; or that write alone, the read having returned and being kept, which is the model's choice
(notes/assumptions/40.md); or the WRITE_LINE of line 63, with nothing left to issue, at the position line 0, READ that the model
holds then (notes/assumptions/29.md). Outside COPYING queue M is empty (R54) and nothing is kept. -/
def CopyQueueOk (m : Migration) (queue : List Ref) : Prop :=
  if m.state = .copying then
    ∃ j, m.job = some j ∧
      let k := m.copyLine
      let isRead (x : Ref) : Prop := x = { copyReadRef j m.watermark k with granted := x.granted }
      let isWrite (i : Nat) (x : Ref) : Prop := ∃ r, x = { copyWriteRef j m.watermark i r with granted := x.granted }
      (m.kept = none ∧ m.copyStep = .write ∧ k ≤ 63 ∧
          ∃ y, isRead y ∧ (queue = [y] ∨ ∃ i x, k = i + 1 ∧ isWrite i x ∧ queue = [x, y])) ∨
        (∃ i x r, m.kept = some (k, r) ∧ m.copyStep = .write ∧ k = i + 1 ∧ k ≤ 63 ∧ isWrite i x ∧ queue = [x]) ∨
        (m.kept = none ∧ m.copyStep = .read ∧ k = 0 ∧ ∃ x, isWrite 63 x ∧ queue = [x])
  else queue = [] ∧ m.kept = none

/-- Queue M is as the copy of a chunk has it, and empty outside; the reference of a BUSY bank is IN_PROGRESS in the queue of its
source, at that bank. -/
def QueuesOk (s : State) : Prop :=
  CopyQueueOk s.mig s.sched.m ∧
    ∀ (b : Bank) (o : BankOp), s.sched.banks[b] = some o →
      o.ref ∈ s.sched.queue o.source ∧ o.ref.granted.isSome = true ∧ o.ref.bank = b

/-! ## Sizes (R28, R59, R80, R170) -/

/-- Queues T0, T1 and S hold at most 4 references, the Incident List at most 16 records, the dropped count at most 255, the
pacing credit at most 4,000 and each health counter at most 65,535. -/
def SizesOk (s : State) : Prop :=
  s.sched.t0.length ≤ 4 ∧ s.sched.t1.length ≤ 4 ∧ s.sched.s.length ≤ 4 ∧ s.incidents.records.length ≤ 16 ∧
    s.incidents.dropped ≤ 255 ∧ s.scrub.credit ≤ 4000 ∧ ∀ p : PhysSeg, (s.seg.phys[p]).counter ≤ 65535

/-- A property of states is kept by every step. -/
def Kept (inv : State → Prop) : Prop := ∀ s t : State, inv s → step s = .next t → inv t

/-! ## The held-over set and the scrub walk (R46, R77, R79) -/

/-- A queue left the held-over set between `m` and `m'` (R46): the other queues stay in it as they were, and in STEPPING an
empty set brings the lock from NONE to CLOSING. -/
def HeldOverLeft (src : Source) (m m' : Migration) : Prop :=
  m' = { m with heldOver := m'.heldOver, lock := m'.lock } ∧
    m'.heldOver.t0 = (m.heldOver.t0 && decide (src ≠ .host .p0)) ∧
    m'.heldOver.t1 = (m.heldOver.t1 && decide (src ≠ .host .p1)) ∧
    m'.heldOver.s = (m.heldOver.s && decide (src ≠ .scrub)) ∧
    m'.lock =
      if m.state = .stepping ∧ m.lock = .none ∧ m'.heldOver.t0 = false ∧ m'.heldOver.t1 = false ∧ m'.heldOver.s = false then
        .closing
      else m.lock

/-- Where the patrol issues at position `l` (R79): there, or for a RETIRED segment at line 0 of the next segment in the walk
order, 519 being followed by 0, that is not. -/
def PatrolLineAt (g : SegMap) (l k : PLine) : Prop :=
  ((g.phys[l.seg]).role ≠ .retired → k = l) ∧
    ((g.phys[l.seg]).role = .retired →
      k.off = 0 ∧ (g.phys[k.seg]).role ≠ .retired ∧
        ∃ n, 1 ≤ n ∧ k.seg.val = (l.seg.val + n) % 520 ∧
          ∀ (m : Nat) (q : PhysSeg), 1 ≤ m → m < n → q.val = (l.seg.val + m) % 520 → (g.phys[q]).role = .retired)

/-- The references of a patrol from position `l`, one a line, and the position after them (R79). -/
def PatrolWalk (g : SegMap) : PLine → List Ref → PLine → Prop
  | l, [], last => last = l
  | l, r :: rs, last =>
    ∃ k, PatrolLineAt g l k ∧ r = ⟨.scrub .patrol, .physical k, .scrubLine, none⟩ ∧
      PatrolWalk g (if k.off.val = 1048575 then ⟨k.seg + 1, 0⟩ else ⟨k.seg, k.off + 1⟩) rs last

/-- The sweep's position after line `l` (R77): the next line, or line 0 of the lowest segment above that is not RETIRED, or
ENDED if there is none. -/
def SweepLineAfter (g : SegMap) (l : PLine) (pos : ScrubPos) : Prop :=
  (l.off.val ≠ 1048575 → pos = .at ⟨l.seg, l.off + 1⟩) ∧
    (l.off.val = 1048575 →
      (∀ q : PhysSeg, l.seg < q → (g.phys[q]).role ≠ .retired →
        (∀ u : PhysSeg, l.seg < u → u < q → (g.phys[u]).role = .retired) → pos = .at ⟨q, 0⟩) ∧
        ((∀ q : PhysSeg, l.seg < q → (g.phys[q]).role = .retired) → pos = .ended))

/-- The references of the sweep from a position, and the position after them (R77). -/
def SweepWalk (g : SegMap) : ScrubPos → List Ref → ScrubPos → Prop
  | pos, [], last => last = pos
  | .at l, r :: rs, last =>
    r = ⟨.scrub .sweep, .physical l, .initLine, none⟩ ∧ ∃ pos, SweepLineAfter g l pos ∧ SweepWalk g pos rs last
  | .ended, _ :: _, _ => False

/-! ## Words and pieces of a range (R130, R131) -/

/-- The address of word `w` of line index `i` of a range that starts at `start` (R131). -/
def wordAddress (start i w : Nat) : Nat := (start / 64 + i) * 64 + 8 * w

/-- The covered words of line index `i` of a range, ascending (R131). -/
def wordsOfLine (start len i : Nat) : List (Fin 8) :=
  (List.finRange 8).filter fun w => start ≤ wordAddress start i w.val ∧ wordAddress start i w.val < start + len

/-- The first offset that entry `k` of a host side covers (R130). -/
def entryOffset (entries : List (Nat × Nat)) (k : Nat) : Nat := ((entries.take k).map Prod.snd).sum

/-- The pieces of line index `i` of a range (R130): they hold the covered words in order, each piece the words that fall in
one entry, at the entry's host address and onward. -/
def PiecesAre (entries : List (Nat × Nat)) (start len i : Nat) (pieces : List Piece) : Prop :=
  (pieces.flatMap Piece.words) = (wordsOfLine start len i).map (·.val) ∧
    (pieces.map Piece.entry).Pairwise (· < ·) ∧
    ∀ q ∈ pieces, ∃ (first : Nat) (more : List Nat) (e : Nat × Nat),
      q.words = first :: more ∧ entries[q.entry]? = some e ∧
        q.addr = e.1 + (wordAddress start i first - start - entryOffset entries q.entry) ∧
        ∀ w ∈ q.words,
          entryOffset entries q.entry ≤ wordAddress start i w - start ∧
            wordAddress start i w - start < entryOffset entries q.entry + e.2

/-- A word outcome that counts as bad (R142). -/
def IsBad (o : WordOutcome) : Prop := o = .uncorrectable ∨ o = .poisoned

/-! ## The end of an operation (R65, R68) -/

/-- The state on which the source acts when bank `b` has ended its operation `o` (R68, R69): the operation performed, its report
handed, the bank IDLE and the reference gone from its queue; and, where the bank's arbiter acted first, what that act made of it
(R65). Which of the two orders is an operand of the event (notes/assumptions/19.md). -/
def SourceActsOn (b : Bank) (arbiterFirst : Bool) (o : BankOp) (s u : State) : Prop :=
  let done := performOp s.epoch s.store o.ref.op o.line
  let left := (s.sched.queue o.source).eraseP fun r => r.granted.isSome && r.bank == b
  let freed : State :=
    { s with
      store := done.1
      reports := s.reports ++ healthReportOf o.source o.ref.op o.line done.2
      sched := { s.sched.setQueue o.source left with banks := s.sched.banks.set b none } }
  if arbiterFirst = true then exec (.grant b) freed = .next u else u = freed

/-! ## Bytes of records (R177) -/

/-- The field of `n` bytes at byte `k` of a record, little-endian (R177). -/
def leAt (bytes : List Byte) (k n : Nat) : Nat := ((bytes.drop k).take n).foldr (fun b v => b.toNat + 256 * v) 0

/-! ## The form of a submission record (R115, R178, section 11.2) -/

/-- The field of `bytes` bytes of a record that starts at byte `byte`, as a number. -/
def recordNum (r : BitVec 512) (byte bytes : Nat) : Nat := (r.extractLsb' (8 * byte) (8 * bytes)).toNat

/-- Bits `first` up to, not including, `last` of a record are clear. -/
def BitsClear (r : BitVec 512) (first last : Nat) : Prop := ∀ b, first ≤ b → b < last → r.getLsbD b = false

/-- Bytes `first` up to, not including, `last` of a record are zero: they are reserved. -/
def BytesZero (r : BitVec 512) (first last : Nat) : Prop := BitsClear r (8 * first) (8 * last)

/-- The checks of every record (R115): no undefined flag; GUARD, bit 2 of the flags, on transfers alone and with a lock number
of 0 to 255; without it the guard fields zero; SCATTER, bit 3, on READ and WRITE alone. -/
def CommonFieldsFit (r : BitVec 512) : Prop :=
  BitsClear r 12 16 ∧
    (r.getLsbD 10 = true → 1 ≤ recordNum r 0 1 ∧ recordNum r 0 1 ≤ 5 ∧ recordNum r 4 2 ≤ 255) ∧
    (r.getLsbD 10 = false → BytesZero r 4 8) ∧ (r.getLsbD 11 = true → recordNum r 0 1 = 1 ∨ recordNum r 0 1 = 2)

/-- A transfer's store address and length (R115): multiples of 8, the length from 8 to 16,777,216. -/
def RangeFits (r : BitVec 512) : Prop :=
  recordNum r 8 8 % 8 = 0 ∧ recordNum r 16 4 % 8 = 0 ∧ 8 ≤ recordNum r 16 4 ∧ recordNum r 16 4 ≤ 16777216

/-- The checks of a record by its opcode (R115), with the bytes its opcode does not use zero (R178). -/
def OpcodeFieldsFit (r : BitVec 512) : Prop :=
  let op := recordNum r 0 1
  let num := recordNum r
  (op = 0x00 ∧ BytesZero r 4 64) ∨
    ((op = 0x01 ∨ op = 0x02) ∧ RangeFits r ∧ num 24 8 % 8 = 0 ∧ BytesZero r 22 24 ∧ BytesZero r 32 64 ∧
      (r.getLsbD 11 = true → 1 ≤ num 20 2 ∧ num 20 2 ≤ 64) ∧ (r.getLsbD 11 = false → num 20 2 = 0)) ∨
    (op = 0x03 ∧ RangeFits r ∧ BytesZero r 20 24 ∧ BytesZero r 32 64) ∨
    (op = 0x04 ∧ RangeFits r ∧ num 24 8 % 8 = 0 ∧ (num 8 8 + num 16 4 ≤ num 24 8 ∨ num 24 8 + num 16 4 ≤ num 8 8) ∧
      BytesZero r 20 24 ∧ BytesZero r 32 64) ∨
    (op = 0x05 ∧ RangeFits r ∧ BytesZero r 20 24 ∧ BytesZero r 40 64) ∨
    (op = 0x10 ∧ num 8 2 ≤ 255 ∧ BytesZero r 14 64) ∨ (op = 0x11 ∧ num 8 2 ≤ 255 ∧ BytesZero r 12 64) ∨
    (op = 0x20 ∧ num 8 2 ≤ 511 ∧ 1 ≤ num 10 2 ∧ num 10 2 ≤ 512 ∧ num 8 2 + num 10 2 ≤ 512 ∧ num 16 8 % 8 = 0 ∧
      16 * num 10 2 + 64 ≤ num 12 4 ∧ BytesZero r 24 64) ∨
    (op = 0x21 ∧ 1 ≤ num 8 2 ∧ num 8 2 ≤ 16 ∧ num 16 8 % 8 = 0 ∧ BytesZero r 10 16 ∧ BytesZero r 24 64) ∨
    (op = 0x22 ∧ (r.getLsbD 64 = true ∨ r.getLsbD 65 = true) ∧ BitsClear r 66 80 ∧
      (r.getLsbD 64 = true → 1 ≤ num 10 2) ∧ (r.getLsbD 65 = true → num 12 2 ≤ 4096) ∧ BytesZero r 14 64) ∨
    (op = 0x23 ∧ num 8 2 ≤ 511 ∧ BytesZero r 10 64)

/-! ## Frames -/

/-- Nothing but port `p` has changed. -/
def OnlyPort (p : PortId) (s t : State) : Prop := t = s.setPort p (t.port p)

/-- Port `q` is port `p` but for the state of its commands. -/
def SameControl (p q : HostPort) : Prop :=
  q = { p with
    contexts := q.contexts
    hold := q.hold
    workList := q.workList
    slots := q.slots
    slotReads := q.slotReads
    lastIssuer := q.lastIssuer
    lockMail := q.lockMail
    maintQueue := q.maintQueue
    writeList := q.writeList
    recordWrite := q.recordWrite
    sent := q.sent }

/-- The message a port writes: to the message address, with the message data, if message enable is 1 (R157). -/
def messageOf (h : HostPort) : List LinkWrite :=
  match h.values with
  | some v => if v.msgEnable then [.message v.msgAddr v.msgData] else []
  | none => []

/-- A port that has taken, of the notices of the Incident List given to it, `ns`, and has `rest` left waiting: ALERT stands as
the last one says, and each *non-empty* wrote a message in RUNNING and DRAINING (R156, R157, R172). How many notices the port
has taken is the model's own count (notes/assumptions/18.md). -/
def alertsTaken (ns rest : List AlertNotice) (h : HostPort) : HostPort :=
  { h with
    notices := rest
    noticesTaken := h.noticesTaken + ns.length
    alertCause := (ns.getLast?.map fun n => decide (n = .nonEmpty)).getD h.alertCause
    sent := h.sent ++ (ns.filter fun n => decide (n = .nonEmpty)).flatMap fun _ => if h.inService then messageOf h else [] }

/-- A notice was given to port `h`, which became `k` (R172): it waits behind the others, or the port took all that waited at
it in the same event; which of the two is a free value (notes/assumptions/18.md). -/
def Notified (n : AlertNotice) (h k : HostPort) : Prop :=
  k = alertsTaken [] (h.notices ++ [n]) h ∨ k = alertsTaken (h.notices ++ [n]) [] h

/-- A port after an announce (R154): nothing is unannounced and every unconsumed record is announced, with DONE and its
message if there is one. -/
def announcedPort (h : HostPort) : HostPort :=
  { h with
    unannounced := 0
    quietTimer := none
    announced := h.unconsumed
    doneCause := h.doneCause || decide (h.unconsumed ≠ 0)
    sent := h.sent ++ if h.unconsumed ≠ 0 then messageOf h else [] }

/-- The contexts in use (R117). -/
def contextsUsed (h : HostPort) : Nat := (h.contexts.toList.filter fun c => c.state != .free).length

/-- The intake hold state of `k`, a port `h` in which contexts were freed one after another: a freeing that brings contexts in
use to the resume mark of the selector sets PAUSED to CLEAR, and no other changes it (R113, R118). -/
def ResumesAtItsMark (h k : HostPort) : Prop :=
  (h.values = none → k.hold = h.hold) ∧
    ∀ v, h.values = some v →
      let mark := #v[8, 16, 32, 48][v.selector]
      k.hold = if h.hold = .paused ∧ contextsUsed k ≤ mark ∧ mark < contextsUsed h then .clear else h.hold

/-- The request a command makes at the Lock Unit at its activation (R121). -/
def requestAt (c : CtxId) : Command → Option LockMail
  | .acquire k o timeout => some (.acquire c k o timeout)
  | .release k o => some (.release c k o)
  | _ => none

/-- A command that goes to the Maintenance Unit at its activation (R121). -/
def ForMaintenance : Command → Bool
  | .mapQuery .. | .incidents .. | .tune .. | .relocate .. => true
  | _ => false

/-- Context `d` carries FENCE, and a command taken before it, ACTIVE among `active` or as port `q` has it, has not completed
(R120). -/
def FenceWaits (q : HostPort) (active : List CtxId) (d : CtxId) : Prop :=
  (q.contexts[d]).flags.getLsbD 0 = true ∧
    ∃ e : CtxId, (q.contexts[e]).place < (q.contexts[d]).place ∧
      (e ∈ active ∨ ((q.contexts[e]).state ≠ .free ∧ (q.contexts[e]).state ≠ .done))

/-- The work list of port `q` was tested, `gone` left it from the front, and the port became `k` (R119 to R121): in RUNNING and
DRAINING each head of the Lock Unit or the Maintenance Unit whose FENCE is met is ACTIVE and handed to its owner, in order, and
the first head that cannot run, or that is a transfer, stays with everything behind it. -/
def HeadsRun (q k : HostPort) (gone : List CtxId) : Prop :=
  let elsewhere (d : CtxId) : Prop :=
    (requestAt d (q.contexts[d]).cmd).isSome = true ∨ ForMaintenance (q.contexts[d]).cmd = true
  q.workList = gone ++ k.workList ∧ (q.inService = false → gone = []) ∧
    (∀ d : CtxId, k.contexts[d] = if d ∈ gone then { q.contexts[d] with state := .active } else q.contexts[d]) ∧
    k.lockMail = q.lockMail ++ gone.filterMap (fun d => requestAt d (q.contexts[d]).cmd) ∧
    k.maintQueue = q.maintQueue ++ gone.filter (fun d => ForMaintenance (q.contexts[d]).cmd) ∧
    (∀ pre d post, gone = pre ++ d :: post → elsewhere d ∧ ¬ FenceWaits q pre d) ∧
    ∀ d ds, k.workList = d :: ds → q.inService = true → elsewhere d → FenceWaits q gone d

/-- Port `h` in service was handed the completion of the command in context `c`, with a status and results, and became `k`. The
completion, with the tag, the opcode and the NOTIFY of the record taken (R148), joins the write list at the back and its context
is DONE (R117, R149). A writer with no record write outstanding writes the completion at the front of the list: one record, at CQ
base + CQ tail × 32, with the phase and the SQ head of this moment (R150); else it writes none. Then the work list is tested
(R119), and nothing else of the port changes. -/
def CompletionHanded (c : CtxId) (st : Status) (r : Results) (h k : HostPort) : Prop :=
  let x := h.contexts[c]
  let list := h.writeList ++ [⟨c, x.record.extractLsb' 16 16, x.record.extractLsb' 0 8, x.record.getLsbD 9, st, r⟩]
  k = { h with writeList := list, recordWrite := k.recordWrite, sent := k.sent, contexts := k.contexts,
               workList := k.workList, lockMail := k.lockMail, maintQueue := k.maintQueue } ∧
    (∃ gone, HeadsRun { h with contexts := h.contexts.set c { x with state := .done } } k gone) ∧
    (h.recordWrite ≠ none ∨ h.values = none → k.recordWrite = h.recordWrite ∧ k.sent = h.sent) ∧
    ∀ v front, h.recordWrite = none → h.values = some v → list.head? = some front →
      k.recordWrite = some ⟨front, h.sent.length + 1⟩ ∧
        k.sent = h.sent ++ [.record (v.cqBase + h.cqTail * 32) (recordBytes front h.phase h.sqHead)]

/-- Contexts `cs` of port `h` were freed without a completion, and the port became `k`: every other context is as it was, and the
intake hold state follows (R113, R118). So a port in FAULTED takes an end notice it is handed (R88, R164). -/
def ContextsFreed (cs : List CtxId) (h k : HostPort) : Prop :=
  k = { h with contexts := k.contexts, hold := k.hold } ∧ ResumesAtItsMark h k ∧
    ∀ d : CtxId, (d ∈ cs → (k.contexts[d]).state = .free) ∧ (d ∉ cs → k.contexts[d] = h.contexts[d])

/-- Port `h` was handed a completion and became `k`, by the table of R149: in RUNNING and DRAINING it joins the write list; in
FAULTED it is discarded and its context freed (R145); in every other state it is discarded and nothing changes. -/
def CompletionTaken (c : CtxId) (st : Status) (r : Results) (h k : HostPort) : Prop :=
  (h.inService = true → CompletionHanded c st r h k) ∧ (h.state = .faulted → ContextsFreed [c] h k) ∧
    (h.inService = false → h.state ≠ .faulted → k = h)

/-- Completions handed to a port one after another. -/
def CompletionsTaken : List (CtxId × Status × Results) → HostPort → HostPort → Prop
  | [], h, k => k = h
  | (c, st, r) :: rest, h, k => ∃ m, CompletionTaken c st r h m ∧ CompletionsTaken rest m k

/-- What the Maintenance Unit holds once it has taken a fault or reset notice of port `p` (R164): the running command of
that port ends, or is marked stopped while its check read is outstanding; every other command runs on. -/
def maintAfterStop (p : PortId) (why : Stop) (m : MaintUnit) : MaintUnit :=
  { m with
    running := m.running.bind fun r =>
      if r.port = p then if r.checkRead.isSome then some { r with stop := some why } else none else some r }

/-- Port `h` as it is after its entry to RESETTING (R124, R160), with `stale` record writes whose report is of before it. -/
def portReset (stale : Nat) (h : HostPort) : HostPort :=
  { h with
    state := .resetting, contexts := Vector.replicate 64 Context.free, workList := [], slots := Vector.replicate 4 none,
    lastIssuer := 3, hold := .clear, lockMail := h.lockMail ++ [.notice .resetting], maintQueue := [], doneCause := false,
    faultCause := false, writeList := [], recordWrite := none, staleWrites := stale, quietTimer := none, unannounced := 0,
    announced := 0 }

/-- What an entry of port `p` to RESETTING does to the Bank Scheduler, between `s` and `t`: of the port's queue only the
references IN_PROGRESS are left, the other queues, the banks and the turns stay (R73), and the queue leaves the held-over set
(R46). -/
def QueuePurged (p : PortId) (s t : State) : Prop :=
  HeldOverLeft (.host p) s.mig t.mig ∧
    t.sched.queue (.host p) = ((s.sched.queue (.host p)).filter fun r => r.granted.isSome) ∧
    (∀ src, src ≠ .host p → t.sched.queue src = s.sched.queue src) ∧ t.sched.banks = s.sched.banks ∧
    t.sched.turns = s.sched.turns

/-- Port `p` entered FAULTED with a code, between `s` and `t` (R123, R156, R159, R164). The WAITING contexts, those of the
completions discarded and those of the commands waiting at the Maintenance Unit are free, and so is that of the port's running
maintenance command, which ends with an end notice, unless its check read is outstanding and awaited (R164). Every other context
is as it was. -/
def FaultEntered (p : PortId) (code : FaultCode) (s t : State) : Prop :=
  let h := s.port p
  let k := t.port p
  let discarded := (if h.recordWrite.isSome then h.writeList.tail else h.writeList).map Completion.ctx
  let stopped := ((s.maint.running.filter fun r => r.port = p ∧ r.checkRead = none).map Running.ctx).toList
  let freed := h.workList ++ discarded ++ h.maintQueue ++ stopped
  t = { s.setPort p k with maint := maintAfterStop p .fault s.maint } ∧
    k = { h with state := .faulted, faultCode := code, faultCause := true, quietTimer := none, workList := [],
                 writeList := [], maintQueue := [], lockMail := h.lockMail ++ [.notice .faulted],
                 sent := h.sent ++ (if h.inService then messageOf h else []), contexts := k.contexts, hold := k.hold } ∧
    ResumesAtItsMark h k ∧
    ∀ c : CtxId, (c ∈ freed → (k.contexts[c]).state = .free) ∧ (c ∉ freed → k.contexts[c] = h.contexts[c])

end Sys2Proof.Machine
end

