-- ==== Sys2Proof/Certificates/Slice0/Obligations.lean ====
section
/-! DEFINITION. The statements for the provers, each a rule of the manual or a property of the whole machine. -/

section Statements

open Sys2Proof Sys2Proof.Machine

/-! ## The queue of commands -/

/-- A step takes the command at the front of the queue and has its effect on the state with the rest. On an empty queue
the block idles, which is the model's choice (notes/assumptions/2.md), but that one port takes the oldest notice of the
Incident List that waits at it, the ports in either order (R172; the model's choice too, notes/assumptions/18.md). -/
def Obligations.StepTakesTheFrontCommand : Prop :=
  ∀ s : State,
    (∀ (c : Instr) (rest : List Instr), s.pending = c :: rest → step s = exec c (s.withPending rest)) ∧
      (s.pending = [] →
        ((∀ p, (s.port p).notices = []) → step s = .next s) ∧
          (∀ p n rest, (s.port p).notices = n :: rest → (s.port p.other).notices = [] →
            step s = .next (s.setPort p (alertsTaken [n] rest (s.port p)))) ∧
          ((∀ p, (s.port p).notices ≠ []) →
            ∃ p n rest, (s.port p).notices = n :: rest ∧
              step s = .next (s.setPort p (alertsTaken [n] rest (s.port p)))))

/-- Every command, in every state, answers a next state, and none touches the queue of the commands that wait. That an
event whose conditions do not hold leaves the state as it is, and is no stop, is the model's choice
(notes/assumptions/1.md). -/
def Obligations.EveryCommandAnswersANextState : Prop :=
  ∀ (i : Instr) (s : State), ∃ t, exec i s = .next t ∧ t.pending = s.pending

/-! ## The register window (R174 to R176) -/

/-- A window write is discarded exactly where R174 and R175 say so; every other one is the command its offset names, of
its own window. That a write of a width R174 does not name, neither narrower than 32 bits nor of 32 or 64 bits, is
discarded is the model's choice (notes/assumptions/45.md). -/
def Obligations.WindowWriteSpellsItsCommand : Prop :=
  ∀ (p : PortId) (w : WindowWrite),
    (decodeWindowWrite p w = .registerWriteDiscarded p w ↔ w.discarded = true) ∧
      (w.discarded = false →
        (w.width = 8 → decodeWindowWrite p w = .setupWrite p (.whole w.value)) ∧
          (w.width = 4 →
            (w.offset = 0x00#12 → decodeWindowWrite p w = .setupWrite p (.low (w.value.extractLsb' 0 32))) ∧
              (w.offset = 0x04#12 → decodeWindowWrite p w = .setupWrite p (.high (w.value.extractLsb' 0 32))) ∧
              (w.offset = 0x08#12 →
                (decodeWindowWrite p w = .enable p ↔ w.value.getLsbD 0 = true) ∧
                  (decodeWindowWrite p w = .disable p ↔ w.value.getLsbD 1 = true) ∧
                  (decodeWindowWrite p w = .reset p ↔ w.value.getLsbD 2 = true)) ∧
              (w.offset = 0x0C#12 → decodeWindowWrite p w = .submit p (w.value.extractLsb' 0 32)) ∧
              (w.offset = 0x10#12 → decodeWindowWrite p w = .consume p (w.value.extractLsb' 0 32))))

/-- EVENTS and STATUS show their items at the bits of R176, and every bit not listed reads 0. The hold reason is NONE
outside RUNNING, and in RUNNING the first of R111's conditions 1 to 3 that fails: STORE_INIT, MARK, CQ_ROOM. A read of
the window returns the whole of SETUP or one half, EVENTS or STATUS as they stand, and 0 everywhere else (R174). That a
read of a width R174 does not name, neither narrower than 32 bits nor of 32 or 64 bits, returns 0 is the model's choice
(notes/assumptions/45.md). -/
def Obligations.EventsAndStatusReadAsEncoded : Prop :=
  (∀ (st : StoreState) (h : HostPort) (offset : BitVec 12) (width : Nat),
    let reads (v : BitVec 64) : Prop := readWindow st h offset width = v
    (width = 8 → offset = 0x00#12 → reads h.setupReg) ∧
      (width = 4 → offset = 0x00#12 → reads ((h.setupReg.extractLsb' 0 32).setWidth 64)) ∧
      (width = 4 → offset = 0x04#12 → reads ((h.setupReg.extractLsb' 32 32).setWidth 64)) ∧
      (width = 4 → offset = 0x14#12 → reads ((eventsWord h).setWidth 64)) ∧
      (width = 4 → offset = 0x18#12 → reads ((statusWord st h).setWidth 64)) ∧
      (¬ (width = 8 ∧ offset = 0x00#12) → ¬ (width = 4 ∧ offset ∈ [0x00#12, 0x04#12, 0x14#12, 0x18#12]) → reads 0)) ∧
  ∀ (st : StoreState) (h : HostPort), h.sqHead ≤ 4095 →
    let used := (h.contexts.toList.filter fun c => c.state != .free).length
    let reason := ((statusWord st h).extractLsb' 6 2).toNat
    (eventsWord h).getLsbD 0 = h.faultCause ∧ (eventsWord h).getLsbD 1 = h.alertCause ∧
      (eventsWord h).getLsbD 2 = h.doneCause ∧ (eventsWord h).getLsbD 3 = false ∧
      ((eventsWord h).extractLsb' 4 2).toNat =
        (if h.faultCause then 1 else if h.alertCause then 2 else if h.doneCause then 3 else 0) ∧
      (eventsWord h).extractLsb' 6 26 = 0#26 ∧
      ((statusWord st h).extractLsb' 0 3).toNat =
        (match h.state with
        | .off => 0
        | .setup => 1
        | .running => 2
        | .draining => 3
        | .faulted => 4
        | .resetting => 5) ∧
      ((statusWord st h).extractLsb' 3 3).toNat =
        (match h.faultCode with
        | .none => 0
        | .setupInvalid => 1
        | .setupFetchError => 2
        | .tailInvalid => 3
        | .headOverrun => 4
        | .fetchError => 5
        | .postError => 6) ∧
      (h.state ≠ .running → reason = 0) ∧ (h.state = .running → st ≠ .ready → reason = 1) ∧
      (h.state = .running → st = .ready → h.hold = .paused → reason = 2) ∧
      (∀ v, h.state = .running → st = .ready → h.hold = .clear → h.values = some v →
        reason = if used + h.unconsumed < v.cqEntries then 0 else 3) ∧
      ((statusWord st h).getLsbD 8 = true ↔ st = .ready) ∧
      ((statusWord st h).extractLsb' 9 7).toNat = used ∧
      ((statusWord st h).extractLsb' 16 12).toNat = h.sqHead ∧ (statusWord st h).extractLsb' 28 4 = 1#4

/-! ## Power-on (R16, R24, R26, R27, R58, R75, R85, R103) -/

/-- A power-on reset puts every block at its power-on values and starts the read of the Retirement Memory, whose slots
it keeps but for the target of a write in progress (R26), where the operand says what is left (the model's choice,
notes/assumptions/11.md). Kept besides: the state of the links (notes/assumptions/12.md) and the commands that wait. The
epoch, the model's own field, goes up by one (notes/assumptions/6.md); the store is the list of words with nothing
listed, and the other fields of the model's own start empty or at 0 (notes/assumptions/7.md, 13.md, 14.md, 18.md, 25.md,
40.md). That the 64 FREE contexts of a port hold zeros and no command besides their state is the model's choice
(notes/assumptions/42.md). -/
def Obligations.PowerOnResetsEveryBlock : Prop :=
  ∀ (left : SlotRemnant) (s : State), ∃ t, exec (.powerOnReset left) s = .next t ∧
    t.timeBase = 0 ∧ t.store = [] ∧ t.epoch = s.epoch + 1 ∧ t.reports = [] ∧
    t.sched = ⟨[], [], [], [], Vector.replicate 16 none, Vector.replicate 16 .p0⟩ ∧
    t.seg.queue = [] ∧ t.seg.threshold = 64 ∧
    t.mig = ⟨.idle, none, 0, .none, ⟨false, false, false⟩, 0, .read, none⟩ ∧
    t.scrub = ⟨.initializing, .sweep, .at ⟨0, 0⟩, 256, 0, 0⟩ ∧
    t.locks = ⟨Vector.replicate 256 ⟨none, false⟩, [], .off, .off⟩ ∧ t.maint = ⟨none, .p0⟩ ∧ t.incidents = ⟨[], 0, 0⟩ ∧
    (∀ p, t.port p = { HostPort.powerOn with linkUp := (s.port p).linkUp }) ∧ t.pending = s.pending ∧
    t.ret.reading = true ∧ t.ret.current = none ∧ t.ret.writing = none ∧
    (s.ret.writing = none → t.ret.slot0 = s.ret.slot0 ∧ t.ret.slot1 = s.ret.slot1) ∧
    ∀ i, s.ret.writing = some i →
      let now : SlotImage := match left with
        | .blank => .blank
        | .invalid => .image { i with checkOk := false }
        | .programmed => .image i
      if s.ret.current = some .slot0 then t.ret.slot0 = s.ret.slot0 ∧ t.ret.slot1 = now
      else t.ret.slot0 = now ∧ t.ret.slot1 = s.ret.slot1

/-- The table of R24: which slot becomes current, which list is taken, and when NV_FAULT is appended; the map is then
the build of that list (R27), and the sweep begins: with queue S empty, the INIT_LINEs of lines 0 to 3 of the lowest
segment not on the list (R77). A port still OFF holds ALERT from the first NV_FAULT on (R172), and any other is given
its notice. The generation 0 held while no slot is current is the model's choice (notes/assumptions/9.md), and so is
when a port that is not OFF takes the notice (notes/assumptions/18.md). -/
def Obligations.RetirementReadSetsTheListAndTheSlot : Prop :=
  ∀ (answered : Bool) (s : State), s.ret.reading = true → s.mig.state = .idle →
    ∃ (t : State) (list : List PhysSeg) (current : Option (SlotNo × BitVec 32)) (fault : Bool),
      exec (.retirementReadDone answered) s = .next t ∧
      t = { s with seg := mapBuild list, ret := t.ret, incidents := t.incidents, scrub := t.scrub,
                   sched := { s.sched with s := t.sched.s }, port0 := t.port0, port1 := t.port1 } ∧
      t.ret = { s.ret with current := current.map Prod.fst, generation := (current.map Prod.snd).getD 0, reading := false } ∧
      t.incidents =
        (if fault then (appendIncident ⟨.nvFault, .powerOn, none, none, none, none⟩ s).incidents else s.incidents) ∧
      (∀ p, if fault = true ∧ s.incidents.records = [] then Notified .nonEmpty (s.port p) (t.port p) else t.port p = s.port p) ∧
      (∀ p, fault = true → s.incidents.records = [] → (s.port p).state = .off →
        (t.port p).alertCause = true ∧ (t.port p).notices = []) ∧
      (∀ p : PhysSeg, s.sched.s = [] → s.scrub.pass = .sweep → s.scrub.outstanding = 0 → p ∉ list →
        (∀ q : PhysSeg, q < p → q ∈ list) →
        t.sched.s = (List.range 4).map (fun n =>
            ⟨.scrub .sweep, .physical ⟨p, Fin.ofNat 1048576 n⟩, .initLine, none⟩) ∧
          t.scrub = { s.scrub with pos := .at ⟨p, 4⟩, outstanding := 4 }) ∧
      match answered, s.ret.slot0.validImage, s.ret.slot1.validImage with
      | false, _, _ => list = [] ∧ current = none ∧ fault = true
      | true, some a, some b =>
        if a.generation < b.generation then
          list = b.entries.map (Fin.ofNat 520) ∧ current = some (.slot1, b.generation) ∧ fault = false
        else list = a.entries.map (Fin.ofNat 520) ∧ current = some (.slot0, a.generation) ∧ fault = false
      | true, some a, none =>
        list = a.entries.map (Fin.ofNat 520) ∧ current = some (.slot0, a.generation) ∧ fault = false
      | true, none, some b =>
        list = b.entries.map (Fin.ofNat 520) ∧ current = some (.slot1, b.generation) ∧ fault = false
      | true, none, none =>
        list = [] ∧ current = none ∧ (fault = false ↔ s.ret.slot0 = .blank ∧ s.ret.slot1 = .blank)

/-- The map the build makes from a retired list of up to 8 distinct segments (R27): listed segments RETIRED, the first
512 of the others paired in order with the logical segments, the rest SPARE and listed ascending, counters 0, queue
empty, threshold 64. -/
def Obligations.MapBuildPairsSegmentsInOrder : Prop :=
  ∀ retired : List PhysSeg, retired.Nodup → retired.length ≤ 8 →
    let g := mapBuild retired
    g.retired = retired ∧ (∀ p ∈ retired, g.phys[p] = ⟨.retired, none, 0⟩) ∧
      (∀ l : LogSeg, (g.map[l]).state = .mapped ∧ (g.map[l]).again = false ∧ (g.map[l]).phys ∉ retired ∧
        g.phys[(g.map[l]).phys] = ⟨.mapped, some l, 0⟩) ∧
      (∀ i j : LogSeg, i < j → (g.map[i]).phys < (g.map[j]).phys) ∧
      (∀ p : PhysSeg, p ∉ retired →
        (∃ l : LogSeg, (g.map[l]).phys = p) ∨
          (g.phys[p] = ⟨.spare, none, 0⟩ ∧ p ∈ g.spares ∧ ∀ l : LogSeg, (g.map[l]).phys < p)) ∧
      g.spares.Pairwise (· < ·) ∧ g.spares.length = 8 - retired.length ∧ (∀ p ∈ g.spares, (g.phys[p]).role = .spare) ∧
      g.queue = [] ∧ g.threshold = 64

/-! ## The store (R4 to R13) -/

/-- What the code reports exactly (R6): no bit in error CLEAN, one bit CORRECTED with the data written, two bits
UNCORRECTABLE; a poisoned word POISONED, and with one further bit in error UNCORRECTABLE. The 72 single-bit syndromes,
zero and the poison syndrome are distinct. -/
def Obligations.CheckCodeIsExactForOneAndTwoBits : Prop :=
  ((0#8 :: poisonSyndrome :: singles columnOf).Nodup) ∧
    ∀ d : Word,
      decodeStored (validWord d) = ⟨.clean, d⟩ ∧ decodeStored (poisonWord d) = ⟨.poisoned, d⟩ ∧
        (∀ b : Fin 72, decodeStored (flipBit (validWord d) b) = ⟨.corrected, d⟩) ∧
        (∀ b c : Fin 72, b ≠ c →
          decodeStored (flipBit (flipBit (validWord d) b) c) =
            ⟨.uncorrectable, (flipBit (flipBit (validWord d) b) c).data⟩) ∧
        ∀ b : Fin 72, (decodeStored (flipBit (poisonWord d) b)).outcome = .uncorrectable

/-- What each line operation reads and leaves in each word of the store (R4, R10 to R13), and the health report it hands
(R8): for an operation that reads, one entry a word found CORRECTED or UNCORRECTABLE, in ascending word order, and no
report if there is none. A bit in error flips that one of the 72 stored bits and nothing else: no other word, and
nothing outside the store (R6). -/
def Obligations.LineOperationsReadAndWriteAsLaidDown : Prop :=
  (∀ (line : PLine) (word : Fin 8) (bit : Fin 72) (s : State), ∃ t, exec (.bitInError line word bit) s = .next t ∧
    t = { s with store := t.store } ∧
    (∀ (k : PLine) (w : Fin 8), (k ≠ line ∨ w ≠ word) →
      storedAt t.epoch t.store (wordNumber k w) = storedAt s.epoch s.store (wordNumber k w)) ∧
    let old := storedAt s.epoch s.store (wordNumber line word)
    let new := storedAt t.epoch t.store (wordNumber line word)
    new.data = (if bit.val < 64 then old.data ^^^ BitVec.twoPow 64 bit.val else old.data) ∧
      new.check = (if bit.val < 64 then old.check else old.check ^^^ BitVec.twoPow 8 (bit.val - 64))) ∧
  (∀ (e : Nat) (m : Memory) (op : LineOp) (l k : PLine) (w : Fin 8),
    let old := storedAt e m (wordNumber k w)
    let new := storedAt e (performOp e m op l).1 (wordNumber k w)
    let result := (performOp e m op l).2
    (k ≠ l → new = old) ∧
      (k = l →
        match op with
        | .readLine => new = old ∧ ∃ r, result = some r ∧ r[w] = decodeStored old
        | .writeLine o =>
          result = none ∧
            new =
              (if o.mask.getLsbD w then
                if o.poison.getLsbD w then poisonWord o.data[w] else validWord o.data[w]
              else old)
        | .scrubLine =>
          (∃ r, result = some r ∧ r[w] = decodeStored old) ∧
            new =
              (match (decodeStored old).outcome with
              | .clean => old
              | .corrected => validWord (decodeStored old).data
              | .poisoned => old
              | .uncorrectable => poisonWord old.data)
        | .initLine => result = none ∧ new = validWord 0)) ∧
    ∀ (e : Nat) (m : Memory) (op : LineOp) (l : PLine) (src : Source),
      let report := healthReportOf src op l (performOp e m op l).2
      let outcome (w : Fin 8) : WordOutcome := (decodeStored (storedAt e m (wordNumber l w))).outcome
      let found := (List.finRange 8).filter fun w => decide (outcome w = .corrected ∨ outcome w = .uncorrectable)
      if op = .readLine ∨ op = .scrubLine then
        report =
          if found = [] then []
          else [⟨l, src, decide (op = .scrubLine), found.map fun w => ⟨w, decide (outcome w = .uncorrectable)⟩⟩]
      else report = []

/-! ## Grants (R44, R62 to R67, R70) -/

/-- Where a logical line resolves at any moment (R44): for a segment that is not MIGRATING to its mapped segment, for a
MIGRATING one to the destination below the watermark and to the source elsewhere; the line in segment and the bank are
kept (R2). -/
def Obligations.LogicalLinesResolveByMapAndWatermark : Prop :=
  ∀ (s : State) (l : LLine), MigrationAgrees s.seg s.mig →
    let r := resolve s.seg s.mig l
    r.off = l.off ∧ bankOf r.off = bankOf l.off ∧
      ((s.seg.map[l.seg]).state ≠ .migrating → r.seg = (s.seg.map[l.seg]).phys) ∧
      ((s.seg.map[l.seg]).state = .migrating →
        ∃ j, s.mig.job = some j ∧ j.seg = l.seg ∧
          r.seg = if l.off.val / 64 < s.mig.watermark then j.dest else j.source)

/-- A grant (R65 to R67): the first eligible head in the order M, a held-over S, the host that holds the turn, the other
host, S becomes IN_PROGRESS on its resolved line, the bank BUSY with it, and the turn passes by R66. The queue leaves
the held-over set, and a set left empty in STEPPING brings the lock to CLOSING (R46). A BUSY bank grants nothing, and an
IDLE one with no eligible head grants nothing either, so that a head that is not eligible stays where it is with all
behind it (R64, R65): the event leaves the state (notes/assumptions/1.md). -/
def Obligations.GrantGoesToTheFirstEligibleHead : Prop :=
  (∀ (b : Bank) (s : State), s.sched.banks[b] ≠ none → exec (.grant b) s = .next s) ∧
  (∀ (b : Bank) (s : State), s.sched.banks[b] = none →
    (∀ x l, headOf s.sched.s = some x → x.bank = b → x.line = .physical l → (s.seg.phys[l.seg]).role ≠ .retired) →
    (∀ src, eligible s b src = false) → exec (.grant b) s = .next s) ∧
  ∀ (b : Bank) (s : State) (src : Source) (pre post : List Ref) (r : Ref), s.sched.banks[b] = none →
    (∀ x l, headOf s.sched.s = some x → x.bank = b → x.line = .physical l → (s.seg.phys[l.seg]).role ≠ .retired) →
    ([Source.migration] ++ (if s.mig.heldOver.s then [Source.scrub] else []) ++
      [Source.host s.sched.turns[b], Source.host (s.sched.turns[b]).other, Source.scrub]).find? (eligible s b) = some src →
    s.sched.queue src = pre ++ r :: post → (∀ x ∈ pre, x.granted.isSome = true) → r.granted = none →
    ∃ t, exec (.grant b) s = .next t ∧
      let line := resolvedLine s.seg s.mig r
      let granted := { r with granted := some line }
      t = { s with sched := t.sched, mig := t.mig } ∧ HeldOverLeft src s.mig t.mig ∧
        t.sched.queue src = pre ++ granted :: post ∧ (∀ o, o ≠ src → t.sched.queue o = s.sched.queue o) ∧
        t.sched.banks = s.sched.banks.set b (some ⟨src, granted, line⟩) ∧
        t.sched.turns =
          s.sched.turns.set b (match src with
            | .host p => p.other
            | _ => s.sched.turns[b])

/-- Which head is eligible at an IDLE bank (the table of R63): one that targets the bank; for T0, T1 and S off the 128
lines of a lock that is CLOSING or HELD; for S not in a RETIRED segment. The scrub heads at the bank in a RETIRED
segment, one or more, are discarded first, without an operation and without a report, and leave the held-over set (R46,
R70); then the arbiter grants as it would without them (`GrantGoesToTheFirstEligibleHead`), and the patrol issues into
the freed places by its credit (R80). -/
def Obligations.EligibleHeadsAreThoseOfTheTable : Prop :=
  (∀ (s : State) (b : Bank) (src : Source) (pre post : List Ref) (r : Ref),
    s.sched.queue src = pre ++ r :: post → (∀ x ∈ pre, x.granted.isSome = true) → r.granted = none →
    (eligible s b src = true ↔
      r.bank = b ∧
        (src ≠ .migration →
          ¬ (s.mig.lock ≠ .none ∧ ∃ j, s.mig.job = some j ∧
            ((resolvedLine s.seg s.mig r).seg = j.source ∨ (resolvedLine s.seg s.mig r).seg = j.dest) ∧
            (resolvedLine s.seg s.mig r).off.val / 64 = s.mig.watermark)) ∧
        (src = .scrub → (s.seg.phys[(resolvedLine s.seg s.mig r).seg]).role ≠ .retired))) ∧
    ∀ (b : Bank) (s : State) (busy gone rest : List Ref) (l : PLine),
      let retiredHere (r : Ref) : Prop :=
        r.bank = b ∧ ∃ k : PLine, r.line = .physical k ∧ (s.seg.phys[k.seg]).role = .retired
      let left := busy ++ rest
      s.sched.banks[b] = none → s.sched.s = busy ++ gone ++ rest → (∀ r ∈ busy, r.granted.isSome = true) → gone ≠ [] →
      (∀ r ∈ gone, r.granted = none ∧ retiredHere r) → (∀ r rs, rest = r :: rs → r.granted = none ∧ ¬ retiredHere r) →
      s.scrub.pass = .patrol → s.scrub.pos = .at l → (∃ q : PhysSeg, (s.seg.phys[q]).role ≠ .retired) →
      ∃ (m : Migration) (u : State) (new : List Ref) (last : PLine),
        let discarded := { s with sched := { s.sched with s := left }, mig := m }
        HeldOverLeft .scrub s.mig m ∧ exec (.grant b) discarded = .next u ∧
          ((∀ src, eligible discarded b src = false) → u = discarded) ∧
          PatrolWalk s.seg l new last ∧ new.length = min (4 - left.length) (s.scrub.credit / 1000) ∧
          exec (.grant b) s =
            .next
              { u with
                sched := { u.sched with s := u.sched.s ++ new }
                scrub := { s.scrub with pos := .at last, credit := s.scrub.credit - 1000 * new.length } }

/-! ## Operation done (R8, R9, R48 to R50, R54, R68, R69, R78) -/

/-- The operation of a host reference ends (R68, R69): it is performed whole on its line and its report handed, its bank
is IDLE and its place free, the bank's arbiter acting before the source or not (R65; the operand that orders the two is
the model's, notes/assumptions/19.md), and its result is taken by the transfer unit of its port alone. What that does,
`TransferTakesTheResultOfItsLine`, `ScanIsDecidedByItsLowestWord` and `TransferEndsWithItsStatusAndResults` say. No word
of another line changes. -/
def Obligations.HostOperationDoneHandsItsResult : Prop :=
  ∀ (b : Bank) (arbiterFirst : Bool) (s : State) (o : BankOp) (p : PortId) (c : CtxId) (line : Nat),
    s.sched.banks[b] = some o → o.source = .host p → o.ref.origin = .transfer c line →
    let done := performOp s.epoch s.store o.ref.op o.line
    ∃ u, SourceActsOn b arbiterFirst o s u ∧
      u = { s with store := done.1, reports := s.reports ++ healthReportOf (.host p) o.ref.op o.line done.2,
                   sched := u.sched, mig := u.mig, scrub := u.scrub } ∧
      exec (.operationDone b arbiterFirst) s = .next (u.setPort p (takeTransferResult c line done.2 (s.port p))) ∧
      ∀ (k : PLine) (w : Fin 8), k ≠ o.line →
        storedAt u.epoch u.store (wordNumber k w) = storedAt s.epoch s.store (wordNumber k w)

/-- A scrub reference ends (R69), and the Scrub Unit acts on its result before or after the arbiter of the freed bank
(R65, R68). An INIT_LINE of the sweep lowers the count of references outstanding, and the sweep issues its next lines
into the freed place (R77); the last one makes the store READY, starts the patrol at the lowest segment not RETIRED, and
sets the credit to 0 (R78). A SCRUB_LINE of the patrol hands its report with source S, its outcomes are not kept (R82),
and the patrol issues into the freed place by its credit (R80). -/
def Obligations.ScrubOperationsFreeTheirPlaces : Prop :=
  ∀ (b : Bank) (arbiterFirst : Bool) (s : State) (o : BankOp), s.sched.banks[b] = some o → o.source = .scrub →
    ∃ u, SourceActsOn b arbiterFirst o s u ∧
      (o.ref.origin = .scrub .sweep → u.scrub.pass = .sweep → ¬ (u.scrub.outstanding - 1 = 0 ∧ u.scrub.pos = .ended) →
        ∃ (t : State) (new : List Ref), exec (.operationDone b arbiterFirst) s = .next t ∧
          t = { u with sched := { u.sched with s := u.sched.s ++ new }, scrub := t.scrub } ∧
            t.scrub = { u.scrub with pos := t.scrub.pos, outstanding := u.scrub.outstanding - 1 + new.length } ∧
            SweepWalk u.seg u.scrub.pos new t.scrub.pos ∧ new.length ≤ 4 - u.sched.s.length ∧
            (new.length = 4 - u.sched.s.length ∨ t.scrub.pos = .ended)) ∧
      (∀ p : PhysSeg, o.ref.origin = .scrub .sweep → u.scrub.outstanding = 1 → u.scrub.pos = .ended →
        (u.seg.phys[p]).role ≠ .retired → (∀ q : PhysSeg, q < p → (u.seg.phys[q]).role = .retired) →
        exec (.operationDone b arbiterFirst) s =
          .next
            { u with
              scrub := { u.scrub with store := .ready, pass := .patrol, pos := .at ⟨p, 0⟩, credit := 0, outstanding := 0 } }) ∧
      ∀ l : PLine, o.ref.origin = .scrub .patrol → u.scrub.pass = .patrol → u.scrub.pos = .at l →
        (∃ q : PhysSeg, (u.seg.phys[q]).role ≠ .retired) →
        ∃ (new : List Ref) (last : PLine),
          exec (.operationDone b arbiterFirst) s =
            .next
              { u with
                sched := { u.sched with s := u.sched.s ++ new }
                scrub := { u.scrub with pos := .at last, credit := u.scrub.credit - 1000 * new.length } } ∧
          PatrolWalk u.seg l new last ∧ new.length = min (4 - u.sched.s.length) (u.scrub.credit / 1000)

/-- In the copy of a chunk the result of a READ_LINE brings the WRITE_LINE of its line: every word, with the data
delivered, and the words UNCORRECTABLE or POISONED named in the poison mask; and behind it the READ_LINE of the next
line (R48, R49), which R69's table has only on the result of the write (the model follows R48, notes/assumptions/43.md).
While the WRITE_LINE of the line before is still in queue M, the unit keeps the result, and that write, when it ends,
brings the two references: so queue M holds the write of one line and the read of the next at most (R48, R54; the
keeping is the model's choice, notes/assumptions/40.md). The copy position shows the reference issued next; line 0, READ
once line 63 is written is read from the spec by inference (notes/assumptions/29.md). -/
def Obligations.CopyWritesWhatItRead : Prop :=
  ∀ (b : Bank) (arbiterFirst : Bool) (s : State) (o : BankOp) (j : Job) (c k : Nat), s.sched.banks[b] = some o →
    o.source = .migration →
    ∃ u, SourceActsOn b arbiterFirst o s u ∧
      (u.mig.state = .copying → u.mig.job = some j → u.mig.watermark = c →
        let line (p : PhysSeg) (i : Nat) : RefLine := .physical ⟨p, Fin.ofNat 1048576 (64 * c + i)⟩
        let writes (i : Nat) (r : LineResult) : Prop := ∃ w : WriteOperand,
          exec (.operationDone b arbiterFirst) s =
            .next
              { u with
                sched :=
                  { u.sched with
                    m :=
                      u.sched.m ++ [⟨.copy c i .write, line j.dest i, .writeLine w, none⟩] ++
                        (if i < 63 then [⟨.copy c (i + 1) .read, line j.source (i + 1), .readLine, none⟩] else []) }
                mig :=
                  { u.mig with
                    copyLine := if i < 63 then i + 1 else 0
                    copyStep := if i < 63 then .write else .read
                    kept := none } } ∧
          w.mask = 0xFF#8 ∧
          ∀ n : Fin 8, w.data[n] = (r[n]).data ∧
            (w.poison.getLsbD n.val = true ↔ (r[n]).outcome = .uncorrectable ∨ (r[n]).outcome = .poisoned)
        (o.ref.origin = .copy c k .read → o.ref.op = .readLine →
          let found := readResults s.epoch s.store o.line
          (u.sched.m = [] → writes k found) ∧
            (u.sched.m ≠ [] →
              exec (.operationDone b arbiterFirst) s = .next { u with mig := { u.mig with kept := some (k, found) } })) ∧
          (o.ref.origin = .copy c k .write → k ≠ 63 →
            (u.mig.kept = none → exec (.operationDone b arbiterFirst) s = .next u) ∧
              ∀ i r, u.mig.kept = some (i, r) → writes i r))

/-- The write of line 63 ends the copy of a chunk below 16,383 (R50): the watermark advances, the unit enters STEPPING
with the held-over set of the heads that name the chunk, the next chunk closes when that set is empty (R46), and the
lines of the chunk resolve to the destination from then on. Queue M is empty then, as it is throughout STEPPING. The
unit acts before or after the arbiter of the freed bank (R65, R68). -/
def Obligations.ChunkCopyEndAdvancesTheWatermark : Prop :=
  ∀ (b : Bank) (arbiterFirst : Bool) (s : State) (o : BankOp) (j : Job) (c c' : Nat), s.sched.banks[b] = some o →
    o.source = .migration → o.ref.origin = .copy c' 63 .write → s.mig.state = .copying → s.mig.job = some j →
    s.mig.watermark = c → c + 1 < 16384 →
    ∃ u t, SourceActsOn b arbiterFirst o s u ∧ exec (.operationDone b arbiterFirst) s = .next t ∧
      t = { u with mig := t.mig } ∧ (QueuesOk s → t.sched.m = []) ∧
        t.mig = { u.mig with state := .stepping, watermark := c + 1, lock := t.mig.lock, heldOver := t.mig.heldOver } ∧
        t.mig.job = some j ∧
        (∀ x ∈ [(t.mig.heldOver.t0, t.sched.t0), (t.mig.heldOver.t1, t.sched.t1)],
          (headOf x.2 = none → x.1 = false) ∧
            ∀ r l, headOf x.2 = some r → r.line = .logical l → (x.1 = true ↔ l.seg = j.seg ∧ l.off.val / 64 = c)) ∧
        (headOf t.sched.s = none → t.mig.heldOver.s = false) ∧
        (∀ r l, headOf t.sched.s = some r → r.line = .physical l →
          (t.mig.heldOver.s = true ↔ (l.seg = j.source ∨ l.seg = j.dest) ∧ l.off.val / 64 = c)) ∧
        (t.mig.lock =
          if t.mig.heldOver.t0 = true ∨ t.mig.heldOver.t1 = true ∨ t.mig.heldOver.s = true then .none else .closing) ∧
        ∀ off : LineOff, off.val / 64 = c → resolve t.seg t.mig ⟨j.seg, off⟩ = ⟨j.dest, off⟩

/-- The end of the copy of chunk 16,383 makes the switch claim (R34, R54): the map names the destination, which is
MAPPED, the source is RETIRED and last on the retired list, RELOCATE-again is cleared and, if it was set, offered (R31);
and the unit enters RECORDING with the write of that list under way (R25, R55). Queue M is empty at the switch (R54).
The unit acts before or after the arbiter of the freed bank (R65, R68). -/
def Obligations.LastChunkMakesTheSwitch : Prop :=
  ∀ (b : Bank) (arbiterFirst : Bool) (s : State) (o : BankOp) (j : Job) (c' : Nat), s.sched.banks[b] = some o →
    o.source = .migration → o.ref.origin = .copy c' 63 .write → s.mig.state = .copying → s.mig.job = some j →
    s.mig.watermark = 16383 → j.source ≠ j.dest →
    let room := s.seg.queue.length < s.seg.spares.length
    let again := (s.seg.map[j.seg]).again
    ∃ u t, SourceActsOn b arbiterFirst o s u ∧ exec (.operationDone b arbiterFirst) s = .next t ∧
      t = { u with seg := t.seg, mig := t.mig, ret := t.ret, incidents := t.incidents, port0 := t.port0,
                   port1 := t.port1 } ∧
        (QueuesOk s → t.sched.m = []) ∧
        (∀ p,
          t.port p =
            { s.port p with
              notices := (t.port p).notices, noticesTaken := (t.port p).noticesTaken,
              alertCause := (t.port p).alertCause, sent := (t.port p).sent }) ∧
        t.mig = { u.mig with state := .recording, watermark := 16384, lock := .none } ∧
        t.seg.map = s.seg.map.set j.seg
          ⟨j.dest, if again = true then (if room then .queued else .atRisk) else .mapped, false⟩ ∧
        t.seg.phys =
          (s.seg.phys.set j.dest ⟨.mapped, some j.seg, (s.seg.phys[j.dest]).counter⟩).set j.source
            ⟨.retired, some j.seg, (s.seg.phys[j.source]).counter⟩ ∧
        t.seg.retired = s.seg.retired ++ [j.source] ∧ t.seg.spares = s.seg.spares ∧
        t.seg.threshold = s.seg.threshold ∧
        t.seg.queue = (if again = true ∧ room then s.seg.queue ++ [j.seg] else s.seg.queue) ∧
        t.incidents =
          (if again = true ∧ ¬ room then
            (appendIncident ⟨.noSpare, .migration, some j.seg, some j.dest, none, none⟩ s).incidents
          else s.incidents) ∧
        t.ret =
          { s.ret with
            writing := some ⟨s.ret.nextGeneration, (s.seg.retired ++ [j.source]).map (·.val), true⟩ } ∧
        (s.ret.current = none → s.ret.nextGeneration = 1) ∧
        (s.ret.current ≠ none → s.ret.generation < 0xFFFFFFFE#32 → s.ret.nextGeneration = s.ret.generation + 1)

/-! ## Health reports and migrations (R28, R31, R33, R35 to R37, R42, R47, R56, R57) -/

/-- A report is taken whole and once (R35): every CORRECTED entry is counted on its physical segment, up to 65,535, and
on no other (R28), and the store, the queues and the locks are left alone; a port may be given a notice of the Incident
List, and nothing else (R172). -/
def Obligations.HealthReportCountsItsCorrectedWords : Prop :=
  ∀ (b : Bank) (s : State) (pre post : List HealthReport) (r : HealthReport), s.reports = pre ++ r :: post →
    (∀ x ∈ pre, bankOf x.line.off ≠ b) → bankOf r.line.off = b →
    ∃ t, exec (.healthReport b) s = .next t ∧
      t = { s with reports := pre ++ post, seg := t.seg, incidents := t.incidents, port0 := t.port0, port1 := t.port1 } ∧
        (∀ p,
          t.port p =
            { s.port p with
              notices := (t.port p).notices, noticesTaken := (t.port p).noticesTaken,
              alertCause := (t.port p).alertCause, sent := (t.port p).sent }) ∧
        (t.seg.phys[r.line.seg]).counter =
          min 65535 ((s.seg.phys[r.line.seg]).counter + (r.findings.filter fun f => !f.uncorrectable).length) ∧
        (∀ q : PhysSeg, q ≠ r.line.seg → t.seg.phys[q] = s.seg.phys[q]) ∧
        (∀ q : PhysSeg, (t.seg.phys[q]).role = (s.seg.phys[q]).role ∧ (t.seg.phys[q]).logical = (s.seg.phys[q]).logical) ∧
        t.seg.spares = s.seg.spares ∧ t.seg.retired = s.seg.retired ∧ t.seg.threshold = s.seg.threshold

/-- An append to the Incident List is taken whole (R170): below 16 records the incident joins at the back, with the
sequence counter and the time base of this moment; at 16 it is dropped, and the dropped count rises by one up to 255;
the sequence counter advances by one either way, modulo 65,536. An append to an empty list gives both ports the notice
*non-empty*, on which ALERT becomes pending, with its message from a port that is RUNNING or DRAINING (R156, R172); no
other append changes a port. Each port takes the notice in this event or lets it wait, apart from the other port: which
of the two is a free value, the model's choice (notes/assumptions/18.md). -/
def Obligations.IncidentAppendIsTakenWhole : Prop :=
  ∀ (x : Incident) (s : State),
    let l := s.incidents
    let t := appendIncident x s
    t = { s with incidents := t.incidents, port0 := t.port0, port1 := t.port1 } ∧
      (l.records.length < 16 →
        t.incidents = ⟨l.records ++ [⟨l.seq, s.timeBase, x⟩], l.seq + 1, l.dropped⟩) ∧
      (16 ≤ l.records.length → t.incidents = ⟨l.records, l.seq + 1, min 255 (l.dropped + 1)⟩) ∧
      ∀ p, if l.records = [] then Notified .nonEmpty (s.port p) (t.port p) else t.port p = s.port p

/-- The threshold check (R37) of the oldest report of a bank, taken for a report of corrected words alone. On a MAPPED
segment whose logical segment is MAPPED: below the threshold the report is only counted; at or above it, THRESHOLD is
appended and the segment offered at the back, which the join rule accepts while the queue is shorter than the spare
list, or else leaves AT_RISK with NO_SPARE appended (R31). For any other role, RESERVED, SPARE or RETIRED, and any other
state, QUEUED, MIGRATING or AT_RISK, the check does nothing: the map, the lists, the Incident List and the ports stay as
they were. -/
def Obligations.ThresholdOffersTheSegmentAtTheBack : Prop :=
  ∀ (b : Bank) (s : State) (pre post : List HealthReport) (r : HealthReport), s.reports = pre ++ r :: post →
    (∀ x ∈ pre, bankOf x.line.off ≠ b) → bankOf r.line.off = b → r.findings ≠ [] →
    (∀ f ∈ r.findings, f.uncorrectable = false) →
    let e := s.seg.phys[r.line.seg]
    let count := min 65535 (e.counter + r.findings.length)
    ∃ t, exec (.healthReport b) s = .next t ∧
      (∀ l, e.role = .mapped → e.logical = some l → (s.seg.map[l]).state = .mapped →
        let incident (kind : IncidentKind) : Incident :=
          ⟨kind, incidentSource r.source, some l, some r.line.seg, none, some r.line.off⟩
        (count < s.seg.threshold → t.seg.map = s.seg.map ∧ t.seg.queue = s.seg.queue ∧ t.incidents = s.incidents) ∧
          (s.seg.threshold ≤ count → s.seg.queue.length < s.seg.spares.length →
            t.seg.map = s.seg.map.set l { s.seg.map[l] with state := .queued } ∧ t.seg.queue = s.seg.queue ++ [l] ∧
              t.incidents = (appendIncident (incident .threshold) s).incidents) ∧
          (s.seg.threshold ≤ count → s.seg.spares.length ≤ s.seg.queue.length →
            t.seg.map = s.seg.map.set l { s.seg.map[l] with state := .atRisk } ∧ t.seg.queue = s.seg.queue ∧
              t.incidents =
                (appendIncident (incident .noSpare) (appendIncident (incident .threshold) s)).incidents)) ∧
      (¬ (e.role = .mapped ∧ ∃ l, e.logical = some l ∧ (s.seg.map[l]).state = .mapped) →
        t = { s with reports := pre ++ post, seg := { s.seg with phys := t.seg.phys } })

/-- The uncorrectable action (R36), for the oldest report of a bank, with an uncorrectable word alone or beside
corrected ones: from M only POISON_COPIED; from another source UNCORRECTABLE, and an offer at the front for a MAPPED
segment, RELOCATE-again for the RESERVED one, and nothing besides for the others. The threshold check that follows
corrected words makes no second offer, for it finds the segment no longer MAPPED (R35). -/
def Obligations.UncorrectableWordActsByRole : Prop :=
  ∀ (b : Bank) (s : State) (pre post : List HealthReport) (r : HealthReport), s.reports = pre ++ r :: post →
    (∀ x ∈ pre, bankOf x.line.off ≠ b) → bankOf r.line.off = b → (∃ f ∈ r.findings, f.uncorrectable = true) →
    let e := s.seg.phys[r.line.seg]
    let incident (kind : IncidentKind) : Incident :=
      ⟨kind, incidentSource r.source, e.logical, some r.line.seg, none, some r.line.off⟩
    ∃ t, exec (.healthReport b) s = .next t ∧
      (r.source = .migration →
        (∀ f ∈ r.findings, f.uncorrectable = true) ∨
          ¬ (e.role = .mapped ∧ ∃ l, e.logical = some l ∧ (s.seg.map[l]).state = .mapped) →
        t.seg.map = s.seg.map ∧ t.seg.queue = s.seg.queue ∧
          t.incidents = (appendIncident (incident .poisonCopied) s).incidents) ∧
        (r.source ≠ .migration →
          (∀ l, e.role = .mapped → e.logical = some l → (s.seg.map[l]).state = .mapped →
            (s.seg.queue.length < s.seg.spares.length →
              t.seg.map = s.seg.map.set l { s.seg.map[l] with state := .queued } ∧ t.seg.queue = l :: s.seg.queue ∧
                t.incidents = (appendIncident (incident .uncorrectable) s).incidents) ∧
              (s.seg.spares.length ≤ s.seg.queue.length →
                t.seg.map = s.seg.map.set l { s.seg.map[l] with state := .atRisk } ∧ t.seg.queue = s.seg.queue ∧
                  t.incidents =
                    (appendIncident (incident .noSpare) (appendIncident (incident .uncorrectable) s)).incidents)) ∧
            (∀ l, e.role = .reserved → e.logical = some l →
              t.seg.map = s.seg.map.set l { s.seg.map[l] with again := true } ∧ t.seg.queue = s.seg.queue ∧
                t.incidents = (appendIncident (incident .uncorrectable) s).incidents) ∧
            ((e.role = .spare ∨ e.role = .retired ∨
                ∃ l, e.role = .mapped ∧ e.logical = some l ∧ (s.seg.map[l]).state ≠ .mapped) →
              t.seg.map = s.seg.map ∧ t.seg.queue = s.seg.queue ∧
                t.incidents = (appendIncident (incident .uncorrectable) s).incidents))

/-- The start of a migration (R33, R42): with the unit IDLE, the store READY and the queue non-empty, the queue's head
and the lowest spare leave together, the segment is MIGRATING and the spare RESERVED for it, and the unit is STEPPING at
watermark 0 with chunk 0 closing. No start is made unless all three conditions hold, and the event then leaves the state
(notes/assumptions/1.md). -/
def Obligations.MigrationStartsWithQueueHeadAndLowestSpare : Prop :=
  (∀ s : State, ¬ (s.mig.state = .idle ∧ s.scrub.store = .ready ∧ s.seg.queue ≠ []) →
    exec .migrationStart s = .next s) ∧
  ∀ (s : State) (l : LogSeg) (ls : List LogSeg) (d : PhysSeg) (ds : List PhysSeg), s.mig.state = .idle →
    s.scrub.store = .ready → s.seg.queue = l :: ls → s.seg.spares = d :: ds →
    exec .migrationStart s =
      .next
        { s with
          seg :=
            { s.seg with
              queue := ls
              spares := ds
              map := s.seg.map.set l ⟨(s.seg.map[l]).phys, .migrating, false⟩
              phys := s.seg.phys.set d ⟨.reserved, some l, (s.seg.phys[d]).counter⟩ }
          mig := ⟨.stepping, some ⟨l, (s.seg.map[l]).phys, d⟩, 0, .closing, ⟨false, false, false⟩, 0, .read, none⟩ }

/-- The closing chunk becomes HELD (R47) once no operation of T0, T1 or S is in progress on its 128 lines; until then
nothing happens, for an event that does not occur leaves the state (notes/assumptions/1.md). The unit enters COPYING and
issues the READ_LINE of the chunk's first source line, with no read result kept (R48; the field for one is the model's
own, notes/assumptions/40.md). -/
def Obligations.ChunkLockIsHeldWhenTheChunkIsQuiet : Prop :=
  ∀ (s : State) (j : Job), s.mig.job = some j → s.mig.state = .stepping → s.mig.lock = .closing →
    let busy := ∃ (b : Bank) (o : BankOp), s.sched.banks[b] = some o ∧ o.source ≠ .migration ∧
      (o.line.seg = j.source ∨ o.line.seg = j.dest) ∧ o.line.off.val / 64 = s.mig.watermark
    (busy → exec .chunkLockHeld s = .next s) ∧
      (¬ busy →
        exec .chunkLockHeld s =
          .next
            { s with
              mig := { s.mig with state := .copying, lock := .held, copyLine := 0, copyStep := .write, kept := none }
              sched :=
                { s.sched with
                  m := s.sched.m ++
                    [⟨.copy s.mig.watermark 0 .read,
                      .physical ⟨j.source, Fin.ofNat 1048576 (64 * s.mig.watermark)⟩, .readLine, none⟩] } })

/-- The Retirement Memory write ends and completes the migration (R25, R56): only a success changes the current slot and
its generation; MIGRATED is appended and, after a failure, NV_FAULT; the unit is IDLE at watermark 0. What a failed
write leaves in its slot, by the operand and an invalid slot as the same image with a bad check, is the model's choice
(notes/assumptions/11.md). The migrated notice (R57, R169): the contexts that wait in RELOCATE_WAIT for the segment
complete OK, one after another, in a port that is RUNNING or DRAINING, and are FREE in a port that is FAULTED. -/
def Obligations.RetirementWriteDoneCompletesTheMigration : Prop :=
  ∀ (outcome : WriteOutcome) (s : State) (j : Job) (i : Image), s.mig.state = .recording → s.mig.job = some j →
    s.ret.writing = some i →
    let migrated : Incident := ⟨.migrated, .migration, some j.seg, some j.source, some j.dest, none⟩
    let nvFault : Incident := ⟨.nvFault, .migration, some j.seg, some j.source, none, none⟩
    ∃ t, exec (.retirementWriteDone outcome) s = .next t ∧
      t = { s with mig := t.mig, ret := t.ret, incidents := t.incidents, port0 := t.port0, port1 := t.port1 } ∧
        t.mig = { s.mig with state := .idle, job := none, watermark := 0, copyLine := 0, copyStep := .read, kept := none } ∧
        t.ret.writing = none ∧
        (s.ret.current = some .slot0 → t.ret.slot0 = s.ret.slot0) ∧
        (s.ret.current ≠ some .slot0 → t.ret.slot1 = s.ret.slot1) ∧
        (∀ p, ∃ (h : HostPort) (waiting : List CtxId),
          h = { s.port p with notices := h.notices, noticesTaken := h.noticesTaken, alertCause := h.alertCause,
                              sent := h.sent } ∧
            waiting.Nodup ∧
            (∀ c : CtxId, c ∈ waiting ↔
              ((s.port p).contexts[c]).state = .relocateWait ∧ ((s.port p).contexts[c]).cmd = .relocate j.seg) ∧
            CompletionsTaken (waiting.map fun c => (c, .ok, .none)) h (t.port p)) ∧
        match outcome with
        | .succeeded =>
          t.incidents = (appendIncident migrated s).incidents ∧ t.ret.generation = i.generation ∧
            (if s.ret.current = some .slot0 then t.ret.current = some .slot1 ∧ t.ret.slot1 = .image i
            else t.ret.current = some .slot0 ∧ t.ret.slot0 = .image i)
        | .failed left =>
          t.incidents = (appendIncident nvFault (appendIncident migrated s)).incidents ∧
            t.ret.current = s.ret.current ∧ t.ret.generation = s.ret.generation ∧
            let now : SlotImage := match left with
              | .blank => .blank
              | .invalid => .image { i with checkOk := false }
              | .programmed => .image i
            if s.ret.current = some .slot0 then t.ret.slot1 = now else t.ret.slot0 = now

/-! ## Time and scrub (R77, R79, R80) -/

/-- A microsecond of the time base (R80): the credit rises by the rate up to 4,000, and in the patrol a SCRUB_LINE is
issued for each 1,000 of it while queue S has room, line after line from the scrub position, past the RETIRED segments
(R79). In the sweep nothing is issued; that the credit rises there too is read from the spec by inference
(notes/assumptions/31.md). The waiters and quiet timers whose deadline is the time base's new value are then due, a mark
of the model's own (notes/assumptions/20.md). -/
def Obligations.PacingTickAccruesAndIssues : Prop :=
  ∀ s : State, (∃ q : PhysSeg, (s.seg.phys[q]).role ≠ .retired) →
    let credit := min 4000 (s.scrub.credit + s.scrub.rate)
    ∃ (t : State) (new : List Ref), exec .pacingTick s = .next t ∧
      t = { s with timeBase := s.timeBase + 1, sched := { s.sched with s := s.sched.s ++ new }, scrub := t.scrub,
                   locks := { s.locks with pool := t.locks.pool }, port0 := t.port0, port1 := t.port1 } ∧
        t.locks.pool =
          s.locks.pool.map (fun w => { w with due := w.due || decide (w.deadline = some (s.timeBase + 1)) }) ∧
        (∀ p,
          t.port p =
            { s.port p with
              quietTimer :=
                (s.port p).quietTimer.map fun x => { x with due := x.due || decide (x.deadline = s.timeBase + 1) } }) ∧
        (s.scrub.pass = .sweep → new = [] ∧ t.scrub = { s.scrub with credit := credit }) ∧
        ∀ l, s.scrub.pass = .patrol → s.scrub.pos = .at l →
          new.length = min (4 - s.sched.s.length) (credit / 1000) ∧
            ∃ last, t.scrub = { s.scrub with pos := .at last, credit := credit - 1000 * new.length } ∧
              PatrolWalk s.seg l new last

/-! ## Locks (R86 to R101) -/

/-- An ACQUIRE taken from a port that the Lock Unit holds as RUNNING or DRAINING (R89, R90, R92): the first
case of the table that matches, with its status, its holder seen and its effect on the lock table and the pool. A party
that waits makes no completion, and its context is in LOCK_WAIT (R117). -/
def Obligations.AcquireTakesTheFirstMatchingCase : Prop :=
  ∀ (p : PortId) (s : State) (c : CtxId) (k : LockId) (o : Owner) (timeout : Nat) (rest : List LockMail),
    (s.port p).lockMail = .acquire c k o timeout :: rest →
    (s.locks.view p = .running ∨ s.locks.view p = .draining) →
    let me : Party := ⟨p, o⟩
    let r := s.locks.table[k]
    let waits := ∃ w ∈ s.locks.pool, w.lock = k ∧ w.party = me
    let full := s.locks.pool.length ≥ 64 ∨ (s.locks.pool.filter fun w => w.party.port = p).length ≥ 40
    let h := { s.port p with lockMail := rest }
    ∃ t, exec (.acquire p) s = .next t ∧
      t = { s.setPort p (t.port p) with locks := t.locks } ∧
        (r.holder = none →
          t.locks = { s.locks with table := s.locks.table.set k ⟨some me, false⟩ } ∧
            CompletionTaken c .ok (.lock r.abandoned (some me)) h (t.port p)) ∧
        let refused (st : Status) : Prop := t.locks = s.locks ∧ CompletionTaken c st (.lock false r.holder) h (t.port p)
        (r.holder = some me → refused .already) ∧
        (∀ x, r.holder = some x → x ≠ me →
          (timeout = 0 → refused .lockBusy) ∧ (timeout ≠ 0 → waits → refused .duplicate) ∧
            (timeout ≠ 0 → ¬ waits → s.locks.view p = .draining → refused .cancelled) ∧
            (timeout ≠ 0 → ¬ waits → s.locks.view p = .running → full → refused .waitLimit) ∧
            (timeout ≠ 0 → ¬ waits → s.locks.view p = .running → ¬ full →
              t.locks =
                  { s.locks with
                    pool := s.locks.pool ++
                      [⟨k, me, c,
                        if timeout = 65535 then none else some (s.timeBase + BitVec.ofNat 48 (timeout * 1000)), false⟩] } ∧
                ((h.contexts[c]).state = .active →
                  t.port p = { h with contexts := h.contexts.set c { h.contexts[c] with state := .lockWait } })))

/-- A request of a port that the Lock Unit holds as FAULTED or RESETTING touches no lock record (R88) and makes no
completion. In a port in FAULTED an ACQUIRE or a RELEASE frees its context, and a guard check ends its transfer in
CHECKING: slot and context are FREE (R145), and the intake resumes at its mark (R113, R118). A transfer in another
phase, and a port in RESETTING, take nothing of a guard check's end (R146). -/
def Obligations.RequestsAfterAFaultOrResetChangeNoLock : Prop :=
  ∀ (p : PortId) (s : State) (c : CtxId) (k : LockId) (o : Owner) (timeout : Nat) (rest : List LockMail),
    (s.locks.view p = .faulted ∨ s.locks.view p = .resetting) →
    let h := s.port p
    (∀ x ∈ [(Instr.acquire p, LockMail.acquire c k o timeout), (Instr.release p, LockMail.release c k o)],
      h.lockMail = x.2 :: rest →
      ∃ t, exec x.1 s = .next t ∧ t = s.setPort p (t.port p) ∧
        t.port p = { h with lockMail := rest, contexts := (t.port p).contexts, hold := (t.port p).hold } ∧
        ResumesAtItsMark h (t.port p) ∧ (∀ d : CtxId, d ≠ c → (t.port p).contexts[d] = h.contexts[d]) ∧
        (h.state = .faulted → ((t.port p).contexts[c]).state = .free) ∧
        (h.state ≠ .faulted → t.port p = { h with lockMail := rest })) ∧
      (h.lockMail = .guardCheck c k o :: rest →
        ∃ t, exec (.guardCheck p) s = .next t ∧ t = s.setPort p (t.port p) ∧
          t.port p =
            { h with
              lockMail := rest, slots := (t.port p).slots, contexts := (t.port p).contexts, hold := (t.port p).hold } ∧
          ResumesAtItsMark h (t.port p) ∧ (∀ d : CtxId, d ≠ c → (t.port p).contexts[d] = h.contexts[d]) ∧
          (∀ (i : SlotId) (x : Transfer), h.slots[i] = some x → x.ctx = c →
            (∀ j y, j ≠ i → h.slots[j] = some y → y.ctx ≠ c) →
            (x.phase = .checking → h.state = .faulted →
              (t.port p).slots = h.slots.set i none ∧ ((t.port p).contexts[c]).state = .free) ∧
              (x.phase ≠ .checking ∨ h.state ≠ .faulted → t.port p = { h with lockMail := rest })) ∧
          ((∀ (i : SlotId) (x : Transfer), h.slots[i] = some x → x.ctx ≠ c) → t.port p = { h with lockMail := rest }))

/-- A RELEASE by the holder passes the lock to its oldest waiter, whose ACQUIRE completes OK before the RELEASE does, or
frees the lock with the ABANDONED mark clear; from anyone else it is answered NOT_HOLDER and changes nothing (R91, R94).
What each port does with its completion is in `CompletionTaken`. -/
def Obligations.ReleasePassesTheLockOn : Prop :=
  ∀ (p : PortId) (s : State) (c : CtxId) (k : LockId) (o : Owner) (rest : List LockMail),
    (s.port p).lockMail = .release c k o :: rest →
    (s.locks.view p = .running ∨ s.locks.view p = .draining) →
    let r := s.locks.table[k]
    let h := { s.port p with lockMail := rest }
    let other := s.port p.other
    ∃ t, exec (.release p) s = .next t ∧
      t = { s with locks := t.locks, port0 := t.port0, port1 := t.port1 } ∧
        (r.holder ≠ some ⟨p, o⟩ →
          t.locks = s.locks ∧ CompletionTaken c .notHolder (.lock false r.holder) h (t.port p) ∧ t.port p.other = other) ∧
        (r.holder = some ⟨p, o⟩ → (∀ w ∈ s.locks.pool, w.lock ≠ k) →
          t.locks = { s.locks with table := s.locks.table.set k ⟨none, false⟩ } ∧
            CompletionTaken c .ok (.lock false none) h (t.port p) ∧ t.port p.other = other) ∧
        ∀ (pre post : List Waiter) (w : Waiter), r.holder = some ⟨p, o⟩ → s.locks.pool = pre ++ w :: post →
          (∀ x ∈ pre, x.lock ≠ k) → w.lock = k →
          let granted : Results := .lock false (some w.party)
          t.locks = { s.locks with table := s.locks.table.set k ⟨some w.party, false⟩, pool := pre ++ post } ∧
            (w.party.port = p.other →
              CompletionTaken c .ok (.lock false none) h (t.port p) ∧
                CompletionTaken w.ctx .ok granted other (t.port p.other)) ∧
            (w.party.port = p →
              CompletionsTaken [(w.ctx, .ok, granted), (c, .ok, .lock false none)] h (t.port p) ∧
                t.port p.other = other)

/-- The answer to a guard check (R101, R128): the lock table never changes; on HELD the transfer goes on to its scatter
list or to MOVING, a WRITE with the read of the host data of its first line, up to the end of that line (R134); on
NOT_HELD it ends at once NOT_HOLDER with 0 bytes done and its slot FREE, in FAULTED without a completion (R145). -/
def Obligations.GuardCheckAnswersByTheHolder : Prop :=
  ∀ (p : PortId) (s : State) (c : CtxId) (k : LockId) (o : Owner) (rest : List LockMail) (i : SlotId) (x : Transfer),
    (s.port p).lockMail = .guardCheck c k o :: rest →
    (s.locks.view p = .running ∨ s.locks.view p = .draining) →
    (s.port p).slots[i] = some x → x.ctx = c → (∀ j y, j ≠ i → (s.port p).slots[j] = some y → y.ctx ≠ c) →
    x.phase = .checking → x.outstanding = 0 → x.next = 0 → x.corrected = 0 → x.bad = 0 → x.firstBad = none →
    x.decision = none → (s.port p).slotReads[i] = none →
    let h := { s.port p with lockMail := rest }
    ∃ t, exec (.guardCheck p) s = .next t ∧ OnlyPort p s t ∧
      ((s.locks.table[k]).holder = some ⟨p, o⟩ →
        ∃ (y : Transfer) (read : Option SlotRead),
          t.port p = { h with slots := h.slots.set i (some y), slotReads := h.slotReads.set i read } ∧
          match x.cmd with
          | .read _ _ (.scatter count addr) => y = { x with phase := .listing } ∧ read = some (.list addr count)
          | .write _ _ (.scatter count addr) => y = { x with phase := .listing } ∧ read = some (.list addr count)
          | .read _ n (.direct addr) => y = { x with phase := .moving, entries := [(addr, n)] } ∧ read = none
          | .write a n (.direct addr) =>
            y = { x with phase := .moving, entries := [(addr, n)] } ∧
              (x.piece = 0 → a % 8 = 0 → n % 8 = 0 → 8 ≤ n →
                read = some (.data addr (min (8 - a / 8 % 8) (n / 8))))
          | _ => y = { x with phase := .moving } ∧ read = none) ∧
        ((s.locks.table[k]).holder ≠ some ⟨p, o⟩ →
          CompletionTaken c .notHolder (.transfer ⟨0, 0, 0, none, none⟩) { h with slots := h.slots.set i none } (t.port p))

/-- The expiry of a waiter whose deadline was reached (R93): its entry leaves the pool, the lock and the other waiters
stay as they are, and its ACQUIRE completes TIMEOUT with the holder seen; a waiter whose deadline was not reached does
not expire, and the event leaves the state (notes/assumptions/1.md, 20.md). -/
def Obligations.DueWaiterExpiresWithTimeout : Prop :=
  ∀ (p : PortId) (c : CtxId) (s : State) (pre post : List Waiter) (w : Waiter), s.locks.pool = pre ++ w :: post →
    (∀ x ∈ pre, ¬ (x.party.port = p ∧ x.ctx = c)) → w.party.port = p → w.ctx = c →
    (w.due = false → exec (.waiterDeadlineExpiry p c) s = .next s) ∧
      (w.due = true →
        ∃ t, exec (.waiterDeadlineExpiry p c) s = .next t ∧
          t = { s.setPort p (t.port p) with locks := { s.locks with pool := pre ++ post } } ∧
          CompletionTaken c .timeout (.lock false (s.locks.table[w.lock]).holder) (s.port p) (t.port p))

/-- The notices of entry to RUNNING, DRAINING and FAULTED (R88, R97, R98), each the first notice of its port that the
Lock Unit has not taken: each sets the port state held; RUNNING changes nothing else; DRAINING and FAULTED remove every
waiter of the port, keep every lock record and leave the other port's waiters. DRAINING completes their ACQUIREs
CANCELLED, by lock number and in queue order within a lock; FAULTED makes no completion, and a port in FAULTED frees the
waiters' contexts. -/
def Obligations.PortNoticesRemoveThePortsWaiters : Prop :=
  ∀ (p : PortId) (s : State) (pre post : List LockMail) (v : LockView),
    (s.port p).lockMail = pre ++ .notice v :: post → (∀ m ∈ pre, ∀ u, m ≠ .notice u) →
    let h := { s.port p with lockMail := pre ++ post }
    let left : LockUnit := { s.locks with pool := s.locks.pool.filter fun w => w.party.port ≠ p }
    let removed : List Waiter := (List.range 256).flatMap fun k =>
      s.locks.pool.filter fun w => w.lock.val = k && w.party.port = p
    (v = .running →
      exec (.lockRunningNotice p) s = .next { s.setPort p h with locks := s.locks.setView p .running }) ∧
      (v = .draining →
        ∃ t, exec (.lockDrainNotice p) s = .next t ∧
          t = { s.setPort p (t.port p) with locks := left.setView p .draining } ∧
          CompletionsTaken (removed.map fun w => (w.ctx, .cancelled, .lock false (s.locks.table[w.lock]).holder)) h
            (t.port p)) ∧
      (v = .faulted →
        ∃ t, exec (.lockFaultNotice p) s = .next t ∧
          t = { s.setPort p (t.port p) with locks := left.setView p .faulted } ∧
          (h.state = .faulted → ContextsFreed (removed.map Waiter.ctx) h (t.port p)) ∧
          (h.state ≠ .faulted → t.port p = h))

/-- The port reset notice (R99, R100), the first notice of its port that the Lock Unit has not taken: every waiter of
the port is gone; a lock held by the port passes to its oldest other waiter, with ABANDONED reported, or is free with
the ABANDONED mark set; every other lock record is unchanged. The waiters granted complete OK, by lock number. -/
def Obligations.ResetNoticeAbandonsThePortsLocks : Prop :=
  ∀ (p : PortId) (s : State) (pre post : List LockMail),
    (s.port p).lockMail = pre ++ .notice .resetting :: post → (∀ m ∈ pre, ∀ u, m ≠ .notice u) →
    let others (k : LockId) : List Waiter := s.locks.pool.filter fun w => w.lock = k && w.party.port != p
    let held (k : LockId) : Prop := (s.locks.table[k]).holder.map Party.port = some p
    let granted : List Waiter := (List.finRange 256).filterMap fun k => if held k then (others k).head? else none
    let other := s.port p.other
    ∃ t, exec (.lockResetNotice p) s = .next t ∧
      t = { s with locks := t.locks, port0 := t.port0, port1 := t.port1 } ∧ t.locks.view p = .resetting ∧
        t.locks.view p.other = s.locks.view p.other ∧ (∀ w ∈ t.locks.pool, w ∈ s.locks.pool ∧ w.party.port ≠ p) ∧
        t.port p = { s.port p with lockMail := pre ++ post } ∧
        CompletionsTaken (granted.map fun w => (w.ctx, .ok, .lock true (some w.party))) other (t.port p.other) ∧
        ∀ k : LockId,
          let left := t.locks.pool.filter fun w => w.lock = k
          (¬ held k → t.locks.table[k] = s.locks.table[k] ∧ left = others k) ∧
            (held k →
              match others k with
              | w :: ws => t.locks.table[k] = ⟨some w.party, false⟩ ∧ left = ws
              | [] => t.locks.table[k] = ⟨none, true⟩ ∧ left = [])

/-! ## The registers and states of a port (R105 to R110, R122 to R124) -/

/-- A write to SETUP replaces the whole of it or one half, in every port state (R107, R174). A discarded write does
nothing (R174). ENABLE acts in OFF alone (R105), with the link up (notes/assumptions/12.md): the rings, the hold state
and the completion writer start afresh and the setup block is read, or a misaligned address faults the port with no read
(R107). The port of the last clause holds no work, as a port in OFF does. -/
def Obligations.SetupAndEnableBeginAPort : Prop :=
  ∀ (p : PortId) (s : State),
    let h := s.port p
    let fresh : HostPort :=
      { h with
        state := .setup, sqHead := 0, sqTail := 0, cqHead := 0, unconsumed := 0, hold := .clear, faultCode := .none,
        cqTail := 0, phase := true, unannounced := 0, announced := 0, quietTimer := none, writeList := [],
        recordWrite := none, faultCause := false, doneCause := false }
    (∀ part, ∃ v : BitVec 64, exec (.setupWrite p part) s = .next (s.setPort p { h with setupReg := v }) ∧
      match part with
      | .whole x => v = x
      | .low x => v.extractLsb' 0 32 = x ∧ v.extractLsb' 32 32 = h.setupReg.extractLsb' 32 32
      | .high x => v.extractLsb' 32 32 = x ∧ v.extractLsb' 0 32 = h.setupReg.extractLsb' 0 32) ∧
      (∀ w, exec (.registerWriteDiscarded p w) s = .next s) ∧
      (h.state ≠ .off → exec (.enable p) s = .next s) ∧
      (h.linkUp = true → h.state = .off →
        (h.setupReg.toNat % 64 = 0 →
          exec (.enable p) s = .next (s.setPort p { fresh with setupRead := some h.setupReg.toNat })) ∧
        (h.setupReg.toNat % 64 ≠ 0 → h.workList = [] → h.maintQueue = [] →
          (∀ r, s.maint.running = some r → r.port ≠ p) →
          exec (.enable p) s =
            .next (s.setPort p
              { fresh with
                state := .faulted, faultCode := .setupInvalid, faultCause := true,
                lockMail := h.lockMail ++ [.notice .faulted] })))

/-- DISABLE acts in RUNNING alone (R105): the port is DRAINING, the drain notice is handed (R122), the work list is
tested (R119), and nothing else changes. RESETTING ends in OFF exactly when the queue of the port is empty, no host read
of it is outstanding, and the Lock Unit has taken all that was handed to it (R124); elsewhere the event leaves the state
(notes/assumptions/1.md). -/
def Obligations.DisableDrainsAndResetEndsInOff : Prop :=
  ∀ (p : PortId) (s : State),
    let h := s.port p
    let quiet := h.state = .resetting ∧ s.sched.queue (.host p) = [] ∧ h.setupRead = none ∧ h.fetch = none ∧
      (∀ i : SlotId, h.slotReads[i] = none) ∧
      (∀ r, s.maint.running = some r → r.port = p → r.checkRead = none) ∧ h.lockMail = []
    (h.state ≠ .running → exec (.disable p) s = .next s) ∧
      (h.state = .running →
        ∃ t, exec (.disable p) s = .next t ∧ OnlyPort p s t ∧
          t.port p =
            { h with
              state := .draining, contexts := (t.port p).contexts, workList := (t.port p).workList
              lockMail := (t.port p).lockMail, maintQueue := (t.port p).maintQueue } ∧
          (∃ more, (t.port p).lockMail = h.lockMail ++ .notice .draining :: more) ∧
          (∃ gone,
            HeadsRun { h with state := .draining, lockMail := h.lockMail ++ [.notice .draining] } (t.port p) gone) ∧
          (h.workList = [] → (t.port p).contexts = h.contexts ∧ (t.port p).workList = [])) ∧
      (quiet → exec (.resetComplete p) s = .next (s.setPort p { h with state := .off })) ∧
      (¬ quiet → exec (.resetComplete p) s = .next s)

/-- RESET acts in every state but RESETTING (R105). Entry to RESETTING frees every context and slot, clears the hold
state and the causes, empties the write list, and hands the reset notices (R124, R160); of the queue of the port only
the references IN_PROGRESS are left (R73), and the queue leaves the held-over set (R46); and a command of the port at
the Maintenance Unit ends, or is stopped while its check read is outstanding (R164). The other port is left alone. The
count of record writes whose report is of before the reset is the model's own (notes/assumptions/14.md), and what a
freed context holds besides its state FREE is the model's choice (notes/assumptions/42.md), for R124 gives the state
alone. -/
def Obligations.ResetDropsTheWorkOfItsPort : Prop :=
  ∀ (p : PortId) (s : State),
    let h := s.port p
    (h.state = .resetting → exec (.reset p) s = .next s) ∧
      (h.state ≠ .resetting →
        ∃ t, exec (.reset p) s = .next t ∧ QueuePurged p s t ∧
          t = { s.setPort p (portReset (h.staleWrites + if h.recordWrite = none then 0 else 1) h) with
                sched := t.sched, mig := t.mig, maint := maintAfterStop p .reset s.maint })

/-- A link that goes down brings its port to RESETTING exactly as a RESET does, from any other state (R106;
`ResetDropsTheWorkOfItsPort`), ends every host read of the port, the check read of its maintenance command among them,
and loses the posted writes that had not been delivered (notes/assumptions/13.md says which those are); SETUP, the
pointers, the setup values and the other port stay. In RESETTING only the reads and the writes are touched. When the
link comes back the port stays as it is. That a link already down leaves the state as it is rests on the model's choices
in notes/assumptions/1.md and 12.md, and the count of record writes of before the reset is the model's own
(notes/assumptions/14.md). What a freed context holds besides its state FREE is the model's choice
(notes/assumptions/42.md), for R124 gives the state alone. -/
def Obligations.LinkLossResetsAndLinkReturnLeavesThePort : Prop :=
  ∀ (p : PortId) (s : State) (delivered : Nat),
    let h := s.port p
    let keep := max h.sentSure (min delivered h.sent.length)
    let cut (k : HostPort) : HostPort :=
      { k with linkUp := false, setupRead := none, fetch := none, slotReads := Vector.replicate 4 none,
               sent := h.sent.take keep, sentSure := keep }
    let ended (ends : Running → Bool) : MaintUnit :=
      { s.maint with running := s.maint.running.bind fun r => if ends r then none else some r }
    exec (.linkUp p) s = .next (s.setPort p { h with linkUp := true }) ∧
      (h.linkUp = false → exec (.linkDown p delivered) s = .next s) ∧
      (h.linkUp = true → h.state = .resetting →
        exec (.linkDown p delivered) s =
          .next { s.setPort p (cut h) with maint := ended fun r => decide (r.port = p) && r.checkRead.isSome }) ∧
      (h.linkUp = true → h.state ≠ .resetting →
        ∃ t, exec (.linkDown p delivered) s = .next t ∧ QueuePurged p s t ∧
          t = { s.setPort p (cut (portReset (h.staleWrites + if h.recordWrite = none then 0 else 1) h)) with
                sched := t.sched, mig := t.mig, maint := ended fun r => decide (r.port = p) })

/-- The doorbells act in RUNNING and DRAINING alone. SUBMIT: a value below SQ entries is the new SQ tail, another faults
the port with TAIL_INVALID (R109). CONSUME: `k` records consumed lower the unconsumed and the announced count, and clear
DONE when the announced count comes to 0; a head out of range, or more records than are unconsumed, faults the port with
HEAD_OVERRUN (R110, R155). -/
def Obligations.DoorbellsMoveTheRingsOrFault : Prop :=
  ∀ (p : PortId) (v : BitVec 32) (s : State),
    let h := s.port p
    (h.inService = false → exec (.submit p v) s = .next s ∧ exec (.consume p v) s = .next s) ∧
      ∀ x, h.inService = true → h.values = some x →
        (v.toNat < x.sqEntries → exec (.submit p v) s = .next (s.setPort p { h with sqTail := v.toNat })) ∧
        (x.sqEntries ≤ v.toNat → ∃ t, exec (.submit p v) s = .next t ∧ FaultEntered p .tailInvalid s t) ∧
        (x.cqEntries ≤ v.toNat → ∃ t, exec (.consume p v) s = .next t ∧ FaultEntered p .headOverrun s t) ∧
        ∀ k, v.toNat < x.cqEntries → h.cqHead < x.cqEntries → k < x.cqEntries → (h.cqHead + k) % x.cqEntries = v.toNat →
          (k ≤ h.unconsumed →
            exec (.consume p v) s =
              .next (s.setPort p
                { h with
                  cqHead := v.toNat, unconsumed := h.unconsumed - k, announced := h.announced - k,
                  doneCause := if h.announced ≤ k then false else h.doneCause })) ∧
          (h.unconsumed < k → ∃ t, exec (.consume p v) s = .next t ∧ FaultEntered p .headOverrun s t)

/-! ## Setup block, records and contexts (R108, R111 to R117) -/

/-- The end of the setup read (R108): in SETUP a failure faults the port with SETUP_FETCH_ERROR, a block with a field
out of range with SETUP_INVALID, and a good block is adopted with entry to RUNNING, its notice (R88), and the ALERT
message if ALERT is pending (R157). In another state the read is discarded. -/
def Obligations.SetupReadEndsInRunningOrFaulted : Prop :=
  ∀ (p : PortId) (s : State) (block : Option (BitVec 512)), (s.port p).setupRead.isSome = true →
    let h := { s.port p with setupRead := none }
    let s1 := s.setPort p h
    (h.state ≠ .setup → exec (.setupFetchDone p block) s = .next s1) ∧
      (h.state = .setup →
        (block = none → ∃ t, exec (.setupFetchDone p block) s = .next t ∧ FaultEntered p .setupFetchError s1 t) ∧
        ∀ b, block = some b →
          let entries (byte : Nat) : Prop := ∃ n, 4 ≤ n ∧ n ≤ 12 ∧ (b.extractLsb' (8 * byte) 16).toNat = 2 ^ n
          let enable := (b.extractLsb' (8 * 32) 8).toNat
          let good := (b.extractLsb' 0 64).toNat % 64 = 0 ∧ (b.extractLsb' (8 * 8) 64).toNat % 32 = 0 ∧ entries 16 ∧
            entries 18 ∧ enable ≤ 1 ∧ (enable = 1 → (b.extractLsb' (8 * 20) 64).toNat % 4 = 0) ∧
            1 ≤ (b.extractLsb' (8 * 33) 8).toNat ∧ (b.extractLsb' (8 * 36) 8).toNat ≤ 3 ∧
            b.extractLsb' (8 * 37) (8 * 27) = 0#(8 * 27)
          (¬ good → ∃ t, exec (.setupFetchDone p block) s = .next t ∧ FaultEntered p .setupInvalid s1 t) ∧
          (good →
            ∃ v : SetupValues,
              (v.sqBase = (b.extractLsb' 0 64).toNat ∧ v.cqBase = (b.extractLsb' (8 * 8) 64).toNat ∧
                v.sqEntries = (b.extractLsb' (8 * 16) 16).toNat ∧ v.cqEntries = (b.extractLsb' (8 * 18) 16).toNat ∧
                v.msgAddr = b.extractLsb' (8 * 20) 64 ∧ v.msgData = b.extractLsb' (8 * 28) 32 ∧
                (v.msgEnable = true ↔ enable = 1) ∧ v.coalesce = (b.extractLsb' (8 * 33) 8).toNat ∧
                v.quiet = (b.extractLsb' (8 * 34) 16).toNat ∧ v.selector.val = (b.extractLsb' (8 * 36) 8).toNat) ∧
              exec (.setupFetchDone p block) s =
                .next (s.setPort p
                  { h with
                    values := some v, state := .running, lockMail := h.lockMail ++ [.notice .running],
                    sent := h.sent ++ if h.alertCause then messageOf { h with values := some v } else [] })))

/-- A record is fetched exactly when the port is RUNNING with a record pending and the four conditions of R111 hold: one
read at SQ base + SQ head × 64. Elsewhere the event leaves the state, the model's choice (notes/assumptions/1.md). -/
def Obligations.RecordIsFetchedWhenTheConditionsHold : Prop :=
  ∀ (p : PortId) (s : State) (v : SetupValues), (s.port p).values = some v →
    let h := s.port p
    let may := h.state = .running ∧ h.sqHead ≠ h.sqTail ∧ s.scrub.store = .ready ∧ h.hold = .clear ∧
      (h.contexts.toList.filter fun c => c.state != .free).length + h.unconsumed < v.cqEntries ∧ h.fetch = none
    (may → exec (.recordFetch p) s = .next (s.setPort p { h with fetch := some (v.sqBase + h.sqHead * 64) })) ∧
      (¬ may → exec (.recordFetch p) s = .next s)

/-- What the form of a record decides (R115, R116, R178): a record with a check that fails is MALFORMED; a NOP is
answered OK; a transfer with a range that passes the store is answered RANGE; and every other record is accepted, with
the fields its opcode lays down in section 11.2. -/
def Obligations.RecordsAreJudgedByFormThenRange : Prop :=
  ∀ r : BitVec 512,
    let num := recordNum r
    let op := num 0 1
    let host : HostSide := if r.getLsbD 11 then .scatter (num 20 2) (num 24 8) else .direct (num 24 8)
    let passes (start : Nat) : Prop := 34359738368 < start + num 16 4
    (¬ (CommonFieldsFit r ∧ OpcodeFieldsFit r) → verdictOf r = .answered .malformed) ∧
      (CommonFieldsFit r → OpcodeFieldsFit r →
        (op = 0x00 → verdictOf r = .answered .ok) ∧
        (1 ≤ op → op ≤ 5 → (passes (num 8 8) ∨ (op = 4 ∧ passes (num 24 8))) → verdictOf r = .answered .range) ∧
        (¬ passes (num 8 8) →
          (op = 0x01 → verdictOf r = .accepted (.read (num 8 8) (num 16 4) host)) ∧
          (op = 0x02 → verdictOf r = .accepted (.write (num 8 8) (num 16 4) host)) ∧
          (op = 0x03 → verdictOf r = .accepted (.fill (num 8 8) (num 16 4) (r.extractLsb' 192 64))) ∧
          (op = 0x04 → ¬ passes (num 24 8) → verdictOf r = .accepted (.copy (num 8 8) (num 16 4) (num 24 8))) ∧
          (op = 0x05 →
            verdictOf r =
              .accepted (.scan (num 8 8) (num 16 4) (r.extractLsb' 192 64) (r.extractLsb' 256 64)))) ∧
        (op = 0x10 →
          verdictOf r = .accepted (.acquire (Fin.ofNat 256 (num 8 2)) (r.extractLsb' 80 16) (num 12 2))) ∧
        (op = 0x11 → verdictOf r = .accepted (.release (Fin.ofNat 256 (num 8 2)) (r.extractLsb' 80 16))) ∧
        (op = 0x20 → verdictOf r = .accepted (.mapQuery (num 8 2) (num 10 2) (num 16 8))) ∧
        (op = 0x21 → verdictOf r = .accepted (.incidents (num 8 2) (num 16 8))) ∧
        (op = 0x22 →
          verdictOf r =
            .accepted
              (.tune (if r.getLsbD 64 then some (num 10 2) else none) (if r.getLsbD 65 then some (num 12 2) else none))) ∧
        (op = 0x23 → verdictOf r = .accepted (.relocate (Fin.ofNat 512 (num 8 2)))))

/-- The end of a record fetch (R112, R113, R115 to R117). In RUNNING a returned record is taken into the lowest FREE
context `c`, which keeps it whole, the SQ head advances and the pause mark is tested; a record answered at once is DONE
with its completion handed, and an accepted one joins the back of the work list. Either way the list is then tested:
from its front the heads that can run leave as ACTIVE for their owners, and one whose FENCE waits for an earlier command
stays, with all behind it (R119, R120). The ranges of an accepted transfer are whole words in the store, and those of a
COPY share none. Which records are answered, and how, `RecordsAreJudgedByFormThenRange` says. A failed read faults the
port with FETCH_ERROR. In another state the result is discarded. The place in taking order, a number that counts the
records taken, is the model's choice (notes/assumptions/25.md). -/
def Obligations.FetchedRecordIsTaken : Prop :=
  ∀ (p : PortId) (s : State) (record : Option (BitVec 512)), (s.port p).fetch.isSome = true →
    let h := { s.port p with fetch := none }
    let s1 := s.setPort p h
    (h.state ≠ .running → exec (.recordFetchDone p record) s = .next s1) ∧
      (h.state = .running →
        (record = none → ∃ t, exec (.recordFetchDone p record) s = .next t ∧ FaultEntered p .fetchError s1 t) ∧
        ∀ (r : BitVec 512) (v : SetupValues) (c : CtxId), record = some r → h.values = some v →
          (h.contexts[c]).state = .free → (∀ d : CtxId, d < c → (h.contexts[d]).state ≠ .free) →
          let used := (h.contexts.toList.filter fun x => x.state != .free).length + 1
          let hold := if used = #v[16, 32, 48, 64][v.selector] then Hold.paused else h.hold
          let taking (st : CtxState) (cmd : Command) : HostPort :=
            { h with
              sqHead := (h.sqHead + 1) % v.sqEntries, taken := h.taken + 1, hold := hold
              contexts := h.contexts.set c ⟨st, h.taken, r, cmd⟩ }
          ∃ t, exec (.recordFetchDone p record) s = .next t ∧ OnlyPort p s t ∧
            let x := (t.port p).contexts[c]
            x.record = r ∧ x.place = h.taken ∧ x.tag = r.extractLsb' 16 16 ∧ x.opcode = r.extractLsb' 0 8 ∧
            x.flags = r.extractLsb' 8 8 ∧
            x.guard =
              (if r.getLsbD 10 then some (Fin.ofNat 256 (r.extractLsb' 32 16).toNat, r.extractLsb' 48 16) else none) ∧
            match verdictOf r with
            | .answered st => ∃ cmd, CompletionHanded c st .none (taking .done cmd) (t.port p)
            | .accepted cmd =>
              (∀ x ∈ storeRanges cmd,
                x.1 % 8 = 0 ∧ x.2 % 8 = 0 ∧ 8 ≤ x.2 ∧ x.2 ≤ 16777216 ∧ x.1 + x.2 ≤ 34359738368) ∧
                (∀ a n d, cmd = .copy a n d → a + n ≤ d ∨ d + n ≤ a) ∧ cmd ≠ .nop ∧ cmd ≠ .rejected ∧
                t.port p =
                  { taking .waiting cmd with
                    contexts := (t.port p).contexts, workList := (t.port p).workList
                    lockMail := (t.port p).lockMail, maintQueue := (t.port p).maintQueue } ∧
                ∃ gone,
                  HeadsRun { taking .waiting cmd with workList := h.workList ++ [c] } (t.port p) gone ∧
                    h.workList ++ [c] = gone ++ (t.port p).workList ∧
                    (∀ d ∈ gone, ((t.port p).contexts[d]).state = .active) ∧
                    (c ∉ gone → (t.port p).contexts[c] = ⟨.waiting, h.taken, r, cmd⟩) ∧
                    ∀ d : CtxId, d ∉ gone → d ≠ c → (t.port p).contexts[d] = h.contexts[d])

/-- An announce, at the expiry of the quiet timer (R153) and at the end of a drain with a record unannounced (R122,
R154). The drain ends exactly when no context is in use and no record fetch is outstanding. A timer that is stopped, or
whose deadline the time base has not reached, does not expire. An event that does not occur leaves the state
(notes/assumptions/1.md). -/
def Obligations.ExpiryAndDrainEndAnnounce : Prop :=
  ∀ (p : PortId) (s : State),
    let h := s.port p
    let drained := h.state = .draining ∧ (∀ c : CtxId, (h.contexts[c]).state = .free) ∧ h.fetch = none
    (h.inService = true → (∃ x, h.quietTimer = some x ∧ x.due = true) →
      exec (.quietTimerExpiry p) s = .next (s.setPort p (announcedPort h))) ∧
      ((∀ x, h.quietTimer = some x → x.due = false) → exec (.quietTimerExpiry p) s = .next s) ∧
      (drained → h.unannounced ≠ 0 → exec (.drainEnd p) s = .next (s.setPort p { announcedPort h with state := .off })) ∧
      (drained → h.unannounced = 0 → exec (.drainEnd p) s = .next (s.setPort p { h with state := .off })) ∧
      (¬ drained → exec (.drainEnd p) s = .next s)

/-! ## Transfers (R119 to R121, R126 to R137) -/

/-- The transfer at the head of the work list is activated by the row of its kind once the port is in service, its FENCE
is met and a slot is free (R119 to R121): its context is ACTIVE and it takes the lowest free slot, entering CHECKING
with its guard check handed, LISTING with its scatter-list read under way, or MOVING, a WRITE with the read of the host
data of its first line, up to the end of that line (R128, R134); the list is then tested from the next head on (R119). A
transfer whose port is out of service, whose FENCE waits for an earlier command, or that finds all four slots held stays
at the front with everything behind it: the event leaves the state (R119 to R121; notes/assumptions/1.md). That each
kind has a row of its own for this is the table's (notes/assumptions/21.md). -/
def Obligations.TransferHeadTakesTheLowestFreeSlot : Prop :=
  ∀ (p : PortId) (s : State) (row : Instr) (c : CtxId) (rest : List CtxId),
    let h := s.port p
    let x := h.contexts[c]
    (match x.cmd with
      | .read .. => row = .read p
      | .write .. => row = .write p
      | .fill .. => row = .fill p
      | .copy .. => row = .copy p
      | .scan .. => row = .scan p
      | _ => False) →
    h.workList = c :: rest →
    (h.inService = false ∨ FenceWaits h [] c ∨ (∀ i : SlotId, h.slots[i] ≠ none) → exec row s = .next s) ∧
    ∀ i : SlotId, c ∉ rest → h.inService = true →
    (x.flags.getLsbD 0 = true → ∀ d : CtxId,
      (h.contexts[d]).place < x.place → (h.contexts[d]).state = .free ∨ (h.contexts[d]).state = .done) →
    h.slots[i] = none → (∀ j : SlotId, j < i → h.slots[j] ≠ none) →
    ∃ t, exec row s = .next t ∧ OnlyPort p s t ∧
      t.port p =
        { h with
          contexts := (t.port p).contexts, workList := (t.port p).workList, slots := (t.port p).slots
          slotReads := (t.port p).slotReads, lockMail := (t.port p).lockMail, maintQueue := (t.port p).maintQueue } ∧
      (t.port p).contexts[c] = { x with state := .active } ∧ (∀ j : SlotId, j ≠ i → (t.port p).slots[j] = h.slots[j]) ∧
      (∃ gone,
        HeadsRun
            { h with
              workList := rest
              contexts := h.contexts.set c { x with state := .active }
              lockMail := h.lockMail ++ (x.guard.map fun g => LockMail.guardCheck c g.1 g.2).toList }
            (t.port p) gone ∧
          rest = gone ++ (t.port p).workList ∧ ∀ d ∈ gone, ((t.port p).contexts[d]).state = .active) ∧
      (∀ k o, x.guard = some (k, o) →
        (t.port p).slots[i] = some { Transfer.fresh c x.cmd with phase := .checking } ∧
          (t.port p).slotReads = h.slotReads ∧ ∃ more, (t.port p).lockMail = h.lockMail ++ .guardCheck c k o :: more) ∧
      (x.guard = none →
        (∃ more, (t.port p).lockMail = h.lockMail ++ more) ∧
        match x.cmd with
        | .read _ _ (.scatter count addr) | .write _ _ (.scatter count addr) =>
          (t.port p).slots[i] = some { Transfer.fresh c x.cmd with phase := .listing } ∧
            (t.port p).slotReads = h.slotReads.set i (some (.list addr count))
        | .read _ n (.direct addr) =>
          (t.port p).slots[i] = some { Transfer.fresh c x.cmd with entries := [(addr, n)] } ∧
            (t.port p).slotReads = h.slotReads.set i none
        | .write a n (.direct addr) =>
          (t.port p).slots[i] = some { Transfer.fresh c x.cmd with entries := [(addr, n)] } ∧
            (a % 8 = 0 → n % 8 = 0 → 8 ≤ n →
              (t.port p).slotReads = h.slotReads.set i (some (.data addr (min (8 - a / 8 % 8) (n / 8)))))
        | _ =>
          (t.port p).slots[i] = some (Transfer.fresh c x.cmd) ∧ (t.port p).slotReads = h.slotReads.set i none)

/-- The scatter-list read of a transfer ends (R129): a failed read ends it HOST_FAULT and a bad entry or a sum other
than the length MALFORMED, with 0 bytes done, its slot free and its completion handed, or in FAULTED its context free
without a completion (R145); a good list is kept in the slot, which enters MOVING, and a WRITE begins its first
host-data read at the address of the first entry (R130, R134). The read of a freed slot is discarded (R146). -/
def Obligations.ScatterListStartsOrEndsItsTransfer : Prop :=
  ∀ (p : PortId) (s : State) (i : SlotId) (addr count : Nat) (list : Option (List (BitVec 128))),
    let h := s.port p
    h.slotReads[i] = some (.list addr count) → (∀ l, list = some l → l.length = count) →
    let ended := { h with slotReads := h.slotReads.set i none }
    (h.slots[i] = none → exec (.scatterListReadDone p i list) s = .next (s.setPort p ended)) ∧
    ∀ x : Transfer, h.slots[i] = some x →
    let ends (status : Status) : Prop :=
      x.outstanding = 0 → x.next = 0 → x.corrected = 0 → x.bad = 0 → x.firstBad = none → x.decision = none →
      ∃ t, exec (.scatterListReadDone p i list) s = .next t ∧ OnlyPort p s t ∧
        CompletionTaken x.ctx status (.transfer ⟨0, 0, 0, none, none⟩) { ended with slots := h.slots.set i none }
          (t.port p)
    let good (e : BitVec 128) : Prop :=
      (e.extractLsb' 0 64).toNat % 8 = 0 ∧ (e.extractLsb' 64 32).toNat % 8 = 0 ∧ 8 ≤ (e.extractLsb' 64 32).toNat ∧
        e.extractLsb' 96 32 = 0#32
    let entry (e : BitVec 128) : Nat × Nat := ((e.extractLsb' 0 64).toNat, (e.extractLsb' 64 32).toNat)
    (list = none → ends .hostFault) ∧
      ∀ l, list = some l →
        ((∃ e ∈ l, ¬ good e) ∨ (l.map fun e => (entry e).2).sum ≠ (rangeOf x.cmd).2 → ends .malformed) ∧
        ((∀ e ∈ l, good e) → (l.map fun e => (entry e).2).sum = (rangeOf x.cmd).2 →
          ∃ t, exec (.scatterListReadDone p i list) s = .next t ∧ OnlyPort p s t ∧
            t.port p =
              { ended with
                slots := h.slots.set i (some { x with phase := .moving, entries := l.map entry })
                slotReads := h.slotReads.set i (t.port p).slotReads[i] } ∧
            (x.cmd.isWrite = false → (t.port p).slotReads[i] = none) ∧
            ∀ a n side e es, x.cmd = .write a n side → a % 8 = 0 → x.next = 0 → x.piece = 0 → l = e :: es →
              ∃ words, (t.port p).slotReads[i] = some (.data (entry e).1 words))

/-- The host-data read of one piece of a WRITE ends (R134, R136). A piece that is not the line's last brings the read of
the next; the last stages the line, in which the words gathered, piece after piece, stand at the covered words in
ascending order. A failed read stops the WRITE at its line, and once nothing is outstanding it ends HOST_FAULT with the
covered bytes of the lines issued before it as its bytes done, and no found offset (R144), or in FAULTED with its
context free and no completion (R145). The read of a freed slot is discarded (R146). The pieces are those of R130. -/
def Obligations.HostDataStagesALineOrStopsTheWrite : Prop :=
  ∀ (p : PortId) (s : State) (i : SlotId) (addr count : Nat) (words : Option (List Word)),
    let h := s.port p
    h.slotReads[i] = some (.data addr count) → (∀ ws, words = some ws → ws.length = count) →
    let ended := { h with slotReads := h.slotReads.set i none }
    (h.slots[i] = none → exec (.hostDataReadDone p i words) s = .next (s.setPort p ended)) ∧
    ∀ (x : Transfer) (a n : Nat) (side : HostSide), h.slots[i] = some x → x.cmd = .write a n side → x.phase = .moving →
    x.next < x.lineCount →
    let pieces := piecesOf x.entries a n x.next
    let stopped := { x with phase := .finishing, ending := some .hostFault, gathered := [], staged := none }
    ((x.entries.map Prod.snd).sum = n → PiecesAre x.entries a n x.next pieces) ∧
    (words = none → x.outstanding ≠ 0 →
      exec (.hostDataReadDone p i words) s =
        .next (s.setPort p { ended with slots := h.slots.set i (some stopped) })) ∧
      (words = none → x.outstanding = 0 → x.decision = none →
        ∃ t, exec (.hostDataReadDone p i words) s = .next t ∧ OnlyPort p s t ∧
          CompletionTaken x.ctx .hostFault
            (.transfer ⟨if x.next = 0 then 0 else min n ((a / 64 + x.next) * 64 - a), x.corrected, x.bad, x.firstBad,
              none⟩) { ended with slots := h.slots.set i none } (t.port p)) ∧
      ∀ ws, words = some ws →
        (∀ q, pieces[x.piece + 1]? = some q →
          exec (.hostDataReadDone p i words) s =
            .next (s.setPort p
              { h with
                slots := h.slots.set i (some { x with piece := x.piece + 1, gathered := x.gathered ++ ws })
                slotReads := h.slotReads.set i (some (.data q.addr q.words.length)) })) ∧
        (pieces.length ≤ x.piece + 1 → ∃ line : Vector Word 8,
          exec (.hostDataReadDone p i words) s =
            .next (s.setPort p
              { ended with slots := h.slots.set i (some { x with piece := 0, gathered := [], staged := some line }) }) ∧
          ∀ (w : Fin 8) (skipped : Nat), a % 8 = 0 → skipped = (if x.next = 0 then a / 8 % 8 else 0) → skipped ≤ w.val →
            wordAddress a x.next w.val < a + n →
            ∀ y, (x.gathered ++ ws)[w.val - skipped]? = some y → line.get w = y)

/-- A place in the queue of the port goes to the first slot with a reference ready, in rotation from the slot after the
last issuer (R132): the reference joins the back of the queue WAITING, with its context and line index as its origin,
and names the line of the range and what its kind reads or writes (R131, R133 to R135, R137): a COPY writes each word
with the source word at the same offset of its range, and names the bad ones in the poison mask (R126, R138). A WRITE
begins the read of the first piece of its next line (R134), and a COPY keeps the source lines that later destination
lines draw from (R137). Nothing else of the slot changes. A reference is ready as the table of R132 says: in MOVING,
where the next line exists, and for a WRITE that line is staged, for a COPY its next reference is a READ_LINE, a source
line that the next destination line draws from being still to read, or every source line it draws from has returned
(R137). With no slot ready, four references in the queue or the port in RESETTING the event leaves the state
(notes/assumptions/1.md). -/
def Obligations.ReadySlotIssuesInRotation : Prop :=
  (∀ (p : PortId) (s : State),
    (s.port p).state = .resetting ∨ 4 ≤ (s.sched.queue (.host p)).length ∨
        (∀ (i : SlotId) (x : Transfer), (s.port p).slots[i] = some x → x.ready = false) →
    exec (.referenceIssue p) s = .next s) ∧
  (∀ x : Transfer,
    let lines (start len : Nat) : Nat := (start + len - 8) / 64 - start / 64 + 1
    let next (start len : Nat) : Prop := x.phase = .moving ∧ x.next < lines start len
    match x.cmd with
    | .read a n _ | .scan a n _ _ | .fill a n _ => x.ready = true ↔ next a n
    | .write a n _ => x.ready = true ↔ next a n ∧ x.staged.isSome = true
    | .copy a n d => d % 8 = 0 → n % 8 = 0 → 8 ≤ n →
      let draws (k : Nat) : Prop := ∃ w : Fin 8, d ≤ wordAddress d x.next w.val ∧ wordAddress d x.next w.val < d + n ∧
        k = (a + (wordAddress d x.next w.val - d)) / 64 - a / 64
      x.ready = true ↔
        next d n ∧
          ((∃ k, draws k ∧ x.nextSource ≤ k) ∨ ∀ k, draws k → (stagedLine x.lines k).isSome = true)
    | _ => x.ready = false) ∧
  ∀ (p : PortId) (s : State) (i : SlotId) (x : Transfer) (pre post : List SlotId),
    let h := s.port p
    h.state ≠ .resetting → (s.sched.queue (.host p)).length < 4 → h.slots[i] = some x → x.ready = true →
    [h.lastIssuer + 1, h.lastIssuer + 2, h.lastIssuer + 3, h.lastIssuer] = pre ++ i :: post →
    (∀ j ∈ pre, ∀ y, h.slots[j] = some y → y.ready = false) →
    ∃ (t : State) (line : Nat) (start : Nat) (op : LineOp) (y : Transfer),
      exec (.referenceIssue p) s = .next t ∧ t = { s.setPort p (t.port p) with sched := t.sched } ∧
        t.port p = { h with lastIssuer := i, slots := h.slots.set i (some y), slotReads := (t.port p).slotReads } ∧
        (∀ j : SlotId, j ≠ i → (t.port p).slotReads[j] = h.slotReads[j]) ∧
        t.sched = s.sched.setQueue (.host p)
          (s.sched.queue (.host p) ++
            [⟨.transfer x.ctx line, .logical (logicalLine (start / 64 + line)), op, none⟩]) ∧
        let mask (a n : Nat) (m : BitVec 8) : Prop := ∀ w : Fin 8,
          m.getLsbD w.val = true ↔ a ≤ wordAddress a line w.val ∧ wordAddress a line w.val < a + n
        let issued : Transfer :=
          { x with next := x.next + 1, outstanding := x.outstanding + 1
                   phase := if x.next + 1 = x.lineCount then .finishing else .moving }
        match x.cmd with
        | .read a _ _ | .scan a _ _ _ =>
          line = x.next ∧ start = a ∧ op = .readLine ∧ y = issued ∧
            (t.port p).slotReads[i] = h.slotReads[i]
        | .write a n _ =>
          line = x.next ∧ start = a ∧ y = { issued with staged := none, piece := 0, gathered := [] } ∧
            (∀ q qs, x.next + 1 < x.lineCount → piecesOf x.entries a n (x.next + 1) = q :: qs →
              (t.port p).slotReads[i] = some (.data q.addr q.words.length)) ∧
            (x.next + 1 = x.lineCount → (t.port p).slotReads[i] = none) ∧
            ∃ m data, x.staged = some data ∧ op = .writeLine ⟨m, data, 0#8⟩ ∧ mask a n m
        | .fill a n pattern =>
          line = x.next ∧ start = a ∧ y = issued ∧
            (t.port p).slotReads[i] = h.slotReads[i] ∧
            ∃ m, op = .writeLine ⟨m, Vector.replicate 8 pattern, 0#8⟩ ∧ mask a n m
        | .copy a n d =>
          (t.port p).slotReads[i] = h.slotReads[i] ∧
          if x.nextSource ≤ drawsLast a n d x.next then
            line = x.nextSource ∧ start = a ∧ op = .readLine ∧
              y = { x with nextSource := x.nextSource + 1, outstanding := x.outstanding + 1 }
          else
            line = x.next ∧ start = d ∧ y = { issued with lines := y.lines } ∧
              (∀ k r, stagedLine y.lines k = some r ↔
                stagedLine x.lines k = some r ∧ drawsFirst a d (x.next + 1) ≤ k) ∧
              ∃ o : WriteOperand, op = .writeLine o ∧ mask d n o.mask ∧
                ∀ (w v : Fin 8) (k : Nat) (r : LineResult), o.mask.getLsbD w.val = true → stagedLine x.lines k = some r →
                  wordAddress a k v.val = a + (wordAddress d line w.val - d) →
                  o.data[w] = (r[v]).data ∧
                    (o.poison.getLsbD w.val = true ↔ (r[v]).outcome = .uncorrectable ∨ (r[v]).outcome = .poisoned)
        | _ => False

/-! ## Results of transfers (R133, R137, R139 to R144) -/

/-- What a slot does with the result of a line. Each result lowers the lines outstanding by one, and that of a
WRITE_LINE does nothing else. A READ and a COPY count the covered words of the line: the CORRECTED ones, the bad ones
(UNCORRECTABLE or POISONED), and the lowest offset of a bad one (R142). A READ writes the delivered data of the line to
the host, a write a piece in ascending offset order (R130, R133); a COPY stages the line (R137). -/
def Obligations.TransferTakesTheResultOfItsLine : Prop :=
  ∀ (i : Nat) (x : Transfer),
    let taken : Transfer := { x with outstanding := x.outstanding - 1 }
    x.takeResult i none = (taken, []) ∧
      ∀ (r : LineResult) (a n : Nat),
        let words := wordsOfLine a n i
        let bad := words.filter fun w => decide (r[w].outcome = .uncorrectable ∨ r[w].outcome = .poisoned)
        let counted : Transfer :=
          { taken with
            corrected := x.corrected + (words.filter fun w => decide (r[w].outcome = .corrected)).length
            bad := x.bad + bad.length
            firstBad := (x.firstBad.toList ++ bad.map fun w => wordAddress a i w.val - a).min? }
        (∀ side, x.cmd = .read a n side → (x.entries.map Prod.snd).sum = n →
          ∃ pieces, PiecesAre x.entries a n i pieces ∧
            x.takeResult i (some r) =
              (counted, pieces.map fun q => .readData q.addr (q.words.map fun w => (r[Fin.ofNat 8 w]).data))) ∧
          ∀ d, x.cmd = .copy a n d → x.takeResult i (some r) = ({ counted with lines := x.lines ++ [(i, r)] }, [])

/-- A SCAN takes the result of a line (R139, R140, R142). Once it is decided the result is discarded. Else the lines
from the frontier up to the first whose result has not returned are examined word by word: the first word that is bad,
or that matches the pattern under the mask, decides the SCAN, and the words up to it, and none after it, are counted.
With no such word the SCAN is decided NOT_FOUND at the end of the range, or its frontier comes to that line, with the
lines above it held. -/
def Obligations.ScanIsDecidedByItsLowestWord : Prop :=
  ∀ (i : Nat) (r : LineResult) (x : Transfer) (a n : Nat) (pattern mask : Word), x.cmd = .scan a n pattern mask →
    let taken : Transfer := { x with outstanding := x.outstanding - 1 }
    let held := x.lines ++ [(i, r)]
    (x.decision.isSome = true → x.takeResult i (some r) = (taken, [])) ∧
      ∀ upTo, x.decision = none → x.frontier < x.lineCount → x.frontier ≤ upTo → upTo ≤ x.lineCount →
        (∀ k, x.frontier ≤ k → k < upTo → (stagedLine held k).isSome = true) →
        (upTo = x.lineCount ∨ stagedLine held upTo = none) →
        let words : List (Nat × WordResult) :=
          (List.range' x.frontier (upTo - x.frontier)).flatMap fun k =>
            match stagedLine held k with
            | some l => (wordsOfLine a n k).map fun w => (wordAddress a k w.val - a, l[w])
            | none => []
        let isBad (v : Nat × WordResult) : Prop := v.2.outcome = .uncorrectable ∨ v.2.outcome = .poisoned
        let decides (v : Nat × WordResult) : Prop :=
          isBad v ∨ ∀ b : Fin 64, mask.getLsbD b.val = true → v.2.data.getLsbD b.val = pattern.getLsbD b.val
        let corrected (l : List (Nat × WordResult)) : Nat := (l.filter fun v => decide (v.2.outcome = .corrected)).length
        ∃ y, x.takeResult i (some r) = (y, []) ∧
          (∀ before v after, words = before ++ v :: after → (∀ u ∈ before, ¬ decides u) → decides v →
            y = { taken with phase := .finishing, lines := [], frontier := y.frontier, decision := y.decision
                             corrected := x.corrected + corrected (before ++ [v]), bad := y.bad, firstBad := y.firstBad } ∧
              (isBad v →
                y.decision = some (.bad v.1) ∧ y.bad = x.bad + 1 ∧
                  y.firstBad = (x.firstBad.toList ++ [v.1]).min?) ∧
              (¬ isBad v → y.decision = some (.matched v.1) ∧ y.bad = x.bad ∧ y.firstBad = x.firstBad)) ∧
          ((∀ v ∈ words, ¬ decides v) →
            (upTo = x.lineCount →
              y = { taken with phase := .finishing, decision := some .notFound, lines := [], frontier := upTo,
                               corrected := x.corrected + corrected words }) ∧
            (upTo < x.lineCount →
              y = { taken with frontier := upTo, lines := y.lines, corrected := x.corrected + corrected words } ∧
                ∀ k, upTo ≤ k → stagedLine y.lines k = stagedLine held k))

/-- A port takes the result of a reference for the slot of its context, and discards it when there is none (R146). The
host writes of the result are issued. The transfer ends when it is in FINISHING with nothing outstanding (R141): its
slot is FREE, and its completion is handed, with the first status of R143 that applies and the results of R144; in
FAULTED its context is FREE without a completion (R145). -/
def Obligations.TransferEndsWithItsStatusAndResults : Prop :=
  ∀ (c : CtxId) (line : Nat) (r : Option LineResult) (h : HostPort),
    ((∀ (i : SlotId) (x : Transfer), h.slots[i] = some x → x.ctx ≠ c) → takeTransferResult c line r h = h) ∧
      ∀ (i : SlotId) (x : Transfer), h.slots[i] = some x → x.ctx = c →
        (∀ (j : SlotId) (y : Transfer), j ≠ i → h.slots[j] = some y → y.ctx ≠ c) →
        let y := (x.takeResult line r).1
        let writes := (x.takeResult line r).2
        let k := takeTransferResult c line r h
        let ended := y.phase = .finishing ∧ y.outstanding = 0 ∧ h.slotReads[i] = none
        (¬ ended → k = { h with slots := h.slots.set i (some y), sent := h.sent ++ writes }) ∧
          (ended →
              ∃ (st : Status) (done : Nat) (found : Option Nat),
                CompletionTaken c st (.transfer ⟨done, y.corrected, y.bad, y.firstBad, found⟩)
                  { h with slots := h.slots.set i none, sent := h.sent ++ writes } k ∧
                st =
                  (if y.ending = some .notHolder then .notHolder
                  else if y.ending = some .malformed then .malformed
                  else if y.ending = some .hostFault then .hostFault
                  else if y.bad ≠ 0 then .dataError
                  else if y.decision = some .notFound then .notFound
                  else if y.corrected ≠ 0 then .corrected
                  else .ok) ∧
                (∀ o, y.decision = some (.matched o) ∨ y.decision = some (.bad o) → found = some o) ∧
                (y.decision = none ∨ y.decision = some .notFound → found = none) ∧
                (y.ending = none →
                  (∀ o, y.decision = some (.matched o) ∨ y.decision = some (.bad o) → done = o + 8) ∧
                    (y.decision = none ∨ y.decision = some .notFound → done = (rangeOf y.cmd).2)) ∧
                ∀ a n side, y.ending ≠ none → y.cmd = .write a n side →
                  done = if y.next = 0 then 0 else min n ((a / 64 + y.next) * 64 - a))

/-! ## Completions (R150 to R152, R154, R159, R160) -/

/-- The report *accepted* of a record write. In service (R150, R152, R154) the completion leaves the write list, the CQ
tail advances with the phase inverted at the wrap, the unconsumed count rises, the context is FREE, with the intake hold
state CLEAR if it was PAUSED and contexts in use come down to the resume mark (R113, R118), the announce tests are made
on the unannounced count this leaves, and the next completion is written at the new tail with the phase and the SQ head
of this moment. In FAULTED there is no announce and no unannounced count (R159). The report of a write of before a reset
changes nothing but the model's own count of such writes (R160; notes/assumptions/14.md), and how much the host is known
to have is the model's own count too (notes/assumptions/13.md). The report *refused* faults a port in service with
POST_ERROR, and the counts of the ring stand (R151); in FAULTED it frees the context alone, and the fault code stays
(R159). -/
def Obligations.RecordReportsEndTheirRecordWrite : Prop :=
  ∀ (p : PortId) (s : State) (r : RecordWrite) (v : SetupValues),
    let h := s.port p
    let wraps := h.cqTail + 1 = v.cqEntries
    let tail := if wraps then 0 else h.cqTail + 1
    let phase := if wraps then !h.phase else h.phase
    let count := h.unannounced + 1
    let tells := r.completion.notify = true ∨ count = v.coalesce
    exec (.completionWriteAccepted p true) s = .next (s.setPort p { h with staleWrites := h.staleWrites - 1 }) ∧
      (h.recordWrite = some r → h.values = some v → h.inService = true →
        ∃ t, exec (.completionWriteAccepted p false) s = .next t ∧ OnlyPort p s t ∧
          ((t.port p).contexts[r.completion.ctx]).state = .free ∧ ResumesAtItsMark h (t.port p) ∧
          (∀ c, c ≠ r.completion.ctx → (t.port p).contexts[c] = h.contexts[c]) ∧
          t.port p =
            { h with
              contexts := (t.port p).contexts
              hold := (t.port p).hold
              writeList := h.writeList.tail
              cqTail := tail
              phase := phase
              unconsumed := h.unconsumed + 1
              unannounced := if tells then 0 else count
              announced := if tells then h.unconsumed + 1 else h.announced
              doneCause := if tells then true else h.doneCause
              quietTimer :=
                if tells then none
                else if count = 1 ∧ v.quiet ≠ 0 then some ⟨s.timeBase + BitVec.ofNat 48 v.quiet, false⟩
                else h.quietTimer
              recordWrite := (t.port p).recordWrite
              sentSure := max h.sentSure r.mark
              sent :=
                h.sent ++ (if tells then messageOf h else []) ++
                  match h.writeList.tail with
                  | x :: _ => [.record (v.cqBase + tail * 32) (recordBytes x phase h.sqHead)]
                  | [] => [] } ∧
          (t.port p).recordWrite.map RecordWrite.completion = h.writeList.tail.head?) ∧
      (h.recordWrite = some r → h.values = some v → h.state = .faulted →
        ∃ t, exec (.completionWriteAccepted p false) s = .next t ∧ OnlyPort p s t ∧
          ((t.port p).contexts[r.completion.ctx]).state = .free ∧ ResumesAtItsMark h (t.port p) ∧
          (∀ c, c ≠ r.completion.ctx → (t.port p).contexts[c] = h.contexts[c]) ∧
          t.port p =
            { h with
              contexts := (t.port p).contexts, hold := (t.port p).hold, cqTail := tail, phase := phase,
              unconsumed := h.unconsumed + 1, recordWrite := none, sentSure := max h.sentSure r.mark }) ∧
      exec (.completionWriteRefused p true) s = .next (s.setPort p { h with staleWrites := h.staleWrites - 1 }) ∧
        (h.recordWrite = some r → h.inService = true →
          ∃ t, exec (.completionWriteRefused p false) s = .next t ∧
            FaultEntered p .postError (s.setPort p { h with recordWrite := none }) t) ∧
        (h.recordWrite = some r → h.state = .faulted →
          ∃ t, exec (.completionWriteRefused p false) s = .next t ∧ OnlyPort p s t ∧
            t.port p = { h with recordWrite := none, contexts := (t.port p).contexts, hold := (t.port p).hold } ∧
            ((t.port p).contexts[r.completion.ctx]).state = .free ∧ ResumesAtItsMark h (t.port p) ∧
            ∀ c, c ≠ r.completion.ctx → (t.port p).contexts[c] = h.contexts[c])

/-! ## Maintenance (R162 to R168, R173) -/

/-- The arbiter starts the oldest command of a port: of the one whose queue alone holds commands, or of the one that
holds the turn, which passes to the other port (R162). A MAP_QUERY runs with its snapshot, an entry of 16 bytes for each
segment in ascending order and the trailer of 64 bytes (R165, R166); an INCIDENTS with the number of records it will
copy, and with none it completes at once, reporting the dropped count and setting it to 0 (R173). That each entry is one
buffer write is the model's choice (notes/assumptions/24.md). A TUNE sets the values it names, a scrub rate of 0 also
clearing the pacing credit (R81), and completes OK with the values as they stood before (R167). A RELOCATE acts on the
state of its segment (R39, R168): QUEUED or MIGRATING completes ALREADY, AT_RISK or no room at the spares NO_SPARE, and
else the segment is queued at the back and the context waits in RELOCATE_WAIT. -/
def Obligations.MaintenanceCommandsStartByTheArbiter : Prop :=
  ∀ (p : PortId) (s : State) (c : CtxId) (rest : List CtxId),
    let h := s.port p
    let k := { h with maintQueue := rest }
    let started := s.setPort p k
    let m := s.seg.map
    let room := s.seg.queue.length < s.seg.spares.length
    s.maint.running = none → h.maintQueue = c :: rest → ((s.port p.other).maintQueue = [] ∨ s.maint.turn = p) →
    (∀ first count buffer, (h.contexts[c]).cmd = .mapQuery first count buffer →
      ∃ writes : List (List Byte),
        exec .mapQuery s =
          .next { started with maint := ⟨some ⟨p, c, .mapQuery count buffer writes, none, none⟩, p.other⟩ } ∧
        writes.length = count + 1 ∧
        (∀ k, k < count → ∃ e, writes[k]? = some e ∧ e.length = 16 ∧
          e = mapEntryBytes s.seg (s.mig.job.map Job.dest) (Fin.ofNat 512 (first + k))) ∧
        ∃ e, writes[count]? = some e ∧ e.length = 64 ∧ e = trailerBytes s.seg s.mig s.ret s.scrub.rate) ∧
      (∀ maximum buffer, (h.contexts[c]).cmd = .incidents maximum buffer →
        (min maximum s.incidents.records.length ≠ 0 →
          exec .incidents s =
            .next
              { started with
                maint :=
                  ⟨some ⟨p, c, .incidents (min maximum s.incidents.records.length) 0 buffer, none, none⟩, p.other⟩ }) ∧
        (min maximum s.incidents.records.length = 0 →
          ∃ t, exec .incidents s = .next t ∧
            t = { s.setPort p (t.port p) with
                  maint := ⟨none, p.other⟩, incidents := { s.incidents with dropped := 0 } } ∧
            CompletionTaken c .ok (.incidents 0 s.incidents.dropped) k (t.port p))) ∧
      (∀ threshold rate, (h.contexts[c]).cmd = .tune threshold rate →
        ∃ t, exec .tune s = .next t ∧
          t = { s.setPort p (t.port p) with
                maint := ⟨none, p.other⟩
                seg := { s.seg with threshold := threshold.getD s.seg.threshold }
                scrub :=
                  { s.scrub with
                    rate := rate.getD s.scrub.rate
                    credit := if rate = some 0 then 0 else s.scrub.credit } } ∧
          CompletionTaken c .ok (.tune s.seg.threshold s.scrub.rate) k (t.port p)) ∧
        ∀ l, (h.contexts[c]).cmd = .relocate l →
          ∃ t, exec .relocate s = .next t ∧
            t = { s.setPort p (t.port p) with maint := ⟨none, p.other⟩, seg := t.seg } ∧
            ((m[l]).state = .queued ∨ (m[l]).state = .migrating →
              t.seg = s.seg ∧ CompletionTaken c .already .none k (t.port p)) ∧
            ((m[l]).state = .atRisk ∨ ((m[l]).state = .mapped ∧ ¬ room) →
              t.seg = s.seg ∧ CompletionTaken c .noSpare .none k (t.port p)) ∧
            ((m[l]).state = .mapped → room →
              t.seg = { s.seg with queue := s.seg.queue ++ [l], map := m.set l { m[l] with state := .queued } } ∧
                t.port p =
                  { k with
                    contexts := h.contexts.set c { h.contexts[c] with state := .relocateWait } })

/-- The host writes of a running MAP_QUERY or INCIDENTS, one after another upward from the buffer address, the last
followed by the check read: the 8 bytes at the highest address written (R163, R179), which a mark, the model's own count
of the posted writes before it, follows (notes/assumptions/13.md). Each write of an INCIDENTS carries and removes the
oldest record, and the removal of the last record gives both ports the notice *empty*, on which ALERT is clear (R172,
R173); each takes it at once or later, the model's choice (notes/assumptions/18.md). -/
def Obligations.BufferWritesGoUpwardAndEndInACheckRead : Prop :=
  ∀ (s : State) (r : Running), s.maint.running = some r → r.checkRead = none →
    let h := s.port r.port
    let issued (q : HostPort) (w : LinkWrite) : HostPort := { q with sent := q.sent ++ [w] }
    (∀ count next b rest, r.job = .mapQuery count next (b :: rest) →
      exec .bufferWrite s =
        .next
          { s.setPort r.port (issued h (.buffer next b)) with
            maint :=
              { s.maint with
                running := some
                  { r with
                    job := .mapQuery count (next + b.length) rest
                    checkRead := if rest = [] then some ⟨next + b.length - 8, 8, h.sent.length + 1⟩ else none } } }) ∧
      ∀ n done buffer x xs, r.job = .incidents n done buffer → s.incidents.records = x :: xs → done < n →
        ∃ t, exec .bufferWrite s = .next t ∧
          t = { s with
                port0 := t.port0, port1 := t.port1, incidents := { s.incidents with records := xs }
                maint :=
                  { s.maint with
                    running := some
                      { r with
                        job := .incidents n (done + 1) buffer
                        checkRead :=
                          if done + 1 = n then some ⟨buffer + 32 * (done + 1) - 8, 8, h.sent.length + 1⟩ else none } } } ∧
          (let wrote := issued h (.buffer (buffer + 32 * done) (incidentBytes x))
            if xs = [] then Notified .empty wrote (t.port r.port) else t.port r.port = wrote) ∧
          if xs = [] then Notified .empty (s.port r.port.other) (t.port r.port.other)
          else t.port r.port.other = s.port r.port.other

/-- The check read of the running command ends (R163): the completion is handed, OK or HOST_FAULT, with the count of a
MAP_QUERY, or with the number copied and the dropped count of an INCIDENTS, which is then 0 (R173). A command stopped by
a fault frees its context without a completion, the intake hold state following it (R113, R118), and one stopped by a
reset only ends (R164). A read that returned shows that the writes before it have arrived, the model's own count
(notes/assumptions/13.md). -/
def Obligations.CheckReadEndsTheRunningCommand : Prop :=
  ∀ (s : State) (r : Running) (x : CheckRead) (returned : Bool), s.maint.running = some r → r.checkRead = some x →
    let h := s.port r.port
    let sure := if returned then max h.sentSure x.mark else h.sentSure
    let k := { h with sentSure := sure }
    let status : Status := if returned then .ok else .hostFault
    ∃ t, exec (.maintCheckReadDone returned) s = .next t ∧
      t = { s.setPort r.port (t.port r.port) with
            maint := { s.maint with running := none }, incidents := { s.incidents with dropped := t.incidents.dropped } } ∧
      (r.stop = none →
        (∀ count next rest, r.job = .mapQuery count next rest →
          CompletionTaken r.ctx status (.mapQuery count) k (t.port r.port) ∧ t.incidents = s.incidents) ∧
        (∀ n done buffer, r.job = .incidents n done buffer →
          CompletionTaken r.ctx status (.incidents n s.incidents.dropped) k (t.port r.port) ∧
            t.incidents.dropped = 0)) ∧
      (r.stop = some .fault → h.state = .faulted →
        t.incidents = s.incidents ∧ ContextsFreed [r.ctx] k (t.port r.port)) ∧
      (r.stop = some .reset →
        t.incidents = s.incidents ∧ t.port r.port = k)

/-! ## Records the part writes (R148, R165, R166, R171, R177) -/

/-- The records the part writes to host memory, field by field at their bytes, every field little-endian, with 0 in the
bytes of no field (R177 and the tables of sections 11.2 and 11.3): the completion record, whose results are those of its
kind, and none where it completed MALFORMED or RANGE; the map report entry and trailer; and the incident record. An
absent value is written with every bit set, but for two: the holder seen of a lock completion, whose present mark is
then 0 with port and owner 0, and the health counter of an absent destination, which is 0. -/
def Obligations.RecordsAreLaidOutByTheirTables : Prop :=
  (∀ (x : Completion) (phase : Bool) (sqHead : Nat), sqHead ≤ 4095 →
    let bytes := recordBytes x phase sqHead
    let field := leAt bytes
    let abandoned := match x.results with
      | .lock reported _ => reported
      | _ => false
    bytes.length = 32 ∧ field 0 1 = x.opcode.toNat ∧
      field 1 1 =
        (match x.status with
        | .ok => 0
        | .corrected => 1
        | .notFound => 2
        | .already => 3
        | .dataError => 8
        | .range => 9
        | .malformed => 10
        | .notHolder => 11
        | .timeout => 12
        | .lockBusy => 13
        | .waitLimit => 14
        | .duplicate => 15
        | .noSpare => 16
        | .hostFault => 17
        | .cancelled => 18) ∧
      field 2 2 = x.tag.toNat ∧ field 4 2 = sqHead ∧ field 6 1 = x.ctx.val ∧
      field 7 1 = (if phase then 1 else 0) + (if abandoned then 2 else 0) ∧
      (x.status = .malformed ∨ x.status = .range → field 8 24 = 0) ∧
      (x.status ≠ .malformed → x.status ≠ .range →
        match x.results with
        | .none => field 8 24 = 0
        | .transfer r =>
          (r.bytesDone < 2 ^ 32 → field 8 4 = r.bytesDone) ∧ (r.corrected < 2 ^ 32 → field 12 4 = r.corrected) ∧
            (r.bad < 2 ^ 32 → field 16 4 = r.bad) ∧ (∀ o, r.firstBad = some o → o < 2 ^ 32 → field 20 4 = o) ∧
            (r.firstBad = none → field 20 4 = 0xFFFFFFFF) ∧ (∀ o, r.found = some o → o < 2 ^ 32 → field 24 4 = o) ∧
            (r.found = none → field 24 4 = 0xFFFFFFFF) ∧ field 28 4 = 0
        | .lock _ (some holder) =>
          field 8 1 = 1 ∧ field 9 1 = (if holder.port = .p0 then 0 else 1) ∧ field 10 2 = holder.owner.toNat ∧
            field 12 20 = 0
        | .lock _ none => field 8 24 = 0
        | .mapQuery n => (n < 2 ^ 32 → field 8 4 = n) ∧ field 12 20 = 0
        | .incidents copied dropped =>
          (copied < 2 ^ 8 → field 8 1 = copied) ∧ (dropped < 2 ^ 8 → field 9 1 = dropped) ∧ field 10 22 = 0
        | .tune threshold rate =>
          (threshold < 2 ^ 16 → field 8 2 = threshold) ∧ (rate < 2 ^ 16 → field 10 2 = rate) ∧ field 12 20 = 0)) ∧
  (∀ (g : SegMap) (dest : Option PhysSeg) (l : LogSeg), (∀ p : PhysSeg, (g.phys[p]).counter ≤ 65535) →
    let bytes := mapEntryBytes g dest l
    let field := leAt bytes
    let e := g.map[l]
    bytes.length = 16 ∧ field 0 2 = l.val ∧ field 2 2 = e.phys.val ∧
      field 4 1 =
        (match e.state with
        | .mapped => 0
        | .queued => 1
        | .migrating => 2
        | .atRisk => 3) ∧
      field 5 1 = (if e.again then 1 else 0) ∧ field 6 2 = (g.phys[e.phys]).counter ∧
      (∀ d, e.state = .migrating → dest = some d → field 8 2 = d.val ∧ field 10 2 = (g.phys[d]).counter) ∧
      (e.state ≠ .migrating ∨ dest = none → field 8 2 = 0xFFFF ∧ field 10 2 = 0) ∧ field 12 4 = 0) ∧
  (∀ (g : SegMap) (m : Migration) (r : RetMem) (rate recorded : Nat), g.spares.length ≤ 8 → g.retired.length ≤ 8 →
    g.queue.length ≤ 8 → m.watermark ≤ 16384 → g.threshold ≤ 65535 → rate ≤ 4096 → recorded ≤ 8 →
    (r.current = none → recorded = 0) →
    (∀ i, r.current = some .slot0 → r.slot0 = .image i → recorded = i.entries.length) →
    (∀ i, r.current = some .slot1 → r.slot1 = .image i → recorded = i.entries.length) →
    (r.current = some .slot0 → r.slot0 ≠ .blank) → (r.current = some .slot1 → r.slot1 ≠ .blank) →
    let bytes := trailerBytes g m r rate
    let field := leAt bytes
    let orAbsent (x : Option Nat) : Nat := x.getD 0xFFFF
    bytes.length = 64 ∧ field 0 1 = g.spares.length + 16 * g.retired.length ∧
      field 1 1 = recorded + 16 * g.queue.length ∧
      field 2 1 =
        (match m.state with
        | .idle => 0
        | .stepping => 1
        | .copying => 2
        | .recording => 3) +
        16 * (match m.lock with
          | .none => 0
          | .closing => 1
          | .held => 2) ∧
      field 3 1 = 0 ∧ field 4 2 = m.watermark ∧ field 6 2 = orAbsent (m.job.map fun j => j.seg.val) ∧
      field 8 2 = orAbsent (m.job.map fun j => j.source.val) ∧ field 10 2 = orAbsent (m.job.map fun j => j.dest.val) ∧
      field 12 2 = g.threshold ∧ field 14 2 = rate ∧
      ∀ i, i < 8 →
        field (16 + 2 * i) 2 = orAbsent ((g.spares[i]?).map fun p => p.val) ∧
          field (32 + 2 * i) 2 = orAbsent ((g.retired[i]?).map fun p => p.val) ∧
          field (48 + 2 * i) 2 = orAbsent ((g.queue[i]?).map fun l => l.val)) ∧
  ∀ x : IncidentRecord,
    let bytes := incidentBytes x
    let field := leAt bytes
    let i := x.incident
    bytes.length = 32 ∧ field 0 2 = x.seq.toNat ∧
      field 2 1 =
        (match i.kind with
        | .threshold => 1
        | .uncorrectable => 2
        | .poisonCopied => 3
        | .migrated => 4
        | .noSpare => 5
        | .nvFault => 6) ∧
      field 3 1 =
        (match i.source with
        | .host0 => 0
        | .host1 => 1
        | .migration => 2
        | .scrub => 3
        | .powerOn => 4) ∧
      field 4 6 = x.timestamp.toNat ∧ field 10 2 = 0 ∧
      field 12 2 = (i.logical.map fun l => l.val).getD 0xFFFF ∧
      field 14 2 = (i.physical.map fun p => p.val).getD 0xFFFF ∧
      field 16 2 = (i.second.map fun p => p.val).getD 0xFFFF ∧ field 18 2 = 0 ∧
      field 20 4 = (i.lineOffset.map fun o => o.val).getD 0xFFFFFFFF ∧ field 24 8 = 0

/-! ## Invariants of the machine -/

/-- What `StoreOk`, `SizesOk` and `QueuesOk` say holds after every step if it held before: the listed words of the store
keep their canonical form; the reference queues (R48, R59), the Incident List and its dropped count (R170), the pacing
credit (R80) and the health counters (R28) keep within their limits; queue M holds what the copy position says: the
READ_LINE of a line alone or behind the WRITE_LINE of the line before (R48), and nothing outside COPYING (R54); and a
BUSY bank's reference is in its queue (R65). Two of the forms of queue M rest on the model's choices: a WRITE_LINE alone
while the read result of the next line is kept (notes/assumptions/40.md), and the WRITE_LINE of line 63 alone at the
copy position line 0, READ (notes/assumptions/29.md). The canonical form of the store is the model's own too
(notes/assumptions/7.md). -/
def Obligations.StoreFormAndSizesAreKept : Prop := Kept fun s => StoreOk s ∧ SizesOk s ∧ QueuesOk s

/-- The map, the roles, the lists, the relocation queue and the migration agree as R19, R21, R22, R30 and R40 say, the
Migration Unit holds in each state what the table of R40 gives it, RELOCATE-again is clear outside MIGRATING (R18), and
the chunk lock closes exactly when the held-over set is empty (R46), after every step if they did before. -/
def Obligations.MapRolesAndQueueAgreeAfterEveryStep : Prop := Kept SegmentsOk

/-- The properties of the lock table in R86 and the limits of the pool in R87 are kept by every step, and the holder of
a lock changes on no cause but an ACQUIRE, a RELEASE, a port reset notice and a power-on reset (R86). -/
def Obligations.LockTableIsKeptInOrder : Prop :=
  Kept (fun s => LocksOk s.locks) ∧
    ∀ (i : Instr) (s t : State) (k : LockId), exec i s = .next t →
      (t.locks.table[k]).holder ≠ (s.locks.table[k]).holder →
      (∃ left, i = .powerOnReset left) ∨ ∃ p, i = .acquire p ∨ i = .release p ∨ i = .lockResetNotice p

/-- DONE stands exactly while a record is announced (R155), FAULT exactly in FAULTED (R156), and a port without its link
is OFF or RESETTING (R106), after every step if so before. ALERT follows the Incident List by the notices of R172: with
none waiting at the port it stands exactly while the list has a record, and after the last that waits it will. When a
port takes a notice is the model's choice (notes/assumptions/18.md). -/
def Obligations.EventCausesFollowTheirConditions : Prop := Kept PortsOk

/-- At each port the contexts in use and the unconsumed records together never exceed CQ entries, after every step if
they did not before (R114). What that rests on is kept with it. A context that has an owner has one alone and is in use
(R117, R118). While a port in RUNNING fetches a record, the completion ring has room for one more, the intake hold state
is CLEAR and some context is FREE (R111, R112): CLEAR stands below the pause mark alone, and PAUSED above the resume mark
alone (R113). The outstanding record write is that of the front of the write list (R150), which a port in FAULTED has not
(R159). A port in OFF, SETUP or RESETTING has no context in use (R107, R124); one in RESETTING names none, and its reset
notice is the last one handed until the Lock Unit has taken it and left no waiter of the port (R124). One in SETUP has no
unconsumed record and is CLEAR (R107), and one in RUNNING or DRAINING has its setup values (R108). -/
def Obligations.CompletionRoomIsKept : Prop := Kept fun s => ∀ p, CompletionRoomOk p s

/-- The state after reset: every invariant above holds in it. What the map holds between power-on and its build, and
that the links are up, are the model's choices (notes/assumptions/8.md and 12.md). -/
def Obligations.ResetIsInOrder : Prop :=
  StoreOk State.reset ∧ SizesOk State.reset ∧ QueuesOk State.reset ∧ SegmentsOk State.reset ∧ LocksOk State.reset.locks ∧
    PortsOk State.reset ∧ ∀ p, CompletionRoomOk p State.reset

end Statements
end

