-- ==== Sys2Proof/Laws/State.lean ====
section
/-! SUPPORT. One lemma a field for each update of the state: what a port's change and the queue's change leave. -/

namespace Sys2Proof.Machine

@[simp] theorem setPort_timeBase (s : State) (p : PortId) (h : HostPort) : (s.setPort p h).timeBase = s.timeBase := by cases p <;> rfl
@[simp] theorem setPort_epoch (s : State) (p : PortId) (h : HostPort) : (s.setPort p h).epoch = s.epoch := by cases p <;> rfl
@[simp] theorem setPort_store (s : State) (p : PortId) (h : HostPort) : (s.setPort p h).store = s.store := by cases p <;> rfl
@[simp] theorem setPort_reports (s : State) (p : PortId) (h : HostPort) : (s.setPort p h).reports = s.reports := by cases p <;> rfl
@[simp] theorem setPort_sched (s : State) (p : PortId) (h : HostPort) : (s.setPort p h).sched = s.sched := by cases p <;> rfl
@[simp] theorem setPort_seg (s : State) (p : PortId) (h : HostPort) : (s.setPort p h).seg = s.seg := by cases p <;> rfl
@[simp] theorem setPort_mig (s : State) (p : PortId) (h : HostPort) : (s.setPort p h).mig = s.mig := by cases p <;> rfl
@[simp] theorem setPort_ret (s : State) (p : PortId) (h : HostPort) : (s.setPort p h).ret = s.ret := by cases p <;> rfl
@[simp] theorem setPort_scrub (s : State) (p : PortId) (h : HostPort) : (s.setPort p h).scrub = s.scrub := by cases p <;> rfl
@[simp] theorem setPort_locks (s : State) (p : PortId) (h : HostPort) : (s.setPort p h).locks = s.locks := by cases p <;> rfl
@[simp] theorem setPort_maint (s : State) (p : PortId) (h : HostPort) : (s.setPort p h).maint = s.maint := by cases p <;> rfl
@[simp] theorem setPort_incidents (s : State) (p : PortId) (h : HostPort) : (s.setPort p h).incidents = s.incidents := by cases p <;> rfl
@[simp] theorem setPort_pending (s : State) (p : PortId) (h : HostPort) : (s.setPort p h).pending = s.pending := by cases p <;> rfl

@[simp] theorem modPort_timeBase (s : State) (p : PortId) (f : HostPort → HostPort) : (s.modPort p f).timeBase = s.timeBase :=
  setPort_timeBase s p _
@[simp] theorem modPort_epoch (s : State) (p : PortId) (f : HostPort → HostPort) : (s.modPort p f).epoch = s.epoch :=
  setPort_epoch s p _
@[simp] theorem modPort_store (s : State) (p : PortId) (f : HostPort → HostPort) : (s.modPort p f).store = s.store :=
  setPort_store s p _
@[simp] theorem modPort_reports (s : State) (p : PortId) (f : HostPort → HostPort) : (s.modPort p f).reports = s.reports :=
  setPort_reports s p _
@[simp] theorem modPort_sched (s : State) (p : PortId) (f : HostPort → HostPort) : (s.modPort p f).sched = s.sched :=
  setPort_sched s p _
@[simp] theorem modPort_seg (s : State) (p : PortId) (f : HostPort → HostPort) : (s.modPort p f).seg = s.seg :=
  setPort_seg s p _
@[simp] theorem modPort_mig (s : State) (p : PortId) (f : HostPort → HostPort) : (s.modPort p f).mig = s.mig :=
  setPort_mig s p _
@[simp] theorem modPort_ret (s : State) (p : PortId) (f : HostPort → HostPort) : (s.modPort p f).ret = s.ret :=
  setPort_ret s p _
@[simp] theorem modPort_scrub (s : State) (p : PortId) (f : HostPort → HostPort) : (s.modPort p f).scrub = s.scrub :=
  setPort_scrub s p _
@[simp] theorem modPort_locks (s : State) (p : PortId) (f : HostPort → HostPort) : (s.modPort p f).locks = s.locks :=
  setPort_locks s p _
@[simp] theorem modPort_maint (s : State) (p : PortId) (f : HostPort → HostPort) : (s.modPort p f).maint = s.maint :=
  setPort_maint s p _
@[simp] theorem modPort_incidents (s : State) (p : PortId) (f : HostPort → HostPort) : (s.modPort p f).incidents = s.incidents :=
  setPort_incidents s p _
@[simp] theorem modPort_pending (s : State) (p : PortId) (f : HostPort → HostPort) : (s.modPort p f).pending = s.pending :=
  setPort_pending s p _

@[simp] theorem port_setPort_same (s : State) (p : PortId) (h : HostPort) : (s.setPort p h).port p = h := by cases p <;> rfl

@[simp] theorem port_setPort_other (s : State) (p : PortId) (h : HostPort) : (s.setPort p h).port p.other = s.port p.other := by
  cases p <;> rfl

theorem port_setPort_ne (s : State) {p q : PortId} (h : HostPort) (hne : q ≠ p) : (s.setPort p h).port q = s.port q := by
  cases p <;> cases q <;> first | rfl | exact absurd rfl hne

@[simp] theorem port_modPort_same (s : State) (p : PortId) (f : HostPort → HostPort) : (s.modPort p f).port p = f (s.port p) :=
  port_setPort_same s p _

@[simp] theorem port_modPort_other (s : State) (p : PortId) (f : HostPort → HostPort) :
    (s.modPort p f).port p.other = s.port p.other :=
  port_setPort_other s p _

theorem port_modPort_ne (s : State) {p q : PortId} (f : HostPort → HostPort) (hne : q ≠ p) : (s.modPort p f).port q = s.port q :=
  port_setPort_ne s _ hne

@[simp] theorem setPort_setPort (s : State) (p : PortId) (h k : HostPort) : (s.setPort p h).setPort p k = s.setPort p k := by
  cases p <;> rfl

@[simp] theorem setPort_port (s : State) (p : PortId) : s.setPort p (s.port p) = s := by cases p <;> rfl

/-- Changing a port is setting it. -/
theorem modPort_eq (s : State) (p : PortId) (f : HostPort → HostPort) : s.modPort p f = s.setPort p (f (s.port p)) := rfl

/-- Two changes of one port are one. -/
theorem modPort_modPort (s : State) (p : PortId) (f g : HostPort → HostPort) :
    (s.modPort p f).modPort p g = s.modPort p fun h => g (f h) := by
  cases p <;> rfl

@[simp] theorem withPending_timeBase (s : State) (l : List Instr) : (s.withPending l).timeBase = s.timeBase := rfl
@[simp] theorem withPending_epoch (s : State) (l : List Instr) : (s.withPending l).epoch = s.epoch := rfl
@[simp] theorem withPending_store (s : State) (l : List Instr) : (s.withPending l).store = s.store := rfl
@[simp] theorem withPending_reports (s : State) (l : List Instr) : (s.withPending l).reports = s.reports := rfl
@[simp] theorem withPending_sched (s : State) (l : List Instr) : (s.withPending l).sched = s.sched := rfl
@[simp] theorem withPending_seg (s : State) (l : List Instr) : (s.withPending l).seg = s.seg := rfl
@[simp] theorem withPending_mig (s : State) (l : List Instr) : (s.withPending l).mig = s.mig := rfl
@[simp] theorem withPending_ret (s : State) (l : List Instr) : (s.withPending l).ret = s.ret := rfl
@[simp] theorem withPending_scrub (s : State) (l : List Instr) : (s.withPending l).scrub = s.scrub := rfl
@[simp] theorem withPending_locks (s : State) (l : List Instr) : (s.withPending l).locks = s.locks := rfl
@[simp] theorem withPending_maint (s : State) (l : List Instr) : (s.withPending l).maint = s.maint := rfl
@[simp] theorem withPending_incidents (s : State) (l : List Instr) : (s.withPending l).incidents = s.incidents := rfl
@[simp] theorem withPending_pending (s : State) (l : List Instr) : (s.withPending l).pending = l := rfl
@[simp] theorem withPending_port (s : State) (l : List Instr) (p : PortId) : (s.withPending l).port p = s.port p := by
  cases p <;> rfl

/-! ## Scheduler -/

@[simp] theorem queue_setQueue_same (q : Scheduler) (src : Source) (l : List Ref) : (q.setQueue src l).queue src = l := by
  cases src with
  | host p => cases p <;> rfl
  | _ => rfl

theorem queue_setQueue_ne (q : Scheduler) {src other : Source} (l : List Ref) (hne : other ≠ src) :
    (q.setQueue src l).queue other = q.queue other := by
  rcases src with (_ | _) | _ | _ <;> rcases other with (_ | _) | _ | _ <;> first | rfl | exact absurd rfl hne

@[simp] theorem setQueue_banks (q : Scheduler) (src : Source) (l : List Ref) : (q.setQueue src l).banks = q.banks := by
  rcases src with (_ | _) | _ | _ <;> rfl

@[simp] theorem setQueue_turns (q : Scheduler) (src : Source) (l : List Ref) : (q.setQueue src l).turns = q.turns := by
  rcases src with (_ | _) | _ | _ <;> rfl

end Sys2Proof.Machine
end

