-- ==== Sys2Proof/Laws/Ports.lean ====
section
/-! SUPPORT. What the operations of one host port can change. Work on the port's commands (contexts, work list, slots, mail, completions, posted writes) leaves its control state (registers, pointers, counts, causes) as it was. -/

namespace Sys2Proof.Machine

theorem SameControl.refl (p : HostPort) : SameControl p p := rfl

theorem SameControl.trans {p q r : HostPort} (h : SameControl p q) (k : SameControl q r) : SameControl p r := by
  unfold SameControl at h k ⊢
  rw [k, h]

theorem SameControl.linkUp {p q : HostPort} (h : SameControl p q) : q.linkUp = p.linkUp := by unfold SameControl at h; rw [h]
theorem SameControl.setupReg {p q : HostPort} (h : SameControl p q) : q.setupReg = p.setupReg := by unfold SameControl at h; rw [h]
theorem SameControl.state {p q : HostPort} (h : SameControl p q) : q.state = p.state := by unfold SameControl at h; rw [h]
theorem SameControl.faultCode {p q : HostPort} (h : SameControl p q) : q.faultCode = p.faultCode := by unfold SameControl at h; rw [h]
theorem SameControl.values {p q : HostPort} (h : SameControl p q) : q.values = p.values := by unfold SameControl at h; rw [h]
theorem SameControl.setupRead {p q : HostPort} (h : SameControl p q) : q.setupRead = p.setupRead := by unfold SameControl at h; rw [h]
theorem SameControl.sqHead {p q : HostPort} (h : SameControl p q) : q.sqHead = p.sqHead := by unfold SameControl at h; rw [h]
theorem SameControl.sqTail {p q : HostPort} (h : SameControl p q) : q.sqTail = p.sqTail := by unfold SameControl at h; rw [h]
theorem SameControl.cqHead {p q : HostPort} (h : SameControl p q) : q.cqHead = p.cqHead := by unfold SameControl at h; rw [h]
theorem SameControl.unconsumed {p q : HostPort} (h : SameControl p q) : q.unconsumed = p.unconsumed := by unfold SameControl at h; rw [h]
theorem SameControl.fetch {p q : HostPort} (h : SameControl p q) : q.fetch = p.fetch := by unfold SameControl at h; rw [h]
theorem SameControl.taken {p q : HostPort} (h : SameControl p q) : q.taken = p.taken := by unfold SameControl at h; rw [h]
theorem SameControl.cqTail {p q : HostPort} (h : SameControl p q) : q.cqTail = p.cqTail := by unfold SameControl at h; rw [h]
theorem SameControl.phase {p q : HostPort} (h : SameControl p q) : q.phase = p.phase := by unfold SameControl at h; rw [h]
theorem SameControl.unannounced {p q : HostPort} (h : SameControl p q) : q.unannounced = p.unannounced := by unfold SameControl at h; rw [h]
theorem SameControl.announced {p q : HostPort} (h : SameControl p q) : q.announced = p.announced := by unfold SameControl at h; rw [h]
theorem SameControl.quietTimer {p q : HostPort} (h : SameControl p q) : q.quietTimer = p.quietTimer := by unfold SameControl at h; rw [h]
theorem SameControl.staleWrites {p q : HostPort} (h : SameControl p q) : q.staleWrites = p.staleWrites := by unfold SameControl at h; rw [h]
theorem SameControl.faultCause {p q : HostPort} (h : SameControl p q) : q.faultCause = p.faultCause := by unfold SameControl at h; rw [h]
theorem SameControl.alertCause {p q : HostPort} (h : SameControl p q) : q.alertCause = p.alertCause := by unfold SameControl at h; rw [h]
theorem SameControl.doneCause {p q : HostPort} (h : SameControl p q) : q.doneCause = p.doneCause := by unfold SameControl at h; rw [h]
theorem SameControl.notices {p q : HostPort} (h : SameControl p q) : q.notices = p.notices := by unfold SameControl at h; rw [h]
theorem SameControl.noticesTaken {p q : HostPort} (h : SameControl p q) : q.noticesTaken = p.noticesTaken := by unfold SameControl at h; rw [h]
theorem SameControl.sentSure {p q : HostPort} (h : SameControl p q) : q.sentSure = p.sentSure := by unfold SameControl at h; rw [h]

theorem SameControl.inService {p q : HostPort} (h : SameControl p q) : q.inService = p.inService := by
  unfold HostPort.inService
  rw [h.state]

/-! ## Contexts, work list and mail -/

theorem send_same (w : LinkWrite) (p : HostPort) : SameControl p (send w p) := rfl

theorem setContext_same (c : CtxId) (f : Context → Context) (p : HostPort) : SameControl p (setContext c f p) := rfl

theorem mailLock_same (m : LockMail) (p : HostPort) : SameControl p (mailLock m p) := rfl

theorem activateHead_same (c : CtxId) (p : HostPort) : SameControl p (activateHead c p) := rfl

theorem sendMessage_same (p : HostPort) : SameControl p (sendMessage p) := by
  unfold sendMessage
  split
  · split
    · exact send_same _ p
    · exact .refl p
  · exact .refl p

theorem freeContext_same (c : CtxId) (p : HostPort) : SameControl p (freeContext c p) := by
  unfold freeContext
  split
  · exact .refl p
  · rfl

theorem freeContexts_same (cs : List CtxId) (p : HostPort) : SameControl p (freeContexts cs p) := by
  induction cs generalizing p with
  | nil => exact .refl p
  | cons c cs ih => exact (freeContext_same c p).trans (ih _)

theorem advanceBy_same (n : Nat) (p : HostPort) : SameControl p (advanceBy n p) := by
  induction n generalizing p with
  | zero => exact .refl p
  | succ n ih =>
    unfold advanceBy
    split
    · exact .refl p
    · split
      · split
        · exact ((activateHead_same _ p).trans (mailLock_same _ _)).trans (ih _)
        · exact ((activateHead_same _ p).trans (mailLock_same _ _)).trans (ih _)
        all_goals first
          | exact .refl p
          | (refine SameControl.trans ?_ (ih _); rfl)
      · exact .refl p

/-- The test of the work list changes the state of commands alone. -/
theorem advance_same (p : HostPort) : SameControl p (advance p) := advanceBy_same _ p

/-- The test of the work list leaves the slots, the reads, the completions and the posted writes. -/
theorem advanceBy_frame (n : Nat) (p : HostPort) :
    advanceBy n p =
      { p with
        contexts := (advanceBy n p).contexts
        workList := (advanceBy n p).workList
        lockMail := (advanceBy n p).lockMail
        maintQueue := (advanceBy n p).maintQueue } := by
  induction n generalizing p with
  | zero => rfl
  | succ n ih =>
    unfold advanceBy
    split
    · rfl
    · split
      · split <;> first | rfl | (rw [ih]; rfl)
      · rfl

theorem advance_frame (p : HostPort) :
    advance p =
      { p with
        contexts := (advance p).contexts
        workList := (advance p).workList
        lockMail := (advance p).lockMail
        maintQueue := (advance p).maintQueue } :=
  advanceBy_frame _ p

/-! ## Completions -/

theorem issueRecord_same (p : HostPort) : SameControl p (issueRecord p) := by
  unfold issueRecord
  split
  · split
    · rfl
    · exact .refl p
  · exact .refl p

theorem handCompletion_same (c : CtxId) (st : Status) (r : Results) (p : HostPort) : SameControl p (handCompletion c st r p) := by
  unfold handCompletion
  split
  · refine SameControl.trans ?_ (advance_same _)
    refine SameControl.trans ?_ (issueRecord_same _)
    rfl
  · split
    · exact freeContext_same c p
    · exact .refl p

theorem endNotice_same (c : CtxId) (p : HostPort) : SameControl p (endNotice c p) := by
  unfold endNotice
  split
  · exact freeContext_same c p
  · exact .refl p

end Sys2Proof.Machine
end

