-- ==== Sys2Proof/Laws/Transfers.lean ====
section
/-! SUPPORT. What the transfer unit's operations can change at their port. -/

namespace Sys2Proof.Machine

theorem setSlot_same (i : SlotId) (t : Option Transfer) (p : HostPort) : SameControl p (setSlot i t p) := rfl

theorem setSlotRead_same (i : SlotId) (r : Option SlotRead) (p : HostPort) : SameControl p (setSlotRead i r p) := rfl

theorem issueFrom_same (i : SlotId) (t : Transfer) (p : HostPort) : SameControl p (issueFrom i t p) := by
  unfold issueFrom
  dsimp only
  split <;> rfl

theorem endIfDone_same (i : SlotId) (p : HostPort) : SameControl p (endIfDone i p) := by
  unfold endIfDone
  split
  · exact .refl p
  · split
    · exact (setSlot_same i none p).trans (handCompletion_same _ _ _ _)
    · exact .refl p

theorem takeTransferResult_same (c : CtxId) (line : Nat) (r : Option LineResult) (p : HostPort) :
    SameControl p (takeTransferResult c line r p) := by
  unfold takeTransferResult
  split
  · exact .refl p
  · refine SameControl.trans ?_ (endIfDone_same _ _)
    rfl

theorem enterMoving_same (i : SlotId) (t : Transfer) (p : HostPort) : SameControl p (enterMoving i t p) := rfl

theorem enterAfterGuard_same (i : SlotId) (t : Transfer) (p : HostPort) : SameControl p (enterAfterGuard i t p) := by
  unfold enterAfterGuard
  split <;> rfl

theorem startTransfer_same (c : CtxId) (i : SlotId) (p : HostPort) : SameControl p (startTransfer c i p) := by
  unfold startTransfer
  dsimp only
  split
  · rfl
  · exact (activateHead_same c p).trans (enterAfterGuard_same i _ _)

/-- An activation changes the state of commands alone. -/
theorem activateTransfer_same (kind : Command → Bool) (p : HostPort) : SameControl p (activateTransfer kind p) := by
  unfold activateTransfer
  split
  · split
    · exact (startTransfer_same _ _ p).trans (advance_same _)
    · exact .refl p
  · exact .refl p

theorem endEarly_same (i : SlotId) (e : Ending) (t : Transfer) (p : HostPort) : SameControl p (endEarly i e t p) :=
  (setSlot_same i _ p).trans (endIfDone_same i _)

theorem takeList_same (i : SlotId) (count : Nat) (l : Option (List (BitVec 128))) (p : HostPort) :
    SameControl p (takeList i count l p) := by
  unfold takeList
  refine SameControl.trans (setSlotRead_same i none p) ?_
  dsimp only
  split
  · exact .refl _
  · split
    · exact endEarly_same _ _ _ _
    · split
      · exact endEarly_same _ _ _ _
      · exact enterMoving_same _ _ _

theorem takeData_same (i : SlotId) (count : Nat) (ws : Option (List Word)) (p : HostPort) :
    SameControl p (takeData i count ws p) := by
  unfold takeData
  refine SameControl.trans (setSlotRead_same i none p) ?_
  dsimp only
  split
  · exact .refl _
  · split
    · exact endEarly_same _ _ _ _
    · split <;> rfl

theorem takeGuardAnswer_same (c : CtxId) (held : Bool) (p : HostPort) : SameControl p (takeGuardAnswer c held p) := by
  unfold takeGuardAnswer
  split
  · exact .refl p
  · split
    · exact .refl p
    · split
      · exact enterAfterGuard_same _ _ _
      · exact (setSlot_same _ _ p).trans (endIfDone_same _ _)

theorem takeGuardEnd_same (c : CtxId) (p : HostPort) : SameControl p (takeGuardEnd c p) := by
  unfold takeGuardEnd
  split
  · exact .refl p
  · split
    · exact (setSlot_same _ _ p).trans (freeContext_same _ _)
    · exact .refl p

end Sys2Proof.Machine
end

