-- ==== Sys2Proof/Laws/Locks.lean ====
section
/-! SUPPORT. What the Lock Unit's answers and notices can change outside the Lock Unit: the commands of the ports. -/

namespace Sys2Proof.Machine

theorem takeLockAnswer_same (a : LockAnswer) (p : HostPort) : SameControl p (takeLockAnswer a p) := by
  unfold takeLockAnswer
  split
  · exact handCompletion_same _ _ _ _
  · split
    · exact setContext_same _ _ p
    · exact .refl p
  · exact endNotice_same _ p
  · exact takeGuardAnswer_same _ _ p
  · exact takeGuardEnd_same _ p

/-- Answers change the two ports and nothing else. -/
theorem deliver_frame (as : Answers) (s : State) :
    deliver as s = { s with port0 := (deliver as s).port0, port1 := (deliver as s).port1 } := by
  unfold deliver
  induction as generalizing s with
  | nil => rfl
  | cons a as ih =>
    rw [List.foldl_cons, ih]
    rcases a with ⟨_ | _, a⟩ <;> rfl

/-- Answers leave a port's control state as it was. -/
theorem deliver_port (as : Answers) (s : State) (p : PortId) : SameControl (s.port p) ((deliver as s).port p) := by
  unfold deliver
  induction as generalizing s with
  | nil => exact .refl _
  | cons a as ih =>
    refine SameControl.trans ?_ (ih _)
    rcases a with ⟨q, a⟩
    by_cases h : p = q
    · subst h
      rw [port_modPort_same]
      exact takeLockAnswer_same a _
    · rw [port_modPort_ne s _ h]
      exact .refl _

/-- A notice taken leaves all but the Lock Unit and the two ports as it was. -/
theorem takeNotice_frame (v : LockView) (p : PortId) (f : LockUnit → LockUnit × Answers) (s : State) :
    takeNotice v p f s =
      { s with
        locks := (takeNotice v p f s).locks
        port0 := (takeNotice v p f s).port0
        port1 := (takeNotice v p f s).port1 } := by
  unfold takeNotice
  split
  · rw [deliver_frame]
    cases p <;> rfl
  · rfl

/-- A notice that is the first of its port and of the kind is taken by its rule: the lock table it leaves. -/
theorem takeNotice_locks (v : LockView) (p : PortId) (f : LockUnit → LockUnit × Answers) (s : State)
    (h : nextNotice (s.port p).lockMail = some v) : (takeNotice v p f s).locks = (f s.locks).1 := by
  unfold takeNotice
  rw [if_pos h, deliver_frame]

end Sys2Proof.Machine
end

