-- ==== Sys2Proof/Laws/Segments.lean ====
section
/-! SUPPORT. What the Segment Map Unit's claims and the Incident List's appends can do. -/

namespace Sys2Proof.Machine

/-! ## Tables -/

@[simp] theorem getElem_tabulate {α : Type} (n : Nat) (f : Nat → α) (i : Nat) (h : i < n) : (tabulate n f)[i] = f i := by
  simp [tabulate]

@[simp] theorem getElem_mapTable {α β : Type} {n : Nat} (f : α → β) (v : Vector α n) (i : Nat) (h : i < n) :
    (mapTable f v)[i] = f v[i] := by
  simp [mapTable]

/-! ## The join rule (R31) -/

/-- What an accepted offer leaves: the queue one longer, still no longer than the spare list, and the segment QUEUED. -/
theorem join_some {l : LogSeg} {front : Bool} {g g' : SegMap} (h : join l front g = some g') :
    g.queue.length < g.spares.length ∧
      g' = setSegState l .queued { g with queue := if front then l :: g.queue else g.queue ++ [l] } := by
  unfold join at h
  split at h
  · rename_i hlt
    exact ⟨hlt, (Option.some.inj h).symm⟩
  · cases h

/-- An offer is refused exactly when every spare is promised. -/
theorem join_none (l : LogSeg) (front : Bool) (g : SegMap) : join l front g = none ↔ g.spares.length ≤ g.queue.length := by
  unfold join
  split <;> simp <;> omega

/-- The two ends of an offer (R31). -/
theorem offer_cases (l : LogSeg) (front : Bool) (i : Incident) (g : SegMap) :
    (∃ g', join l front g = some g' ∧ offer l front i g = (g', [])) ∨
      (g.spares.length ≤ g.queue.length ∧ offer l front i g = (setSegState l .atRisk g, [i])) := by
  unfold offer
  cases h : join l front g with
  | some g' => exact .inl ⟨g', rfl, rfl⟩
  | none => exact .inr ⟨(join_none l front g).mp h, rfl⟩

/-- What the start claim does when it does anything (R33). -/
theorem startClaim_some {g g' : SegMap} {j : Job} (h : startClaim g = some (g', j)) :
    ∃ ls ds, g.queue = j.seg :: ls ∧ g.spares = j.dest :: ds ∧ j.source = (g.map[j.seg]).phys ∧
      g' = setPhys j.dest { g.phys[j.dest] with role := .reserved, logical := some j.seg }
        { g with
          queue := ls
          spares := ds
          map := g.map.set j.seg { g.map[j.seg] with state := .migrating, again := false } } := by
  unfold startClaim at h
  split at h
  · rename_i l ls d ds hq hs
    obtain ⟨rfl, rfl⟩ := Prod.mk.inj (Option.some.inj h)
    exact ⟨ls, ds, hq, hs, rfl, rfl⟩
  · cases h

/-! ## Incidents (R170, R172) -/

/-- A port's share in a notice taken: the ALERT cause, a message and the notice itself, nothing else. -/
theorem takeAlert_frame (p : HostPort) :
    takeAlert p =
      { p with
        notices := p.notices.tail
        noticesTaken := (takeAlert p).noticesTaken
        alertCause := (takeAlert p).alertCause
        sent := (takeAlert p).sent } := by
  cases h : p.notices with
  | nil => unfold takeAlert; simp only [h]; cases p; simp_all
  | cons n rest =>
    cases n <;> simp only [takeAlert, alertNonEmpty, alertEmpty, sendMessage, send, h, List.tail_cons]
    split
    · split
      · split <;> rfl
      · rfl
    · rfl

/-- A notice given to both ports changes the ports alone, each by itself. -/
theorem notifyPorts_eq (atOnce : PortId → Bool) (n : AlertNotice) (s : State) :
    notifyPorts atOnce n s =
      { s with port0 := giveAlert (atOnce .p0) n s.port0, port1 := giveAlert (atOnce .p1) n s.port1 } := rfl

/-- While the block idles the ports alone change. -/
theorem takeWaitingAlert_frame (s : State) :
    takeWaitingAlert s = { s with port0 := (takeWaitingAlert s).port0, port1 := (takeWaitingAlert s).port1 } := by
  unfold takeWaitingAlert
  split
  · rfl
  · rfl
  · rfl
  · split <;> rfl

/-- What an append can do to the list (R170). -/
theorem appendTelling_incidents (atOnce : PortId → Bool) (i : Incident) (s : State) :
    (appendTelling atOnce i s).incidents =
      if s.incidents.records.length < 16 then
        { s.incidents with
          records := s.incidents.records ++ [⟨s.incidents.seq, s.timeBase, i⟩]
          seq := s.incidents.seq + 1 }
      else { s.incidents with seq := s.incidents.seq + 1, dropped := min 255 (s.incidents.dropped + 1) } := by
  unfold appendTelling
  dsimp only
  split
  · split <;> rfl
  · rfl

/-- What an append can do to the list (R170). -/
theorem appendIncident_incidents (i : Incident) (s : State) :
    (appendIncident i s).incidents =
      if s.incidents.records.length < 16 then
        { s.incidents with
          records := s.incidents.records ++ [⟨s.incidents.seq, s.timeBase, i⟩]
          seq := s.incidents.seq + 1 }
      else { s.incidents with seq := s.incidents.seq + 1, dropped := min 255 (s.incidents.dropped + 1) } :=
  appendTelling_incidents _ i s

/-- An append changes the list and the ports alone. -/
theorem appendTelling_frame (atOnce : PortId → Bool) (i : Incident) (s : State) :
    appendTelling atOnce i s =
      { s with
        incidents := (appendTelling atOnce i s).incidents
        port0 := (appendTelling atOnce i s).port0
        port1 := (appendTelling atOnce i s).port1 } := by
  unfold appendTelling
  dsimp only
  split
  · split <;> rfl
  · rfl

/-- An append changes the list and the ports alone. -/
theorem appendIncident_frame (i : Incident) (s : State) :
    appendIncident i s =
      { s with
        incidents := (appendIncident i s).incidents
        port0 := (appendIncident i s).port0
        port1 := (appendIncident i s).port1 } := appendTelling_frame _ i s

/-- Appends change the list and the ports alone. -/
theorem appendIncidents_frame (is : List Incident) (s : State) :
    appendIncidents is s =
      { s with
        incidents := (appendIncidents is s).incidents
        port0 := (appendIncidents is s).port0
        port1 := (appendIncidents is s).port1 } := by
  unfold appendIncidents
  induction is generalizing s with
  | nil => rfl
  | cons i is ih =>
    rw [List.foldl_cons, ih]
    have h := appendIncident_frame i s
    generalize hx : List.foldl (fun s i => appendIncident i s) (appendIncident i s) is = x
    rw [h]

end Sys2Proof.Machine
end

