-- ==== Sys2Proof/Laws/Store.lean ====
section
/-! SUPPORT. What the store side's shared operations can change: issue, grant, discard, and the Scrub Unit's issue. -/

namespace Sys2Proof.Machine

/-- An issue changes the queues alone. -/
theorem issueRef_frame (src : Source) (r : Ref) (s : State) : issueRef src r s = { s with sched := (issueRef src r s).sched } := rfl

/-- The Scrub Unit's issue changes queue S and the Scrub Unit alone. -/
theorem scrubIssue_frame (s : State) :
    scrubIssue s = { s with sched := { s.sched with s := (scrubIssue s).sched.s }, scrub := (scrubIssue s).scrub } := rfl

/-- One issue keeps queue S within its depth (R59, R77, R80). -/
theorem scrubIssueOne_length (g : SegMap) (x : List Ref × ScrubUnit) (h : x.1.length ≤ 4) :
    (scrubIssueOne g x).1.length ≤ 4 := by
  unfold scrubIssueOne
  dsimp only
  split
  · split
    · simp; omega
    · split
      · simp; omega
      · exact h
    · exact h
  · exact h

/-- The Scrub Unit's issue keeps queue S within its depth. -/
theorem scrubIssue_length (s : State) (h : s.sched.s.length ≤ 4) : (scrubIssue s).sched.s.length ≤ 4 :=
  scrubIssueOne_length _ _ (scrubIssueOne_length _ _ (scrubIssueOne_length _ _ (scrubIssueOne_length _ _ h)))

/-- A grant takes no reference from its queue (R59, R67). -/
@[simp] theorem grantHead_length (l : PLine) (q : List Ref) : (grantHead l q).length = q.length := by
  induction q with
  | nil => rfl
  | cons r rs ih =>
    unfold grantHead
    split <;> simp [ih]

/-- A discard takes only references away (R70). -/
theorem dropRetired_length (g : SegMap) (b : Bank) (q : List Ref) : (dropRetired g b q).length ≤ q.length := by
  induction q with
  | nil => exact le_rfl
  | cons r rs ih =>
    unfold dropRetired
    split
    · simpa using ih
    · split
      · split
        · exact ih.trans (Nat.le_succ _)
        · exact le_rfl
      · exact le_rfl

/-- The Migration Unit's own fields are kept when a queue leaves the held-over set; the lock may close (R46). -/
theorem leaveHeldOver_frame (src : Source) (m : Migration) :
    leaveHeldOver src m = { m with heldOver := m.heldOver.leave src, lock := (leaveHeldOver src m).lock } := by
  unfold leaveHeldOver closeIfFree
  split <;> rfl

/-- What a queue's leaving does to the held-over set and the lock (R46). -/
theorem leaveHeldOver_left (src : Source) (m : Migration) : HeldOverLeft src m (leaveHeldOver src m) := by
  unfold leaveHeldOver closeIfFree HeldOverLeft
  rcases src with (_ | _) | _ | _ <;> simp [HeldOver.leave, HeldOver.isEmpty] <;> split <;> simp_all

/-- A grant changes the scheduler and the held-over set alone. -/
theorem grantTo_frame (b : Bank) (src : Source) (s : State) :
    grantTo b src s = { s with sched := (grantTo b src s).sched, mig := (grantTo b src s).mig } := by
  unfold grantTo
  split <;> rfl

theorem discardScrub_frame (b : Bank) (s : State) :
    discardScrub b s = { s with sched := (discardScrub b s).sched, mig := (discardScrub b s).mig } := by
  unfold discardScrub
  dsimp only
  split <;> rfl

/-- An act of a bank's arbiter changes the scheduler, the held-over set and the Scrub Unit alone. -/
theorem arbiterAct_frame (b : Bank) (s : State) :
    arbiterAct b s =
      { s with sched := (arbiterAct b s).sched, mig := (arbiterAct b s).mig, scrub := (arbiterAct b s).scrub } := by
  unfold arbiterAct
  split
  · rfl
  · have h1 := discardScrub_frame b s
    dsimp only
    cases hf : (arbiterOrder (discardScrub b s) b).find? (eligible (discardScrub b s) b) with
    | none =>
      dsimp only
      split
      · rw [h1]
      · rw [scrubIssue_frame, h1]
    | some src =>
      have h2 := grantTo_frame b src (discardScrub b s)
      dsimp only
      split
      · rw [h2, h1]
      · rw [scrubIssue_frame, h2, h1]

/-- A port's waiting references leave its queue, and its held-over head the held-over set (R46, R73). -/
theorem purgeQueue_frame (p : PortId) (s : State) :
    purgeQueue p s =
      { s with
        sched := s.sched.setQueue (.host p) ((s.sched.queue (.host p)).filter fun r => !r.waiting)
        mig := (purgeQueue p s).mig } := rfl

/-- The issue of a line's WRITE_LINE, with the READ_LINE of the next line but after line 63: queue M and the Migration Unit's
copy fields alone change (R48). -/
theorem issueCopyLine_eq (j : Job) (k : Nat) (r : LineResult) (s : State) :
    issueCopyLine j k r s =
      { s with
        sched :=
          { s.sched with
            m :=
              s.sched.m ++ [copyWriteRef j s.mig.watermark k r] ++
                if k < 63 then [copyReadRef j s.mig.watermark (k + 1)] else [] }
        mig :=
          { s.mig with
            copyLine := if k < 63 then k + 1 else 0, copyStep := if k < 63 then .write else .read, kept := none } } := by
  unfold issueCopyLine
  by_cases h : k < 63
  · simp only [h, if_true]; rfl
  · simp only [h, if_false, List.append_nil]; rfl

/-- A READ_LINE that returns has its line written into an empty queue M, or is kept behind the write in progress there (R48,
R54). -/
theorem copyReadDone_cases (j : Job) (k : Nat) (r : LineResult) (s : State) :
    (s.sched.m = [] ∧ copyReadDone j k r s = issueCopyLine j k r s) ∨
      (s.sched.m ≠ [] ∧ copyReadDone j k r s = { s with mig := { s.mig with kept := some (k, r) } }) := by
  unfold copyReadDone
  by_cases h : s.sched.m = []
  · exact .inl ⟨h, if_pos h⟩
  · exact .inr ⟨h, if_neg h⟩

end Sys2Proof.Machine
end

