-- ==== Sys2Proof/Laws/Maintenance.lean ====
section
/-! SUPPORT. What the Maintenance Unit's operations and the entries to FAULTED and RESETTING can change. -/

namespace Sys2Proof.Machine

/-- A port notice reaches the running command alone: the unit's record of it, and its port's context (R164). -/
theorem stopRunning_frame (p : PortId) (why : Stop) (s : State) :
    stopRunning p why s =
      { s with
        maint := (stopRunning p why s).maint
        port0 := (stopRunning p why s).port0
        port1 := (stopRunning p why s).port1 } := by
  unfold stopRunning
  split
  · rfl
  · split
    · split
      · rfl
      · cases why
        · cases p <;> rfl
        · rfl
    · rfl

/-- With no command of the port running, its notice changes nothing at the running command (R164). -/
theorem stopRunning_none (p : PortId) (why : Stop) (s : State) (h : s.maint.running.all fun r => r.port ≠ p) :
    stopRunning p why s = s := by
  unfold stopRunning
  split
  · rfl
  · rename_i r hr
    rw [hr] at h
    have hne : r.port ≠ p := by simpa using h
    rw [if_neg hne]

/-- Entry to FAULTED changes its port, and the running command (R123). -/
theorem faultPort_frame (p : PortId) (code : FaultCode) (s : State) :
    faultPort p code s =
      { s with
        maint := (faultPort p code s).maint
        port0 := (faultPort p code s).port0
        port1 := (faultPort p code s).port1 } := by
  unfold faultPort
  rw [stopRunning_frame]
  cases p <;> rfl

/-- Entry to RESETTING changes its port, its queue, the held-over set and the running command (R124). -/
theorem resetPort_frame (p : PortId) (s : State) :
    resetPort p s =
      { s with
        sched := s.sched.setQueue (.host p) ((s.sched.queue (.host p)).filter fun r => !r.waiting)
        mig := leaveHeldOver (.host p) s.mig
        maint := (resetPort p s).maint
        port0 := (resetPort p s).port0
        port1 := (resetPort p s).port1 } := by
  unfold resetPort
  rw [stopRunning_frame, purgeQueue_frame]
  cases p <;> rfl

/-- The arbiter starts nothing while a command runs (R162). -/
theorem nextCommand_running (s : State) (h : s.maint.running.isSome = true) : nextCommand s = none := by
  unfold nextCommand
  rw [if_pos h]

/-- What the arbiter starts is the oldest command of its port's queue (R162). -/
theorem nextCommand_head (s : State) (p : PortId) (c : CtxId) (h : nextCommand s = some (p, c)) :
    s.maint.running = none ∧ (s.port p).maintQueue.head? = some c := by
  unfold nextCommand at h
  split at h
  · cases h
  · rename_i hr
    refine ⟨by simpa using hr, ?_⟩
    split at h
    · cases h
    · rename_i h0 h1
      obtain ⟨rfl, rfl⟩ := Prod.mk.inj (Option.some.inj h)
      simp [State.port, h0]
    · rename_i h0 h1
      obtain ⟨rfl, rfl⟩ := Prod.mk.inj (Option.some.inj h)
      simp [State.port, h1]
    · rename_i h0 h1
      split at h <;> obtain ⟨rfl, rfl⟩ := Prod.mk.inj (Option.some.inj h)
      · simp [State.port, h0]
      · simp [State.port, h1]

/-- A start takes the oldest command from its queue and passes the turn (R162). -/
theorem startCommand_frame (p : PortId) (s : State) :
    startCommand p s =
      { s.setPort p { s.port p with maintQueue := (s.port p).maintQueue.tail } with
        maint := { s.maint with turn := p.other } } := by
  cases p <;> rfl

end Sys2Proof.Machine
end

