-- ==== Sys2Proof/Laws/Handed.lean ====
section
/-! SUPPORT. What the work list's test, the handing of a completion and the entry to FAULTED do to contexts, lists and messages. -/

namespace Sys2Proof.Machine

/-! ## Contexts -/

theorem setContext_at (c d : CtxId) (f : Context → Context) (p : HostPort) :
    (setContext c f p).contexts[d] = if d = c then f p.contexts[c] else p.contexts[d] := by
  by_cases h : d = c
  · subst h; simp [setContext]
  · have h' : c.val ≠ d.val := fun e => h (Fin.ext e.symm)
    simp [setContext, h, h']

/-- A freed context is FREE, and every other is as it was. -/
theorem freeContext_at (c d : CtxId) (p : HostPort) :
    ((freeContext c p).contexts[c]).state = .free ∧ (d ≠ c → (freeContext c p).contexts[d] = p.contexts[d]) := by
  unfold freeContext
  split
  · exact ⟨‹_›, fun _ => rfl⟩
  · refine ⟨by simp [Context.free], fun h => ?_⟩
    have h' : c.val ≠ d.val := fun e => h (Fin.ext e.symm)
    simp [h']

/-- Freeing contexts changes contexts and the hold state alone. -/
theorem freeContext_frame (c : CtxId) (p : HostPort) :
    freeContext c p = { p with contexts := (freeContext c p).contexts, hold := (freeContext c p).hold } := by
  unfold freeContext
  split <;> rfl

theorem freeContexts_frame (cs : List CtxId) (p : HostPort) :
    freeContexts cs p = { p with contexts := (freeContexts cs p).contexts, hold := (freeContexts cs p).hold } := by
  have key : ∃ x y, freeContexts cs p = { p with contexts := x, hold := y } := by
    induction cs generalizing p with
    | nil => exact ⟨p.contexts, p.hold, rfl⟩
    | cons c cs ih =>
      obtain ⟨x, y, h⟩ := ih (freeContext c p)
      refine ⟨x, y, h.trans ?_⟩
      rw [freeContext_frame c p]
  obtain ⟨x, y, h⟩ := key
  rw [h]

/-- Freeing several contexts makes each of them FREE and leaves every other. -/
theorem freeContexts_at (cs : List CtxId) (d : CtxId) (p : HostPort) :
    (d ∈ cs → ((freeContexts cs p).contexts[d]).state = .free) ∧
      (d ∉ cs → (freeContexts cs p).contexts[d] = p.contexts[d]) ∧
      ((p.contexts[d]).state = .free → ((freeContexts cs p).contexts[d]).state = .free) := by
  induction cs generalizing p with
  | nil => exact ⟨fun h => by simp at h, fun _ => rfl, id⟩
  | cons c cs ih =>
    have hc := freeContext_at c d p
    obtain ⟨h1, h2, h3⟩ := ih (freeContext c p)
    change (_ → ((freeContexts cs (freeContext c p)).contexts[d]).state = _) ∧ (_ → (freeContexts cs (freeContext c p)).contexts[d] = _) ∧
      (_ → ((freeContexts cs (freeContext c p)).contexts[d]).state = _)
    have hfree : (p.contexts[d]).state = .free → ((freeContext c p).contexts[d]).state = .free := by
      intro h
      by_cases e : d = c
      · subst e; exact hc.1
      · rw [hc.2 e]; exact h
    refine ⟨fun h => ?_, fun h => ?_, fun h => h3 (hfree h)⟩
    · by_cases e : d = c
      · subst e; exact h3 hc.1
      · exact h1 (by simpa [e] using h)
    · simp only [List.mem_cons, not_or] at h
      rw [h2 h.2, hc.2 h.1]

/-! ## The work list -/

/-- The heads that leave the work list are ACTIVE with their records kept, every other context is as it was, and requests
join the port's mail and its maintenance queue at the back (R119, R121). -/
theorem advanceBy_active (n : Nat) (p : HostPort) :
    ∃ gone mail maint, p.workList = gone ++ (advanceBy n p).workList ∧ (advanceBy n p).lockMail = p.lockMail ++ mail ∧
      (advanceBy n p).maintQueue = p.maintQueue ++ maint ∧
      ∀ d : CtxId,
        (d ∈ gone → (advanceBy n p).contexts[d] = { p.contexts[d] with state := .active }) ∧
          (d ∉ gone → (advanceBy n p).contexts[d] = p.contexts[d]) := by
  induction n generalizing p with
  | zero => exact ⟨[], [], [], by simp [advanceBy]⟩
  | succ n ih =>
    generalize hz : advanceBy (n + 1) p = z
    unfold advanceBy at hz
    split at hz
    · subst hz; exact ⟨[], [], [], by simp⟩
    · rename_i c rest hw
      split at hz
      · have key : ∀ q : HostPort, advanceBy n q = z → q.workList = rest → (∃ m, q.lockMail = p.lockMail ++ m) →
            (∃ m, q.maintQueue = p.maintQueue ++ m) → q.contexts = (activateHead c p).contexts →
            ∃ gone mail maint, p.workList = gone ++ z.workList ∧
              z.lockMail = p.lockMail ++ mail ∧ z.maintQueue = p.maintQueue ++ maint ∧
              ∀ d : CtxId,
                (d ∈ gone → z.contexts[d] = { p.contexts[d] with state := .active }) ∧
                  (d ∉ gone → z.contexts[d] = p.contexts[d]) := by
          intro q e hq ⟨m, hm⟩ ⟨k, hk⟩ hc
          subst e
          obtain ⟨gone, mail, maint, h1, h2, h3, h4⟩ := ih q
          refine ⟨c :: gone, m ++ mail, k ++ maint, by rw [hw, ← hq, h1]; rfl, by rw [h2, hm, List.append_assoc],
            by rw [h3, hk, List.append_assoc], fun d => ?_⟩
          have hd : q.contexts[d] = if d = c then { p.contexts[c] with state := .active } else p.contexts[d] := by
            rw [hc]; exact setContext_at c d _ _
          by_cases e : d = c
          · subst e
            rw [if_pos rfl] at hd
            refine ⟨fun _ => ?_, fun h => absurd (List.mem_cons_self ..) h⟩
            by_cases g : d ∈ gone
            · rw [(h4 d).1 g, hd]
            · rw [(h4 d).2 g, hd]
          · rw [if_neg e] at hd
            refine ⟨fun h => ?_, fun h => ?_⟩
            · rw [(h4 d).1 (by simpa [e] using h), hd]
            · rw [(h4 d).2 (fun g => h (List.mem_cons_of_mem _ g)), hd]
        have hr : (activateHead c p).workList = rest := by
          show p.workList.tail = rest
          rw [hw]; rfl
        split at hz
        · exact key _ hz hr ⟨_, rfl⟩ ⟨[], (List.append_nil _).symm⟩ rfl
        · exact key _ hz hr ⟨_, rfl⟩ ⟨[], (List.append_nil _).symm⟩ rfl
        · exact key _ hz hr ⟨[], (List.append_nil _).symm⟩ ⟨_, rfl⟩ rfl
        · exact key _ hz hr ⟨[], (List.append_nil _).symm⟩ ⟨_, rfl⟩ rfl
        · exact key _ hz hr ⟨[], (List.append_nil _).symm⟩ ⟨_, rfl⟩ rfl
        · exact key _ hz hr ⟨[], (List.append_nil _).symm⟩ ⟨_, rfl⟩ rfl
        · subst hz; exact ⟨[], [], [], by simp⟩
      · subst hz; exact ⟨[], [], [], by simp⟩

/-- The same for the whole test of the work list. -/
theorem advance_active (p : HostPort) :
    ∃ gone mail maint, p.workList = gone ++ (advance p).workList ∧ (advance p).lockMail = p.lockMail ++ mail ∧
      (advance p).maintQueue = p.maintQueue ++ maint ∧
      ∀ d : CtxId,
        (d ∈ gone → (advance p).contexts[d] = { p.contexts[d] with state := .active }) ∧
          (d ∉ gone → (advance p).contexts[d] = p.contexts[d]) :=
  advanceBy_active _ p

/-- Issuing a record leaves contexts, lists and mail. -/
theorem issueRecord_frame (p : HostPort) :
    issueRecord p = { p with recordWrite := (issueRecord p).recordWrite, sent := (issueRecord p).sent } := by
  unfold issueRecord
  split
  · split <;> rfl
  · rfl

/-- A completion handed in service joins the write list, its port's slots and reads being left (R149). -/
theorem handCompletion_inService (c : CtxId) (st : Status) (r : Results) (p : HostPort) (h : p.inService = true) :
    (handCompletion c st r p).writeList = p.writeList ++ [completionOf p c st r] ∧
      (handCompletion c st r p).slots = p.slots ∧ (handCompletion c st r p).slotReads = p.slotReads ∧
      (handCompletion c st r p).hold = p.hold ∧
      ∃ mail, (handCompletion c st r p).lockMail = p.lockMail ++ mail := by
  unfold handCompletion
  rw [if_pos h]
  refine ⟨?_, ?_, ?_, ?_, ?_⟩
  · rw [advance_frame, issueRecord_frame]; rfl
  · rw [advance_frame, issueRecord_frame]; rfl
  · rw [advance_frame, issueRecord_frame]; rfl
  · rw [advance_frame, issueRecord_frame]; rfl
  · obtain ⟨_, mail, _, _, hm, _⟩ := advance_active (issueRecord (setCtxState c .done { p with writeList := p.writeList ++ [completionOf p c st r] }))
    exact ⟨mail, by rw [hm, issueRecord_frame]; rfl⟩

/-- Outside service a completion handed leaves the write list, and in FAULTED frees its context (R149). -/
theorem handCompletion_faulted (c : CtxId) (st : Status) (r : Results) (p : HostPort) (h : p.state = .faulted) :
    handCompletion c st r p = freeContext c p := by
  have hs : p.inService = false := by simp [HostPort.inService, h]
  simp [handCompletion, hs, h]

/-! ## Entry to FAULTED -/

theorem sendMessage_eq (p : HostPort) : sendMessage p = { p with sent := p.sent ++ messageOf p } := by
  obtain ⟨v, hv⟩ : ∃ v, p.values = v := ⟨_, rfl⟩
  unfold sendMessage messageOf
  rw [hv]
  cases v with
  | none => simp only [List.append_nil]; rw [← hv]
  | some v =>
    by_cases h : v.msgEnable = true
    · simp only [h, if_true]; rw [← hv]; rfl
    · simp only [h, Bool.false_eq_true, if_false, List.append_nil]; rw [← hv]

/-- What an entry to FAULTED leaves of its port. -/
theorem enterFaulted_frame (code : FaultCode) (p : HostPort) :
    enterFaulted code p =
      { p with
        state := .faulted, faultCode := code, faultCause := true, quietTimer := none, workList := [], writeList := [],
        maintQueue := [], lockMail := p.lockMail ++ [.notice .faulted],
        sent := p.sent ++ (if p.inService then messageOf p else []),
        contexts := (enterFaulted code p).contexts, hold := (enterFaulted code p).hold } := by
  unfold enterFaulted
  simp only
  rw [freeContexts_frame]
  split
  · rw [sendMessage_eq]; rfl
  · simp

theorem enterFaulted_at (code : FaultCode) (p : HostPort) (d : CtxId) :
    (d ∈ p.workList ++ (unissued p).map Completion.ctx ++ p.maintQueue →
      ((enterFaulted code p).contexts[d]).state = .free) ∧
      (d ∉ p.workList ++ (unissued p).map Completion.ctx ++ p.maintQueue →
        (enterFaulted code p).contexts[d] = p.contexts[d]) := by
  have key := freeContexts_at (p.workList ++ (unissued p).map Completion.ctx ++ p.maintQueue) d
    { p with
      state := .faulted, faultCode := code, faultCause := true, quietTimer := none, workList := [], writeList := [],
      maintQueue := [], lockMail := p.lockMail ++ [.notice .faulted] }
  unfold enterFaulted
  simp only
  split
  · rw [sendMessage_eq]; exact ⟨key.1, key.2.1⟩
  · exact ⟨key.1, key.2.1⟩

/-! ## The intake hold state (R113, R118) -/

/-- Contexts in use, as the part counts them (R117). -/
theorem contextsUsed_eq (p : HostPort) : contextsUsed p = p.inUse := by
  unfold contextsUsed HostPort.inUse
  rw [List.countP_eq_length_filter]

/-- Freeing a context in use lowers contexts in use by one (R118). -/
theorem inUse_set_free (c : CtxId) (p : HostPort) (h : (p.contexts[c]).state ≠ .free) :
    ({ p with contexts := p.contexts.set c Context.free }).inUse + 1 = p.inUse := by
  unfold HostPort.inUse
  have hc : c.val < p.contexts.toList.length := by simp
  have hg : p.contexts.toList[c.val] = p.contexts[c] := rfl
  have : (p.contexts.set c Context.free).toList = p.contexts.toList.set c.val Context.free := Vector.toList_set _
  show List.countP _ (p.contexts.set c Context.free).toList + 1 = _
  rw [this, List.countP_set hc, hg]
  have pos : 0 < List.countP (fun x : Context => x.state != .free) p.contexts.toList := by
    rw [List.countP_pos_iff]
    exact ⟨p.contexts[c], by simp, by simpa using h⟩
  have hb : ((p.contexts[c]).state != CtxState.free) = true := by simpa using h
  rw [if_pos hb, if_neg (by simp [Context.free])]
  omega

theorem ResumesAtItsMark.refl (p : HostPort) : ResumesAtItsMark p p :=
  ⟨fun _ => rfl, fun v _ => by simp only; rw [if_neg (by omega)]⟩

/-- One freeing after others. -/
theorem ResumesAtItsMark.trans {p q r : HostPort} (h : ResumesAtItsMark p q) (k : ResumesAtItsMark q r)
    (hv : q.values = p.values) (h1 : contextsUsed q ≤ contextsUsed p) (h2 : contextsUsed r ≤ contextsUsed q) :
    ResumesAtItsMark p r := by
  refine ⟨fun e => (k.1 (hv.trans e)).trans (h.1 e), fun v e => ?_⟩
  have a := h.2 v e
  have b := k.2 v (hv.trans e)
  simp only at a b ⊢
  rw [b]
  generalize #v[8, 16, 32, 48][v.selector] = mark at *
  cases hp : p.hold
  · simp only [hp] at a; simp at a; simp [a]
  · simp only [hp, true_and] at a
    by_cases c1 : contextsUsed q ≤ mark ∧ mark < contextsUsed p
    · rw [if_pos c1] at a
      rw [a, if_neg (by simp), if_pos ⟨rfl, by omega, c1.2⟩]
    · rw [if_neg c1] at a
      rw [a]
      by_cases c2 : contextsUsed r ≤ mark ∧ mark < contextsUsed q
      · rw [if_pos ⟨rfl, c2⟩, if_pos ⟨rfl, by omega, by omega⟩]
      · rw [if_neg (by tauto), if_neg (by simp only [true_and]; omega)]

theorem resumeMark_eq : ∀ x : Fin 4, resumeMark x = #v[8, 16, 32, 48][x] := by decide

/-- A freeing sets the hold state by its mark, and brings contexts in use no higher (R113, R118). -/
theorem freeContext_resumes (c : CtxId) (p : HostPort) :
    ResumesAtItsMark p (freeContext c p) ∧ contextsUsed (freeContext c p) ≤ contextsUsed p := by
  by_cases hc : (p.contexts[c]).state = .free
  · unfold freeContext; rw [if_pos hc]; exact ⟨.refl p, le_refl _⟩
  · have hu := inUse_set_free c p hc
    have hk : contextsUsed (freeContext c p) + 1 = contextsUsed p := by
      rw [contextsUsed_eq, contextsUsed_eq, ← hu]
      unfold freeContext; rw [if_neg hc]; rfl
    refine ⟨⟨fun e => ?_, fun v e => ?_⟩, by omega⟩
    · unfold freeContext holdAfterFreeing; rw [if_neg hc]; simp only [e]
    · have hm : resumeMark v.selector = #v[8, 16, 32, 48][v.selector] := by
        exact resumeMark_eq _
      have hf : (freeContext c p).hold =
          if p.hold = .paused ∧ contextsUsed (freeContext c p) = resumeMark v.selector then .clear else p.hold := by
        rw [contextsUsed_eq]
        unfold freeContext; rw [if_neg hc]
        unfold holdAfterFreeing
        simp only [e]; rfl
      simp only
      rw [hf, hm]
      congr 1
      simp only [eq_iff_iff, and_congr_right_iff]
      intro _; omega

theorem freeContexts_resumes (cs : List CtxId) (p : HostPort) :
    ResumesAtItsMark p (freeContexts cs p) ∧ contextsUsed (freeContexts cs p) ≤ contextsUsed p := by
  induction cs generalizing p with
  | nil => exact ⟨.refl p, le_refl _⟩
  | cons c cs ih =>
    have a := freeContext_resumes c p
    have b := ih (freeContext c p)
    exact ⟨a.1.trans b.1 (by rw [freeContext_frame]) a.2 b.2, b.2.trans a.2⟩

theorem endNotice_resumes (c : CtxId) (p : HostPort) :
    ResumesAtItsMark p (endNotice c p) ∧ contextsUsed (endNotice c p) ≤ contextsUsed p := by
  unfold endNotice
  split
  · exact freeContext_resumes c p
  · exact ⟨.refl p, le_refl _⟩

/-- The hold state depends on the values, the hold state and the contexts before and after alone. -/
theorem ResumesAtItsMark.congr {p q p' q' : HostPort} (h : ResumesAtItsMark p q) (h1 : p'.values = p.values)
    (h2 : p'.hold = p.hold) (h3 : p'.contexts = p.contexts) (h4 : q'.hold = q.hold) (h5 : q'.contexts = q.contexts) :
    ResumesAtItsMark p' q' := by
  unfold ResumesAtItsMark contextsUsed at *
  rw [h1, h2, h3, h4, h5]
  exact h

theorem enterFaulted_resumes (code : FaultCode) (p : HostPort) :
    ResumesAtItsMark p (enterFaulted code p) ∧ contextsUsed (enterFaulted code p) ≤ contextsUsed p := by
  have key := freeContexts_resumes (p.workList ++ (unissued p).map Completion.ctx ++ p.maintQueue)
    { p with
      state := .faulted, faultCode := code, faultCause := true, quietTimer := none, workList := [], writeList := [],
      maintQueue := [], lockMail := p.lockMail ++ [.notice .faulted] }
  unfold enterFaulted
  simp only
  split
  · rw [sendMessage_eq]; exact ⟨key.1.congr rfl rfl rfl rfl rfl, key.2⟩
  · exact ⟨key.1.congr rfl rfl rfl rfl rfl, key.2⟩

/-! ## The port notices to the Maintenance Unit, and the entry whole -/

/-- A notice of a port leaves the Maintenance Unit as R164 says. -/
theorem stopRunning_maint (p : PortId) (why : Stop) (s : State) :
    (stopRunning p why s).maint = maintAfterStop p why s.maint := by
  obtain ⟨m, turn⟩ : ∃ r t, s.maint = ⟨r, t⟩ := ⟨_, _, rfl⟩
  unfold stopRunning maintAfterStop
  split
  · rename_i h; simp [h]; cases hm : s.maint; simp_all
  · rename_i r h
    split
    · split
      · simp [*]
      · cases why <;> simp [endRunning, *]
    · simp [*]; cases hm : s.maint; simp_all

/-- The end notice of a context changes contexts and the hold state alone. -/
theorem endNotice_frame (c : CtxId) (p : HostPort) :
    endNotice c p = { p with contexts := (endNotice c p).contexts, hold := (endNotice c p).hold } := by
  unfold endNotice
  split
  · rw [freeContext_frame]
  · rfl

theorem endNotice_at (c d : CtxId) (p : HostPort) (h : d ≠ c) : (endNotice c p).contexts[d] = p.contexts[d] := by
  unfold endNotice
  split
  · exact (freeContext_at c d p).2 h
  · rfl

/-- A context FREE before an end notice is FREE after it. -/
theorem endNotice_free (c d : CtxId) (p : HostPort) (h : (p.contexts[d]).state = .free) :
    ((endNotice c p).contexts[d]).state = .free := by
  by_cases e : d = c
  · subst e
    unfold endNotice
    split
    · exact (freeContext_at d d _).1
    · exact h
  · rw [endNotice_at c d p e]; exact h

/-- A port in FAULTED frees the context of an end notice (R88, R164). -/
theorem endNotice_frees (c : CtxId) (p : HostPort) (h : p.state = .faulted) : ((endNotice c p).contexts[c]).state = .free := by
  unfold endNotice
  rw [if_pos h]
  exact (freeContext_at c c p).1

/-- A port notice leaves its port as it was, or gives it the end notice of its running command: a fault notice does exactly
when no check read of that command is outstanding (R164). -/
theorem stopRunning_port (p : PortId) (why : Stop) (s : State) :
    (stopRunning p why s = { s with maint := maintAfterStop p why s.maint } ∧
        (why = .fault → ∀ r, s.maint.running = some r → r.port = p → r.checkRead ≠ none)) ∨
      ∃ r, s.maint.running = some r ∧ r.port = p ∧ r.checkRead = none ∧
        stopRunning p why s = { s.modPort p (endNotice r.ctx) with maint := maintAfterStop p why s.maint } := by
  have hm := stopRunning_maint p why s
  generalize hz : stopRunning p why s = z at *
  unfold stopRunning at hz
  split at hz
  · rename_i hn
    subst hz
    exact .inl ⟨by rw [← hm], fun _ r hr => by rw [hn] at hr; cases hr⟩
  · rename_i r hr
    split at hz
    · rename_i hp
      split at hz
      · rename_i hc
        subst hz
        refine .inl ⟨by rw [← hm], fun _ r' hr' _ hn => ?_⟩
        rw [hr] at hr'; cases hr'
        rw [hn] at hc; cases hc
      · rename_i hc
        cases why
        · subst hz
          refine .inr ⟨r, hr, hp, by simpa using hc, ?_⟩
          rw [← hm]
          cases p <;> rfl
        · subst hz; exact .inl ⟨by rw [← hm]; rfl, fun h => nomatch h⟩
    · rename_i hp
      subst hz
      refine .inl ⟨by rw [← hm], fun _ r' hr' hp' => ?_⟩
      rw [hr] at hr'; cases hr'
      exact absurd hp' hp

/-- All that an entry to FAULTED does (R123, R156, R159, R164). -/
theorem faultPort_entered (p : PortId) (code : FaultCode) (s : State) : FaultEntered p code s (faultPort p code s) := by
  have hf := enterFaulted_frame code (s.port p)
  have ha := enterFaulted_at code (s.port p)
  have hd : (unissued (s.port p)).map Completion.ctx =
      (if (s.port p).recordWrite.isSome then (s.port p).writeList.tail else (s.port p).writeList).map Completion.ctx := rfl
  rw [hd] at ha
  unfold FaultEntered faultPort
  have port_maint : ∀ (t : State) (m : MaintUnit), State.port { t with maint := m } p = t.port p := by intro t m; cases p <;> rfl
  rcases stopRunning_port p .fault (s.modPort p (enterFaulted code)) with ⟨h, hw⟩ | ⟨r, hr, hp, hc, h⟩
  · rw [h]
    rw [modPort_maint] at hw
    have none_stopped : ((s.maint.running.filter fun r => r.port = p ∧ r.checkRead = none).map Running.ctx).toList = [] := by
      cases hr : s.maint.running with
      | none => rfl
      | some r =>
        rw [Option.filter_some, if_neg]
        · rfl
        · simpa using hw rfl r hr
    simp only [port_maint, port_modPort_same, modPort_maint, none_stopped, List.append_nil]
    refine ⟨by cases p <;> rfl, ?_, (enterFaulted_resumes code _).1, ha⟩
    exact hf
  · rw [h]
    rw [modPort_maint] at hr
    have one_stopped : ((s.maint.running.filter fun r => r.port = p ∧ r.checkRead = none).map Running.ctx).toList = [r.ctx] := by
      rw [hr, Option.filter_some, if_pos (by simp [hp, hc])]
      rfl
    simp only [port_maint, port_modPort_same, modPort_maint, one_stopped]
    refine ⟨by cases p <;> rfl, ?_, ?_, fun c => ⟨fun hc => ?_, fun hc => ?_⟩⟩
    · generalize hz : endNotice r.ctx (enterFaulted code (s.port p)) = z
      have he := endNotice_frame r.ctx (enterFaulted code (s.port p))
      rw [hz] at he
      rw [he, hf]
    · have a := enterFaulted_resumes code (s.port p)
      have b := endNotice_resumes r.ctx (enterFaulted code (s.port p))
      exact a.1.trans b.1 (by rw [hf]) a.2 b.2
    · rcases List.mem_append.mp hc with hc | hc
      · exact endNotice_free _ _ _ ((ha c).1 hc)
      · obtain rfl : c = r.ctx := by simpa using hc
        exact endNotice_frees r.ctx (enterFaulted code (s.port p)) (by rw [hf])
    · rw [List.mem_append, not_or] at hc
      exact (endNotice_at r.ctx c (enterFaulted code (s.port p)) (by simpa using hc.2)).trans ((ha c).2 hc.1)

end Sys2Proof.Machine
end

