-- ==== Sys2Proof/Laws/Alerts.lean ====
section
/-! SUPPORT. What giving and taking a notice of the Incident List does to a port, and that ALERT goes on to follow the list (R172). -/

namespace Sys2Proof.Machine

/-- The oldest notice taken. -/
theorem takeAlert_eq {n : AlertNotice} {rest : List AlertNotice} {h : HostPort} (hn : h.notices = n :: rest) :
    takeAlert h = alertsTaken [n] rest h := by
  unfold takeAlert
  rw [hn]
  cases n
  · unfold alertNonEmpty alertsTaken
    simp only
    by_cases hs : h.inService = true
    · have : ({ h with notices := rest, noticesTaken := h.noticesTaken + 1, alertCause := true } : HostPort).inService = true := hs
      rw [if_pos this, sendMessage_eq]
      simp [hs, messageOf]
    · have : ¬ ({ h with notices := rest, noticesTaken := h.noticesTaken + 1, alertCause := true } : HostPort).inService = true := hs
      rw [if_neg this]
      simp [hs]
  · simp [alertEmpty, alertsTaken]

/-- Notices taken one after another. -/
theorem alertsTaken_cons (n : AlertNotice) (ns rest mid : List AlertNotice) (h : HostPort) :
    alertsTaken ns rest (alertsTaken [n] mid h) = alertsTaken (n :: ns) rest h := by
  unfold alertsTaken
  cases ns with
  | nil => cases n <;> simp [HostPort.inService]
  | cons m ms =>
    obtain ⟨x, hx⟩ : ∃ x, (m :: ms).getLast? = some x := ⟨_, List.getLast?_eq_some_getLast (by simp)⟩
    have hy : (n :: m :: ms).getLast? = some x := by rw [List.getLast?_cons_cons]; exact hx
    simp only [hx, hy]
    cases n <;> simp [HostPort.inService, Nat.add_assoc, messageOf, Nat.add_comm 1]

/-- A port that takes all that waits at it. -/
theorem takeAlerts_eq (h : HostPort) : takeAlerts h = alertsTaken h.notices [] h := by
  have key : ∀ (ns rest : List AlertNotice) (q : HostPort), q.notices = ns ++ rest →
      ns.foldl (fun q _ => takeAlert q) q = alertsTaken ns rest q := by
    intro ns
    induction ns with
    | nil => intro rest q hq; simp only [List.nil_append] at hq; simp [alertsTaken, ← hq]
    | cons n ns ih =>
      intro rest q hq
      rw [List.foldl_cons, takeAlert_eq hq, ih rest _ rfl, alertsTaken_cons]
  exact key h.notices [] h (List.append_nil _).symm

/-- A port given a notice takes what waits at it, or lets it wait. -/
theorem giveAlert_notified (atOnce : Bool) (n : AlertNotice) (h : HostPort) : Notified n h (giveAlert atOnce n h) := by
  unfold Notified giveAlert
  cases atOnce
  · left; simp [alertsTaken]
  · right; simp only [if_true]; rw [takeAlerts_eq]; rfl

/-- ALERT follows the list on, once a further notice tells of a change. -/
theorem AlertFollows.give {a b : Bool} {ns : List AlertNotice} (h : AlertFollows a ns b) :
    AlertFollows a (ns ++ [if b then .empty else .nonEmpty]) (!b) := by
  induction ns generalizing a with
  | nil =>
    have : a = b := h
    subst this
    cases a <;> exact ⟨rfl, rfl⟩
  | cons n ns ih => cases n <;> exact ⟨h.1, ih h.2⟩

/-- ALERT follows the list on, once the port has taken some of the notices. -/
theorem AlertFollows.take {a b : Bool} {ns rest : List AlertNotice} (h : AlertFollows a (ns ++ rest) b) :
    AlertFollows ((ns.getLast?.map fun n => decide (n = .nonEmpty)).getD a) rest b := by
  induction ns generalizing a with
  | nil => exact h
  | cons n ns ih =>
    have key : ∀ c : Bool, c = decide (n = AlertNotice.nonEmpty) → AlertFollows c (ns ++ rest) b →
        AlertFollows (((n :: ns).getLast?.map fun n => decide (n = .nonEmpty)).getD a) rest b := by
      intro c hc hf
      have := ih hf
      cases ns with
      | nil => simp only [List.getLast?_nil, Option.map_none, Option.getD_none] at this; subst hc; exact this
      | cons m ms =>
        obtain ⟨x, hx⟩ : ∃ x, (m :: ms).getLast? = some x := ⟨_, List.getLast?_eq_some_getLast (by simp)⟩
        have hy : (n :: m :: ms).getLast? = some x := by rw [List.getLast?_cons_cons]; exact hx
        rw [hx] at this; rw [hy]; exact this
    cases n
    · exact key true rfl h.2
    · exact key false rfl h.2

/-- A notice given leaves ALERT following the list, whether the port takes it at once or not. -/
theorem Notified.follows {n : AlertNotice} {h k : HostPort} {b : Bool} (hk : Notified n h k)
    (hf : AlertFollows h.alertCause h.notices b) (hn : n = if b then .empty else .nonEmpty) :
    AlertFollows k.alertCause k.notices (!b) := by
  have hg := hf.give
  rw [← hn] at hg
  rcases hk with rfl | rfl
  · exact hg
  · exact AlertFollows.take (rest := []) (by rw [List.append_nil]; exact hg)

end Sys2Proof.Machine
end

