-- ==== Sys2Proof/Laws/CheckCode.lean ====
section
/-! SUPPORT. The check code: codes that keep to R6 exist, the part's code keeps to R6, and the check bits change by a flipped data bit's own column. -/

namespace Sys2Proof.Machine

/-- The test of R6 on pairs, over a bit map of the syndromes. -/
def pairsClear (mask : Nat) (l : List Nat) : Bool :=
  l.all (fun a => mask.testBit a) && l.all (fun a => l.all (fun b => a == b || !mask.testBit (a ^^^ b)))

/-- The test on pairs says what `CodeOk` asks of pairs. -/
theorem pairsClear_spec {mask : Nat} {l : List (BitVec 8)} (h : pairsClear mask (l.map (·.toNat)) = true) :
    ∀ a ∈ l, ∀ b ∈ l, a ≠ b → a ^^^ b ∉ l := by
  simp only [pairsClear, Bool.and_eq_true, List.all_eq_true, List.mem_map, forall_exists_index, and_imp,
    forall_apply_eq_imp_iff₂] at h
  intro a ha b hb hab hm
  have h1 := h.1 _ hm
  have h2 := h.2 a ha b hb
  simp only [Bool.or_eq_true, beq_iff_eq, Bool.not_eq_true', ← BitVec.toNat_eq, hab, false_or] at h2
  rw [BitVec.toNat_xor] at h1
  rw [h1] at h2
  cases h2

/-- The syndromes of the example code, as numbers. -/
theorem example_syndromes : (poisonSyndrome :: singles exampleColumn).map (·.toNat) =
    [255, 7, 11, 13, 14, 19, 21, 22, 25, 26, 28, 31, 35, 37, 38, 41, 42, 44, 47, 49, 50, 52, 55, 56, 59, 61, 62, 67, 69,
      70, 88, 91, 93, 94, 104, 107, 109, 110, 112, 115, 117, 118, 131, 133, 134, 152, 155, 157, 158, 168, 171, 173, 174,
      176, 179, 181, 182, 201, 202, 204, 207, 209, 210, 212, 215, 1, 2, 4, 8, 16, 32, 64, 128] := by
  decide +kernel

/-- Codes that keep to R6 exist. -/
theorem codeOk_example : CodeOk exampleColumn := by
  refine ⟨by decide +kernel, pairsClear_spec
    (mask := 57896044618720045173401772867216484482264861116160159501969454742862220061078) ?_⟩
  rw [example_syndromes]
  decide +kernel

/-- The part's code keeps to R6, whatever the free choice. -/
theorem codeOk_column : CodeOk columnOf := by
  by_cases h : CodeOk Config.columnChoice
  · have e : columnOf = Config.columnChoice := funext fun i => by simp only [columnOf, if_pos h]
    exact e ▸ h
  · have e : columnOf = exampleColumn := funext fun i => by simp only [columnOf, if_neg h]
    exact e ▸ codeOk_example

/-- The fold of `checkBits`, over any list of data bits. -/
def foldColumns (d : Word) (c : BitVec 8) (l : List Nat) : BitVec 8 :=
  l.foldl (fun c i => if d.getLsbD i then c ^^^ columnOf i else c) c

theorem foldColumns_xor (d : Word) (l : List Nat) (c x : BitVec 8) : foldColumns d (c ^^^ x) l = foldColumns d c l ^^^ x := by
  induction l generalizing c with
  | nil => rfl
  | cons i l ih =>
    simp only [foldColumns, List.foldl_cons] at ih ⊢
    split
    · rw [BitVec.xor_assoc, BitVec.xor_comm x, ← BitVec.xor_assoc, ih]
    · exact ih c

theorem getLsbD_flip (d : Word) {i : Nat} (hi : i < 64) (j : Nat) :
    (d ^^^ BitVec.twoPow 64 i).getLsbD j = (d.getLsbD j ^^ decide (i = j)) := by
  rw [BitVec.getLsbD_xor, BitVec.getLsbD_twoPow]
  by_cases h : i = j
  · subst h; simp [hi]
  · simp [h]

theorem foldColumns_flip_not_mem (d : Word) {i : Nat} (hi : i < 64) (l : List Nat) (hl : i ∉ l) (c : BitVec 8) :
    foldColumns (d ^^^ BitVec.twoPow 64 i) c l = foldColumns d c l := by
  induction l generalizing c with
  | nil => rfl
  | cons j l ih =>
    rw [List.mem_cons, not_or] at hl
    simp only [foldColumns, List.foldl_cons, getLsbD_flip d hi, hl.1, decide_false, Bool.xor_false] at ih ⊢
    exact ih hl.2 _

theorem foldColumns_flip_mem (d : Word) {i : Nat} (hi : i < 64) (l : List Nat) (hl : i ∈ l) (hn : l.Nodup) (c : BitVec 8) :
    foldColumns (d ^^^ BitVec.twoPow 64 i) c l = foldColumns d c l ^^^ columnOf i := by
  induction l generalizing c with
  | nil => cases hl
  | cons j l ih =>
    rw [List.nodup_cons] at hn
    rcases eq_or_ne i j with rfl | hij
    · have hrest := foldColumns_flip_not_mem d hi l hn.1
      have step : ∀ (e : Word), foldColumns e c (i :: l) = foldColumns e (if e.getLsbD i then c ^^^ columnOf i else c) l :=
        fun _ => rfl
      rw [step, step, hrest, getLsbD_flip d hi, ← foldColumns_xor]
      cases d.getLsbD i <;> simp
    · have hm : i ∈ l := (List.mem_cons.mp hl).resolve_left hij
      simp only [foldColumns, List.foldl_cons, getLsbD_flip d hi, hij, decide_false, Bool.xor_false] at ih ⊢
      exact ih hm hn.2 _

/-- A flipped data bit changes the code of the data bits by that bit's column (R5). -/
theorem checkBits_flip (d : Word) {i : Nat} (hi : i < 64) :
    checkBits (d ^^^ BitVec.twoPow 64 i) = checkBits d ^^^ columnOf i :=
  foldColumns_flip_mem d hi (List.range' 0 64) (by simp [List.mem_range'_1, hi]) List.nodup_range' _

end Sys2Proof.Machine
end

