-- ==== Sys2Proof/Laws/WorkList.lean ====
section
/-! SUPPORT. What a test of the work list does, whole: which heads leave it, to whom, and which one stays; and what the handing of a completion does, whole. -/

namespace Sys2Proof.Machine

/-- FENCE is met exactly where nothing it waits for is left (R120). -/
theorem fenceOk_iff (p : HostPort) (c : CtxId) : fenceOk p c = true ↔ ¬ FenceWaits p [] c := by
  have hall : (p.contexts.toList.all fun d =>
      d.state == .free || d.state == .done || !(decide (d.place < (p.contexts[c]).place))) = true ↔
      ∀ e : CtxId, (p.contexts[e]).place < (p.contexts[c]).place →
        (p.contexts[e]).state = .free ∨ (p.contexts[e]).state = .done := by
    rw [List.all_eq_true]
    constructor
    · intro h e he
      have := h p.contexts[e] (by simp)
      rw [decide_eq_true he, Bool.or_eq_true, Bool.or_eq_true] at this
      rcases this with (a | a) | a
      · exact .inl (eq_of_beq a)
      · exact .inr (eq_of_beq a)
      · cases a
    · intro h d hd
      obtain ⟨i, hi, rfl⟩ := List.getElem_of_mem hd
      have h64 : i < 64 := by simpa using hi
      have hx : p.contexts.toList[i] = p.contexts[(⟨i, h64⟩ : CtxId)] := rfl
      rw [hx]
      show ((p.contexts[(⟨i, h64⟩ : CtxId)]).state == .free || (p.contexts[(⟨i, h64⟩ : CtxId)]).state == .done ||
        !(decide ((p.contexts[(⟨i, h64⟩ : CtxId)]).place < (p.contexts[c]).place))) = true
      by_cases hp : (p.contexts[(⟨i, h64⟩ : CtxId)]).place < (p.contexts[c]).place
      · rcases h ⟨i, h64⟩ hp with g | g <;> rw [g] <;> rfl
      · rw [decide_eq_false hp]; exact Bool.or_true _
  unfold fenceOk FenceWaits flagFence
  rw [Bool.or_eq_true, hall]
  simp only [List.not_mem_nil, false_or, not_and, not_exists, Bool.not_eq_true']
  constructor
  · rintro (h | h) hf e he
    · rw [h] at hf; cases hf
    · intro h1 h2; rcases h e he with g | g
      · exact h1 g
      · exact h2 g
  · intro h
    by_cases hf : ((p.contexts[c]).flags.getLsbD 0) = true
    · refine .inr fun e he => ?_
      have := h hf e he
      tauto
    · exact .inl (by simpa using hf)

/-- A test of the work list that its head passes, and then the next heads. -/
theorem HeadsRun.cons {p q k : HostPort} {c : CtxId} {rest gone : List CtxId} (h : HeadsRun q k gone)
    (hw : p.workList = c :: rest) (hq : q.workList = rest) (hs : p.inService = true) (hqs : q.inService = true)
    (hx : ∀ d : CtxId, q.contexts[d] = if d = c then { p.contexts[d] with state := .active } else p.contexts[d])
    (hl : q.lockMail = p.lockMail ++ (requestAt c (p.contexts[c]).cmd).toList)
    (hm : q.maintQueue = p.maintQueue ++ if ForMaintenance (p.contexts[c]).cmd then [c] else [])
    (he : (requestAt c (p.contexts[c]).cmd).isSome = true ∨ ForMaintenance (p.contexts[c]).cmd = true)
    (hf : ¬ FenceWaits p [] c) : HeadsRun p k (c :: gone) := by
  have hcmd : ∀ d : CtxId, (q.contexts[d]).cmd = (p.contexts[d]).cmd := by intro d; rw [hx]; split <;> rfl
  have hfw : ∀ (pre : List CtxId) (d : CtxId), FenceWaits q pre d ↔ FenceWaits p (c :: pre) d := by
    intro pre d
    unfold FenceWaits
    have h1 : (q.contexts[d]).flags = (p.contexts[d]).flags := by rw [hx]; split <;> rfl
    have h2 : ∀ e : CtxId, (q.contexts[e]).place = (p.contexts[e]).place := by intro e; rw [hx]; split <;> rfl
    simp only [h1, h2]
    refine and_congr_right fun _ => exists_congr fun e => and_congr_right fun _ => ?_
    rw [hx e]
    by_cases hec : e = c
    · simp [hec]
    · simp [hec]
  obtain ⟨a1, a2, a3, a4, a5, a6, a7⟩ := h
  simp only [hcmd] at a4 a5 a6 a7
  refine ⟨by rw [hw, ← hq, a1]; rfl, fun h => (by rw [hs] at h; cases h), fun d => ?_, ?_, ?_, ?_, ?_⟩
  · rw [a3 d, hx d]
    by_cases hd : d = c
    · simp [hd]
    · simp [hd]
  · rw [a4, hl, List.append_assoc]
    congr 1
    cases hreq : requestAt c (p.contexts[c]).cmd <;> rw [List.filterMap_cons, hreq] <;> rfl
  · rw [a5, hm, List.append_assoc]
    congr 1
    rw [List.filter_cons]
    by_cases h : ForMaintenance (p.contexts[c]).cmd = true
    · rw [if_pos h, if_pos h]; rfl
    · rw [if_neg h, if_neg h]; rfl
  · intro pre d post e
    cases pre with
    | nil =>
      simp only [List.nil_append, List.cons.injEq] at e
      obtain ⟨rfl, -⟩ := e
      exact ⟨he, hf⟩
    | cons x pre =>
      simp only [List.cons_append, List.cons.injEq] at e
      obtain ⟨rfl, e⟩ := e
      have := a6 pre d post e
      exact ⟨this.1, fun h => this.2 ((hfw pre d).2 h)⟩
  · intro d ds e _ h
    exact (hfw gone d).1 (a7 d ds e hqs h)

/-- A test of the work list that its head does not pass, or passes to its own row. -/
theorem HeadsRun.stays (q : HostPort)
    (h : ∀ d ds, q.workList = d :: ds → q.inService = true →
      (requestAt d (q.contexts[d]).cmd).isSome = true ∨ ForMaintenance (q.contexts[d]).cmd = true → FenceWaits q [] d) :
    HeadsRun q q [] :=
  ⟨rfl, fun _ => rfl, fun d => by simp, by simp, by simp, fun pre d post e => by simp at e, h⟩

/-- What the test of the work list does, whole (R119 to R121). -/
theorem advanceBy_run (n : Nat) (p : HostPort) (hn : p.workList.length ≤ n) : ∃ gone, HeadsRun p (advanceBy n p) gone := by
  induction n generalizing p with
  | zero => exact ⟨[], HeadsRun.stays p fun d ds e => by rw [e] at hn; simp at hn⟩
  | succ n ih =>
    obtain ⟨w, hw⟩ : ∃ w, p.workList = w := ⟨_, rfl⟩
    unfold advanceBy
    rw [hw]
    cases w with
    | nil => exact ⟨[], HeadsRun.stays p fun d ds e => by rw [hw] at e; cases e⟩
    | cons c rest =>
      have hr : rest.length ≤ n := by rw [hw] at hn; simpa using hn
      simp only
      by_cases hc : p.canRun c = true
      · rw [if_pos hc]
        unfold HostPort.canRun at hc
        rw [Bool.and_eq_true] at hc
        have hf := (fenceOk_iff p c).1 hc.2
        have hx : ∀ d : CtxId, (activateHead c p).contexts[d] =
            if d = c then { p.contexts[d] with state := .active } else p.contexts[d] := by
          intro d
          unfold activateHead setCtxState
          rw [setContext_at]
          by_cases h : d = c
          · subst h; rfl
          · simp [h]
        have lock : ∀ m, requestAt c (p.contexts[c]).cmd = some m → ForMaintenance (p.contexts[c]).cmd = false →
            ∃ gone, HeadsRun p (advanceBy n (mailLock m (activateHead c p))) gone := by
          intro m hm hn'
          obtain ⟨gone, hg⟩ := ih (mailLock m (activateHead c p)) (by simpa [mailLock, activateHead, setCtxState, setContext, hw] using hr)
          exact ⟨c :: gone, hg.cons hw (by simp [mailLock, activateHead, setCtxState, setContext, hw]) hc.1 hc.1 hx
            (by rw [hm]; rfl) (by rw [hn']; exact (List.append_nil _).symm) (.inl (by rw [hm]; rfl)) hf⟩
        have maint : requestAt c (p.contexts[c]).cmd = none → ForMaintenance (p.contexts[c]).cmd = true →
            ∃ gone, HeadsRun p (advanceBy n { activateHead c p with maintQueue := (activateHead c p).maintQueue ++ [c] }) gone := by
          intro hm hn'
          obtain ⟨gone, hg⟩ := ih { activateHead c p with maintQueue := (activateHead c p).maintQueue ++ [c] }
            (by simpa [activateHead, setCtxState, setContext, hw] using hr)
          exact ⟨c :: gone, hg.cons hw (by simp [activateHead, setCtxState, setContext, hw]) hc.1 hc.1 hx
            (by rw [hm]; exact (List.append_nil _).symm) (by rw [hn']; rfl) (.inr hn') hf⟩
        cases hcmd : (p.contexts[c]).cmd with
        | acquire k o t => exact lock _ (by rw [hcmd]; rfl) (by rw [hcmd]; rfl)
        | release k o => exact lock _ (by rw [hcmd]; rfl) (by rw [hcmd]; rfl)
        | mapQuery | incidents | tune | relocate => exact maint (by rw [hcmd]; rfl) (by rw [hcmd]; rfl)
        | _ =>
          refine ⟨[], HeadsRun.stays p fun d ds e _ he => ?_⟩
          rw [hw] at e
          obtain ⟨rfl, -⟩ := List.cons.inj e
          rw [hcmd] at he
          rcases he with he | he <;> cases he
      · rw [if_neg hc]
        refine ⟨[], HeadsRun.stays p fun d ds e hs _ => ?_⟩
        rw [hw] at e
        obtain ⟨rfl, -⟩ := List.cons.inj e
        by_contra hf
        exact hc (by unfold HostPort.canRun; rw [hs, (fenceOk_iff p c).2 hf]; rfl)

theorem advance_run (p : HostPort) : ∃ gone, HeadsRun p (advance p) gone := advanceBy_run _ p (le_refl _)

/-! ## A completion handed (R148 to R150) -/

/-- A writer with no record write outstanding writes the front of its list, and any other writes nothing (R150). -/
theorem issueRecord_writes (p : HostPort) (h : p.inService = true) :
    (p.recordWrite ≠ none ∨ p.values = none → issueRecord p = p) ∧
      ∀ v front, p.recordWrite = none → p.values = some v → p.writeList.head? = some front →
        issueRecord p =
          { p with
            recordWrite := some ⟨front, p.sent.length + 1⟩
            sent := p.sent ++ [.record (v.cqBase + p.cqTail * 32) (recordBytes front p.phase p.sqHead)] } := by
  unfold issueRecord
  refine ⟨fun hw => ?_, fun v front hr hv hl => ?_⟩
  · rcases hw with hw | hw
    · have : p.recordWrite.isNone = false := by cases hr : p.recordWrite <;> simp_all
      simp [this]
    · rw [hw]; cases p.writeList <;> simp
  · obtain ⟨rest, hl⟩ : ∃ rest, p.writeList = front :: rest := by
      cases hw : p.writeList with
      | nil => rw [hw] at hl; cases hl
      | cons a rest => rw [hw] at hl; exact ⟨rest, by rw [Option.some.inj hl]⟩
    rw [h, hr, hv, hl]
    simp [send, hv, hl]

/-- All that the handing of a completion to a port in service does. -/
theorem handCompletion_handed (c : CtxId) (st : Status) (r : Results) (p : HostPort) (h : p.inService = true) :
    CompletionHanded c st r p (handCompletion c st r p) := by
  have hc : completionOf p c st r =
      ⟨c, (p.contexts[c]).record.extractLsb' 16 16, (p.contexts[c]).record.extractLsb' 0 8,
        (p.contexts[c]).record.getLsbD 9, st, r⟩ := by
    unfold completionOf Context.tag Context.opcode flagNotify Context.flags recordTag recordOpcode recordFlags field
    simp
  unfold handCompletion
  rw [if_pos h, hc]
  generalize hq : setCtxState c .done { p with writeList := p.writeList ++ [_] } = q
  have hqs : q.inService = true := by rw [← hq]; exact h
  have hw := issueRecord_writes q hqs
  have hf := advance_frame (issueRecord q)
  obtain ⟨gone, hg⟩ := advance_run (issueRecord q)
  have hi := issueRecord_frame q
  have hsent : (advance (issueRecord q)).sent = (issueRecord q).sent := by rw [hf]
  have hrec : (advance (issueRecord q)).recordWrite = (issueRecord q).recordWrite := by rw [hf]
  refine ⟨?_, ⟨gone, ?_⟩, fun hn => ?_, fun v front h1 h2 h3 => ?_⟩
  · generalize hz : advance (issueRecord q) = z at *
    rw [hf, hi, ← hq]; rfl
  · generalize advance (issueRecord q) = z at *
    rw [hi, ← hq] at hg
    exact hg
  · rw [hsent, hrec, hw.1 (by rw [← hq]; exact hn), ← hq]; exact ⟨rfl, rfl⟩
  · rw [hsent, hrec, hw.2 v front (by rw [← hq]; exact h1) (by rw [← hq]; exact h2) (by rw [← hq]; exact h3), ← hq]
    exact ⟨rfl, rfl⟩

/-- Contexts freed one after another. -/
theorem freeContexts_freed (cs : List CtxId) (p : HostPort) : ContextsFreed cs p (freeContexts cs p) :=
  ⟨freeContexts_frame cs p, (freeContexts_resumes cs p).1, fun d =>
    ⟨(freeContexts_at cs d p).1, (freeContexts_at cs d p).2.1⟩⟩

/-- All that the handing of a completion does, in every state of the port (R149). -/
theorem handCompletion_taken (c : CtxId) (st : Status) (r : Results) (p : HostPort) :
    CompletionTaken c st r p (handCompletion c st r p) := by
  refine ⟨handCompletion_handed c st r p, fun h => ?_, fun h hf => ?_⟩
  · rw [handCompletion_faulted c st r p h]
    exact freeContexts_freed [c] p
  · unfold handCompletion
    rw [h, if_neg (by simp), if_neg hf]

end Sys2Proof.Machine
end

