-- ==== Sys2Proof/Laws/Completions.lean ====
section
/-! SUPPORT. Completions handed one after another, what the answers of the Lock Unit do to one port (R92, R149), and the entry of a port to RESETTING whole. -/

namespace Sys2Proof.Machine

/-- Completions handed to a port, in order. -/
theorem handCompletions_taken (l : List (CtxId × Status × Results)) (p : HostPort) :
    CompletionsTaken l p (l.foldl (fun k x => handCompletion x.1 x.2.1 x.2.2 k) p) := by
  induction l generalizing p with
  | nil => rfl
  | cons x l ih => exact ⟨_, handCompletion_taken x.1 x.2.1 x.2.2 p, ih _⟩

/-- End notices to a port in FAULTED free their contexts (R88, R98). -/
theorem endNotices_freed (l : List CtxId) (p : HostPort) (h : p.state = .faulted) :
    ContextsFreed l p (l.foldl (fun k c => endNotice c k) p) := by
  have e : l.foldl (fun k c => endNotice c k) p = freeContexts l p := by
    induction l generalizing p with
    | nil => rfl
    | cons c l ih =>
      have hf : endNotice c p = freeContext c p := by simp [endNotice, h]
      simp only [List.foldl_cons, hf]
      rw [ih _ (by rw [freeContext_frame]; exact h)]
      rfl
  rw [e]
  exact freeContexts_freed _ p

/-- Answers to one port change that port alone. -/
theorem deliver_port_eq (p : PortId) (as : List LockAnswer) (s : State) :
    deliver (as.map fun a => (p, a)) s = s.setPort p (as.foldl (fun h a => takeLockAnswer a h) (s.port p)) := by
  induction as generalizing s with
  | nil => cases p <;> rfl
  | cons a as ih =>
    show deliver (as.map fun a => (p, a)) (s.modPort p (takeLockAnswer a)) = _
    rw [ih]
    cases p <;> rfl

/-- All that an entry to RESETTING does (R73, R124, R160, R164). -/
theorem resetPort_entered (p : PortId) (s : State) :
    QueuePurged p s (resetPort p s) ∧
      resetPort p s =
        { s.setPort p
            (portReset ((s.port p).staleWrites + if (s.port p).recordWrite = none then 0 else 1) (s.port p)) with
          sched := (resetPort p s).sched, mig := (resetPort p s).mig, maint := maintAfterStop p .reset s.maint } := by
  refine ⟨?_, ?_⟩
  · rw [resetPort_frame p s]
    refine ⟨leaveHeldOver_left _ _, ?_, fun src h => ?_, by simp, by simp⟩
    · rw [queue_setQueue_same]; congr 1; funext r; simp [Ref.waiting]
    · rw [queue_setQueue_ne _ _ h]
  · have hp : enterResetting (s.port p) =
        portReset ((s.port p).staleWrites + if (s.port p).recordWrite = none then 0 else 1) (s.port p) := by
      unfold enterResetting portReset
      cases h : (s.port p).recordWrite <;> simp
    unfold resetPort
    rcases stopRunning_port p .reset (purgeQueue p (s.modPort p enterResetting)) with ⟨h, -⟩ | ⟨r, -, -, -, h⟩
    · rw [h, ← hp]
      cases p <;> rfl
    · have h4 : (purgeQueue p (s.modPort p enterResetting)).port p = enterResetting (s.port p) := by cases p <;> rfl
      have h5 : endNotice r.ctx (enterResetting (s.port p)) = enterResetting (s.port p) := by
        unfold endNotice; rw [if_neg]; simp [enterResetting]
      rw [h, modPort_eq, h4, h5, ← hp]
      cases p <;> rfl

end Sys2Proof.Machine
end

