-- ==== Sys2Proof/Laws/Intake.lean ====
section
/-! SUPPORT. The intake hold state and contexts in use (R113): what freeing contexts and taking a record leave of their agreement, and the FREE context it gives the next record (R112). -/

namespace Sys2Proof.Machine

/-- Each resume mark is below its pause mark, and no pause mark is above the size of the context table (R113). -/
theorem marks_ordered : ∀ x : Fin 4, #v[8, 16, 32, 48][x] < #v[16, 32, 48, 64][x] ∧ #v[16, 32, 48, 64][x] ≤ 64 := by decide

/-- The hold state agrees with contexts in use after contexts were freed one after another, if it did before (R113, R118). -/
theorem HoldAgrees.resumes {p q : HostPort} (h : HoldAgrees p) (r : ResumesAtItsMark p q) (hv : q.values = p.values)
    (hu : contextsUsed q ≤ contextsUsed p) : HoldAgrees q := by
  intro v e
  rw [hv] at e
  obtain ⟨a, b⟩ := h v e
  have k := r.2 v e
  have m := marks_ordered v.selector
  simp only at k
  rw [contextsUsed_eq, contextsUsed_eq] at k hu
  generalize #v[8, 16, 32, 48][v.selector] = low at *
  generalize #v[16, 32, 48, 64][v.selector] = high at *
  cases hp : p.hold
  · have := a hp
    rw [hp, if_neg (by simp)] at k
    exact ⟨fun _ => by omega, fun c => (by rw [k] at c; cases c)⟩
  · have := b hp
    rw [hp] at k
    simp only [true_and] at k
    split at k
    · exact ⟨fun _ => by omega, fun c => (by rw [k] at c; cases c)⟩
    · exact ⟨fun c => (by rw [k] at c; cases c), fun _ => by omega⟩

/-- A FREE context put to use raises contexts in use by one (R112). -/
theorem inUse_set_used (c : CtxId) (x : Context) (p : HostPort) (h : (p.contexts[c]).state = .free) (hx : x.state ≠ .free) :
    ({ p with contexts := p.contexts.set c x }).inUse = p.inUse + 1 := by
  unfold HostPort.inUse
  have hc : c.val < p.contexts.toList.length := by simp
  have hg : p.contexts.toList[c.val] = p.contexts[c] := rfl
  have : (p.contexts.set c x).toList = p.contexts.toList.set c.val x := Vector.toList_set _
  show List.countP _ (p.contexts.set c x).toList = _
  have hb : ((p.contexts[c]).state != CtxState.free) = false := by rw [h]; rfl
  have hb' : (x.state != CtxState.free) = true := by cases hs : x.state <;> first | rfl | exact absurd hs hx
  rw [this, List.countP_set hc, hg, hb, if_neg (by decide), hb', if_pos rfl]
  rfl

/-- A context just taken is in use (R112). -/
theorem takenContext_used (r : BitVec 512) (place : Nat) : (takenContext r place).state ≠ .free := by
  unfold takenContext
  split <;> simp

theorem pauseMark_eq : ∀ x : Fin 4, pauseMark x = #v[16, 32, 48, 64][x] := by decide

/-- A taking while the hold state is CLEAR leaves it in agreement with contexts in use (R112, R113). -/
theorem HoldAgrees.taking {p : HostPort} (h : HoldAgrees p) (v : SetupValues) (c : CtxId) (r : BitVec 512)
    (hv : p.values = some v) (hc : (p.contexts[c]).state = .free) (clear : p.hold = .clear) :
    HoldAgrees (occupyContext v c r p) := by
  have hu : (occupyContext v c r p).inUse = p.inUse + 1 := inUse_set_used c _ p hc (takenContext_used r p.taken)
  have hh : (occupyContext v c r p).hold = if p.inUse + 1 = pauseMark v.selector then .paused else p.hold := by
    rw [← hu]; rfl
  intro w e
  obtain rfl : v = w := Option.some.inj (hv.symm.trans e)
  have a := (h v hv).1 clear
  have m := marks_ordered v.selector
  rw [hu, hh, pauseMark_eq, clear]
  split
  · exact ⟨fun c => (by cases c), fun _ => by omega⟩
  · exact ⟨fun _ => by omega, fun c => (by cases c)⟩

/-- While the hold state is CLEAR some context is FREE: the pause mark is no higher than the size of the table (R113). -/
theorem HoldAgrees.free {p : HostPort} (h : HoldAgrees p) (v : SetupValues) (hv : p.values = some v) (clear : p.hold = .clear) :
    ∃ c : CtxId, (p.contexts[c]).state = .free := by
  have a := (h v hv).1 clear
  have m := marks_ordered v.selector
  by_contra hn
  simp only [not_exists] at hn
  have all : p.inUse = p.contexts.toList.length := by
    unfold HostPort.inUse
    rw [List.countP_eq_length]
    intro x hx
    obtain ⟨i, hi, rfl⟩ := List.getElem_of_mem hx
    have h64 : i < 64 := by simpa using hi
    have := hn ⟨i, h64⟩
    simpa using this
  have size : p.contexts.toList.length = 64 := Vector.length_toList
  omega

end Sys2Proof.Machine
end

