-- ==== Sys2Proof/Laws/Memory.lean ====
section
/-! SUPPORT. What the operations over the store do: reading after writing, the canonical form, and the words of a line. -/

namespace Sys2Proof.Machine

/-- Reading after writing one word. -/
theorem memoryFind_memoryPut (m : Memory) (n : Nat) (v : StoredWord) (k : Nat) :
    memoryFind (memoryPut m n v) k = if k = n then some v else memoryFind m k := by
  induction m with
  | nil => simp [memoryPut, memoryFind, eq_comm]
  | cons x rest ih =>
    obtain ⟨j, u⟩ := x
    simp only [memoryPut]
    split
    · simp only [memoryFind, eq_comm]
    · split
      · subst_vars
        simp only [memoryFind]
        split <;> simp_all [eq_comm]
      · simp only [memoryFind, ih]
        split
        · subst_vars
          split <;> simp_all
        · rfl

/-- The 72 bits of a word after one word is written. -/
theorem storedAt_memoryPut (e : Nat) (m : Memory) (n : Nat) (v : StoredWord) (k : Nat) :
    storedAt e (memoryPut m n v) k = if k = n then v else storedAt e m k := by
  unfold storedAt
  rw [memoryFind_memoryPut]
  split <;> simp

/-- The word numbers listed after a write. -/
theorem mem_memoryPut {m : Memory} {n : Nat} {v : StoredWord} {x : Nat × StoredWord} (h : x ∈ memoryPut m n v) :
    x = (n, v) ∨ x ∈ m := by
  induction m with
  | nil => simp_all [memoryPut]
  | cons y rest ih =>
    simp only [memoryPut] at h
    split at h
    · simpa using h
    · split at h
      · rcases List.mem_cons.mp h with h | h
        · exact .inl h
        · exact .inr (List.mem_cons_of_mem _ h)
      · rcases List.mem_cons.mp h with h | h
        · exact .inr (h ▸ List.mem_cons_self ..)
        · exact (ih h).imp_right (List.mem_cons_of_mem _)

/-- The canonical form, said whole: strictly rising word numbers, all inside the store. -/
theorem Memory.wf_iff (m : Memory) :
    Memory.wf m = true ↔ m.Pairwise (fun a b => a.1 < b.1) ∧ ∀ x ∈ m, x.1 < wordsInStore := by
  induction m with
  | nil => simp [Memory.wf]
  | cons x rest ih =>
    cases rest with
    | nil => simp [Memory.wf]
    | cons y ys =>
      simp only [Memory.wf, Bool.and_eq_true, decide_eq_true_eq, ih, List.pairwise_cons, List.mem_cons, forall_eq_or_imp]
      constructor
      · rintro ⟨hxy, ⟨hy, hys⟩, hlt, hall⟩
        exact ⟨⟨⟨hxy, fun b hb => hxy.trans (hy b hb)⟩, hy, hys⟩, hxy.trans hlt, hlt, hall⟩
      · rintro ⟨⟨⟨hxy, -⟩, hy, hys⟩, -, hlt, hall⟩
        exact ⟨hxy, ⟨hy, hys⟩, hlt, hall⟩

/-- Writing one word keeps the canonical form. -/
theorem wf_memoryPut {m : Memory} {n : Nat} (v : StoredWord) (hn : n < wordsInStore) (h : Memory.wf m = true) :
    Memory.wf (memoryPut m n v) = true := by
  rw [Memory.wf_iff] at h ⊢
  refine ⟨?_, fun x hx => (mem_memoryPut hx).elim (fun e => e ▸ hn) (h.2 x)⟩
  replace h := h.1
  induction m with
  | nil => simp [memoryPut]
  | cons y rest ih =>
    rw [List.pairwise_cons] at h
    simp only [memoryPut]
    split
    · rename_i hlt
      refine List.pairwise_cons.mpr ⟨fun b hb => ?_, List.pairwise_cons.mpr h⟩
      rcases List.mem_cons.mp hb with rfl | hb
      · exact hlt
      · exact lt_trans hlt (h.1 b hb)
    · split
      · rename_i heq
        refine List.pairwise_cons.mpr ⟨fun b hb => ?_, h.2⟩
        exact heq ▸ h.1 b hb
      · refine List.pairwise_cons.mpr ⟨fun b hb => ?_, ih h.2⟩
        rcases mem_memoryPut hb with rfl | hb
        · simp only; omega
        · exact h.1 b hb

/-- Every word of every physical line is inside the store (R2). -/
theorem wordNumber_lt (l : PLine) {w : Nat} (hw : w < 8) : wordNumber l w < wordsInStore := by
  have hs := l.seg.isLt
  have ho := l.off.isLt
  unfold wordNumber wordsInStore PLine.number
  omega

/-- Two words of the store have one number only if they are one word of one line. -/
theorem wordNumber_inj {l k : PLine} {v w : Nat} (hv : v < 8) (hw : w < 8) (h : wordNumber l v = wordNumber k w) :
    l = k ∧ v = w := by
  obtain ⟨ls, lo⟩ := l
  obtain ⟨ks, ko⟩ := k
  have h1 := lo.isLt
  have h2 := ko.isLt
  simp only [wordNumber, PLine.number] at h
  have e1 : ls.val = ks.val := by omega
  have e2 : lo.val = ko.val := by omega
  exact ⟨by simp [Fin.ext_iff, e1, e2], by omega⟩

/-- Writing words of a line keeps the canonical form. -/
theorem wf_writeListed {l : PLine} {f : Nat → Option StoredWord} (ws : List Nat) (hws : ∀ w ∈ ws, w < 8) :
    ∀ {m : Memory}, Memory.wf m = true → Memory.wf (writeListed m l f ws) = true := by
  induction ws with
  | nil => exact fun h => h
  | cons w ws ih =>
    intro m h
    have ih' := @ih fun x hx => hws x (List.mem_cons_of_mem _ hx)
    simp only [writeListed, List.foldl_cons] at ih' ⊢
    cases hf : f w with
    | none => exact ih' h
    | some v => exact ih' (wf_memoryPut v (wordNumber_lt l (hws w (List.mem_cons_self ..))) h)

theorem storedAt_writeListed (e : Nat) (l : PLine) (f : Nat → Option StoredWord) (ws : List Nat) (hws : ∀ w ∈ ws, w < 8)
    (hnd : ws.Nodup) (k : PLine) {w : Nat} (hw : w < 8) :
    ∀ m : Memory, storedAt e (writeListed m l f ws) (wordNumber k w) =
      if k = l ∧ w ∈ ws then (f w).getD (storedAt e m (wordNumber k w)) else storedAt e m (wordNumber k w) := by
  induction ws with
  | nil => intro m; simp [writeListed]
  | cons v ws ih =>
    intro m
    have hv := hws v (List.mem_cons_self ..)
    have ih' := ih (fun x hx => hws x (List.mem_cons_of_mem _ hx)) (List.nodup_cons.mp hnd).2
    have hvn := (List.nodup_cons.mp hnd).1
    simp only [writeListed, List.foldl_cons] at ih' ⊢
    cases hf : f v with
    | none =>
      rw [putWord, ih' m]
      by_cases hk : k = l
      · by_cases hwv : w = v
        · subst hwv; simp [hk, hvn, hf]
        · simp [hk, hwv]
      · simp [hk]
    | some x =>
      rw [putWord, ih' _, storedAt_memoryPut]
      by_cases hk : k = l
      · by_cases hwv : w = v
        · subst hwv; simp [hk, hvn, hf]
        · have : wordNumber k w ≠ wordNumber l v := fun h => hwv (wordNumber_inj hw hv h).2
          simp [hk, hwv] at this ⊢
          simp [this]
      · have : wordNumber k w ≠ wordNumber l v := fun h => hk (wordNumber_inj hw hv h).1
        simp [hk, this]

/-- What `writeWords` leaves in a word of a line: the written word on that line, the old 72 bits elsewhere (R4). -/
theorem storedAt_writeWords (e : Nat) (m : Memory) (l : PLine) (f : Nat → Option StoredWord) (k : PLine) {w : Nat}
    (hw : w < 8) :
    storedAt e (writeWords m l f) (wordNumber k w) =
      if k = l then (f w).getD (storedAt e m (wordNumber k w)) else storedAt e m (wordNumber k w) := by
  have h := storedAt_writeListed e l f (List.range' 0 8) (by decide) (by decide) k hw m
  have hm : w ∈ List.range' 0 8 := by simp [List.mem_range'_1]; omega
  simpa [writeWords, hm] using h

/-- Writing words of a line keeps the canonical form. -/
theorem wf_writeWords {m : Memory} (l : PLine) (f : Nat → Option StoredWord) (h : Memory.wf m = true) :
    Memory.wf (writeWords m l f) = true :=
  wf_writeListed (l := l) (f := f) (List.range' 0 8) (by decide) h

/-- Every line operation keeps the canonical form. -/
theorem wf_performOp {m : Memory} (e : Nat) (op : LineOp) (l : PLine) (h : Memory.wf m = true) :
    Memory.wf (performOp e m op l).1 = true := by
  cases op <;> simp only [performOp] <;> first | exact h | exact wf_writeWords l _ h

/-- A line operation leaves the words of every other line as they were. -/
theorem storedAt_performOp_ne (e : Nat) (m : Memory) (op : LineOp) (l k : PLine) (hne : k ≠ l) {w : Nat} (hw : w < 8) :
    storedAt e (performOp e m op l).1 (wordNumber k w) = storedAt e m (wordNumber k w) := by
  cases op <;> simp [performOp, storedAt_writeWords, hne, hw]

/-- The memory after reset has the canonical form. -/
theorem wf_reset : Memory.wf State.reset.store = true := rfl

end Sys2Proof.Machine
end

