-- ==== Sys2Proof/Laws/PerInstr.lean ====
section
/-! SUPPORT. The per-command family `WindowSpelling`: which commands a host's register writes spell. -/

namespace Sys2Proof

/-- The port whose register window a command is written through, if it is a register write (R174, R175). -/
def Instr.window : Instr → Option PortId
  | .powerOnReset _ => none
  | .retirementReadDone _ => none
  | .setupWrite p _ => some p
  | .enable p => some p
  | .disable p => some p
  | .reset p => some p
  | .submit p _ => some p
  | .consume p _ => some p
  | .registerWriteDiscarded p _ => some p
  | .linkDown _ _ => none
  | .linkUp _ => none
  | .setupFetchDone _ _ => none
  | .recordFetch _ => none
  | .recordFetchDone _ _ => none
  | .read _ => none
  | .write _ => none
  | .fill _ => none
  | .copy _ => none
  | .scan _ => none
  | .guardCheck _ => none
  | .scatterListReadDone _ _ _ => none
  | .hostDataReadDone _ _ _ => none
  | .referenceIssue _ => none
  | .grant _ => none
  | .operationDone _ _ => none
  | .healthReport _ => none
  | .migrationStart => none
  | .chunkLockHeld => none
  | .retirementWriteDone _ => none
  | .pacingTick => none
  | .acquire _ => none
  | .release _ => none
  | .waiterDeadlineExpiry _ _ => none
  | .lockRunningNotice _ => none
  | .lockDrainNotice _ => none
  | .lockFaultNotice _ => none
  | .lockResetNotice _ => none
  | .mapQuery => none
  | .incidents => none
  | .tune => none
  | .relocate => none
  | .maintCheckReadDone _ => none
  | .completionWriteAccepted _ _ => none
  | .completionWriteRefused _ _ => none
  | .quietTimerExpiry _ => none
  | .drainEnd _ => none
  | .resetComplete _ => none
  | .bufferWrite => none
  | .bitInError _ _ _ => none

/-- A window write spells a command only of its own window (R174). -/
def Laws.WindowSpelling.Statement (i : Instr) : Prop :=
  ∀ (p : PortId) (w : WindowWrite), decodeWindowWrite p w = i → i.window = some p

/-- Every window write spells a register write of its own window. -/
theorem window_decodeWindowWrite (p : PortId) (w : WindowWrite) : (decodeWindowWrite p w).window = some p := by
  unfold decodeWindowWrite
  repeat' split
  all_goals rfl

/-- The family's one argument. -/
theorem windowSpelling (i : Instr) : Laws.WindowSpelling.Statement i :=
  fun p w h => h ▸ window_decodeWindowWrite p w

namespace Laws.WindowSpelling

theorem powerOnReset (left : SlotRemnant) : Statement (.powerOnReset left) := windowSpelling _
theorem retirementReadDone (answered : Bool) : Statement (.retirementReadDone answered) := windowSpelling _
theorem setupWrite (p : PortId) (part : SetupPart) : Statement (.setupWrite p part) := windowSpelling _
theorem enable (p : PortId) : Statement (.enable p) := windowSpelling _
theorem disable (p : PortId) : Statement (.disable p) := windowSpelling _
theorem reset (p : PortId) : Statement (.reset p) := windowSpelling _
theorem submit (p : PortId) (v : BitVec 32) : Statement (.submit p v) := windowSpelling _
theorem consume (p : PortId) (v : BitVec 32) : Statement (.consume p v) := windowSpelling _
theorem registerWriteDiscarded (p : PortId) (w : WindowWrite) : Statement (.registerWriteDiscarded p w) := windowSpelling _
theorem linkDown (p : PortId) (delivered : Nat) : Statement (.linkDown p delivered) := windowSpelling _
theorem linkUp (p : PortId) : Statement (.linkUp p) := windowSpelling _
theorem setupFetchDone (p : PortId) (block : Option (BitVec 512)) : Statement (.setupFetchDone p block) := windowSpelling _
theorem recordFetch (p : PortId) : Statement (.recordFetch p) := windowSpelling _
theorem recordFetchDone (p : PortId) (record : Option (BitVec 512)) : Statement (.recordFetchDone p record) := windowSpelling _
theorem read (p : PortId) : Statement (.read p) := windowSpelling _
theorem write (p : PortId) : Statement (.write p) := windowSpelling _
theorem fill (p : PortId) : Statement (.fill p) := windowSpelling _
theorem copy (p : PortId) : Statement (.copy p) := windowSpelling _
theorem scan (p : PortId) : Statement (.scan p) := windowSpelling _
theorem guardCheck (p : PortId) : Statement (.guardCheck p) := windowSpelling _
theorem scatterListReadDone (p : PortId) (slot : SlotId) (list : Option (List (BitVec 128))) : Statement (.scatterListReadDone p slot list) := windowSpelling _
theorem hostDataReadDone (p : PortId) (slot : SlotId) (words : Option (List Word)) : Statement (.hostDataReadDone p slot words) := windowSpelling _
theorem referenceIssue (p : PortId) : Statement (.referenceIssue p) := windowSpelling _
theorem grant (b : Bank) : Statement (.grant b) := windowSpelling _
theorem operationDone (b : Bank) (arbiterFirst : Bool) : Statement (.operationDone b arbiterFirst) := windowSpelling _
theorem healthReport (b : Bank) : Statement (.healthReport b) := windowSpelling _
theorem migrationStart : Statement (.migrationStart) := windowSpelling _
theorem chunkLockHeld : Statement (.chunkLockHeld) := windowSpelling _
theorem retirementWriteDone (outcome : WriteOutcome) : Statement (.retirementWriteDone outcome) := windowSpelling _
theorem pacingTick : Statement (.pacingTick) := windowSpelling _
theorem acquire (p : PortId) : Statement (.acquire p) := windowSpelling _
theorem release (p : PortId) : Statement (.release p) := windowSpelling _
theorem waiterDeadlineExpiry (p : PortId) (ctx : CtxId) : Statement (.waiterDeadlineExpiry p ctx) := windowSpelling _
theorem lockRunningNotice (p : PortId) : Statement (.lockRunningNotice p) := windowSpelling _
theorem lockDrainNotice (p : PortId) : Statement (.lockDrainNotice p) := windowSpelling _
theorem lockFaultNotice (p : PortId) : Statement (.lockFaultNotice p) := windowSpelling _
theorem lockResetNotice (p : PortId) : Statement (.lockResetNotice p) := windowSpelling _
theorem mapQuery : Statement (.mapQuery) := windowSpelling _
theorem incidents : Statement (.incidents) := windowSpelling _
theorem tune : Statement (.tune) := windowSpelling _
theorem relocate : Statement (.relocate) := windowSpelling _
theorem maintCheckReadDone (returned : Bool) : Statement (.maintCheckReadDone returned) := windowSpelling _
theorem completionWriteAccepted (p : PortId) (stale : Bool) : Statement (.completionWriteAccepted p stale) := windowSpelling _
theorem completionWriteRefused (p : PortId) (stale : Bool) : Statement (.completionWriteRefused p stale) := windowSpelling _
theorem quietTimerExpiry (p : PortId) : Statement (.quietTimerExpiry p) := windowSpelling _
theorem drainEnd (p : PortId) : Statement (.drainEnd p) := windowSpelling _
theorem resetComplete (p : PortId) : Statement (.resetComplete p) := windowSpelling _
theorem bufferWrite : Statement (.bufferWrite) := windowSpelling _
theorem bitInError (line : PLine) (word : Fin 8) (bit : Fin 72) : Statement (.bitInError line word bit) := windowSpelling _

end Laws.WindowSpelling

end Sys2Proof
end

