-- ==== Sys2Proof/Laws/Results.lean ====
section
/-! SUPPORT. The pieces of a line, the slot of a context, and what taking a result keeps (R130, R131, R141, R146). -/

namespace Sys2Proof.Machine

/-! ## Pieces (R130) -/

/-- Where an offset falls in a list of entries counted from `k`. -/
theorem hostPlace_some {es : List (Nat × Nat)} {o k : Nat} (h : o < (es.map Prod.snd).sum) :
    ∃ (j : Nat) (e : Nat × Nat), hostPlace es o k = some (k + j, e.1 + (o - entryOffset es j)) ∧ es[j]? = some e ∧
      entryOffset es j ≤ o ∧ o < entryOffset es j + e.2 := by
  induction es generalizing o k with
  | nil => simp at h
  | cons e es ih =>
    obtain ⟨a, n⟩ := e
    simp only [List.map_cons, List.sum_cons] at h
    unfold hostPlace
    by_cases hn : o < n
    · exact ⟨0, (a, n), by simp [hn, entryOffset], rfl, by simp [entryOffset], by simpa [entryOffset] using hn⟩
    · obtain ⟨j, e, h1, h2, h3, h4⟩ := ih (o := o - n) (k := k + 1) (by omega)
      have he : entryOffset ((a, n) :: es) (j + 1) = n + entryOffset es j := by simp [entryOffset]
      refine ⟨j + 1, e, ?_, by simpa using h2, by omega, by omega⟩
      rw [if_neg hn, h1, he]
      congr 2
      · omega
      · omega

/-- The entries up to and with entry `j` end where it does. -/
theorem entryOffset_succ {es : List (Nat × Nat)} {j : Nat} {e : Nat × Nat} (h : es[j]? = some e) :
    entryOffset es (j + 1) = entryOffset es j + e.2 := by
  induction es generalizing j with
  | nil => simp at h
  | cons x es ih =>
    cases j with
    | zero => simp at h; subst h; simp [entryOffset]
    | succ j =>
      have := ih (j := j) (by simpa using h)
      simp [entryOffset] at this ⊢
      omega

/-- Entries begin at rising offsets. -/
theorem entryOffset_mono (es : List (Nat × Nat)) {j k : Nat} (h : j ≤ k) : entryOffset es j ≤ entryOffset es k := by
  obtain ⟨d, rfl⟩ := Nat.exists_eq_add_of_le h
  simp only [entryOffset, List.take_add, List.map_append, List.sum_append]
  omega

/-- What gathering places of ascending entries gives. -/
theorem gatherPieces_spec (l : List (Nat × Nat × Nat)) (h : l.Pairwise fun a b => a.2.1 ≤ b.2.1) :
    (gatherPieces l).flatMap Piece.words = l.map Prod.fst ∧ ((gatherPieces l).map Piece.entry).Pairwise (· < ·) ∧
      ∀ q ∈ gatherPieces l, ∃ first more, q.words = first :: more ∧ (first, q.entry, q.addr) ∈ l ∧
        ∀ w ∈ q.words, ∃ a, (w, q.entry, a) ∈ l := by
  induction l with
  | nil => simp [gatherPieces]
  | cons x l ih =>
    obtain ⟨w, k, a⟩ := x
    rw [List.pairwise_cons] at h
    obtain ⟨i1, i2, i3⟩ := ih h.2
    have old : ∀ q ∈ gatherPieces l, ∃ first more, q.words = first :: more ∧ (first, q.entry, q.addr) ∈ (w, k, a) :: l ∧
        ∀ w' ∈ q.words, ∃ a', (w', q.entry, a') ∈ (w, k, a) :: l := by
      intro q hq
      obtain ⟨f, m, b1, b2, b3⟩ := i3 q hq
      exact ⟨f, m, b1, List.mem_cons_of_mem _ b2, fun w' hw => (b3 w' hw).imp fun _ => List.mem_cons_of_mem _⟩
    have ge : ∀ q ∈ gatherPieces l, k ≤ q.entry := by
      intro q hq
      obtain ⟨f, m, -, b2, -⟩ := i3 q hq
      exact h.1 _ b2
    unfold gatherPieces
    cases hg : gatherPieces l with
    | nil => simp [hg] at i1 ⊢; simp [← i1]
    | cons q qs =>
      rw [hg] at i1 i2 old ge
      simp only [List.map_cons, List.pairwise_cons] at i2
      dsimp only
      split
      · rename_i hk
        refine ⟨by simpa using i1, by simpa [← hk] using i2, ?_⟩
        intro q' hq'
        rcases List.mem_cons.mp hq' with rfl | hq'
        · obtain ⟨f, m, -, -, b3⟩ := old q (by simp)
          refine ⟨w, q.words, rfl, by simp, ?_⟩
          intro u hu
          rcases List.mem_cons.mp hu with rfl | hu
          · exact ⟨a, by simp⟩
          · obtain ⟨a', ha⟩ := b3 u hu; exact ⟨a', by subst hk; exact ha⟩
        · exact old q' (by simp [hq'])
      · rename_i hk
        have lt : ∀ r ∈ q :: qs, k < r.entry := by
          intro r hr
          have h0 : k < q.entry := lt_of_le_of_ne (ge q (by simp)) (Ne.symm hk)
          rcases List.mem_cons.mp hr with rfl | hr
          · exact h0
          · exact lt_trans h0 (i2.1 _ (List.mem_map_of_mem hr))
        refine ⟨by simpa using i1, ?_, ?_⟩
        · simp only [List.map_cons, List.pairwise_cons]
          refine ⟨?_, i2⟩
          intro b hb
          rw [← List.map_cons, List.mem_map] at hb
          obtain ⟨r, hr, rfl⟩ := hb
          exact lt r hr
        · intro q' hq'
          rcases List.mem_cons.mp hq' with rfl | hq'
          · refine ⟨w, [], rfl, by simp, ?_⟩
            intro u hu; simp at hu; subst hu; exact ⟨a, by simp⟩
          · exact old q' hq'

/-- The covered words of a line, as numbers. -/
theorem wordsOfLine_val (start len i : Nat) : (wordsOfLine start len i).map (·.val) = coveredWords start len i := by
  unfold wordsOfLine coveredWords
  rw [show List.range' 0 8 = (List.finRange 8).map (·.val) from by decide, List.filter_map]
  congr 1
  apply List.filter_congr
  intro w _
  simp only [covered, rangeAddress, wordAddress, Function.comp]
  exact Bool.decide_and _ _

/-- The pieces of a line are those of R130. -/
theorem piecesOf_are (es : List (Nat × Nat)) (start len i : Nat) (h : (es.map Prod.snd).sum = len) :
    PiecesAre es start len i (piecesOf es start len i) := by
  let place (w : Nat) : Option (Nat × Nat × Nat) := (hostPlace es (offsetOf start i w) 0).map fun q => (w, q.1, q.2)
  have hp : ∀ w ∈ coveredWords start len i, ∃ (j : Nat) (e : Nat × Nat),
      place w = some (w, j, e.1 + (offsetOf start i w - entryOffset es j)) ∧ es[j]? = some e ∧
        entryOffset es j ≤ offsetOf start i w ∧ offsetOf start i w < entryOffset es j + e.2 := by
    intro w hw
    have hc : covered start len i w = true := (List.mem_filter.mp hw).2
    simp only [covered, Bool.and_eq_true, decide_eq_true_eq] at hc
    obtain ⟨j, e, h1, h2⟩ := hostPlace_some (es := es) (o := offsetOf start i w) (k := 0) (by rw [h]; unfold offsetOf; omega)
    exact ⟨j, e, by simp [place, h1], h2⟩
  have hl : piecesOf es start len i = gatherPieces ((coveredWords start len i).filterMap place) := rfl
  have asc : (coveredWords start len i).Pairwise (· < ·) := by
    unfold coveredWords
    exact List.Pairwise.filter _ (by decide)
  have fst : ((coveredWords start len i).filterMap place).map Prod.fst = coveredWords start len i := by
    rw [List.map_filterMap]
    rw [List.filterMap_congr (g := some)]
    · simp
    · intro w hw
      obtain ⟨j, e, h1, -⟩ := hp w hw
      simp [h1]
  have mono : ((coveredWords start len i).filterMap place).Pairwise fun a b => a.2.1 ≤ b.2.1 := by
    rw [List.pairwise_filterMap]
    apply List.Pairwise.imp_of_mem _ asc
    intro w u hw hu hlt a ha b hb
    obtain ⟨j, e, h1, h2, h3, h4⟩ := hp w hw
    obtain ⟨k, f, k1, k2, k3, k4⟩ := hp u hu
    rw [h1] at ha; rw [k1] at hb
    cases ha; cases hb
    show j ≤ k
    by_contra hjk
    have := entryOffset_mono es (show k + 1 ≤ j by omega)
    rw [entryOffset_succ k2] at this
    have : offsetOf start i w ≤ offsetOf start i u := by unfold offsetOf rangeAddress; omega
    omega
  obtain ⟨g1, g2, g3⟩ := gatherPieces_spec _ mono
  rw [← hl] at g1 g2 g3
  refine ⟨?_, g2, ?_⟩
  · rw [g1, fst, wordsOfLine_val]
  · intro q hq
    obtain ⟨f, m, b1, b2, b3⟩ := g3 q hq
    have inv : ∀ {w k a}, (w, k, a) ∈ (coveredWords start len i).filterMap place →
        ∃ e : Nat × Nat, a = e.1 + (offsetOf start i w - entryOffset es k) ∧ es[k]? = some e ∧
          entryOffset es k ≤ offsetOf start i w ∧ offsetOf start i w < entryOffset es k + e.2 := by
      intro w k a hm
      rw [List.mem_filterMap] at hm
      obtain ⟨u, hu, he⟩ := hm
      obtain ⟨j, e, h1, h2⟩ := hp u hu
      rw [h1] at he; cases he
      exact ⟨e, rfl, h2⟩
    obtain ⟨e, e1, e2, e3⟩ := inv b2
    refine ⟨f, m, e, b1, e2, e1, ?_⟩
    intro w hw
    obtain ⟨a, ha⟩ := b3 w hw
    obtain ⟨e', -, e2', e3', e4'⟩ := inv ha
    rw [e2] at e2'; cases e2'
    exact ⟨e3', e4'⟩

/-! ## Slots and results -/

/-- No slot holds a transfer of context `c`. -/
theorem slotOf_none {h : HostPort} {c : CtxId}
    (H : ∀ (i : SlotId) (x : Transfer), h.slots[i] = some x → x.ctx ≠ c) : slotOf h c = none := by
  unfold slotOf
  rw [List.findSome?_eq_none_iff]
  intro i _
  split
  · rename_i t ht; rw [if_neg (H i t ht)]
  · rfl

/-- Slot `i` alone holds a transfer of context `c`. -/
theorem slotOf_some {h : HostPort} {c : CtxId} {i : SlotId} {x : Transfer} (hx : h.slots[i] = some x) (hc : x.ctx = c)
    (H : ∀ (j : SlotId) (y : Transfer), j ≠ i → h.slots[j] = some y → y.ctx ≠ c) : slotOf h c = some (i, x) := by
  have hj : ∀ j : SlotId, j ≠ i → (match h.slots[j] with
    | some t => if t.ctx = c then some (j, t) else none
    | none => none) = none := by
    intro j hj
    split
    · rename_i t ht; rw [if_neg (H j t hj ht)]
    · rfl
  have hi : (match h.slots[i] with
    | some t => if t.ctx = c then some (i, t) else none
    | none => none) = some (i, x) := by rw [hx]; simp [hc]
  have e : slotOf h c = ([0, 1, 2, 3] : List SlotId).findSome? fun j => if j = i then some (i, x) else none := by
    unfold slotOf
    congr 1
    funext j
    by_cases hji : j = i
    · subst hji; rw [if_pos rfl]; exact hi
    · rw [if_neg hji]; exact hj j hji
  rw [e]
  clear e hi hj H hx
  revert i; intro i
  match i with
  | 0 => rfl
  | 1 => rfl
  | 2 => rfl
  | 3 => rfl

theorem countWord_ctx (o : Nat) (w : WordOutcome) (t : Transfer) : (countWord o w t).ctx = t.ctx := by
  cases w <;> rfl

theorem countLine_ctx (a n i : Nat) (r : LineResult) (t : Transfer) : (countLine a n i r t).ctx = t.ctx := by
  unfold countLine
  generalize coveredWords a n i = l
  induction l generalizing t with
  | nil => rfl
  | cons w ws ih => simp only [List.foldl_cons]; rw [ih, countWord_ctx]

theorem examineWords_ctx (a i : Nat) (pat m : Word) (r : LineResult) (l : List Nat) (t : Transfer) :
    (examineWords a i pat m r l t).ctx = t.ctx := by
  induction l generalizing t with
  | nil => rfl
  | cons w ws ih =>
    simp only [examineWords]
    split
    · simp [countWord_ctx]
    · split
      · simp [countWord_ctx]
      · rw [ih, countWord_ctx]

theorem examineHeld_ctx (a n : Nat) (pat m : Word) (k : Nat) (t : Transfer) :
    (examineHeld a n pat m k t).ctx = t.ctx := by
  induction k generalizing t with
  | zero => rfl
  | succ k ih =>
    simp only [examineHeld]
    split
    · rfl
    · split
      · rw [examineWords_ctx]
      · split
        · exact examineWords_ctx ..
        · rw [ih]; exact examineWords_ctx ..

/-- Taking a result keeps the context of a transfer. -/
theorem takeResult_ctx (i : Nat) (r : Option LineResult) (x : Transfer) : (x.takeResult i r).1.ctx = x.ctx := by
  unfold Transfer.takeResult
  cases hc : x.cmd <;> cases r <;> simp [countLine_ctx, scanResult]
  split
  · rfl
  · split <;> simp [examineHeld_ctx]

end Sys2Proof.Machine
end

