-- ==== Sys2Proof/Laws/Scrub.lean ====
section
/-! SUPPORT. What the Scrub Unit issues: the walks of patrol and sweep (R77, R79, R80). -/

namespace Sys2Proof.Machine

/-- The role of a segment that counts as retired. -/
theorem isRetired_iff (g : SegMap) (q : PhysSeg) : isRetired g q = true ↔ (g.phys[q]).role = .retired := by
  simp [isRetired]

/-- The first segment in service of a run of numbers. -/
theorem find_served (g : SegMap) (n a : Nat) (h : ∃ m, m < n ∧ isRetired g (Fin.ofNat 520 (a + m)) = false) :
    ∃ m, m < n ∧
      ((List.range' a n).map (Fin.ofNat 520)).find? (fun q => !isRetired g q) = some (Fin.ofNat 520 (a + m)) ∧
      isRetired g (Fin.ofNat 520 (a + m)) = false ∧ ∀ u, u < m → isRetired g (Fin.ofNat 520 (a + u)) = true := by
  induction n generalizing a with
  | zero => obtain ⟨m, hm, -⟩ := h; omega
  | succ n ih =>
    obtain ⟨m, hm, h1⟩ := h
    rw [List.range'_succ, List.map_cons, List.find?_cons]
    cases hz : isRetired g (Fin.ofNat 520 a) with
    | false => exact ⟨0, by omega, by simp, by simpa using hz, by intro u hu; omega⟩
    | true =>
      have hm0 : m ≠ 0 := by rintro rfl; rw [Nat.add_zero, hz] at h1; cases h1
      obtain ⟨m', b1, b2, b3, b4⟩ := ih (a + 1) ⟨m - 1, by omega, by rwa [show a + 1 + (m - 1) = a + m by omega]⟩
      refine ⟨m' + 1, by omega, ?_, ?_, ?_⟩
      · simp only [Bool.not_true]; rw [b2]; congr 2; omega
      · rwa [show a + (m' + 1) = a + 1 + m' by omega]
      · intro u hu
        cases u with
        | zero => simpa using hz
        | succ u => rw [show a + (u + 1) = a + 1 + u by omega]; exact b4 u (by omega)

/-- Where the patrol issues at a position (R79). -/
theorem patrolLine_at (g : SegMap) (l : PLine) (h : ∃ q : PhysSeg, (g.phys[q]).role ≠ .retired) :
    PatrolLineAt g l (patrolLine g l) := by
  unfold patrolLine
  by_cases hr : isRetired g l.seg = true
  · rw [if_pos hr]
    rw [isRetired_iff] at hr
    refine ⟨fun h0 => absurd hr h0, fun _ => ⟨rfl, ?_⟩⟩
    obtain ⟨q, hq⟩ := h
    unfold nextServed
    obtain ⟨m, b1, b2, b3, b4⟩ := find_served g 520 (l.seg.val + 1)
      ⟨(q.val + 520 - (l.seg.val + 1)) % 520, Nat.mod_lt _ (by omega), by
      have : Fin.ofNat 520 (l.seg.val + 1 + (q.val + 520 - (l.seg.val + 1)) % 520) = q := by
        apply Fin.ext; simp [Fin.ofNat]; omega
      rw [this]; simpa [isRetired] using hq⟩
    rw [b2]
    refine ⟨?_, m + 1, by omega, ?_, ?_⟩
    · intro hc
      have := (isRetired_iff _ _).2 hc
      simp only [Option.getD_some] at this
      rw [b3] at this; cases this
    · simp only [Option.getD_some, Fin.ofNat]; congr 1; omega
    · intro u w hu hu2 hw
      rw [← isRetired_iff]
      have := b4 (u - 1) (by omega)
      have e : (Fin.ofNat 520 (l.seg.val + 1 + (u - 1)) : PhysSeg) = w := by
        apply Fin.ext; simp only [Fin.ofNat]; rw [hw]; congr 1; omega
      rwa [e] at this
  · rw [if_neg hr]
    exact ⟨fun _ => rfl, fun h0 => absurd ((isRetired_iff _ _).2 h0) hr⟩

/-- `n` tests for issue in the patrol (R79, R80). -/
theorem patrol_iter (g : SegMap) (h : ∃ q : PhysSeg, (g.phys[q]).role ≠ .retired) (n : Nat) (q : List Ref) (u : ScrubUnit)
    (l : PLine) (h1 : u.pass = .patrol) (h2 : u.pos = .at l) :
    ∃ new last, (scrubIssueOne g)^[n] (q, u) = (q ++ new, { u with pos := .at last, credit := u.credit - 1000 * new.length }) ∧
      PatrolWalk g l new last ∧ new.length = min n (min (4 - q.length) (u.credit / 1000)) := by
  induction n generalizing q u l with
  | zero => exact ⟨[], l, by simp [← h2], rfl, by simp⟩
  | succ n ih =>
    rw [Function.iterate_succ_apply]
    by_cases hq : q.length < 4 ∧ 1000 ≤ u.credit
    · have e : scrubIssueOne g (q, u) =
          (q ++ [scrubRef .patrol (patrolLine g l)], { u with pos := afterPatrolLine (patrolLine g l), credit := u.credit - 1000 }) := by
        simp [scrubIssueOne, hq.1, hq.2, h1, h2]
      rw [e]
      obtain ⟨k, hk⟩ : ∃ k, patrolLine g l = k := ⟨_, rfl⟩
      have hp := patrolLine_at g l h
      rw [hk] at hp ⊢
      let l' : PLine := if k.off.val = 1048575 then ⟨k.seg + 1, 0⟩ else ⟨k.seg, k.off + 1⟩
      have ha : afterPatrolLine k = .at l' := by unfold afterPatrolLine; simp only [l']; split <;> rfl
      obtain ⟨new, last, c1, c2, c3⟩ :=
        ih (q ++ [scrubRef .patrol k]) { u with pos := afterPatrolLine k, credit := u.credit - 1000 } l' h1 ha
      refine ⟨scrubRef .patrol k :: new, last, ?_, ⟨k, hp, rfl, c2⟩, ?_⟩
      · rw [c1]; simp [Nat.mul_add, Nat.sub_sub, Nat.add_comm]
      · simp at c3 ⊢; omega
    · have e : scrubIssueOne g (q, u) = (q, u) := by
        unfold scrubIssueOne; simp only [h1, h2]
        split
        · rw [if_neg (by intro h3; exact hq ⟨by assumption, h3⟩)]
        · rfl
      rw [e]
      obtain ⟨new, last, c1, c2, c3⟩ := ih q u l h1 h2
      refine ⟨new, last, c1, c2, ?_⟩
      rw [c3]; by_cases h3 : q.length < 4
      · have : u.credit / 1000 = 0 := by apply Nat.div_eq_of_lt; by_contra h4; exact hq ⟨h3, by omega⟩
        omega
      · omega

/-- What the Scrub Unit issues in the patrol: as many references as queue S has room for and the credit pays, line after line
from the scrub position (R79, R80). -/
theorem scrubIssue_patrol (s : State) (l : PLine) (h : ∃ q : PhysSeg, (s.seg.phys[q]).role ≠ .retired)
    (h1 : s.scrub.pass = .patrol) (h2 : s.scrub.pos = .at l) :
    ∃ new last,
      scrubIssue s =
        { s with
          sched := { s.sched with s := s.sched.s ++ new }
          scrub := { s.scrub with pos := .at last, credit := s.scrub.credit - 1000 * new.length } } ∧
        PatrolWalk s.seg l new last ∧ new.length = min (4 - s.sched.s.length) (s.scrub.credit / 1000) := by
  obtain ⟨new, last, c1, c2, c3⟩ := patrol_iter s.seg h 4 s.sched.s s.scrub l h1 h2
  refine ⟨new, last, ?_, c2, by omega⟩
  unfold scrubIssue
  show { s with
      sched := { s.sched with s := ((scrubIssueOne s.seg)^[4] (s.sched.s, s.scrub)).1 }
      scrub := ((scrubIssueOne s.seg)^[4] (s.sched.s, s.scrub)).2 } = _
  rw [c1]

/-- The scrub position after a line of the sweep (R77). -/
theorem afterSweepLine_is (g : SegMap) (l : PLine) : SweepLineAfter g l (afterSweepLine g l) := by
  have val : ∀ {m : Nat}, m < 519 - l.seg.val → (Fin.ofNat 520 (l.seg.val + 1 + m) : PhysSeg).val = l.seg.val + 1 + m :=
    fun hm => Nat.mod_eq_of_lt (by omega)
  have at_ : ∀ {q : PhysSeg}, l.seg < q → (Fin.ofNat 520 (l.seg.val + 1 + (q.val - (l.seg.val + 1))) : PhysSeg) = q := by
    intro q hq
    have : l.seg.val < q.val := hq
    apply Fin.ext; simp only [Fin.ofNat]; omega
  refine ⟨fun h => by unfold afterSweepLine; rw [if_neg h], fun h => ⟨fun q hq hr hl => ?_, fun hl => ?_⟩⟩
  · have hq' : l.seg.val < q.val := hq
    obtain ⟨m, b1, b2, b3, b4⟩ := find_served g (519 - l.seg.val) (l.seg.val + 1)
      ⟨q.val - (l.seg.val + 1), by omega, by rw [at_ hq]; simpa [isRetired] using hr⟩
    have e : (Fin.ofNat 520 (l.seg.val + 1 + m) : PhysSeg) = q := by
      rcases Nat.lt_trichotomy m (q.val - (l.seg.val + 1)) with hm | hm | hm
      · have := hl (Fin.ofNat 520 (l.seg.val + 1 + m)) (Fin.lt_def.2 (by rw [val b1]; omega))
          (Fin.lt_def.2 (by rw [val b1]; omega))
        rw [← isRetired_iff, b3] at this; cases this
      · rw [hm]; exact at_ hq
      · have := b4 _ hm
        rw [at_ hq, isRetired_iff] at this
        exact absurd this hr
    unfold afterSweepLine nextAbove
    rw [if_pos h, b2, e]
  · unfold afterSweepLine nextAbove
    rw [if_pos h]
    have : ((List.range' (l.seg.val + 1) (519 - l.seg.val)).map (Fin.ofNat 520)).find? (fun q => !isRetired g q) = none := by
      rw [List.find?_eq_none]
      intro q hq
      rw [List.mem_map] at hq
      obtain ⟨k, hk, rfl⟩ := hq
      rw [List.mem_range'_1] at hk
      have : (Fin.ofNat 520 k : PhysSeg).val = k := Nat.mod_eq_of_lt (by omega)
      rw [(isRetired_iff g _).2 (hl _ (Fin.lt_def.2 (by omega)))]
      simp
    rw [this]

/-- `n` tests for issue in the sweep (R77). -/
theorem sweep_iter (g : SegMap) (n : Nat) (q : List Ref) (u : ScrubUnit) (h1 : u.pass = .sweep) :
    ∃ new pos,
      (scrubIssueOne g)^[n] (q, u) = (q ++ new, { u with pos := pos, outstanding := u.outstanding + new.length }) ∧
        SweepWalk g u.pos new pos ∧ new.length ≤ min n (4 - q.length) ∧ (new.length = min n (4 - q.length) ∨ pos = .ended) := by
  induction n generalizing q u with
  | zero => exact ⟨[], u.pos, by simp, by cases u.pos <;> rfl, by simp, by simp⟩
  | succ n ih =>
    rw [Function.iterate_succ_apply]
    by_cases hq : q.length < 4
    · rcases hx : u.pos with l | _
      rotate_left
      · have e : scrubIssueOne g (q, u) = (q, u) := by unfold scrubIssueOne; simp [hq, h1, hx]
        rw [e]
        obtain ⟨new, pos, c1, c2, c3, c4⟩ := ih q u h1
        cases new with
        | nil => rw [hx] at c2; exact ⟨[], pos, c1, c2, by simp, .inr c2⟩
        | cons r rs => rw [hx] at c2; exact c2.elim
      · have e : scrubIssueOne g (q, u) =
            (q ++ [scrubRef .sweep l], { u with pos := afterSweepLine g l, outstanding := u.outstanding + 1 }) := by
          unfold scrubIssueOne; simp [hq, h1, hx]
        rw [e]
        obtain ⟨new, pos, c1, c2, c3, c4⟩ :=
          ih (q ++ [scrubRef .sweep l]) { u with pos := afterSweepLine g l, outstanding := u.outstanding + 1 } h1
        refine ⟨scrubRef .sweep l :: new, pos, ?_, ?_, ?_, ?_⟩
        · rw [c1, Nat.add_right_comm]; simp [Nat.add_assoc]
        · exact ⟨rfl, _, afterSweepLine_is g l, c2⟩
        · simp at c3 ⊢; omega
        · rcases c4 with c4 | c4
          · left; simp at c4 ⊢; omega
          · exact .inr c4
    · have e : scrubIssueOne g (q, u) = (q, u) := by unfold scrubIssueOne; simp [hq]
      rw [e]
      obtain ⟨new, pos, c1, c2, c3, c4⟩ := ih q u h1
      exact ⟨new, pos, c1, c2, by omega, by omega⟩

/-- What the Scrub Unit issues in the sweep: line after line from the scrub position, until queue S is full or the position is
ENDED (R77). -/
theorem scrubIssue_sweep (s : State) (h : s.scrub.pass = .sweep) :
    ∃ new pos,
      scrubIssue s =
        { s with
          sched := { s.sched with s := s.sched.s ++ new }
          scrub := { s.scrub with pos := pos, outstanding := s.scrub.outstanding + new.length } } ∧
        SweepWalk s.seg s.scrub.pos new pos ∧ new.length ≤ 4 - s.sched.s.length ∧
        (new.length = 4 - s.sched.s.length ∨ pos = .ended) := by
  obtain ⟨new, pos, c1, c2, c3, c4⟩ := sweep_iter s.seg 4 s.sched.s s.scrub h
  refine ⟨new, pos, ?_, c2, by omega, c4.imp_left fun h => by omega⟩
  unfold scrubIssue
  show { s with
      sched := { s.sched with s := ((scrubIssueOne s.seg)^[4] (s.sched.s, s.scrub)).1 }
      scrub := ((scrubIssueOne s.seg)^[4] (s.sched.s, s.scrub)).2 } = _
  rw [c1]

end Sys2Proof.Machine
end

