-- ==== Sys2Proof/Tests/Slice0.lean ====
section
/-! SUPPORT. Tests of the checks, of the register window and of single commands, and a state that meets the hypotheses of every statement. -/

namespace Sys2Proof.Tests

open Sys2Proof Sys2Proof.Machine

/- The kernel checks of this file one after another: at once they ask for more threads than check.sh's limit leaves. -/
set_option Elab.async false

/-! ## Helpers -/

/-- The next state of a command. -/
def after (i : Instr) (s : State) : Option State :=
  match exec i s with
  | .next t => some t
  | _ => none

/-- A value of the next state of a command. -/
def see {α : Type} (i : Instr) (s : State) (f : State → α) : Option α := (after i s).map f

/-- The setup values of the worked example of section 9.5, with both rings of 16 entries. -/
def values : SetupValues := ⟨0x1000, 16, 0x2000, 16, 0x3000, 0x55, true, 4, 50, 0⟩

/-- A port in RUNNING. -/
def run : HostPort := { HostPort.powerOn with state := .running, values := some values }

/-- The state after reset with a port 0 and views of the Lock Unit. -/
def withPort (h : HostPort) : State :=
  { State.reset with port0 := h, locks := { State.reset.locks with view0 := .running, view1 := .running } }

/-- A record of opcode 1 and tag ABh, its flags, guard lock and guard owner as given (section 11.2). -/
def recordOf (flags lock owner : Nat) : BitVec 512 :=
  BitVec.ofNat 512 (0x01 + flags * 2 ^ 8 + 0xAB * 2 ^ 16 + lock * 2 ^ 32 + owner * 2 ^ 48)

/-- A context of a command. -/
def ctx (st : CtxState) (cmd : Command) : Context := ⟨st, 0, recordOf 0 0 0, cmd⟩

/-- A port in RUNNING with context 0 as given. -/
def runCtx (x : Context) : HostPort := { run with contexts := run.contexts.set 0 x }

/-- A reference of port 0. -/
def ref (line : Nat) (op : LineOp) (granted : Option PLine) : Ref := ⟨.transfer 0 0, .logical (logicalLine line), op, granted⟩

/-! ## WellFormed refuses -/

theorem test_wf_refuses_a_write_that_is_a_command :
    (Instr.registerWriteDiscarded .p0 ⟨0x08, 4, 1⟩).wf = false := by decide

theorem test_wf_refuses_a_width_no_write_has : (Instr.registerWriteDiscarded .p0 ⟨0x40, 3, 0⟩).wf = false := by decide

theorem test_wf_takes_a_read_only_offset : (Instr.registerWriteDiscarded .p0 ⟨0x14, 4, 0⟩).wf = true := by decide

theorem test_wf_refuses_an_empty_list : (Instr.scatterListReadDone .p0 0 (some [])).wf = false := by decide

theorem test_wf_refuses_a_list_of_65 :
    (Instr.scatterListReadDone .p0 0 (some (List.replicate 65 0))).wf = false := by decide

theorem test_wf_refuses_empty_host_data : (Instr.hostDataReadDone .p0 0 (some [])).wf = false := by decide

theorem test_wf_refuses_host_data_past_a_line :
    (Instr.hostDataReadDone .p0 0 (some (List.replicate 9 0))).wf = false := by decide

/-! ## The register window, from the tables of R174 and R175 -/

theorem test_window_setup : decodeWindowWrite .p0 ⟨0x00, 8, 0x1122334455667788⟩ =
    .setupWrite .p0 (.whole 0x1122334455667788) := by decide
theorem test_window_setup_low : decodeWindowWrite .p1 ⟨0x00, 4, 0x55667788⟩ = .setupWrite .p1 (.low 0x55667788) := by decide
theorem test_window_setup_high : decodeWindowWrite .p0 ⟨0x04, 4, 0x11223344⟩ = .setupWrite .p0 (.high 0x11223344) := by decide
theorem test_window_enable : decodeWindowWrite .p0 ⟨0x08, 4, 1⟩ = .enable .p0 := by decide
theorem test_window_disable : decodeWindowWrite .p0 ⟨0x08, 4, 2⟩ = .disable .p0 := by decide
theorem test_window_reset : decodeWindowWrite .p0 ⟨0x08, 4, 4⟩ = .reset .p0 := by decide
theorem test_window_two_actions : decodeWindowWrite .p0 ⟨0x08, 4, 3⟩ = .registerWriteDiscarded .p0 ⟨0x08, 4, 3⟩ := by decide
theorem test_window_submit : decodeWindowWrite .p0 ⟨0x0C, 4, 7⟩ = .submit .p0 7 := by decide
theorem test_window_consume : decodeWindowWrite .p1 ⟨0x10, 4, 9⟩ = .consume .p1 9 := by decide
theorem test_window_wide_submit : decodeWindowWrite .p0 ⟨0x0C, 8, 7⟩ = .registerWriteDiscarded .p0 ⟨0x0C, 8, 7⟩ := by decide
theorem test_no_row_has_bits : decodeTableWord 8 0 = none ∧ State.reset.withFetchWord 8 0 = State.reset := ⟨rfl, rfl⟩

/-! ## Witnesses: the queue, the window, power-on, the store -/

theorem witness_stepTakesTheFrontCommand :
    ({ State.reset with pending := [.pacingTick, .grant 0] }).pending = [.pacingTick, .grant 0] ∧ State.reset.pending = [] ∧
      (∀ p, (State.reset.port p).notices = []) ∧
      (let s := withPort { run with notices := [.nonEmpty, .empty] }
       s.pending = [] ∧ (s.port .p0).notices = .nonEmpty :: [.empty] ∧ (s.port (PortId.p0).other).notices = []) ∧
      (let s := { withPort { run with notices := [.empty] } with port1 := { run with notices := [.nonEmpty] } }
       s.pending = [] ∧ (s.port .p0).notices ≠ [] ∧ (s.port .p1).notices ≠ []) :=
  ⟨rfl, rfl, fun p => by cases p <;> rfl, ⟨rfl, rfl, rfl⟩, ⟨rfl, by decide, by decide⟩⟩

/-- While the block idles a port in RUNNING takes the notice that waits at it, with its ALERT message (R157, R172). -/
theorem test_idle_step_takes_a_notice :
    (match step (withPort { run with notices := [.nonEmpty, .empty] }) with
      | .next t => some (t.port0.alertCause, t.port0.notices, t.port0.sent)
      | _ => none) = some (true, [.empty], [.message 0x3000 0x55]) := by decide +kernel

theorem witness_windowWriteSpellsItsCommand :
    (⟨0x00, 8, 0⟩ : WindowWrite).discarded = false ∧ (⟨0x00, 4, 0⟩ : WindowWrite).discarded = false ∧
      (⟨0x04, 4, 0⟩ : WindowWrite).discarded = false ∧ (⟨0x08, 4, 1⟩ : WindowWrite).discarded = false ∧
      (⟨0x08, 4, 10⟩ : WindowWrite).discarded = false ∧ (⟨0x08, 4, 4⟩ : WindowWrite).discarded = false ∧
      (⟨0x0C, 4, 0⟩ : WindowWrite).discarded = false ∧ (⟨0x10, 4, 0⟩ : WindowWrite).discarded = false := by decide

theorem witness_eventsAndStatusReadAsEncoded :
    ({ run with sqHead := 4095 }).sqHead ≤ 4095 ∧ HostPort.powerOn.state ≠ .running ∧ run.state = .running ∧
      StoreState.initializing ≠ .ready ∧ ({ run with hold := .paused }).hold = .paused ∧ run.hold = .clear ∧
      run.values = some values ∧ run.inUse + ({ run with unconsumed := 15 }).unconsumed < values.cqEntries ∧
      ¬ run.inUse + ({ run with unconsumed := 16 }).unconsumed < values.cqEntries ∧
      ¬ ((2 : Nat) = 4 ∧ (0x14#12) ∈ [0x00#12, 0x04#12, 0x14#12, 0x18#12]) ∧
      ¬ ((4 : Nat) = 4 ∧ (0x1C#12) ∈ [0x00#12, 0x04#12, 0x14#12, 0x18#12]) := by decide +kernel

/-- The reads of a window (R174): SETUP whole and in halves, nothing at CONTROL, and no narrow read. -/
theorem test_window_reads :
    let h := { run with setupReg := 0x1122334455667788#64 }
    let r := readWindow .ready h
    (r 0x00 8, r 0x00 4, r 0x04 4, r 0x08 4, r 0x14 8, r 0x18 2) =
      (0x1122334455667788#64, 0x55667788#64, 0x11223344#64, 0, 0, 0) := by decide +kernel

/-- STATUS of a RUNNING port that holds for the store, with SQ head 5 (R125, R176). -/
theorem test_status_word : statusWord .initializing { run with sqHead := 5 } = 0x10050042#32 := by decide +kernel

/-- EVENTS with FAULT and DONE pending: the highest is FAULT (R158, R176). -/
theorem test_events_word : eventsWord { run with faultCause := true, doneCause := true } = 0x15#32 := by decide +kernel

/-- A Retirement Memory write in progress, slot 0 current. -/
def writing : State :=
  { State.reset with ret := { State.reset.ret with current := some .slot0, writing := some ⟨2, [0], true⟩ } }

theorem witness_powerOnResetsEveryBlock :
    State.reset.ret.writing = none ∧ writing.ret.writing = some ⟨2, [0], true⟩ ∧ writing.ret.current = some .slot0 := by
  decide

theorem test_power_on_keeps_the_current_slot :
    see (.powerOnReset .invalid) writing (fun t => (t.ret.slot0, t.ret.slot1)) =
      some (.blank, .image ⟨2, [0], false⟩) := by decide +kernel

/-- The state in which the power-on read finds two slots. -/
def slots (a b : SlotImage) : State := { State.reset with ret := { State.reset.ret with slot0 := a, slot1 := b } }

def older : SlotImage := .image ⟨1, [3], true⟩
def newer : SlotImage := .image ⟨2, [3, 0], true⟩
def broken : SlotImage := .image ⟨2, [3, 0], false⟩

theorem witness_retirementReadSetsTheListAndTheSlot :
    (slots older newer).ret.reading = true ∧ (slots older newer).mig.state = .idle ∧
      older.validImage = some ⟨1, [3], true⟩ ∧ newer.validImage = some ⟨2, [3, 0], true⟩ ∧ broken.validImage = none ∧
      SlotImage.validImage .blank = none ∧ (slots older newer).incidents.records = [] ∧
      ((slots older newer).port .p0).state = .off := by decide +kernel

/-- The newer image is taken (R24), a broken one is passed over, and two blank slots give no NV_FAULT. -/
theorem test_read_takes_the_newer_image :
    see (.retirementReadDone true) (slots older newer) (fun t => (t.ret.current, t.seg.retired)) =
        some (some .slot1, [3, 0]) ∧
      see (.retirementReadDone true) (slots older broken) (fun t => (t.ret.current, t.seg.retired)) =
        some (some .slot0, [3]) ∧
      see (.retirementReadDone true) (slots .blank .blank) (fun t => (t.incidents.records.length, t.port0.alertCause)) =
        some (0, false) ∧
      see (.retirementReadDone false) (slots older newer) (fun t => (t.incidents.records.length, t.port0.alertCause)) =
        some (1, true) := by decide +kernel

/-- The generation counts up to FFFFFFFEh, from 1 when no slot is current (R23, R25). -/
theorem test_next_generation :
    ({ State.reset.ret with current := some .slot0, generation := 0xFFFFFFFD }).nextGeneration = 0xFFFFFFFE ∧
      ({ State.reset.ret with generation := 7 }).nextGeneration = 1 := by decide +kernel

theorem witness_mapBuildPairsSegmentsInOrder :
    ([] : List PhysSeg).Nodup ∧ ([0, 519, 5, 6, 7, 8, 9, 10] : List PhysSeg).Nodup ∧
      ([0, 519, 5, 6, 7, 8, 9, 10] : List PhysSeg).length ≤ 8 := by decide

/-- With segments 0 and 519 retired, logical 0 is on physical 1, logical 511 on 512, and 513 to 518 are the spares (R27). -/
theorem test_map_build :
    ((mapBuild [0, 519]).map[(0 : LogSeg)]).phys = 1 ∧ ((mapBuild [0, 519]).map[(511 : LogSeg)]).phys = 512 ∧
      (mapBuild [0, 519]).spares = [513, 514, 515, 516, 517, 518] := by decide +kernel

/-- A store of one poisoned word. -/
def poisonedStore : State := { State.reset with store := [(0, poisonWord 7)] }

theorem test_bit_in_error_is_corrected_by_a_read :
    see (.bitInError ⟨0, 0⟩ 1 64) { State.reset with store := [(1, validWord 9)] }
      (fun t => (decodeStored (storedAt t.epoch t.store 1))) = some ⟨.corrected, 9⟩ := by decide +kernel

theorem test_check_bit_in_error_is_corrected :
    decodeStored (flipBit (validWord 7) 71) = ⟨.corrected, 7⟩ ∧ decodeStored (validWord 7) = ⟨.clean, 7⟩ := by
  decide +kernel

theorem witness_lineOperationsReadAndWriteAsLaidDown : (⟨0, 0⟩ : PLine) ≠ ⟨519, 1048575⟩ ∧ (⟨0, 0⟩ : PLine) = ⟨0, 0⟩ := by
  decide

/-- WRITE_LINE with word 1 in its word mask and word 2 in mask and poison mask (R11). -/
theorem test_write_line_keeps_the_other_words :
    let m := (performOp 0 poisonedStore.store
      (.writeLine ⟨0x06#8, Vector.replicate 8 9#64, 0x04#8⟩) ⟨0, 0⟩).1
    m = [(0, poisonWord 7), (1, validWord 9), (2, poisonWord 9)] := by decide +kernel

/-! ## Witnesses: grants and operations -/

/-- Chunk 0 of logical segment 0 is being copied from physical 0 to 512, with the lock as given. -/
def migrating (st : MigState) (lock : LockStatus) (watermark : Nat) : State :=
  { State.reset with
    seg :=
      { mapBuild [] with
        map := (mapBuild []).map.set 0 ⟨0, .migrating, false⟩
        phys := (mapBuild []).phys.set 512 ⟨.reserved, some 0, 0⟩
        spares := (mapBuild []).spares.tail }
    mig := ⟨st, some ⟨0, 0, 512⟩, watermark, lock, ⟨false, false, false⟩, 0, .read, none⟩
    ret := { State.reset.ret with reading := false }
    scrub := { State.reset.scrub with store := .ready, pass := .patrol } }

theorem build_state (l : LogSeg) : ((mapBuild []).map[l]).state = .mapped := by
  simp [mapBuild, tabulate]

theorem build_role (p : PhysSeg) : ((mapBuild []).phys[p]).role ≠ .reserved := by
  simp [mapBuild, tabulate, buildPhys]
  split <;> simp

theorem migrating_agrees : MigrationAgrees (migrating .copying .held 1).seg (migrating .copying .held 1).mig := by
  refine ⟨fun l => ?_, fun p => ?_, fun j _ hj => ?_⟩
  · by_cases h : l = 0
    · subst h; decide +kernel
    · have h' : (0 : Nat) ≠ l.val := fun e => h (Fin.ext e.symm)
      have := build_state l
      simp [migrating, Migration.inProgress, Ne.symm h, h'] at this ⊢
      simp [this]
  · by_cases h : p = 512
    · subst h; decide +kernel
    · have h' : (512 : Nat) ≠ p.val := fun e => h (Fin.ext e.symm)
      have := build_role p
      simp [migrating, Migration.inProgress, Ne.symm h, h'] at this ⊢
      simp [this]
  · simp [migrating] at hj
    subst hj
    decide +kernel

theorem witness_logicalLinesResolveByMapAndWatermark :
    MigrationAgrees (migrating .copying .held 1).seg (migrating .copying .held 1).mig ∧
      ((migrating .copying .held 1).seg.map[(0 : LogSeg)]).state = .migrating ∧
      ((migrating .copying .held 1).seg.map[(511 : LogSeg)]).state ≠ .migrating :=
  ⟨migrating_agrees, by decide +kernel, by decide +kernel⟩

/-! ## Witness of the invariants -/

theorem build_map (l : LogSeg) : (mapBuild []).map[l] = ⟨⟨l.val, by omega⟩, .mapped, false⟩ := by
  have : (nonRetired [])[l.val]? = some ⟨l.val, by omega⟩ := by
    have h : nonRetired [] = (List.range' 0 520).map (Fin.ofNat 520) := by simp [nonRetired]
    rw [h, List.getElem?_map, List.getElem?_range' (by omega)]
    simp [Fin.ofNat, Fin.ext_iff]
    omega
  simp [mapBuild, tabulate, this]

theorem build_phys (p : PhysSeg) :
    (mapBuild []).phys[p] = if h : p.val < 512 then ⟨.mapped, some ⟨p.val, h⟩, 0⟩ else ⟨.spare, none, 0⟩ := by
  have hp : p.val % 520 = p.val := Nat.mod_eq_of_lt p.isLt
  by_cases h : p.val < 512 <;> simp [mapBuild, tabulate, buildPhys, buildRank, h, hp]
  exact Fin.ext (Nat.mod_eq_of_lt h)

theorem build_spares : (mapBuild []).spares = [512, 513, 514, 515, 516, 517, 518, 519] := by decide +kernel

theorem build_segmentsOk (m : Migration) (h : m.inProgress = false) :
    RolesAgree (mapBuild []) ∧ ListsAgree (mapBuild []) ∧ QueueAgrees (mapBuild []) ∧ MigrationAgrees (mapBuild []) m ∧
      AgainOk (mapBuild []) := by
  refine ⟨⟨fun p l => ?_, fun p => ?_⟩, ⟨?_, fun p => ?_, ?_, fun p => ?_⟩, ⟨?_, fun l => ?_, ?_⟩,
    ⟨fun l => ?_, fun p => ?_, ?_⟩, fun l => ?_⟩
  · rw [build_phys, build_map]
    by_cases hp : p.val < 512 <;> simp [hp, Fin.ext_iff] <;> omega
  · rw [build_phys]
    by_cases hp : p.val < 512 <;> simp [hp]
  · rw [build_spares]; decide
  · rw [build_spares, build_phys]
    by_cases hp : p.val < 512 <;> simp [hp, Fin.ext_iff] <;> omega
  · exact List.nodup_nil
  · rw [build_phys]
    by_cases hp : p.val < 512 <;> simp [hp, mapBuild]
  · exact List.nodup_nil
  · rw [build_map]; simp [mapBuild]
  · exact Nat.zero_le _
  · rw [build_map]; simp [h]
  · rw [build_phys]
    by_cases hp : p.val < 512 <;> simp [hp, h]
  · intro j hj; simp [h] at hj
  · rw [build_map]; simp

/-- A port after power-on has room for its completions. -/
theorem powerOn_roomOk (p : PortId) : CompletionRoomOk p { State.reset with pending := [.pacingTick] } := by
  have owned : owners p { State.reset with pending := [.pacingTick] } = [] := by cases p <;> decide
  refine ⟨⟨?_, ?_, ?_⟩, ⟨?_, ?_, ?_, ?_⟩, ⟨?_, ?_⟩, ?_⟩
  · intro v h; cases p <;> cases h
  · intro _ c; cases p <;> simp [State.reset, State.port, HostPort.powerOn, Context.free]
  · intro _; cases p <;> rfl
  · intro h; cases p <;> cases h
  · intro v h; cases p <;> cases h
  · intro _; cases p <;> rfl
  · intro h; cases p <;> cases h
  · intro r h; cases p <;> cases h
  · intro _; cases p <;> rfl
  · rw [if_neg (by cases p <;> decide)]
    exact ⟨by rw [owned]; exact List.nodup_nil, fun c h => by rw [owned] at h; cases h⟩

/-- A port in RUNNING whose record fetch ends with 15 contexts in use, one below the pause mark and the room of its ring. -/
def brimming : State :=
  { withPort
      { run with
        contexts := tabulate 64 fun i => if i < 15 then ctx .relocateWait (.relocate 0) else Context.free
        fetch := some 0x1000 } with
    pending := [.recordFetchDone .p0 (some (BitVec.ofNat 512 0))] }

/-- That port has room and a FREE context for its record, whose taking brings it to the pause mark. -/
theorem witness_roomAtThePauseMark :
    (∀ p, CompletionRoomOk p brimming) ∧
      ∃ t, step brimming = .next t ∧ (t.port .p0).inUse = 16 ∧ (t.port .p0).hold = .paused := by
  refine ⟨fun p => ?_, _, rfl, by decide +kernel, by decide +kernel⟩
  cases p
  · refine ⟨⟨fun v h => ?_, by decide +kernel, by decide +kernel⟩,
      ⟨by decide +kernel, fun v h => ?_, by decide +kernel, fun _ _ => ⟨rfl, 15, by decide +kernel⟩⟩,
      ⟨fun r h => (by cases h), by decide +kernel⟩, ?_⟩
    · cases h; decide +kernel
    · cases h; decide +kernel
    · have none : owners .p0 brimming = [] := by decide +kernel
      rw [if_neg (by decide +kernel)]
      exact ⟨by rw [none]; exact List.nodup_nil, fun c h => by rw [none] at h; cases h⟩
  · exact powerOn_roomOk .p1

/-- A state that waits to take a tick meets every invariant. -/
theorem witness_invariants :
    let s := { State.reset with pending := [.pacingTick] }
    (StoreOk s ∧ SizesOk s ∧ QueuesOk s) ∧ SegmentsOk s ∧ LocksOk s.locks ∧ PortsOk s ∧ (∀ p, CompletionRoomOk p s) ∧
      ∃ t, step s = .next t := by
  obtain ⟨b1, b2, b3, b4, b5⟩ := build_segmentsOk State.reset.mig rfl
  refine ⟨⟨rfl, ?_, ⟨rfl, rfl⟩, ?_⟩, ⟨b1, b2, b3, b4, b5, ⟨rfl, rfl, rfl⟩, ?_⟩, ⟨by decide, ?_, ?_, ?_, ?_⟩,
    ⟨?_, ?_⟩, powerOn_roomOk, _, rfl⟩
  · refine ⟨by decide, by decide, by decide, by decide, by decide, by decide, fun p => ?_⟩
    show ((mapBuild []).phys[p]).counter ≤ 65535
    rw [build_phys]
    split <;> simp
  · intro b o h; simp [State.reset] at h
  · simp [HeldOverOk, State.reset]
  · intro p; cases p <;> decide
  · intro w hw; simp [State.reset] at hw
  · exact List.Pairwise.nil
  · intro k hk; simp [State.reset] at hk
  · simp [PortOk, State.reset, HostPort.powerOn, AlertFollows]
  · simp [PortOk, State.reset, HostPort.powerOn, AlertFollows]

/-! ## Witnesses: grants, operations, the chunk copy -/

/-- The state after reset with the queues and bank 0 as given. -/
def queues (t0 s : List Ref) (bank : Option BankOp) : State :=
  { State.reset with
    sched := { State.reset.sched with t0 := t0, s := s, banks := State.reset.sched.banks.set 0 bank } }

/-- A scrub reference of physical line `l`, WAITING. -/
def scrub (l : PLine) : Ref := scrubRef .patrol l

theorem witness_grantGoesToTheFirstEligibleHead :
    let s := queues [ref 16 .readLine none] [] none
    s.sched.banks[(0 : Bank)] = none ∧
      (∀ x l, headOf s.sched.s = some x → x.bank = 0 → x.line = .physical l → (s.seg.phys[l.seg]).role ≠ .retired) ∧
      ([Source.migration] ++ (if s.mig.heldOver.s then [Source.scrub] else []) ++
        [Source.host s.sched.turns[(0 : Bank)], Source.host (s.sched.turns[(0 : Bank)]).other, Source.scrub]).find?
          (eligible s 0) = some (.host .p0) ∧
      s.sched.queue (.host .p0) = [] ++ ref 16 .readLine none :: [] ∧ (ref 16 .readLine none).granted = none :=
  ⟨by decide +kernel, (by intro x l h; cases h), by decide +kernel, rfl, rfl⟩

theorem witness_grantGivesNothing :
    (queues [ref 16 .readLine none] [] (some ⟨.host .p0, ref 0 .readLine (some ⟨0, 0⟩), ⟨0, 0⟩⟩)).sched.banks[(0 : Bank)] ≠ none ∧
      let s := queues [ref 17 .readLine none, ref 16 .readLine none] [] none
      s.sched.banks[(0 : Bank)] = none ∧ headOf s.sched.s = none ∧
        ∀ src ∈ [Source.host .p0, .host .p1, .migration, .scrub], eligible s 0 src = false := by decide +kernel

theorem test_grant_to_the_turn :
    see (.grant 0) (queues [ref 16 .readLine none] [] none)
      (fun t => ((t.sched.banks[(0 : Bank)]).map BankOp.line, t.sched.turns[(0 : Bank)])) =
      some (some ⟨0, 16⟩, .p1) := by decide +kernel

theorem witness_eligibleHeadsAreThoseOfTheTable :
    let s := queues [ref 0 .readLine (some ⟨0, 0⟩), ref 16 .readLine none] [scrub ⟨519, 1048575⟩] none
    s.sched.queue (.host .p0) = [ref 0 .readLine (some ⟨0, 0⟩)] ++ ref 16 .readLine none :: [] ∧
      (∀ x ∈ [ref 0 .readLine (some ⟨0, 0⟩)], x.granted.isSome = true) ∧ (ref 16 .readLine none).granted = none ∧
      s.sched.queue .scrub = [] ++ scrub ⟨519, 1048575⟩ :: [] ∧ (scrub ⟨519, 1048575⟩).granted = none :=
  ⟨rfl, by decide, rfl, rfl, rfl⟩

/-- Lines of the lock's chunk are not eligible for a host, in the source and in the destination (R45, R63). -/
theorem test_locked_line_is_held_back :
    lockedLine (migrating .stepping .closing 1).mig ⟨0, 64⟩ = true ∧
      lockedLine (migrating .stepping .closing 1).mig ⟨512, 127⟩ = true ∧
      lockedLine (migrating .stepping .closing 1).mig ⟨512, 128⟩ = false ∧
      lockedLine (migrating .stepping .none 1).mig ⟨0, 64⟩ = false := by decide +kernel

/-- Two scrub heads of bank 0 in a RETIRED segment, with a third reference behind them and a host head at the bank. -/
def retiredHeads : State :=
  { queues [ref 16 .readLine none] [scrub ⟨0, 0⟩, scrub ⟨0, 16⟩, scrub ⟨1, 1⟩] none with
    seg := mapBuild [0], scrub := { State.reset.scrub with pass := .patrol, pos := .at ⟨519, 1048575⟩, credit := 3999 } }

theorem witness_eligibleHeadsDiscardOfRetiredHeads :
    retiredHeads.sched.banks[(0 : Bank)] = none ∧
      retiredHeads.sched.s = [] ++ [scrub ⟨0, 0⟩, scrub ⟨0, 16⟩] ++ [scrub ⟨1, 1⟩] ∧
      (∀ r ∈ [scrub ⟨0, 0⟩, scrub ⟨0, 16⟩], r.granted = none ∧ r.bank = 0) ∧
      (scrub ⟨0, 0⟩).line = .physical ⟨0, 0⟩ ∧ (scrub ⟨0, 16⟩).line = .physical ⟨0, 16⟩ ∧
      (retiredHeads.seg.phys[(0 : PhysSeg)]).role = .retired ∧ (scrub ⟨1, 1⟩).granted = none ∧ (scrub ⟨1, 1⟩).bank ≠ 0 ∧
      retiredHeads.scrub.pass = .patrol ∧ retiredHeads.scrub.pos = .at ⟨519, 1048575⟩ ∧
      (retiredHeads.seg.phys[(1 : PhysSeg)]).role ≠ .retired := by decide +kernel

/-- One act discards both, grants the host head, and lets the patrol issue three lines by its credit, past segment 0 (R65, R70,
R79, R80). -/
theorem test_discard_then_grant :
    see (.grant 0) retiredHeads
      (fun t => (t.sched.s.map Ref.line, (t.sched.banks[(0 : Bank)]).map BankOp.line, t.scrub.pos, t.scrub.credit)) =
      some ([.physical ⟨1, 1⟩, .physical ⟨519, 1048575⟩, .physical ⟨1, 0⟩, .physical ⟨1, 1⟩], some ⟨1, 16⟩, .at ⟨1, 2⟩, 999) := by
  decide +kernel

/-- A BUSY record of bank 0. -/
def busy (src : Source) (o : Origin) (op : LineOp) (l : PLine) : BankOp := ⟨src, ⟨o, .physical l, op, some l⟩, l⟩

def hostRead : BankOp := ⟨.host .p0, ref 0 .readLine (some ⟨0, 0⟩), ⟨0, 0⟩⟩

/-- The state on which the source of a bank's operation acts. -/
def actedOn (b : Bank) (arbiterFirst : Bool) (o : BankOp) (s : State) : State :=
  if arbiterFirst then (after (.grant b) (bankDone b o s)).getD s else bankDone b o s

theorem actedOn_sourceActs (b : Bank) (arbiterFirst : Bool) (o : BankOp) (s : State) :
    SourceActsOn b arbiterFirst o s (actedOn b arbiterFirst o s) := by
  obtain ⟨⟨p⟩ | _ | _, x, l⟩ := o <;> cases arbiterFirst <;> simp only [SourceActsOn, Bool.false_eq_true, if_false, if_true]
  all_goals (try cases p) <;> rfl

theorem witness_hostOperationDoneHandsItsResult :
    let s := queues [ref 0 .readLine (some ⟨0, 0⟩)] [] (some hostRead)
    s.sched.banks[(0 : Bank)] = some hostRead ∧ hostRead.source = .host .p0 ∧ hostRead.ref.origin = .transfer 0 0 := by
  decide +kernel

theorem witness_scrubOperationsFreeTheirPlaces :
    ∀ first ∈ [false, true],
      (let o := busy .scrub (.scrub .sweep) .initLine ⟨519, 1048560⟩
       let s : State := { queues [] [o.ref] (some o) with scrub := { State.reset.scrub with outstanding := 2, pos := .ended } }
       let u := actedOn 0 first o s
       s.sched.banks[(0 : Bank)] = some o ∧ o.source = .scrub ∧ o.ref.origin = .scrub .sweep ∧ u.scrub.pass = .sweep ∧
         ¬ (u.scrub.outstanding - 1 = 0 ∧ u.scrub.pos = .ended)) ∧
      (let o := busy .scrub (.scrub .sweep) .initLine ⟨519, 1048560⟩
       let s : State :=
         { queues [] [] (some o) with
           seg := mapBuild [0], scrub := { State.reset.scrub with outstanding := 1, pos := .ended } }
       let u := actedOn 0 first o s
       s.sched.banks[(0 : Bank)] = some o ∧ u.scrub.outstanding = 1 ∧ u.scrub.pos = .ended ∧
         (u.seg.phys[(1 : PhysSeg)]).role ≠ .retired ∧ (u.seg.phys[(0 : PhysSeg)]).role = .retired) ∧
      (let o := busy .scrub (.scrub .patrol) .scrubLine ⟨519, 1048560⟩
       let s : State := { queues [] [o.ref] (some o) with scrub := ⟨.ready, .patrol, .at ⟨519, 1048575⟩, 256, 1000, 0⟩ }
       let u := actedOn 0 first o s
       s.sched.banks[(0 : Bank)] = some o ∧ o.ref.origin = .scrub .patrol ∧ u.scrub.pass = .patrol ∧
         u.scrub.pos = .at ⟨519, 1048575⟩ ∧ (u.seg.phys[(0 : PhysSeg)]).role ≠ .retired) := by
  decide +kernel

/-- The patrol issues into the freed place and goes on at segment 0; the sweep lowers its count (R77, R79, R80). -/
theorem test_scrub_operations :
    (let o := busy .scrub (.scrub .patrol) .scrubLine ⟨519, 1048560⟩
     see (.operationDone 0 false)
       { queues [] [o.ref] (some o) with
         store := (List.range 8).map fun w => (wordNumber ⟨519, 1048560⟩ w, validWord 0)
         scrub := ⟨.ready, .patrol, .at ⟨519, 1048575⟩, 256, 1000, 0⟩ }
       (fun t => (t.sched.s, t.scrub.pos, t.scrub.credit))) =
      some ([scrub ⟨519, 1048575⟩], .at ⟨0, 0⟩, 0) ∧
    (let o := busy .scrub (.scrub .sweep) .initLine ⟨519, 1048560⟩
     see (.operationDone 0 false)
       { queues [] [o.ref] (some o) with scrub := { State.reset.scrub with outstanding := 2, pos := .ended } }
       (fun t => (t.sched.s, t.scrub.outstanding, t.scrub.store))) = some ([], 1, .initializing) := by decide +kernel

/-- The migration of `migrating`. -/
def job : Job := ⟨0, 0, 512⟩

/-- A line whose words all read CLEAN with the value 0. -/
def zeroLine : LineResult := Vector.replicate 8 ⟨.clean, 0⟩

/-- The references of line `k` of a chunk, IN_PROGRESS. -/
def readOf (chunk k : Nat) : Ref := { copyReadRef job chunk k with granted := some ⟨0, chunkLine chunk k⟩ }
def writeOf (chunk k : Nat) : Ref := { copyWriteRef job chunk k zeroLine with granted := some ⟨512, chunkLine chunk k⟩ }

/-- Chunk `chunk` in copy at position (`line`, `step`) with a result kept and queue M as given, its first reference in progress
at bank `b`. -/
def copying (b : Bank) (chunk line : Nat) (step : CopyStep) (kept : Option (Nat × LineResult)) (x : Ref) (more : List Ref) :
    State :=
  let s := migrating .copying .held chunk
  { s with
    mig := { s.mig with copyLine := line, copyStep := step, kept := kept }
    sched := { s.sched with m := x :: more, banks := s.sched.banks.set b (some ⟨.migration, x, x.granted.getD ⟨0, 0⟩⟩) } }

/-- READ_LINE 0 alone; the WRITE_LINE of line 62 done, and READ_LINE 63 behind it; the read of line 16 done before the write of
line 15, and that write done with the result kept; the write of line 63. -/
def firstRead : State := copying 0 0 0 .write none (readOf 0 0) []
def lateWrite : State := copying 14 0 63 .write none (writeOf 0 62) [readOf 0 63]
def earlyRead : State :=
  let s := copying 0 0 16 .write none (readOf 0 16) []
  { s with sched := { s.sched with m := [writeOf 0 15, readOf 0 16] } }
def heldRead : State := copying 15 0 16 .write (some (16, zeroLine)) (writeOf 0 15) []
def chunkEnd (chunk : Nat) : State := copying 15 chunk 0 .read none (writeOf chunk 63) []

theorem witness_copyWritesWhatItRead :
    ∀ first ∈ [false, true],
      (∀ x ∈ [(firstRead, (0 : Bank), 0, CopyStep.read, true), (earlyRead, 0, 16, .read, false), (lateWrite, 14, 62, .write, false),
          (heldRead, 15, 15, .write, true)],
        ∃ o, x.1.sched.banks[x.2.1] = some o ∧ o.source = .migration ∧ o.ref.origin = .copy 0 x.2.2.1 x.2.2.2.1 ∧
          let u := actedOn x.2.1 first o x.1
          u.mig.state = .copying ∧ u.mig.job = some job ∧ u.mig.watermark = 0 ∧ (u.sched.m = [] ↔ x.2.2.2.2 = true)) ∧
      (actedOn 14 first ⟨.migration, writeOf 0 62, ⟨512, 62⟩⟩ lateWrite).mig.kept = none ∧
      (actedOn 15 first ⟨.migration, writeOf 0 15, ⟨512, 15⟩⟩ heldRead).mig.kept = some (16, zeroLine) := by
  intro first hf
  refine ⟨?_, ?_⟩
  · simp only [List.forall_mem_cons]
    refine ⟨⟨_, rfl, rfl, rfl, ?_⟩, ⟨_, rfl, rfl, rfl, ?_⟩, ⟨_, rfl, rfl, rfl, ?_⟩, ⟨_, rfl, rfl, rfl, ?_⟩, fun _ h => nomatch h⟩ <;>
      (revert first; decide +kernel)
  · revert first; decide +kernel

/-- Position, what is kept and queue M of a copy. -/
def copyView (t : State) : List Origin × Nat × CopyStep × Bool :=
  (t.sched.m.map Ref.origin, t.mig.copyLine, t.mig.copyStep, t.mig.kept.isSome)

/-- A read brings its write and the next read; one that returns before the write of the line before has left is kept, and that
write brings the two references when it ends; the write of line 63 has no read behind it (R48, R54, R71). -/
theorem test_copy_keeps_its_read :
    [see (.operationDone 0 false) firstRead copyView, see (.operationDone 0 false) earlyRead copyView,
      see (.operationDone 15 false) heldRead copyView, see (.operationDone 14 false) lateWrite copyView,
      see (.operationDone 15 false) (copying 15 0 63 .write none (readOf 0 63) []) copyView] =
    [some ([.copy 0 0 .write, .copy 0 1 .read], 1, .write, false), some ([.copy 0 15 .write], 16, .write, true),
      some ([.copy 0 16 .write, .copy 0 17 .read], 17, .write, false), some ([.copy 0 63 .read], 63, .write, false),
      some ([.copy 0 63 .write], 0, .read, false)] := by decide +kernel

theorem copying_bank (b b' : Bank) (chunk line : Nat) (step : CopyStep) (kept : Option (Nat × LineResult)) (x : Ref)
    (more : List Ref) (o : BankOp) (h : (copying b chunk line step kept x more).sched.banks[b'] = some o) :
    b = b' ∧ o = ⟨.migration, x, x.granted.getD ⟨0, 0⟩⟩ := by
  by_cases e : (b : Nat) = b'
  · simp [copying, migrating, e] at h
    exact ⟨Fin.ext e, h.symm⟩
  · simp [copying, migrating, State.reset, e] at h

/-- Queue M is in order in each of those states. -/
theorem witness_queuesOk_in_a_copy : QueuesOk firstRead ∧ QueuesOk lateWrite ∧ QueuesOk earlyRead ∧ QueuesOk heldRead ∧
    QueuesOk (chunkEnd 16382) ∧ QueuesOk (chunkEnd 16383) := by
  have shape : ∀ {b : Bank} {chunk line : Nat} {step : CopyStep} {kept : Option (Nat × LineResult)} {x : Ref} {more : List Ref},
      x.granted.isSome = true → x.bank = b →
      CopyQueueOk (copying b chunk line step kept x more).mig (copying b chunk line step kept x more).sched.m →
      QueuesOk (copying b chunk line step kept x more) := by
    intro b chunk line step kept x more h1 h2 h3
    refine ⟨h3, fun b' o h => ?_⟩
    obtain ⟨rfl, rfl⟩ := copying_bank _ _ _ _ _ _ _ _ _ h
    exact ⟨List.mem_cons_self .., h1, h2⟩
  refine ⟨shape rfl (by decide +kernel) ?_, shape rfl (by decide +kernel) ?_, ⟨?_, fun b o h => ?_⟩,
    shape rfl (by decide +kernel) ?_, shape rfl (by decide +kernel) ?_, shape rfl (by decide +kernel) ?_⟩
  · exact ⟨job, rfl, .inl ⟨rfl, rfl, by decide, _, rfl, .inl rfl⟩⟩
  · exact ⟨job, rfl, .inl ⟨rfl, rfl, by decide, _, rfl, .inr ⟨62, _, rfl, ⟨zeroLine, rfl⟩, rfl⟩⟩⟩
  · exact ⟨job, rfl, .inl ⟨rfl, rfl, by decide, _, rfl, .inr ⟨15, _, rfl, ⟨zeroLine, rfl⟩, rfl⟩⟩⟩
  · obtain ⟨rfl, rfl⟩ := copying_bank 0 b 0 16 .write none (readOf 0 16) [] o h
    decide +kernel
  · exact ⟨job, rfl, .inr (.inl ⟨15, _, _, rfl, rfl, rfl, by decide, ⟨zeroLine, rfl⟩, rfl⟩)⟩
  · exact ⟨job, rfl, .inr (.inr ⟨rfl, rfl, rfl, _, ⟨zeroLine, rfl⟩, rfl⟩)⟩
  · exact ⟨job, rfl, .inr (.inr ⟨rfl, rfl, rfl, _, ⟨zeroLine, rfl⟩, rfl⟩)⟩

theorem witness_chunkCopyEndAdvancesTheWatermark :
    (chunkEnd 16382).sched.banks[(15 : Bank)] = some ⟨.migration, writeOf 16382 63, ⟨512, chunkLine 16382 63⟩⟩ ∧
      (writeOf 16382 63).origin = .copy 16382 63 .write ∧ (chunkEnd 16382).mig.state = .copying ∧
      (chunkEnd 16382).mig.job = some job ∧ (chunkEnd 16382).mig.watermark = 16382 ∧ 16382 + 1 < 16384 := by decide +kernel

/-- After chunk 0 the watermark is 1, and with no head held over chunk 1 closes at once (R46, R50). -/
theorem test_chunk_end :
    see (.operationDone 15 false) (chunkEnd 0) (fun t => (t.mig.state, t.mig.watermark, t.mig.lock, t.sched.m)) =
      some (.stepping, 1, .closing, []) := by decide +kernel

theorem witness_lastChunkMakesTheSwitch :
    (chunkEnd 16383).sched.banks[(15 : Bank)] = some ⟨.migration, writeOf 16383 63, ⟨512, chunkLine 16383 63⟩⟩ ∧
      (writeOf 16383 63).origin = .copy 16383 63 .write ∧ (chunkEnd 16383).mig.state = .copying ∧
      (chunkEnd 16383).mig.job = some job ∧ (chunkEnd 16383).mig.watermark = 16383 ∧ job.source ≠ job.dest := by
  decide +kernel

theorem test_switch :
    see (.operationDone 15 false) (chunkEnd 16383)
      (fun t => (t.mig.state, (t.seg.map[(0 : LogSeg)]).phys, t.seg.retired, t.ret.writing, t.sched.m.length)) =
      some (.recording, 512, [0], some ⟨1, [0], true⟩, 0) := by decide +kernel

/-! ## Witnesses: health, migration, time -/

/-- A report of bank 0 for line 0 of physical segment `p`. -/
def report (p : PhysSeg) (uncorrectable : Bool) : HealthReport := ⟨⟨p, 0⟩, .host .p1, false, [⟨3, uncorrectable⟩]⟩

/-- A report waits, its physical segment having `count` corrected words so far. -/
def reported (r : HealthReport) (count : Nat) (st : SegState) (spares : List PhysSeg) : State :=
  { State.reset with
    reports := [r]
    seg :=
      { mapBuild [] with
        map := (mapBuild []).map.set 0 ⟨0, st, false⟩
        phys := (mapBuild []).phys.set 0 ⟨.mapped, some 0, count⟩
        spares := spares } }

theorem witness_healthReportCountsItsCorrectedWords :
    let other : HealthReport := ⟨⟨0, 15⟩, .scrub, true, [⟨0, false⟩]⟩
    let s : State := { State.reset with reports := [other, report 0 false] }
    s.reports = [other] ++ report 0 false :: [] ∧ (∀ x ∈ [other], bankOf x.line.off ≠ 0) ∧
      bankOf (report 0 false).line.off = 0 := ⟨rfl, by decide, rfl⟩

/-- A state with `n` incident records and a sequence counter of 65,535. -/
def listed (n : Nat) : State :=
  { State.reset with
    timeBase := 9
    port1 := run
    incidents := ⟨List.replicate n ⟨0, 0, ⟨.noSpare, .scrub, none, none, none, none⟩⟩, 0xFFFF, 254⟩ }

theorem witness_incidentAppendIsTakenWhole :
    (listed 0).incidents.records = [] ∧ (listed 15).incidents.records ≠ [] ∧
      (listed 15).incidents.records.length < 16 ∧ 16 ≤ (listed 16).incidents.records.length := by decide +kernel

/-- The sequence counter wraps, a full list drops, and a port that takes the notice of the first record at once has ALERT,
with its message in RUNNING, while the other port may not have taken it yet (R170, R172). -/
theorem test_incident_append :
    let x : Incident := ⟨.nvFault, .powerOn, none, none, none, none⟩
    let t := appendTelling (fun p => decide (p = .p1)) x (listed 0)
    (t.incidents, t.port1.sent, t.port1.alertCause, t.port0.alertCause, t.port0.notices) =
        (⟨[⟨0xFFFF, 9, x⟩], 0, 254⟩, [.message 0x3000 0x55], true, false, [.nonEmpty]) ∧
      ((appendIncident x (listed 16)).incidents.seq, (appendIncident x (listed 16)).incidents.dropped,
        (appendIncident x (listed 16)).incidents.records.length) = (0, 255, 16) := by decide +kernel

/-- A report of bank 15, handed before that of bank 0. -/
def elsewhere : HealthReport := ⟨⟨0, 15⟩, .scrub, true, [⟨0, false⟩]⟩

theorem witness_thresholdOffersTheSegmentAtTheBack :
    let s := reported (report 0 false) 63 .mapped [512]
    s.reports = [] ++ report 0 false :: [] ∧
      { s with reports := [elsewhere, report 0 false] }.reports = [elsewhere] ++ report 0 false :: [] ∧
      (∀ x ∈ [elsewhere], bankOf x.line.off ≠ 0) ∧
      (∀ st ∈ [SegState.queued, .migrating, .atRisk],
        ((reported (report 0 false) 63 st [512]).seg.map[(0 : LogSeg)]).state ≠ .mapped) ∧
      ((migrating .copying .held 0).seg.phys[(512 : PhysSeg)]).role ≠ .mapped ∧
      ((mapBuild [0]).phys[(0 : PhysSeg)]).role ≠ .mapped ∧ ((mapBuild []).phys[(519 : PhysSeg)]).role ≠ .mapped ∧ bankOf (report 0 false).line.off = 0 ∧ (report 0 false).findings ≠ [] ∧
      (∀ f ∈ (report 0 false).findings, f.uncorrectable = false) ∧ (s.seg.phys[(0 : PhysSeg)]).role = .mapped ∧
      (s.seg.phys[(0 : PhysSeg)]).logical = some 0 ∧ (s.seg.map[(0 : LogSeg)]).state = .mapped ∧
      s.seg.queue.length < s.seg.spares.length ∧ s.seg.threshold ≤ (s.seg.phys[(0 : PhysSeg)]).counter + 1 := by
  decide +kernel

/-- The 63rd corrected word is only counted, the 64th offers the segment; without a spare it is AT_RISK (R31, R37). -/
theorem test_threshold :
    see (.healthReport 0) (reported (report 0 false) 62 .mapped [512])
        (fun t => ((t.seg.map[(0 : LogSeg)]).state, t.seg.queue, t.incidents.records.length)) = some (.mapped, [], 0) ∧
      see (.healthReport 0) (reported (report 0 false) 63 .mapped [512])
        (fun t => ((t.seg.map[(0 : LogSeg)]).state, t.seg.queue, t.incidents.records.length)) = some (.queued, [0], 1) ∧
      see (.healthReport 0) (reported (report 0 false) 63 .mapped [])
        (fun t => ((t.seg.map[(0 : LogSeg)]).state, t.seg.queue, t.incidents.records.length)) = some (.atRisk, [], 2) := by
  decide +kernel

/-- A segment past the threshold that is not MAPPED is not offered, and its report is taken from behind that of another bank
(R35, R37). -/
theorem test_threshold_of_another_state :
    see (.healthReport 0)
        { reported (report 0 false) 63 .atRisk [512] with reports := [elsewhere, report 0 false] }
        (fun t => ((t.seg.map[(0 : LogSeg)]).state, t.seg.queue, t.incidents.records.length, t.reports.length)) =
      some (.atRisk, [], 0, 1) := by decide +kernel

/-- A report with a corrected and an uncorrectable word, on a segment that is SPARE. -/
def mixed : HealthReport := ⟨⟨513, 0⟩, .host .p1, false, [⟨2, false⟩, ⟨3, true⟩]⟩

theorem witness_uncorrectableWordActsByRole :
    let s := reported (report 0 true) 0 .mapped [512]
    let m : HealthReport := { report 0 true with source := .migration }
    s.reports = [] ++ report 0 true :: [] ∧ bankOf (report 0 true).line.off = 0 ∧ (report 0 true).findings ≠ [] ∧
      (∀ f ∈ (report 0 true).findings, f.uncorrectable = true) ∧ (report 0 true).source ≠ .migration ∧
      (s.seg.phys[(0 : PhysSeg)]).role = .mapped ∧ (s.seg.phys[(0 : PhysSeg)]).logical = some 0 ∧
      (s.seg.map[(0 : LogSeg)]).state = .mapped ∧ m.source = .migration ∧ m.findings ≠ [] ∧
      ((migrating .copying .held 0).seg.phys[(512 : PhysSeg)]).role = .reserved ∧
      ((mapBuild []).phys[(519 : PhysSeg)]).role = .spare ∧
      ((reported (report 0 true) 0 .atRisk []).seg.map[(0 : LogSeg)]).state ≠ .mapped ∧
      (∃ f ∈ mixed.findings, f.uncorrectable = true) ∧ (∃ f ∈ mixed.findings, f.uncorrectable = false) ∧
      bankOf mixed.line.off = 0 ∧ ({ mixed with source := .migration }).line.seg = 513 ∧
      ((mapBuild []).phys[(513 : PhysSeg)]).role ≠ .mapped := by decide +kernel

/-- A corrected and an uncorrectable word at the threshold: one offer, at the front (R35, R36). -/
theorem test_mixed_report :
    see (.healthReport 0) (reported { mixed with line := ⟨0, 0⟩ } 63 .mapped [512])
      (fun t => ((t.seg.map[(0 : LogSeg)]).state, t.seg.queue, t.incidents.records.map fun x => x.incident.kind,
        (t.seg.phys[(0 : PhysSeg)]).counter)) = some (.queued, [0], [.uncorrectable], 64) := by decide +kernel

theorem witness_migrationStartsWithQueueHeadAndLowestSpare :
    let s : State :=
      { State.reset with
        scrub := { State.reset.scrub with store := .ready }, seg := { mapBuild [] with queue := [511], spares := [519] } }
    s.mig.state = .idle ∧ s.scrub.store = .ready ∧ s.seg.queue = 511 :: [] ∧ s.seg.spares = 519 :: [] ∧
      ¬ (State.reset.mig.state = .idle ∧ State.reset.scrub.store = .ready ∧ State.reset.seg.queue ≠ []) := by decide +kernel

/-- No start is made while the store is INITIALIZING, and one is made of the queue's head when it is READY (R42). -/
theorem test_migration_start :
    let s (store : StoreState) : State :=
      { State.reset with
        scrub := { State.reset.scrub with store := store }, seg := { mapBuild [] with queue := [511], spares := [519] } }
    see .migrationStart (s .initializing) (fun t => (t.mig.state, t.seg.queue)) = some (.idle, [511]) ∧
      see .migrationStart (s .ready) (fun t => (t.mig.state, t.seg.queue)) = some (.stepping, []) := by decide +kernel

/-- A host operation on the watermark chunk keeps the lock CLOSING. -/
def busyChunk : State :=
  let s := migrating .stepping .closing 0
  { s with sched := { s.sched with banks := s.sched.banks.set 0 (some hostRead) } }

theorem witness_chunkLockIsHeldWhenTheChunkIsQuiet :
    (migrating .stepping .closing 0).mig.job = some ⟨0, 0, 512⟩ ∧ (migrating .stepping .closing 0).mig.state = .stepping ∧
      (migrating .stepping .closing 0).mig.lock = .closing ∧ chunkQuiet (migrating .stepping .closing 0) = true ∧
      busyChunk.mig.job = some ⟨0, 0, 512⟩ ∧ busyChunk.mig.lock = .closing ∧ chunkQuiet busyChunk = false := by
  decide +kernel

theorem test_chunk_lock :
    see .chunkLockHeld (migrating .stepping .closing 0) (fun t => (t.mig.state, t.mig.lock, t.sched.m.length)) =
        some (.copying, .held, 1) ∧
      see .chunkLockHeld busyChunk (fun t => (t.mig.state, t.mig.lock, t.sched.m.length)) =
        some (.stepping, .closing, 0) := by decide +kernel

/-- The Retirement Memory is being written for a migration, and context 0 of port 0 waits for it. -/
def recording : State :=
  let s := migrating .recording .none 16384
  { s with
    ret := { s.ret with writing := some ⟨1, [0], true⟩ }
    port0 := runCtx (ctx .relocateWait (.relocate 0))
    port1 := { runCtx (ctx .relocateWait (.relocate 0)) with state := .faulted } }

theorem witness_retirementWriteDoneCompletesTheMigration :
    recording.mig.state = .recording ∧ recording.mig.job = some ⟨0, 0, 512⟩ ∧
      recording.ret.writing = some ⟨1, [0], true⟩ := by decide +kernel

theorem witness_retirementWriteDoneEndsRelocateWaits :
    recording.mig.state = .recording ∧ recording.mig.job = some ⟨0, 0, 512⟩ ∧
      recording.ret.writing = some ⟨1, [0], true⟩ ∧ (∃ t, exec (.retirementWriteDone .succeeded) recording = .next t) ∧
      ((recording.port .p0).contexts[(0 : CtxId)]).state = .relocateWait ∧
      ((recording.port .p0).contexts[(0 : CtxId)]).cmd = .relocate 0 ∧ (0 : CtxId) ∉ (recording.port .p0).workList ∧
      (recording.port .p0).inService = true ∧ ((recording.port .p1).contexts[(0 : CtxId)]).state = .relocateWait ∧
      (recording.port .p1).state = .faulted :=
  ⟨by decide +kernel, by decide +kernel, by decide +kernel, ⟨_, rfl⟩, by decide +kernel, by decide +kernel,
    by decide +kernel, by decide +kernel, by decide +kernel, by decide +kernel⟩

theorem test_migration_ends :
    see (.retirementWriteDone .succeeded) recording
      (fun t => (t.mig.state, t.ret.current, (t.port0.contexts[(0 : CtxId)]).state,
        (t.port1.contexts[(0 : CtxId)]).state)) = some (.idle, some .slot0, .done, .free) := by decide +kernel

/-- The patrol at line 1,048,575 of a segment with credit for one issue after the tick. -/
def patrol : State :=
  { State.reset with scrub := ⟨.ready, .patrol, .at ⟨519, 1048575⟩, 256, 744, 0⟩ }

theorem witness_pacingTickAccruesAndIssues :
    (patrol.seg.phys[(519 : PhysSeg)]).role ≠ .retired ∧ patrol.scrub.pass = .patrol ∧
      patrol.scrub.pos = .at ⟨519, 1048575⟩ ∧ State.reset.scrub.pass = .sweep := by decide +kernel

/-- The credit comes to 1,000, one SCRUB_LINE is issued and the walk goes on at segment 0 (R79, R80). -/
theorem test_pacing_tick :
    see .pacingTick patrol (fun t => (t.scrub.credit, t.scrub.pos, t.sched.s)) =
      some (0, .at ⟨0, 0⟩, [scrub ⟨519, 1048575⟩]) := by decide +kernel

theorem witness_retirementReadBeginsTheSweep :
    let s := slots .blank (.image ⟨1, [0], true⟩)
    s.ret.reading = true ∧ s.mig.state = .idle ∧ s.sched.s = [] ∧ s.scrub.pass = .sweep ∧ s.scrub.outstanding = 0 ∧
      (1 : PhysSeg) ∉ (powerOnRead true s.ret.slot0 s.ret.slot1).retired ∧
      ∀ q : PhysSeg, q < 1 → q ∈ (powerOnRead true s.ret.slot0 s.ret.slot1).retired := by
  refine ⟨by decide, by decide, by decide, by decide, by decide, by decide +kernel, fun q hq => ?_⟩
  obtain rfl : q = 0 := Fin.ext (Nat.lt_one_iff.mp hq)
  decide +kernel

/-! ## Witnesses: locks -/

/-- Context 0 of port 0 has a message for the Lock Unit; lock 5 has a holder, and a pool. -/
def mailed (m : LockMail) (holder : Option Party) (pool : List Waiter) : State :=
  let s := withPort { runCtx (ctx .active (.acquire 5 7 1)) with lockMail := [m] }
  { s with locks := { s.locks with table := s.locks.table.set 5 ⟨holder, holder.isNone⟩, pool := pool } }

def me : Party := ⟨.p0, 7⟩
def you : Party := ⟨.p1, 9⟩
def wait (p : Party) (c : CtxId) (due : Bool) : Waiter := ⟨5, p, c, some 10, due⟩
def ask (timeout : Nat) : LockMail := .acquire 0 5 7 timeout

/-- Forty waiters of port 0 for other locks. -/
def forty : List Waiter := (List.range' 0 40).map fun n => ⟨6, ⟨.p0, BitVec.ofNat 16 (n + 10)⟩, Fin.ofNat 64 n, none, false⟩

/-- The view of port 0 is DRAINING. -/
def drainingView (s : State) : State := { s with locks := s.locks.setView .p0 .draining }

theorem witness_acquireTakesTheFirstMatchingCase :
    (∀ x ∈ [(0, none, []), (1, some me, []), (0, some you, []), (1, some you, [wait me 3 false]), (65535, some you, []),
        (1, some you, forty)],
      ((mailed (ask x.1) x.2.1 x.2.2).port .p0).lockMail = ask x.1 :: [] ∧
        ((mailed (ask x.1) x.2.1 x.2.2).port .p0).inService = true ∧
        (mailed (ask x.1) x.2.1 x.2.2).locks.view .p0 = .running ∧
        ((mailed (ask x.1) x.2.1 x.2.2).locks.table[(5 : LockId)]).holder = x.2.1) ∧
      (drainingView (mailed (ask 1) (some you) [])).locks.view .p0 = .draining ∧ 40 ≤ forty.length ∧ you ≠ me := by
  decide +kernel

/-- What the ACQUIRE of a test leaves: holder, pool length and the status handed. -/
def outcome (s : State) : Option (Option Party × Nat × List (Status × Results)) :=
  see (.acquire .p0) s (fun t =>
    ((t.locks.table[(5 : LockId)]).holder, t.locks.pool.length, t.port0.writeList.map fun c => (c.status, c.results)))

/-- The cases of R89: a free lock (abandoned, reported), held by the party, held by another with each timeout. -/
theorem test_acquire_cases :
    [outcome (mailed (ask 0) none []), outcome (mailed (ask 0) (some you) []),
      outcome (mailed (ask 1) (some you) [wait me 3 false]), outcome (mailed (ask 1) (some you) forty),
      outcome (drainingView (mailed (ask 1) (some you) [])), outcome (mailed (ask 65535) (some you) [])] =
    [some (some me, 0, [(.ok, .lock true (some me))]), some (some you, 0, [(.lockBusy, .lock false (some you))]),
      some (some you, 1, [(.duplicate, .lock false (some you))]),
      some (some you, 40, [(.waitLimit, .lock false (some you))]),
      some (some you, 0, [(.cancelled, .lock false (some you))]), some (some you, 1, [])] := by decide +kernel

theorem witness_requestsAfterAFaultOrResetChangeNoLock :
    ∀ m ∈ [ask 1, .release 0 5 7, .guardCheck 0 5 7],
      let s := mailed m none []
      let h : HostPort := { s.port0 with state := .faulted }
      let t := { s with port0 := h, locks := s.locks.setView .p0 .faulted }
      t.locks.view .p0 = .faulted ∧ (t.port .p0).lockMail = m :: [] ∧ (t.port .p0).state = .faulted := by decide +kernel

/-- A slot in CHECKING for context 0. -/
def checking (cmd : Command) (holder : Option Party) : State :=
  let s := mailed (.guardCheck 0 5 7) holder []
  { s with port0 := { s.port0 with slots := s.port0.slots.set 0 (some { Transfer.fresh 0 cmd with phase := .checking }) } }

/-- A port in FAULTED whose guard check the Lock Unit takes after the fault notice. -/
def guardEnding (phase : Phase) : State :=
  let s := checking (.fill 0 8 0) none
  { s with
    port0 :=
      { s.port0 with
        state := .faulted, slots := s.port0.slots.set 0 (some { Transfer.fresh 0 (.fill 0 8 0) with phase := phase }) }
    locks := s.locks.setView .p0 .faulted }

theorem witness_requestsAfterAFaultEndAGuardCheck :
    ∀ phase ∈ [Phase.checking, .moving],
      (guardEnding phase).locks.view .p0 = .faulted ∧ ((guardEnding phase).port .p0).lockMail = .guardCheck 0 5 7 :: [] ∧
        ((guardEnding phase).port .p0).state = .faulted ∧
        (((guardEnding phase).port .p0).slots[(0 : SlotId)]).map Transfer.phase = some phase ∧
        (((guardEnding phase).port .p0).slots[(0 : SlotId)]).map Transfer.ctx = some 0 ∧
        ∀ j : SlotId, j ≠ 0 → ((guardEnding phase).port .p0).slots[j] = none := by decide +kernel

/-- A transfer in CHECKING ends with its guard check in FAULTED, and no completion is made (R88, R145). -/
theorem test_guard_end_in_faulted :
    see (.guardCheck .p0) (guardEnding .checking)
      (fun t => (t.port0.slots[(0 : SlotId)], (t.port0.contexts[(0 : CtxId)]).state, t.port0.writeList)) =
      some (none, .free, []) := by decide +kernel

theorem witness_releasePassesTheLockOn :
    ∀ x ∈ [(you, []), (me, []), (me, [wait ⟨.p0, 8⟩ 3 false]), (me, [wait you 63 false])],
      let s := mailed (.release 0 5 7) (some x.1) x.2
      (s.port .p0).lockMail = .release 0 5 7 :: [] ∧ (s.port .p0).inService = true ∧ s.locks.view .p0 = .running ∧
        (s.locks.table[(5 : LockId)]).holder = some x.1 ∧ s.locks.pool = x.2 := by decide +kernel

/-- The waiter's grant is handed before the RELEASE completes (R94). -/
theorem test_release_grants_first :
    see (.release .p0) (mailed (.release 0 5 7) (some me) [wait ⟨.p0, 8⟩ 3 false])
      (fun t => ((t.locks.table[(5 : LockId)]).holder, t.port0.writeList.map fun c => (c.ctx, c.status))) =
      some (some ⟨.p0, 8⟩, [(3, .ok), (0, .ok)]) := by decide +kernel

theorem witness_guardCheckAnswersByTheHolder :
    ∀ x ∈ [(Command.read 0 8 (.scatter 1 0), some me), (.write 0 8 (.scatter 64 0), some me), (.read 0 8 (.direct 0), some me),
        (.write 200 280 (.direct 0), some me), (.fill 0 8 0, some me), (.read 0 8 (.direct 0), some you)],
      let s := checking x.1 x.2
      let f := { Transfer.fresh 0 x.1 with phase := .checking }
      (s.port .p0).lockMail = .guardCheck 0 5 7 :: [] ∧ (s.port .p0).inService = true ∧ s.locks.view .p0 = .running ∧
        (s.port .p0).slots[(0 : SlotId)] = some f ∧ f.ctx = 0 ∧
        (∀ j : SlotId, j ≠ 0 → (s.port .p0).slots[j] = none) ∧ f.phase = .checking ∧ f.outstanding = 0 ∧ f.next = 0 ∧
        f.piece = 0 ∧ f.corrected = 0 ∧ f.bad = 0 ∧ f.firstBad = none ∧ f.decision = none ∧
        (s.port .p0).slotReads[(0 : SlotId)] = none ∧ (s.locks.table[(5 : LockId)]).holder = x.2 := by decide +kernel

/-- A guarded WRITE of address 200 begins its first host-data read on the answer HELD (R128, R134). -/
theorem test_guard_held_write :
    see (.guardCheck .p0) (checking (.write 200 280 (.direct 0x10000)) (some me))
      (fun t => (t.port0.slots[(0 : SlotId)].map Transfer.phase, t.port0.slotReads[(0 : SlotId)])) =
      some (some .moving, some (.data 0x10000 7)) := by decide +kernel

theorem test_guard_not_held :
    see (.guardCheck .p0) (checking (.read 0 8 (.direct 0)) (some you))
      (fun t => (t.port0.slots[(0 : SlotId)], t.port0.writeList.map (·.status))) = some (none, [.notHolder]) := by
  decide +kernel

theorem witness_dueWaiterExpiresWithTimeout :
    ∀ due ∈ [false, true],
      let w : Waiter := wait ⟨.p0, 8⟩ 3 due
      let s := mailed (ask 1) (some you) [wait ⟨.p0, 10⟩ 2 true, w]
      s.locks.pool = [wait ⟨.p0, 10⟩ 2 true] ++ w :: [] ∧
        (∀ x ∈ [wait ⟨.p0, 10⟩ 2 true], ¬ (x.party.port = .p0 ∧ x.ctx = 3)) ∧ w.party.port = .p0 ∧ w.ctx = 3 ∧
        w.due = due ∧ (s.port .p0).inService = true := by decide +kernel

/-- A timeout of 1 ms ends 1,000 microseconds after the ACQUIRE was taken (R90). -/
theorem test_waiter_deadline : waiterDeadline 5 1 = some 1005 ∧ waiterDeadline 5 65535 = none := by decide

theorem test_expiry :
    see (.waiterDeadlineExpiry .p0 3) (mailed (ask 1) (some you) [wait ⟨.p0, 8⟩ 3 true])
      (fun t => (t.locks.pool, t.port0.writeList.map (·.status))) = some ([], [.timeout]) := by decide +kernel

/-- A request of the port waits before the notice, and another behind it. -/
def behind (v : LockView) (holder : Option Party) (pool : List Waiter) : State :=
  let s := mailed (ask 1) holder pool
  { s with port0 := { s.port0 with lockMail := [ask 1, .notice v, .release 2 6 7] } }

theorem witness_portNoticesRemoveThePortsWaiters :
    (∀ v ∈ [LockView.running, .draining, .faulted],
      ((behind v (some you) [wait ⟨.p0, 8⟩ 3 false]).port .p0).lockMail = [ask 1] ++ .notice v :: [.release 2 6 7]) ∧
      (∀ m ∈ [ask 1], ∀ u, m ≠ .notice u) ∧ ((behind .draining (some you) []).port .p0).inService = true ∧
      (let s := behind .faulted (some you) [wait ⟨.p0, 8⟩ 3 false]
       ({ s with port0 := { s.port0 with state := .faulted } }.port .p0).state = .faulted) :=
  ⟨by decide +kernel, by simp [ask], by decide +kernel, by decide +kernel⟩

theorem test_drain_notice_cancels :
    see (.lockDrainNotice .p0) (mailed (.notice .draining) (some you) [wait ⟨.p0, 8⟩ 3 false, wait ⟨.p1, 8⟩ 4 false])
      (fun t => (t.locks.pool, t.locks.view .p0, t.port0.writeList.map (·.status))) =
      some ([wait ⟨.p1, 8⟩ 4 false], .draining, [.cancelled]) := by decide +kernel

theorem witness_resetNoticeAbandonsThePortsLocks :
    let s := mailed (.notice .resetting) (some me) [wait you 63 false]
    (s.port .p0).lockMail = [] ++ .notice .resetting :: [] ∧
      (s.locks.table[(5 : LockId)]).holder.map Party.port = some .p0 ∧
      ((mailed (.notice .resetting) (some you) []).locks.table[(5 : LockId)]).holder.map Party.port ≠ some .p0 := by
  decide +kernel

/-- A lock of the port passes to the other port's waiter, with ABANDONED reported (R99, R100). -/
theorem test_reset_notice :
    let x := abandonLock .p0 ((mailed (.notice .resetting) (some me) [wait you 63 false]).locks, []) 5
    (x.1.table[(5 : LockId)]).holder = some you ∧ x.1.pool = [] ∧
      x.2 = [(.p1, .completion 63 .ok true (some you))] := by decide +kernel

theorem witness_lockTableIsKeptInOrder :
    ∃ t, exec (.acquire .p0) (mailed (ask 0) none []) = .next t ∧
      (t.locks.table[(5 : LockId)]).holder ≠ ((mailed (ask 0) none []).locks.table[(5 : LockId)]).holder :=
  ⟨_, rfl, by decide +kernel⟩

/-! ## Witnesses: the states of a port -/

theorem witness_setupAndEnableBeginAPort :
    let aligned := withPort { HostPort.powerOn with setupReg := 64 }
    let misaligned := withPort { HostPort.powerOn with setupReg := 63 }
    (aligned.port .p0).linkUp = true ∧ (aligned.port .p0).state = .off ∧ (aligned.port .p0).setupReg.toNat % 64 = 0 ∧
      (misaligned.port .p0).setupReg.toNat % 64 ≠ 0 ∧ (misaligned.port .p0).workList = [] ∧
      (misaligned.port .p0).maintQueue = [] ∧ misaligned.maint.running = none ∧ run.state ≠ .off := by decide +kernel

theorem test_setup_write_of_the_high_half :
    see (.setupWrite .p1 (.high 0x11223344)) State.reset (fun t => (t.port1.setupReg, t.port0.setupReg)) =
      some (0x1122334400000000, 0) := by decide +kernel

theorem test_enable :
    see (.enable .p0) (withPort { HostPort.powerOn with setupReg := 64 }) (fun t => (t.port0.state, t.port0.setupRead)) =
        some (.setup, some 64) ∧
      see (.enable .p0) (withPort { HostPort.powerOn with setupReg := 63 })
        (fun t => (t.port0.state, t.port0.faultCode, t.port0.sent)) = some (.faulted, .setupInvalid, []) := by
  decide +kernel

theorem witness_disableDrainsAndResetEndsInOff :
    let s := withPort run
    let q := withPort { HostPort.powerOn with state := .resetting }
    (s.port .p0).state = .running ∧ (s.port .p0).workList = [] ∧ (q.port .p0).state = .resetting ∧
      q.sched.queue (.host .p0) = [] ∧ (q.port .p0).setupRead = none ∧ (q.port .p0).fetch = none ∧
      (∀ i : SlotId, (q.port .p0).slotReads[i] = none) ∧ q.maint.running = none ∧ (q.port .p0).lockMail = [] := by
  decide +kernel

theorem test_reset_waits_for_its_notice :
    see (.resetComplete .p0) (withPort { HostPort.powerOn with state := .resetting }) (fun t => t.port0.state) = some .off ∧
      see (.resetComplete .p0) (withPort { HostPort.powerOn with state := .resetting, lockMail := [.notice .resetting] })
        (fun t => t.port0.state) = some .resetting := by decide +kernel

theorem witness_resetDropsTheWorkOfItsPort :
    ((withPort run).port .p0).state ≠ .resetting ∧
      ((withPort { run with state := .resetting }).port .p0).state = .resetting := by decide +kernel

/-- A reset of the port whose head alone is held over closes the next chunk (R46, R73). -/
theorem test_reset_closes_the_chunk :
    see (.reset .p0)
      (let s := migrating .stepping .none 1
       { s with port0 := run, mig := { s.mig with heldOver := ⟨true, false, false⟩ } })
      (fun t => (t.mig.heldOver.t0, t.mig.lock)) = some (false, .closing) := by decide +kernel

/-- A reset removes the WAITING reference and leaves the one in progress (R73). -/
theorem test_reset :
    see (.reset .p0) { queues [ref 0 .readLine (some ⟨0, 0⟩), ref 16 .readLine none] [] (some hostRead) with port0 := run }
      (fun t => (t.port0.state, t.sched.t0, t.port0.lockMail)) =
      some (.resetting, [ref 0 .readLine (some ⟨0, 0⟩)], [.notice .resetting]) := by decide +kernel

theorem witness_linkLossResetsAndLinkReturnLeavesThePort :
    ((withPort run).port .p0).linkUp = true ∧ ((withPort run).port .p0).state ≠ .resetting ∧
      ((withPort { run with linkUp := false }).port .p0).linkUp = false ∧
      ((withPort { run with state := .resetting }).port .p0).linkUp = true := by decide +kernel

theorem test_link_down :
    see (.linkDown .p0 1) (withPort { run with setupReg := 64, sent := [.readData 0 [1], .readData 8 [2]] })
      (fun t => (t.port0.state, t.port0.linkUp, t.port0.sent, t.port0.setupReg)) =
      some (.resetting, false, [.readData 0 [1]], 64) := by decide +kernel

/-- The loss of the link removes the WAITING references of the port and takes its queue out of the held-over set (R46, R73,
R106). -/
theorem test_link_down_purges_the_queue :
    see (.linkDown .p0 0)
      (let s := migrating .stepping .none 1
       { s with
         port0 := { run with doneCause := true, unannounced := 1, unconsumed := 1, announced := 1, quietTimer := some ⟨9, false⟩ }
         mig := { s.mig with heldOver := ⟨true, false, false⟩ }
         sched := { s.sched with t0 := [ref 0 .readLine (some ⟨0, 0⟩), ref 16 .readLine none] } })
      (fun t => (t.sched.t0.length + t.port0.unannounced, t.mig.heldOver.t0, t.mig.lock, t.port0.doneCause)) =
      some (1, false, .closing, false) := by decide +kernel

theorem witness_doorbellsMoveTheRingsOrFault :
    let h : HostPort := { run with cqHead := 14, unconsumed := 5, announced := 4 }
    ((withPort h).port .p0).inService = true ∧ ((withPort h).port .p0).values = some values ∧
      (15#32).toNat < values.sqEntries ∧ values.sqEntries ≤ (16#32).toNat ∧ values.cqEntries ≤ (16#32).toNat ∧
      (3#32).toNat < values.cqEntries ∧ h.cqHead < values.cqEntries ∧ (h.cqHead + 5) % values.cqEntries = (3#32).toNat ∧
      5 ≤ h.unconsumed ∧ (h.cqHead + 6) % values.cqEntries = (4#32).toNat ∧ h.unconsumed < 6 ∧
      HostPort.powerOn.inService = false := by decide +kernel

/-- Step 6 of section 9.5: CONSUME with new head 1 from head 14 consumes 3 records. -/
theorem test_consume :
    see (.consume .p0 1) (withPort { run with cqHead := 14, unconsumed := 5, unannounced := 1, announced := 4, doneCause := true })
      (fun t => (t.port0.unconsumed, t.port0.announced, t.port0.doneCause)) = some (2, 1, true) := by decide +kernel

theorem test_submit_past_the_ring :
    see (.submit .p0 16) (withPort run)
      (fun t => (t.port0.state, t.port0.faultCode, t.port0.sqTail, t.port0.sent, t.port0.lockMail)) =
      some (.faulted, .tailInvalid, 0, [.message 0x3000 0x55], [.notice .faulted]) := by decide +kernel

/-! ## Witnesses: setup block, records, drain -/

/-- The setup block of `values`, written out by the offsets of section 11.2 with a given byte of quiet-time and selector
fields: bit 8 × n is the low bit of byte n. -/
def block (sqBase selector : Nat) : BitVec 512 :=
  BitVec.ofNat 512 (sqBase + 0x2000 * 2 ^ 64 + 16 * 2 ^ 128 + 16 * 2 ^ 144 + 0x3000 * 2 ^ 160 + 0x55 * 2 ^ 224
    + 1 * 2 ^ 256 + 4 * 2 ^ 264 + 50 * 2 ^ 272 + selector * 2 ^ 288)

theorem test_setup_block :
    [setupValuesOf (block 0x1000 0), setupValuesOf (block 0x1000 4), setupValuesOf (block 0x1020 0)] =
      [some values, none, none] := by decide +kernel

/-- A port in SETUP, its block being read. -/
def setup : State := withPort { HostPort.powerOn with state := .setup, setupRead := some 64 }

theorem witness_setupReadEndsInRunningOrFaulted :
    (setup.port .p0).setupRead.isSome = true ∧ (setup.port .p0).state = .setup ∧
      ((withPort { HostPort.powerOn with state := .resetting, setupRead := some 64 }).port .p0).setupRead.isSome = true ∧
      (setupValuesOf (block 0x1000 0)).isSome = true ∧ (setupValuesOf (block 0x1000 4)).isSome = false := by decide +kernel

theorem test_setup_fetch :
    see (.setupFetchDone .p0 (some (block 0x1000 0))) setup (fun t => (t.port0.state, t.port0.values)) =
        some (.running, some values) ∧
      see (.setupFetchDone .p0 none) setup (fun t => (t.port0.state, t.port0.faultCode)) =
        some (.faulted, .setupFetchError) := by decide +kernel

/-- A RUNNING port with a pending record and the store READY. -/
def intake (h : HostPort) : State :=
  let s := withPort { h with sqTail := 1 }
  { s with scrub := { s.scrub with store := .ready } }

theorem witness_recordIsFetchedWhenTheConditionsHold :
    ((intake run).port .p0).values = some values ∧ ((intake run).port .p0).state = .running ∧
      ((intake run).port .p0).sqHead ≠ ((intake run).port .p0).sqTail ∧ (intake run).scrub.store = .ready ∧
      ((intake run).port .p0).hold = .clear ∧
      (((intake run).port .p0).contexts.toList.filter fun c => c.state != .free).length + 15 < values.cqEntries ∧
      ((intake run).port .p0).fetch = none ∧ (withPort run).scrub.store ≠ .ready := by decide +kernel

theorem test_record_fetch_and_cq_room :
    see (.recordFetch .p0) (intake { run with unconsumed := 15 }) (fun t => t.port0.fetch) = some (some 0x1000) ∧
      see (.recordFetch .p0) (intake { run with unconsumed := 16 }) (fun t => t.port0.fetch) = some none := by decide +kernel

/-- Records written out by the offsets of section 11.2: opcode, flags, tag AB, and three fields at bytes 8, 16 and 24. -/
def record (opcode flags start len host : Nat) : BitVec 512 :=
  BitVec.ofNat 512 (opcode + flags * 2 ^ 8 + 0xAB * 2 ^ 16 + start * 2 ^ 64 + len * 2 ^ 128 + host * 2 ^ 192)

/-- R115 and R116 on READ, NOP, an unknown opcode, a bad length, and the two sides of the end of the store. -/
theorem test_validation :
    [verdictOf (record 1 0 200 280 0x10000), verdictOf (record 0 0 0 0 0), verdictOf (record 0x30 0 0 0 0),
      verdictOf (record 1 0 200 4 0), verdictOf (record 3 0 34359738360 8 0), verdictOf (record 3 0 34359738360 16 0),
      verdictOf (record 3 8 0 8 0)] =
    [.accepted (.read 200 280 (.direct 0x10000)), .answered .ok, .answered .malformed, .answered .malformed,
      .accepted (.fill 34359738360 8 0), .answered .range, .answered .malformed] := by decide +kernel

/-- ACQUIRE of lock 5 for owner 7 with timeout FFFFh, and of lock 256. -/
theorem test_validation_of_acquire :
    verdictOf (BitVec.ofNat 512 (0x10 + 5 * 2 ^ 64 + 7 * 2 ^ 80 + 0xFFFF * 2 ^ 96)) = .accepted (.acquire 5 7 65535) ∧
      verdictOf (BitVec.ofNat 512 (0x10 + 256 * 2 ^ 64)) = .answered .malformed := by decide +kernel

/-- Clear bits as a field of value zero. -/
theorem bitsClear_iff (r : BitVec 512) (first last : Nat) :
    BitsClear r first last ↔ r.extractLsb' first (last - first) = 0 := by
  constructor
  · intro h
    apply BitVec.eq_of_getLsbD_eq
    intro b hb
    have hz : (0 : BitVec (last - first)).getLsbD b = false := BitVec.getLsbD_zero
    rw [BitVec.getLsbD_extractLsb', h (first + b) (by omega) (by omega), hz, Bool.and_false]
  · intro h b h1 h2
    have hb := congrArg (fun v => v.getLsbD (b - first)) h
    have hz : (0 : BitVec (last - first)).getLsbD (b - first) = false := BitVec.getLsbD_zero
    rw [BitVec.getLsbD_extractLsb', hz, show first + (b - first) = b by omega] at hb
    simpa [show b - first < last - first by omega] using hb

/-- Records at the ends of their fields' ranges, one and more for each opcode of R115. -/
def goodRecords : List (BitVec 512) :=
  [record 0 3 0 0 0, record 1 0 34359738360 8 0x10000, record 2 8 0 16777216 8 ||| BitVec.ofNat 512 (64 * 2 ^ 160),
    record 3 4 34359738360 16 7 ||| BitVec.ofNat 512 (255 * 2 ^ 32), record 4 0 0 8 8, record 5 0 8 8 5] ++
  [BitVec.ofNat 512 (0x10 + 255 * 2 ^ 64), BitVec.ofNat 512 (0x11 + 7 * 2 ^ 80),
    BitVec.ofNat 512 (0x20 + 511 * 2 ^ 64 + 1 * 2 ^ 80 + 80 * 2 ^ 96), BitVec.ofNat 512 (0x21 + 16 * 2 ^ 64 + 8 * 2 ^ 128),
    BitVec.ofNat 512 (0x22 + 2 * 2 ^ 64 + 4096 * 2 ^ 96), BitVec.ofNat 512 (0x22 + 1 * 2 ^ 64 + 1 * 2 ^ 80 + 9999 * 2 ^ 96),
    BitVec.ofNat 512 (0x23 + 511 * 2 ^ 64)]

theorem witness_recordsAreJudgedByFormThenRange :
    (∀ r ∈ goodRecords, CommonFieldsFit r) ∧ (∀ r ∈ goodRecords, OpcodeFieldsFit r) ∧
      recordNum (record 0x30 0 0 0 0) 0 1 = 0x30 ∧ recordNum (record 1 0 34359738360 8 0) 8 8 + 8 = 34359738368 := by
  refine ⟨?_, ?_, by decide +kernel, by decide +kernel⟩
  · simp only [goodRecords, List.cons_append, List.nil_append, List.forall_mem_cons]
    simp only [CommonFieldsFit, BytesZero, bitsClear_iff]
    refine ⟨?_, ?_, ?_, ?_, ?_, ?_, ?_, ?_, ?_, ?_, ?_, ?_, ?_, fun _ h => nomatch h⟩ <;> decide +kernel
  · simp only [goodRecords, List.cons_append, List.nil_append, List.forall_mem_cons]
    simp only [OpcodeFieldsFit, RangeFits, BytesZero, bitsClear_iff]
    refine ⟨.inl ?_, .inr (.inl ?_), .inr (.inl ?_), .inr (.inr (.inl ?_)), .inr (.inr (.inr (.inl ?_))), .inr (.inr (.inr
      (.inr (.inl ?_)))), .inr (.inr (.inr (.inr (.inr (.inl ?_))))), .inr (.inr (.inr (.inr (.inr (.inr (.inl
      ?_)))))), .inr (.inr (.inr (.inr (.inr (.inr (.inr (.inl ?_))))))), .inr (.inr (.inr (.inr (.inr (.inr (.inr
      (.inr (.inl ?_)))))))), .inr (.inr (.inr (.inr (.inr (.inr (.inr (.inr (.inr (.inl ?_))))))))), .inr (.inr
      (.inr (.inr (.inr (.inr (.inr (.inr (.inr (.inl ?_))))))))), .inr (.inr (.inr (.inr (.inr (.inr (.inr (.inr
      (.inr (.inr ?_))))))))), fun _ h => nomatch h⟩ <;>
      decide +kernel

/-- What those records are answered, the second FILL range passing the store by one word; and a TUNE that names nothing, one
that names a threshold of 0, and a MAP_QUERY whose buffer is one byte short (R115, R116, R178). -/
theorem test_validation_by_opcode :
    goodRecords.map verdictOf =
      [.answered .ok, .accepted (.read 34359738360 8 (.direct 0x10000)), .accepted (.write 0 16777216 (.scatter 64 8)),
        .answered .range, .accepted (.copy 0 8 8), .accepted (.scan 8 8 5 0), .accepted (.acquire 255 0 0),
        .accepted (.release 0 7), .accepted (.mapQuery 511 1 0), .accepted (.incidents 16 8),
        .accepted (.tune none (some 4096)), .accepted (.tune (some 1) none), .accepted (.relocate 511)] ∧
      [BitVec.ofNat 512 0x22, BitVec.ofNat 512 (0x22 + 1 * 2 ^ 64), BitVec.ofNat 512 (0x20 + 1 * 2 ^ 80 + 79 * 2 ^ 96)].map
        verdictOf = [.answered .malformed, .answered .malformed, .answered .malformed] := by decide +kernel

/-- A record fetch is outstanding, with context 0 in use. -/
def fetching : State := intake { runCtx (ctx .active .nop) with fetch := some 0x1000 }

theorem witness_fetchedRecordIsTaken :
    (fetching.port .p0).fetch.isSome = true ∧ (fetching.port .p0).state = .running ∧
      (fetching.port .p0).values = some values ∧ ((fetching.port .p0).contexts[(1 : CtxId)]).state = .free ∧
      (∀ d : CtxId, d < 1 → ((fetching.port .p0).contexts[d]).state ≠ .free) ∧
      verdictOf (record 1 0 200 280 0x10000) = .accepted (.read 200 280 (.direct 0x10000)) ∧
      verdictOf (record 0 0 0 0 0) = .answered .ok ∧
      ((intake { run with state := .draining, fetch := some 0x1000 }).port .p0).fetch.isSome = true := by decide +kernel

theorem test_record_taken :
    see (.recordFetchDone .p0 (some (record 1 0 200 280 0x10000))) fetching
        (fun t => (t.port0.sqHead, t.port0.workList, (t.port0.contexts[(1 : CtxId)]).state,
          (t.port0.contexts[(1 : CtxId)]).tag)) = some (1, [1], .waiting, 0xAB) ∧
      see (.recordFetchDone .p0 (some (record 0 0 0 0 0))) fetching
        (fun t => (t.port0.workList, (t.port0.contexts[(1 : CtxId)]).state, t.port0.writeList.map (·.status))) =
        some ([], .done, [.ok]) := by decide +kernel

/-- The 16th taking with selector 0 pauses the intake (R113). -/
theorem test_pause_mark :
    see (.recordFetchDone .p0 (some (record 0 0 0 0 0)))
      (intake { run with
        fetch := some 0x1000
        contexts := tabulate 64 fun n => if n < 15 then ctx .active .nop else Context.free })
      (fun t => (t.port0.inUse, t.port0.hold)) = some (16, .paused) := by decide +kernel

theorem witness_expiryAndDrainEndAnnounce :
    let due : HostPort := { run with unconsumed := 1, unannounced := 1, quietTimer := some ⟨0, true⟩ }
    let drained : HostPort := { run with state := .draining, unconsumed := 1, unannounced := 1 }
    ((withPort due).port .p0).inService = true ∧ ((withPort due).port .p0).quietTimer = some ⟨0, true⟩ ∧
      run.quietTimer = none ∧ drained.state = .draining ∧ (∀ c : CtxId, (drained.contexts[c]).state = .free) ∧
      drained.fetch = none ∧ drained.unannounced ≠ 0 ∧ run.unannounced = 0 := by decide +kernel

/-- Step 7 of section 9.5: the expiry announces 2 records with a message. Step 12: with nothing unconsumed, none. -/
theorem test_quiet_timer :
    see (.quietTimerExpiry .p0)
        (withPort { run with unconsumed := 2, unannounced := 1, announced := 1, doneCause := true, quietTimer := some ⟨1150, true⟩ })
        (fun t => (t.port0.unannounced, t.port0.announced, t.port0.quietTimer, t.port0.sent)) =
        some (0, 2, none, [.message 0x3000 0x55]) ∧
      see (.quietTimerExpiry .p0) (withPort { run with unannounced := 1, quietTimer := some ⟨1260, true⟩ })
        (fun t => (t.port0.unannounced, t.port0.doneCause, t.port0.sent)) = some (0, false, []) := by decide +kernel

/-! ## Witnesses: transfers -/

/-- The head of the work list of port 0 is a transfer. -/
def headed (x : Context) (full : Bool) : State :=
  withPort { runCtx x with
    workList := [0]
    slots := if full then run.slots.set 0 (some (Transfer.fresh 1 (.fill 0 8 0))) else run.slots }

theorem witness_transferHeadTakesTheLowestFreeSlot :
    (∀ x ∈ [Command.read 0 8 (.direct 0), .read 0 8 (.scatter 1 0), .write 200 280 (.direct 0), .write 0 8 (.scatter 1 0),
        .fill 0 8 0, .copy 0 8 8, .scan 0 8 0 0],
      let s := headed (ctx .waiting x) false
      ((s.port .p0).contexts[(0 : CtxId)]).cmd = x ∧ (s.port .p0).workList = 0 :: [] ∧
        (s.port .p0).inService = true ∧ ((s.port .p0).contexts[(0 : CtxId)]).flags.getLsbD 0 = false ∧
        ((s.port .p0).contexts[(0 : CtxId)]).guard = none ∧ (s.port .p0).slots[(0 : SlotId)] = none) ∧
      (let s := headed { ctx .waiting (.fill 0 8 0) with record := recordOf 5 5 7 } true
       ((s.port .p0).contexts[(0 : CtxId)]).flags.getLsbD 0 = true ∧
         (∀ d : CtxId, ((s.port .p0).contexts[d]).place < ((s.port .p0).contexts[(0 : CtxId)]).place →
           ((s.port .p0).contexts[d]).state = .free ∨ ((s.port .p0).contexts[d]).state = .done) ∧
         ((s.port .p0).contexts[(0 : CtxId)]).guard = some (5, 7) ∧ (s.port .p0).slots[(1 : SlotId)] = none ∧
         ∀ j : SlotId, j < 1 → (s.port .p0).slots[j] ≠ none) := by decide +kernel

/-- A FILL at the head of the work list whose FENCE waits for context 1, which is ACTIVE. -/
def fenced : HostPort :=
  setContext 1 (fun _ => ctx .active .nop)
    { runCtx { ctx .waiting (.fill 0 8 0) with record := recordOf 1 0 0, place := 1 } with workList := [0] }

theorem witness_transferHeadStays :
    ({ runCtx (ctx .waiting (.fill 0 8 0)) with workList := [0], state := .faulted }).inService = false ∧
      FenceWaits fenced [] 0 ∧
      ∀ i : SlotId,
        ({ run with slots := Vector.replicate 4 (some (Transfer.fresh 1 (.fill 0 8 0))) }).slots[i] ≠ none :=
  ⟨by decide, ⟨by decide +kernel, 1, by decide +kernel, .inr (by decide +kernel)⟩, by decide +kernel⟩

/-- The first host-data read of a WRITE of address 200: 7 words, up to the end of the line (R131, R134). -/
theorem test_write_activation :
    see (.write .p0) (headed (ctx .waiting (.write 200 280 (.direct 0x10000))) false)
      (fun t => (t.port0.workList, (t.port0.contexts[(0 : CtxId)]).state, t.port0.slotReads[(0 : SlotId)])) =
      some ([], .active, some (.data 0x10000 7)) := by decide +kernel

/-- FENCE behind an earlier command that is still ACTIVE keeps the head back (R120). -/
theorem test_fence :
    see (.fill .p0)
      (let s := headed { ctx .waiting (.fill 0 8 0) with record := recordOf 1 0 0, place := 1 } false
       { s with port0 := setContext 1 (fun _ => ctx .active .nop) s.port0 })
      (fun t => t.port0.workList) = some [0] := by decide +kernel

/-- The scatter list of the worked example of section 8.5. -/
def entries : List (Nat × Nat) := [(0x10000, 40), (0x20000, 200), (0x30000, 40)]

/-- Its pieces, line by line, as the table of that example gives them. -/
theorem test_pieces_of_the_worked_example :
    (List.range 5).map (fun i => (piecesOf entries 200 280 i).map fun q => (q.addr, q.words.length)) =
      [[(0x10000, 5), (0x20000, 2)], [(0x20010, 8)], [(0x20050, 8)], [(0x20090, 7), (0x30000, 1)], [(0x30008, 4)]] := by
  decide +kernel

/-- The covered words of its first and last line: 1 to 7, and 0 to 3. -/
theorem test_covered_words : coveredMask 200 280 0 = 0xFE#8 ∧ coveredMask 200 280 4 = 0x0F#8 ∧ rangeLines 200 280 = 5 := by
  decide +kernel

/-- A scatter entry of 16 bytes: host address, length, reserved bytes. -/
def scatterEntry (addr len reserved : Nat) : BitVec 128 := BitVec.ofNat 128 (addr + len * 2 ^ 64 + reserved * 2 ^ 96)

/-- A slot of context 0 with a host read outstanding. -/
def slotted (x : Transfer) (r : SlotRead) : State :=
  withPort { runCtx (ctx .active x.cmd) with
    slots := run.slots.set 3 (some x), slotReads := run.slotReads.set 3 (some r) }

def listing (cmd : Command) : Transfer := { Transfer.fresh 0 cmd with phase := .listing }

theorem witness_scatterListStartsOrEndsItsTransfer :
    ∀ cmd ∈ [Command.write 200 8 (.scatter 1 64), .read 200 8 (.scatter 1 64)],
      let s := slotted (listing cmd) (.list 64 1)
      (s.port .p0).slotReads[(3 : SlotId)] = some (.list 64 1) ∧
        (s.port .p0).slots[(3 : SlotId)] = some (listing cmd) ∧ (s.port .p0).inService = true ∧
        (listing cmd).outstanding = 0 ∧ (listing cmd).next = 0 ∧ (listing cmd).piece = 0 ∧ (listing cmd).corrected = 0 ∧
        (listing cmd).bad = 0 ∧ (listing cmd).firstBad = none ∧ (listing cmd).decision = none ∧
        (withPort { run with slotReads := run.slotReads.set 3 (some (.list 64 1)) }).port0.slots[(3 : SlotId)] = none ∧
        [scatterEntry 16 8 0].length = 1 ∧ ([scatterEntry 16 8 0].map fun e => (scatterEntryOf e).2).sum = (rangeOf cmd).2 ∧
        scatterEntryOk (scatterEntry 16 8 0) = true ∧ scatterEntryOk (scatterEntry 16 8 1) = false := by decide +kernel

theorem test_scatter_list :
    let s := slotted (listing (.write 200 280 (.scatter 3 64))) (.list 64 3)
    see (.scatterListReadDone .p0 3 (some (entries.map fun e => scatterEntry e.1 e.2 0))) s
        (fun t => (t.port0.slots[(3 : SlotId)].map Transfer.entries, t.port0.slotReads[(3 : SlotId)])) =
        some (some entries, some (.data 0x10000 5)) ∧
      see (.scatterListReadDone .p0 3 (some [scatterEntry 0 8 0])) s
        (fun t => (t.port0.slots[(3 : SlotId)], t.port0.writeList.map (·.status))) = some (none, [.malformed]) := by
  decide +kernel

/-- A WRITE in MOVING on line 0, its host data outstanding. -/
def moving (outstanding : Nat) : Transfer :=
  { Transfer.fresh 0 (.write 8 64 (.direct 0x100)) with entries := [(0x100, 64)], outstanding := outstanding }

theorem witness_hostDataStagesALineOrStopsTheWrite :
    let s := slotted (moving 1) (.data 0x100 7)
    (s.port .p0).slotReads[(3 : SlotId)] = some (.data 0x100 7) ∧ (s.port .p0).slots[(3 : SlotId)] = some (moving 1) ∧
      (moving 1).cmd = .write 8 64 (.direct 0x100) ∧ (moving 1).phase = .moving ∧ (moving 1).next < (moving 1).lineCount ∧
      ([1, 2, 3, 4, 5, 6, 7] : List Word).length = 7 ∧ (moving 1).outstanding ≠ 0 ∧ (moving 0).outstanding = 0 ∧
      (moving 0).decision = none ∧
      (withPort { run with slotReads := run.slotReads.set 3 (some (.data 0x100 7)) }).port0.slots[(3 : SlotId)] = none ∧
      (piecesOf (moving 1).entries 8 64 0).length ≤ (moving 1).piece + 1 ∧ ((moving 1).entries.map Prod.snd).sum = 64 ∧
      8 % 8 = 0 ∧ wordAddress 8 0 7 < 8 + 64 ∧ ((moving 1).gathered ++ [1, 2, 3, 4, 5, 6, 7])[7 - 8 / 8 % 8]? = some 7 ∧
      wordAddress 8 1 0 < 8 + 64 ∧ (piecesOf (moving 1).entries 8 64 1).length = 1 ∧
      ((piecesOf [(0x100, 8), (0x200, 56)] 8 64 0)[0 + 1]?).isSome = true := by decide +kernel

/-- The second piece of a line joins the words of the first, and stands behind them (R130, R134). -/
theorem test_host_data_of_two_pieces :
    see (.hostDataReadDone .p0 3 (some [2, 3, 4, 5, 6, 7]))
      (slotted { moving 1 with entries := [(0x100, 8), (0x200, 56)], piece := 1, gathered := [1] } (.data 0x200 6))
      (fun t => (t.port0.slots[(3 : SlotId)].bind Transfer.staged).map Vector.toList) =
      some (some [0, 1, 2, 3, 4, 5, 6, 7]) := by decide +kernel

/-- Seven words from word 1 on are staged in their places (R131, R134). -/
theorem test_host_data :
    see (.hostDataReadDone .p0 3 (some [1, 2, 3, 4, 5, 6, 7])) (slotted (moving 1) (.data 0x100 7))
      (fun t => (t.port0.slots[(3 : SlotId)].bind Transfer.staged).map Vector.toList) =
      some (some [0, 1, 2, 3, 4, 5, 6, 7]) := by decide +kernel

/-- The reads of a freed slot are discarded, and a failed read in FAULTED frees slot and context without a completion (R145,
R146). -/
theorem test_reads_after_a_fault :
    let freed (r : SlotRead) : State := withPort { run with slotReads := run.slotReads.set 3 (some r) }
    see (.scatterListReadDone .p0 3 none) (freed (.list 64 1)) (fun t => decide (t.port0 = run)) = some true ∧
      see (.hostDataReadDone .p0 3 none) (freed (.data 64 1)) (fun t => decide (t.port0 = run)) = some true ∧
      see (.hostDataReadDone .p0 3 none)
        (let s := slotted (moving 0) (.data 0x100 7)
         { s with port0 := { s.port0 with state := .faulted } })
        (fun t => (t.port0.slots[(3 : SlotId)], (t.port0.contexts[(0 : CtxId)]).state, t.port0.writeList)) =
        some (none, .free, []) := by decide +kernel

theorem test_host_fault :
    see (.hostDataReadDone .p0 3 none) (slotted { moving 0 with next := 1 } (.data 0x138 1))
      (fun t => (t.port0.slots[(3 : SlotId)], t.port0.writeList.map fun c => (c.status, c.results))) =
      some (none, [(.hostFault, .transfer ⟨56, 0, 0, none, none⟩)]) := by decide +kernel

/-- Two slots with a reference ready: slot 3 is the last issuer. -/
def issuing (x y : Command) : State :=
  withPort { run with
    slots := (run.slots.set 1 (some (Transfer.fresh 1 x))).set 3 (some (Transfer.fresh 3 y)) }

/-- A WRITE of `n` bytes at address 0 with its line `next` staged. -/
def writeReady (n next : Nat) : Transfer :=
  { Transfer.fresh 1 (.write 0 n (.direct 0x100)) with
    entries := [(0x100, n)], next := next, staged := some (Vector.replicate 8 0) }

theorem witness_readySlotIssuesInRotation :
    ∀ x ∈ [Command.read 0 8 (.direct 0), .fill 0 8 0, .copy 0 8 8, .scan 0 8 0 0],
      let s := issuing x (.fill 64 8 1)
      (s.port .p0).state ≠ .resetting ∧ (s.sched.queue (.host .p0)).length < 4 ∧
        (s.port .p0).slots[(1 : SlotId)] = some (Transfer.fresh 1 x) ∧ (Transfer.fresh 1 x).ready = true ∧
        [(s.port .p0).lastIssuer + 1, (s.port .p0).lastIssuer + 2, (s.port .p0).lastIssuer + 3, (s.port .p0).lastIssuer] =
          [0] ++ 1 :: [2, 3] ∧
        (∀ j ∈ ([0] : List SlotId), (s.port .p0).slots[j] = none) ∧
        (writeReady 8 0).ready = true ∧ (writeReady 8 0).next + 1 = (writeReady 8 0).lineCount ∧
        (writeReady 128 0).ready = true ∧ (writeReady 128 0).next + 1 < (writeReady 128 0).lineCount ∧
        piecesOf (writeReady 128 0).entries 0 128 (0 + 1) = ⟨0, 0x140, [0, 1, 2, 3, 4, 5, 6, 7]⟩ :: [] ∧
        (∀ i : SlotId, (run.slots[i]).isNone = true) ∧ (64 % 8 = 0 ∧ 8 % 8 = 0 ∧ 8 ≤ 8) := by
  decide +kernel

/-- The table of R132: a WRITE waits for its line, and a COPY of words 56 to 119 to 128 on reads its two source lines, writes its
first line when both have returned, and after its last line has nothing more to issue (R137). -/
theorem test_ready :
    let copy : Transfer := Transfer.fresh 1 (.copy 56 64 128)
    let read : Transfer := { copy with nextSource := 2, lines := [(0, zeroLine)] }
    [(writeReady 128 0).ready, { writeReady 128 0 with staged := none }.ready, copy.ready, read.ready,
      { read with lines := [(0, zeroLine), (1, zeroLine)] }.ready, { copy with next := 1 }.ready,
      { copy with phase := .listing }.ready] = [true, false, true, false, true, false, false] := by decide +kernel

/-- The WRITE of a line begins the read of the next, and that of the last begins none (R134). -/
theorem test_write_reads_on :
    (let s := withPort { run with slots := run.slots.set 0 (some (writeReady 128 0)) }
     see (.referenceIssue .p0) s (fun t => t.port0.slotReads[(0 : SlotId)])) = some (some (.data 0x140 8)) ∧
    (let s := withPort { run with slots := run.slots.set 0 (some (writeReady 128 1)) }
     see (.referenceIssue .p0) s (fun t => t.port0.slotReads[(0 : SlotId)])) = some none := by decide +kernel

/-- FILL of one word at address 8: line 0, word mask bit 1, pattern 5 (R131, R135). -/
theorem test_reference_issue :
    see (.referenceIssue .p0) (issuing (.fill 8 8 5) (.fill 64 8 1)) (fun t => (t.sched.t0, t.port0.lastIssuer)) =
      some ([⟨.transfer 1 0, .logical ⟨0, 0⟩, .writeLine ⟨0x02, Vector.replicate 8 5, 0⟩, none⟩], 1) := by decide +kernel

/-- A COPY of words 56 to 119 to 128 on: its first destination line draws on source lines 0 and 1 (R137). -/
theorem test_copy_sequence :
    let t := Transfer.fresh 1 (.copy 56 64 128)
    (drawsFirst 56 128 0, drawsLast 56 64 128 0) = (0, 1) ∧ t.issue.1.line = .logical ⟨0, 0⟩ ∧
      t.issue.2.issue.1.line = .logical ⟨0, 1⟩ ∧ t.issue.2.issue.2.ready = false := by decide +kernel

/-- A line whose words all read CLEAN with a value, but one. -/
def lineOf (d : Word) (w : Nat) (r : WordResult) : LineResult := tabulate 8 fun i => if i = w then r else ⟨.clean, d⟩

/-- The SCAN of the second worked example of chapter 8: results of lines 0, 2, 3 and 1 in that order. -/
theorem test_scan_of_the_worked_example :
    let t0 : Transfer := { Transfer.fresh 0 (.scan 4096 512 5 0xFFFFFFFFFFFFFFFF) with next := 4, outstanding := 4 }
    let t1 := (t0.takeResult 0 (some (lineOf 0 8 ⟨.clean, 0⟩))).1
    let t2 := (t1.takeResult 2 (some (lineOf 0 5 ⟨.clean, 5⟩))).1
    let t3 := (t2.takeResult 3 (some (lineOf 0 1 ⟨.poisoned, 5⟩))).1
    let t4 := (t3.takeResult 1 (some (lineOf 0 3 ⟨.corrected, 0⟩))).1
    t3.decision = none ∧ t3.frontier = 1 ∧ t4.phase = .finishing ∧
      t4.results = .transfer ⟨176, 1, 0, none, some 168⟩ ∧ t4.status = .corrected := by decide +kernel

theorem witness_transferTakesTheResultOfItsLine :
    let x : Transfer := { Transfer.fresh 0 (.read 200 280 (.scatter 3 64)) with entries := entries }
    x.cmd = .read 200 280 (.scatter 3 64) ∧ (x.entries.map Prod.snd).sum = 280 ∧
      (Transfer.fresh 0 (.copy 0 8 64)).cmd = .copy 0 8 64 := by decide

/-- Line index 3 of the READ of section 8.5, with its last word bad: two host writes, and the bad word at offset 240. -/
theorem test_read_result :
    let x : Transfer := { Transfer.fresh 0 (.read 200 280 (.scatter 3 64)) with entries := entries, outstanding := 2 }
    let y := x.takeResult 3 (some (lineOf 9 7 ⟨.poisoned, 5⟩))
    y.2 = [.readData 0x20090 [9, 9, 9, 9, 9, 9, 9], .readData 0x30000 [5]] ∧ y.1.outstanding = 1 ∧ y.1.corrected = 0 ∧
      y.1.bad = 1 ∧ y.1.firstBad = some 240 := by decide +kernel

/-- A SCAN of two lines for the word 5. -/
def scanning : Transfer :=
  { Transfer.fresh 0 (.scan 0 128 5 0xFFFFFFFFFFFFFFFF) with next := 2, outstanding := 2, phase := .finishing }

theorem witness_scanIsDecidedByItsLowestWord :
    scanning.cmd = .scan 0 128 5 0xFFFFFFFFFFFFFFFF ∧ scanning.decision = none ∧ scanning.frontier < scanning.lineCount ∧
      ({ scanning with decision := some (.matched 0) }).decision.isSome = true ∧
      (∀ k, scanning.frontier ≤ k → k < 1 →
        (stagedLine (scanning.lines ++ [(0, lineOf 0 3 ⟨.clean, 5⟩)]) k).isSome = true) ∧
      stagedLine (scanning.lines ++ [(0, lineOf 0 3 ⟨.clean, 5⟩)]) 1 = none ∧ 1 ≤ scanning.lineCount ∧
      (∀ k, scanning.frontier ≤ k → k < 2 →
        (stagedLine ([(1, lineOf 0 8 ⟨.clean, 0⟩)] ++ [(0, lineOf 0 8 ⟨.clean, 0⟩)]) k).isSome = true) ∧
      2 = scanning.lineCount ∧
      ((⟨.clean, 5⟩ : WordResult).outcome = .clean ∧ (⟨.clean, 0⟩ : WordResult).data ≠ 5) ∧
      (⟨.poisoned, 0⟩ : WordResult).outcome = .poisoned := by
  refine ⟨rfl, rfl, by decide +kernel, rfl, ?_, by decide +kernel, by decide +kernel, ?_, by decide +kernel, by decide, rfl⟩
  · intro k _ hk
    obtain rfl : k = 0 := by omega
    decide +kernel
  · intro k _ hk
    obtain rfl | rfl : k = 0 ∨ k = 1 := by omega
    · decide +kernel
    · decide +kernel

/-- A SCAN that meets no match is NOT_FOUND at its end; a bad word at offset 24 decides it (R139, R140). -/
theorem test_scan_ends :
    let held : Transfer := { scanning with lines := [(1, lineOf 0 2 ⟨.corrected, 1⟩)], outstanding := 1 }
    let y := (held.takeResult 0 (some (lineOf 0 8 ⟨.clean, 0⟩))).1
    let z := (held.takeResult 0 (some (lineOf 0 3 ⟨.uncorrectable, 5⟩))).1
    y.decision = some .notFound ∧ y.corrected = 1 ∧ y.status = .notFound ∧ z.decision = some (.bad 24) ∧
      z.corrected = 0 ∧ z.results = .transfer ⟨32, 0, 1, some 24, some 24⟩ := by decide +kernel

/-- A port whose slot 3 holds a FILL of context 0 with as many lines outstanding. -/
def filling (st : PortState) (outstanding : Nat) : HostPort :=
  { runCtx (ctx .active (.fill 0 128 0)) with
    state := st
    slots := run.slots.set 3
      (some { Transfer.fresh 0 (.fill 0 128 0) with next := 2, outstanding := outstanding, phase := .finishing }) }

theorem witness_transferEndsWithItsStatusAndResults :
    (∀ st ∈ [PortState.running, .faulted], ∀ n ∈ [1, 2],
      ((filling st n).slots[(3 : SlotId)]).map Transfer.ctx = some 0 ∧ (filling st n).slotReads[(3 : SlotId)] = none ∧
        (∀ j : SlotId, j ≠ 3 → (filling st n).slots[j] = none) ∧ (filling st n).state = st ∧
        (((filling st n).slots[(3 : SlotId)]).map fun x => ((x.takeResult 1 none).1.phase, (x.takeResult 1 none).1.outstanding)) =
          some (.finishing, n - 1)) ∧
      (∀ i : SlotId, run.slots[i] = none) := by decide +kernel

/-- The last WRITE_LINE of a FILL ends it OK with its length; the one before it does not; in FAULTED it makes no completion
(R141, R144, R145). -/
theorem test_transfer_ends :
    let seen (h : HostPort) := (h.slots[(3 : SlotId)].isSome, h.writeList.map fun c => (c.status, c.results),
      (h.contexts[(0 : CtxId)]).state)
    seen (takeTransferResult 0 1 none (filling .running 1)) =
        (false, [(.ok, .transfer ⟨128, 0, 0, none, none⟩)], .done) ∧
      seen (takeTransferResult 0 1 none (filling .running 2)) = (true, [], .active) ∧
      seen (takeTransferResult 0 1 none (filling .faulted 1)) = (false, [], .free) := by decide +kernel

/-! ## Witnesses: completions -/

/-- A record write outstanding, the front of a write list. -/
def completion (c : CtxId) (notify : Bool) : Completion := ⟨c, 0xAB, 1, notify, .ok, .none⟩

def posting (tail count : Nat) (notify : Bool) (more : List Completion) : HostPort :=
  { runCtx (ctx .done .nop) with
    cqTail := tail
    unconsumed := count
    unannounced := count
    writeList := completion 0 notify :: more
    recordWrite := some ⟨completion 0 notify, 1⟩ }

theorem witness_recordReportsEndTheirRecordWrite :
    let h := posting 15 1 false [completion 1 false]
    h.recordWrite = some ⟨completion 0 false, 1⟩ ∧ h.values = some values ∧ h.inService = true ∧
      h.cqTail + 1 = values.cqEntries ∧ (posting 0 3 false []).unannounced + 1 = values.coalesce ∧
      ({ h with state := .faulted }).state = .faulted := by decide +kernel

/-- A port that is PAUSED with one context more in use than the resume mark of selector 0. -/
def paused : HostPort :=
  { posting 0 0 false [] with
    hold := .paused
    contexts := (List.range' 1 8).foldl (fun v i => v.set (Fin.ofNat 64 i) (ctx .active .nop)) (posting 0 0 false []).contexts }

/-- The ninth context freed brings contexts in use to 8: the intake resumes (R113, R118). -/
theorem test_intake_resumes :
    paused.inUse = 9 ∧
      see (.completionWriteAccepted .p0 false) (withPort paused) (fun t => (t.port0.inUse, t.port0.hold)) =
        some (8, .clear) ∧
      see (.completionWriteAccepted .p0 false) (withPort (setContext 20 (fun _ => ctx .active .nop) paused))
        (fun t => (t.port0.inUse, t.port0.hold)) = some (9, .paused) := by decide +kernel

/-- Steps 1, 2, 4 and 9 of section 9.5: timer, wrap, the count, NOTIFY. -/
theorem test_announces_of_the_worked_example :
    [see (.completionWriteAccepted .p0 false) { withPort (posting 14 0 false []) with timeBase := 1000 }
        (fun t => (t.port0.cqTail, t.port0.phase, t.port0.unannounced, t.port0.announced)),
      see (.completionWriteAccepted .p0 false) (withPort (posting 15 1 false []))
        (fun t => (t.port0.cqTail, t.port0.phase, t.port0.unannounced, t.port0.announced)),
      see (.completionWriteAccepted .p0 false) (withPort (posting 1 3 false []))
        (fun t => (t.port0.cqTail, t.port0.phase, t.port0.unannounced, t.port0.announced)),
      see (.completionWriteAccepted .p0 false) (withPort (posting 3 0 true []))
        (fun t => (t.port0.cqTail, t.port0.phase, t.port0.unannounced, t.port0.announced))] =
      [some (15, true, 1, 0), some (0, false, 2, 0), some (2, true, 0, 4), some (4, true, 0, 1)] := by decide +kernel

theorem test_timer_and_message_of_the_worked_example :
    see (.completionWriteAccepted .p0 false) { withPort (posting 14 0 false []) with timeBase := 1000 }
        (fun t => (t.port0.quietTimer, t.port0.sent)) = some (some ⟨1050, false⟩, []) ∧
      see (.completionWriteAccepted .p0 false) (withPort (posting 1 3 false []))
        (fun t => (t.port0.quietTimer, t.port0.sent)) = some (none, [.message 0x3000 0x55]) := by decide +kernel

/-- The 32 bytes of a completion record (section 11.2). -/
theorem test_completion_record :
    recordBytes ⟨3, 0x0102, 1, false, .dataError, .transfer ⟨280, 1, 1, some 136, none⟩⟩ true 5 =
      [1, 8, 2, 1, 5, 0, 3, 1, 0x18, 1, 0, 0, 1, 0, 0, 0, 1, 0, 0, 0, 136, 0, 0, 0, 255, 255, 255, 255, 0, 0, 0, 0] := by
  decide +kernel

/-- A store with slot 1 of the Retirement Memory current and 2 entries recorded. -/
def recorded : State :=
  { migrating .copying .held 7 with
    ret := { State.reset.ret with current := some .slot1, slot1 := .image ⟨5, [3, 4], true⟩ } }

theorem witness_recordsAreLaidOutByTheirTables :
    ({ run with sqHead := 4095 }).sqHead ≤ 4095 ∧
      (let s := recorded
       s.seg.spares.length ≤ 8 ∧ s.seg.retired.length ≤ 8 ∧ s.seg.queue.length ≤ 8 ∧ s.mig.watermark ≤ 16384 ∧
         s.seg.threshold ≤ 65535 ∧ s.scrub.rate ≤ 4096 ∧ s.ret.current = some .slot1 ∧
         s.ret.slot1 = .image ⟨5, [3, 4], true⟩ ∧ [3, 4].length = 2) ∧
      (∀ x ∈ [Results.transfer ⟨0, 0, 0, none, some 4294967288⟩, .lock true none, .lock false (some ⟨.p1, 7⟩), .mapQuery 512,
          .incidents 16 255, .tune 65535 4096, .none],
        (⟨63, 0xFFFF, 0xFF, true, .cancelled, x⟩ : Completion).status ≠ .malformed) := by decide +kernel

/-- The trailer of that store (section 11.3): 7 spares, 2 recorded, COPYING with the lock HELD at watermark 7, from 0 to 512. -/
theorem test_trailer :
    let bytes := trailerBytes recorded.seg recorded.mig recorded.ret 256
    (bytes.length, bytes.take 24) =
      (64, [7, 2, 0x22, 0, 7, 0, 0, 0, 0, 0, 0, 2, 64, 0, 0, 1, 1, 2, 2, 2, 3, 2, 4, 2]) := by decide +kernel

/-- A lock completion with no holder: the ABANDONED bit in the flags, and no result byte set (section 11.2). -/
theorem test_lock_record :
    recordBytes ⟨0, 0x0201, 0x10, false, .ok, .lock true none⟩ false 4095 =
      [0x10, 0, 1, 2, 0xFF, 0x0F, 0, 2] ++ List.replicate 24 0 := by decide +kernel

theorem witness_recordReportsRefused :
    let h := posting 15 1 false []
    h.recordWrite = some ⟨completion 0 false, 1⟩ ∧ h.inService = true ∧ ({ h with state := .faulted }).state = .faulted := by
  decide +kernel

theorem test_refused_record :
    see (.completionWriteRefused .p0 false) (withPort (posting 15 1 false [completion 1 false]))
      (fun t => (t.port0.state, t.port0.faultCode, t.port0.cqTail, t.port0.unconsumed, t.port0.inUse)) =
      some (.faulted, .postError, 15, 1, 0) := by decide +kernel

/-! ## Witnesses: maintenance -/

/-- A command of port 0 waits at the Maintenance Unit, with one incident record and a dropped count of 1. -/
def waiting (cmd : Command) (records : List IncidentRecord) : State :=
  { withPort { runCtx (ctx .active cmd) with maintQueue := [0] } with incidents := ⟨records, 36, 1⟩ }

def incident : IncidentRecord := ⟨35, 0x010203, ⟨.migrated, .migration, some 1, some 2, some 3, none⟩⟩

theorem witness_maintenanceCommandsStartByTheArbiter :
    ∀ x ∈ [(Command.mapQuery 511 1 0, []), (.incidents 16 0, [incident]), (.incidents 16 0, [])],
      let s := waiting x.1 x.2
      s.maint.running = none ∧ (s.port .p0).maintQueue = 0 :: [] ∧ (s.port PortId.p0.other).maintQueue = [] ∧
        s.maint.turn = .p0 ∧ ((s.port .p0).contexts[(0 : CtxId)]).cmd = x.1 ∧ (s.port .p0).inService = true ∧
        s.incidents.records = x.2 := by decide +kernel

theorem test_incidents_of_an_empty_list :
    see .incidents (waiting (.incidents 16 0) []) (fun t => (t.maint.turn, t.incidents.dropped, t.port0.writeList.map (·.results))) =
      some (.p1, 0, [.incidents 0 1]) := by decide +kernel

/-- The map report entry of logical segment 511 on physical 511, MAPPED (section 11.3). -/
theorem test_map_entry :
    mapEntryBytes (mapBuild []) none 511 = [0xFF, 1, 0xFF, 1, 0, 0, 0, 0, 0xFF, 0xFF, 0, 0, 0, 0, 0, 0] := by decide +kernel

/-- The bytes of an incident record (section 11.3). -/
theorem test_incident_record :
    incidentBytes incident =
      [35, 0, 4, 2, 3, 2, 1, 0, 0, 0, 0, 0, 1, 0, 2, 0, 3, 0, 0, 0, 255, 255, 255, 255, 0, 0, 0, 0, 0, 0, 0, 0] := by
  decide +kernel

theorem witness_maintenanceCommandsTuneAndRelocate :
    ∀ cmd ∈ [Command.tune (some 1) (some 0), .relocate 511],
      let s := waiting cmd []
      s.maint.running = none ∧ (s.port .p0).maintQueue = 0 :: [] ∧ (s.port PortId.p0.other).maintQueue = [] ∧
        (s.port .p0).inService = true ∧ ((s.port .p0).contexts[(0 : CtxId)]).cmd = cmd ∧
        (s.seg.map[(511 : LogSeg)]).state = .mapped ∧ s.seg.queue.length < s.seg.spares.length := by decide +kernel

theorem test_tune :
    see .tune (waiting (.tune (some 1) none) [])
      (fun t => (t.seg.threshold, t.scrub.rate, t.port0.writeList.map (·.results))) =
      some (1, 256, [.tune 64 256]) := by decide +kernel

theorem test_relocate :
    see .relocate (waiting (.relocate 511) [])
      (fun t => (t.seg.queue, (t.seg.map[(511 : LogSeg)]).state, (t.port0.contexts[(0 : CtxId)]).state)) =
      some ([511], .queued, .relocateWait) := by decide +kernel

/-- A command runs for port 0. -/
def running (job : MaintJob) (check : Option CheckRead) (stop : Option Stop) : State :=
  let s := waiting .nop [incident]
  { s with port0 := { s.port0 with alertCause := true }, maint := ⟨some ⟨.p0, 0, job, check, stop⟩, .p1⟩ }

theorem witness_bufferWritesGoUpwardAndEndInACheckRead :
    ∀ job ∈ [MaintJob.mapQuery 1 64 [[1], [2]], .incidents 1 0 64],
      (running job none none).maint.running = some ⟨.p0, 0, job, none, none⟩ ∧
        (running job none none).incidents.records = incident :: [] := by decide +kernel

/-- The last record's write removes it and brings the check read (R163, R173). -/
theorem test_buffer_write :
    see .bufferWrite (running (.incidents 1 0 64) none none)
      (fun t => (t.incidents.records, t.maint.running.map Running.checkRead)) =
      some ([], some (some ⟨88, 8, 1⟩)) := by decide +kernel

/-- The check read of a MAP_QUERY of 1 entry reads bytes 56 to 63 of the trailer, at buffer address + 1 × 16 + 56 (R179). -/
theorem test_check_read_of_a_map_query :
    see .bufferWrite (running (.mapQuery 1 (64 + 16) [List.replicate 64 0]) none none)
      (fun t => t.maint.running.map Running.checkRead) = some (some (some ⟨64 + 16 + 56, 8, 1⟩)) := by decide +kernel

/-- A ring fault ends the port's running command, whose context is freed, unless its check read is awaited (R123, R164). -/
theorem test_fault_of_a_running_command :
    let view (t : State) := ((t.port0.contexts[(0 : CtxId)]).state, t.maint.running.map Running.stop)
    let started (job : MaintJob) (check : Option CheckRead) : State :=
      (running job check none).modPort .p0 fun h => { h with maintQueue := [] }
    see (.submit .p0 16) (started (.mapQuery 1 64 [[1]]) none) view = some (.free, none) ∧
      see (.submit .p0 16) (started (.mapQuery 1 64 []) (some ⟨88, 8, 1⟩)) view = some (.active, some (some .fault)) := by
  decide +kernel

theorem witness_checkReadEndsTheRunningCommand :
    (∀ job ∈ [MaintJob.mapQuery 1 64 [], .incidents 1 1 64],
      (running job (some ⟨88, 8, 1⟩) none).maint.running = some ⟨.p0, 0, job, some ⟨88, 8, 1⟩, none⟩ ∧
        ((running job (some ⟨88, 8, 1⟩) none).port .p0).inService = true) ∧
      (let s := running (.incidents 1 1 64) (some ⟨88, 8, 1⟩) (some .fault)
       ({ s with port0 := { s.port0 with state := .faulted } }.port .p0).state = .faulted) ∧
      ((running (.incidents 1 1 64) (some ⟨88, 8, 1⟩) (some .reset)).maint.running.map Running.stop) = some (some .reset) := by
  decide +kernel

theorem test_check_read :
    see (.maintCheckReadDone false) (running (.incidents 1 1 64) (some ⟨88, 8, 1⟩) none)
      (fun t => (t.maint.running, t.incidents.dropped, t.port0.writeList.map fun c => (c.status, c.results))) =
      some (none, 0, [(.hostFault, .incidents 1 1)]) := by decide +kernel

end Sys2Proof.Tests
end

section
/-! O8. The check code: what decoding reports for no, one and two bits in error, and for a poisoned word (R5, R6). -/

namespace Sys2Proof.Machine

/-- The syndrome of each of the 72 stored bits is one of the single-bit syndromes. -/
theorem syndromeOf_mem_singles (c : Nat → BitVec 8) (b : Fin 72) : syndromeOf c b ∈ singles c :=
  List.mem_map.mpr ⟨b, by simp [List.mem_range'_1], rfl⟩

/-- Under a code that keeps to R6, a syndrome names its bit. -/
theorem CodeOk.syndromeOf_inj {c : Nat → BitVec 8} (hc : CodeOk c) {i j : Nat} (hi : i < 72) (hj : j < 72)
    (h : syndromeOf c i = syndromeOf c j) : i = j := by
  obtain ⟨-, hsingles⟩ := List.nodup_cons.mp (List.nodup_cons.mp hc.1).2
  exact List.inj_on_of_nodup_map hsingles (by simp [List.mem_range'_1, hi]) (by simp [List.mem_range'_1, hj]) h

@[simp] theorem validWord_data (d : Word) : (validWord d).data = d := rfl
@[simp] theorem validWord_diff (d : Word) : (validWord d).diff = 0#8 := rfl
@[simp] theorem poisonWord_data (d : Word) : (poisonWord d).data = d := rfl
@[simp] theorem poisonWord_diff (d : Word) : (poisonWord d).diff = poisonSyndrome := rfl

theorem poisonSyndrome_ne_zero : poisonSyndrome ≠ 0#8 := by decide

/-- A flipped bit changes the syndrome of its word by the syndrome of that bit. -/
theorem flipBit_diff (w : StoredWord) (b : Fin 72) : (flipBit w b).diff = w.diff ^^^ syndromeOf columnOf b := by
  unfold flipBit syndromeOf
  split <;> rfl

theorem flipBit_data (w : StoredWord) (b : Fin 72) :
    (flipBit w b).data = if b.val < 64 then w.data ^^^ BitVec.twoPow 64 b.val else w.data := by
  unfold flipBit
  split <;> rfl

/-! ## Decoding by syndrome -/

theorem oneCheckBit_iff (x : BitVec 8) : oneCheckBit x = true ↔ ∃ i < 8, x = BitVec.twoPow 8 i := by
  simp [oneCheckBit, List.mem_range'_1]

/-- A syndrome that indicates a check bit is the syndrome of that bit. -/
theorem mem_singles_of_oneCheckBit {x : BitVec 8} (h : oneCheckBit x = true) : x ∈ singles columnOf := by
  obtain ⟨i, hi, rfl⟩ := (oneCheckBit_iff x).mp h
  simpa [syndromeOf] using syndromeOf_mem_singles columnOf ⟨64 + i, by omega⟩

/-- A data bit that a syndrome indicates has that syndrome. -/
theorem mem_singles_of_indicatedDataBit {x : BitVec 8} {i : Nat} (h : indicatedDataBit x = some i) :
    x ∈ singles columnOf := by
  have hi : i < 64 := by simpa [List.mem_range'_1] using List.mem_of_find?_eq_some h
  have hx : columnOf i = x := by simpa using List.find?_some h
  simpa [syndromeOf, hi, hx] using syndromeOf_mem_singles columnOf ⟨i, by omega⟩

/-- The column of a data bit indicates that bit, since no other data bit has it. -/
theorem indicatedDataBit_columnOf {i : Nat} (hi : i < 64) : indicatedDataBit (columnOf i) = some i := by
  obtain ⟨j, hj⟩ : ∃ j, indicatedDataBit (columnOf i) = some j :=
    Option.isSome_iff_exists.mp (List.find?_isSome.mpr ⟨i, by simp [List.mem_range'_1, hi], by simp⟩)
  have hj64 : j < 64 := by simpa [List.mem_range'_1] using List.mem_of_find?_eq_some hj
  have hcol : columnOf j = columnOf i := by simpa using List.find?_some hj
  have hji : j = i := codeOk_column.syndromeOf_inj (by omega) (by omega) (by simpa [syndromeOf, hi, hj64] using hcol)
  rw [hj, hji]

/-- The column of a data bit indicates no check bit. -/
theorem oneCheckBit_columnOf {i : Nat} (hi : i < 64) : oneCheckBit (columnOf i) = false := by
  rw [Bool.eq_false_iff, ne_eq, oneCheckBit_iff]
  rintro ⟨k, hk, h⟩
  have : i = 64 + k := codeOk_column.syndromeOf_inj (by omega) (by omega) (by simpa [syndromeOf, hi] using h)
  omega

/-- The syndrome of one bit is neither zero nor the poison syndrome. -/
theorem syndromeOf_ne (b : Fin 72) :
    syndromeOf columnOf b ≠ 0#8 ∧ syndromeOf columnOf b ≠ poisonSyndrome := by
  obtain ⟨hzero, hrest⟩ := List.nodup_cons.mp codeOk_column.1
  have hmem := syndromeOf_mem_singles columnOf b
  exact ⟨fun h => hzero (h ▸ List.mem_cons_of_mem _ hmem), fun h => (List.nodup_cons.mp hrest).1 (h ▸ hmem)⟩

/-- A syndrome that is not zero, not the poison syndrome and not of one bit is reported UNCORRECTABLE (R5). -/
theorem decodeStored_of_not_mem {w : StoredWord} (hzero : w.diff ≠ 0#8)
    (hmem : w.diff ∉ poisonSyndrome :: singles columnOf) : decodeStored w = ⟨.uncorrectable, w.data⟩ := by
  rw [List.mem_cons, not_or] at hmem
  obtain ⟨hpoison, hsingle⟩ := hmem
  have hcheck : ¬ oneCheckBit w.diff = true := fun h => hsingle (mem_singles_of_oneCheckBit h)
  have hdata : indicatedDataBit w.diff = none :=
    Option.eq_none_iff_forall_ne_some.mpr fun i h => hsingle (mem_singles_of_indicatedDataBit h)
  simp [decodeStored, hzero, hpoison, hcheck, hdata]

/-- Two different syndromes, each of one bit or of poison, add up to one that is reported UNCORRECTABLE (R6). -/
theorem decodeStored_of_xor {w : StoredWord} {x y : BitVec 8} (hx : x ∈ poisonSyndrome :: singles columnOf)
    (hy : y ∈ poisonSyndrome :: singles columnOf) (hne : x ≠ y) (hw : w.diff = x ^^^ y) :
    decodeStored w = ⟨.uncorrectable, w.data⟩ :=
  decodeStored_of_not_mem (by rw [hw]; exact fun h => hne (BitVec.xor_eq_zero_iff.mp h))
    (by rw [hw]; exact codeOk_column.2 x hx y hy hne)

theorem decodeStored_validWord (d : Word) : decodeStored (validWord d) = ⟨.clean, d⟩ := by
  simp [decodeStored]

theorem decodeStored_poisonWord (d : Word) : decodeStored (poisonWord d) = ⟨.poisoned, d⟩ := by
  simp [decodeStored, poisonSyndrome_ne_zero]

/-- The syndrome of a data bit has that bit flipped back (R5). -/
theorem decodeStored_of_dataBit {w : StoredWord} {b : Fin 72} (hb : b.val < 64) (hw : w.diff = syndromeOf columnOf b) :
    decodeStored w = ⟨.corrected, w.data ^^^ BitVec.twoPow 64 b.val⟩ := by
  obtain ⟨hzero, hpoison⟩ := syndromeOf_ne b
  rw [syndromeOf, if_pos hb] at hw hzero hpoison
  simp [decodeStored, hw, hzero, hpoison, oneCheckBit_columnOf hb, indicatedDataBit_columnOf hb]

/-- The syndrome of a check bit leaves the data bits as they are (R5). -/
theorem decodeStored_of_checkBit {w : StoredWord} {b : Fin 72} (hb : ¬ b.val < 64) (hw : w.diff = syndromeOf columnOf b) :
    decodeStored w = ⟨.corrected, w.data⟩ := by
  obtain ⟨hzero, hpoison⟩ := syndromeOf_ne b
  have hcheck : oneCheckBit (syndromeOf columnOf b) = true := (oneCheckBit_iff _).mpr ⟨b - 64, by omega, if_neg hb⟩
  simp [decodeStored, hw, hzero, hpoison, hcheck]

/-- One bit in error in a word with a valid code is corrected (R6). -/
theorem decodeStored_flipBit_validWord (d : Word) (b : Fin 72) :
    decodeStored (flipBit (validWord d) b) = ⟨.corrected, d⟩ := by
  have hdiff : (flipBit (validWord d) b).diff = syndromeOf columnOf b := by simp [flipBit_diff]
  by_cases hb : b.val < 64
  · simp [decodeStored_of_dataBit hb hdiff, flipBit_data, hb]
  · simp [decodeStored_of_checkBit hb hdiff, flipBit_data, hb]

/-- Settles O8: the code of the part keeps to R6 whatever the free choice, and decoding follows from where a syndrome lies. -/
theorem checkCodeIsExactForOneAndTwoBits : Obligations.CheckCodeIsExactForOneAndTwoBits := by
  refine ⟨codeOk_column.1, fun d => ⟨decodeStored_validWord d, decodeStored_poisonWord d,
    decodeStored_flipBit_validWord d, fun b c hbc => ?_, fun b => ?_⟩⟩
  · have hne : syndromeOf columnOf b ≠ syndromeOf columnOf c :=
      fun h => hbc (Fin.ext (codeOk_column.syndromeOf_inj b.isLt c.isLt h))
    exact decodeStored_of_xor (List.mem_cons_of_mem _ (syndromeOf_mem_singles columnOf b))
      (List.mem_cons_of_mem _ (syndromeOf_mem_singles columnOf c)) hne (by simp [flipBit_diff])
  · rw [decodeStored_of_xor (List.mem_cons_self ..) (List.mem_cons_of_mem _ (syndromeOf_mem_singles columnOf b))
      (syndromeOf_ne b).2.symm (by simp [flipBit_diff])]

end Sys2Proof.Machine
end

section
/-! O9. The line operations: what each reads, leaves in a word and reports (R8, R10 to R13), and a bit in error (R6). -/

namespace Sys2Proof.Machine

/-! ## A bit in error -/

/-- Of the 8 stored check bits a flip changes that one alone: a flipped data bit leaves them, its column being taken up by the
difference (R4). -/
theorem flipBit_check (w : StoredWord) (b : Fin 72) :
    (flipBit w b).check = if b.val < 64 then w.check else w.check ^^^ BitVec.twoPow 8 (b.val - 64) := by
  by_cases hb : b.val < 64
  · simp only [StoredWord.check, flipBit, hb, if_true]
    rw [checkBits_flip w.data hb, BitVec.xor_comm w.diff, BitVec.xor_assoc, ← BitVec.xor_assoc (columnOf _), BitVec.xor_self,
      BitVec.zero_xor]
  · simp only [StoredWord.check, flipBit, hb, if_false, BitVec.xor_assoc]

theorem exec_bitInError (line : PLine) (word : Fin 8) (bit : Fin 72) (s : State) :
    exec (.bitInError line word bit) s =
      .next { s with
        store := memoryPut s.store (wordNumber line word) (flipBit (storedAt s.epoch s.store (wordNumber line word)) bit) } :=
  rfl

/-! ## What a read hands back -/

theorem readResults_getElem (e : Nat) (m : Memory) (l : PLine) (w : Fin 8) :
    (readResults e m l)[w] = decodeStored (storedAt e m (wordNumber l w)) := by
  simp [readResults]

theorem at8_val {α : Type} (v : Vector α 8) (w : Fin 8) : at8 v w.val = v[w] := by
  simp [at8]

/-- The findings of a read name its CORRECTED and UNCORRECTABLE words in ascending order (R8). -/
theorem findings_eq (r : LineResult) :
    findings r =
      ((List.finRange 8).filter fun w => decide ((r[w]).outcome = .corrected ∨ (r[w]).outcome = .uncorrectable)).map
        fun w => ⟨w, decide ((r[w]).outcome = .uncorrectable)⟩ := by
  have hwords : (List.range' 0 8).map (Fin.ofNat 8) = List.finRange 8 := by decide
  rw [findings, hwords, ← List.filterMap_eq_map, List.filterMap_filter]
  refine List.filterMap_congr fun w _ => ?_
  rw [Function.comp_apply]
  generalize (r[w]).outcome = found
  cases found <;> simp

/-! ## What an operation leaves in a word -/

section
variable (e : Nat) (m : Memory) (l : PLine) (w : Fin 8)

/-- A WRITE_LINE leaves a word outside its mask, and stores the poison code where the poison mask names the word (R11). -/
theorem storedAt_performOp_writeLine (o : WriteOperand) :
    storedAt e (performOp e m (.writeLine o) l).1 (wordNumber l w) =
      if o.mask.getLsbD w then if o.poison.getLsbD w then poisonWord o.data[w] else validWord o.data[w]
      else storedAt e m (wordNumber l w) := by
  simp only [performOp, storedAt_writeWords e m l _ l w.isLt, if_true, writeLineWord, at8_val]
  split <;> rfl

/-- A SCRUB_LINE writes back what it corrected, and poisons a word it found UNCORRECTABLE (R12). -/
theorem storedAt_performOp_scrubLine :
    storedAt e (performOp e m .scrubLine l).1 (wordNumber l w) =
      (scrubWord (decodeStored (storedAt e m (wordNumber l w)))).getD (storedAt e m (wordNumber l w)) := by
  simp only [performOp, storedAt_writeWords e m l _ l w.isLt, if_true, at8_val, readResults_getElem]

/-- An INIT_LINE writes zero with a valid code (R13). -/
theorem storedAt_performOp_initLine :
    storedAt e (performOp e m .initLine l).1 (wordNumber l w) = validWord 0 := by
  simp only [performOp, storedAt_writeWords e m l _ l w.isLt, if_true, Option.getD_some]

end

/-- A word found UNCORRECTABLE is delivered as it is stored (R5). -/
theorem decodeStored_data_of_uncorrectable {w : StoredWord} (h : (decodeStored w).outcome = .uncorrectable) :
    (decodeStored w).data = w.data := by
  unfold decodeStored at h ⊢
  split
  · rfl
  · split
    · rfl
    · split
      · rfl
      · split <;> simp_all

/-- A read hands a report when it found a word CORRECTED or UNCORRECTABLE (R8). -/
theorem healthReportOf_some (src : Source) (op : LineOp) (l : PLine) (r : LineResult) :
    healthReportOf src op l (some r) =
      let found :=
        (List.finRange 8).filter fun w => decide ((r[w]).outcome = .corrected ∨ (r[w]).outcome = .uncorrectable)
      if found = [] then []
      else [⟨l, src, decide (op = .scrubLine), found.map fun w => ⟨w, decide ((r[w]).outcome = .uncorrectable)⟩⟩] := by
  simp only [healthReportOf, findings_eq, List.map_eq_nil_iff]

/-- The result of an operation: what its read found, and nothing for one that does not read. -/
theorem performOp_result (e : Nat) (m : Memory) (op : LineOp) (l : PLine) :
    (performOp e m op l).2 = if op = .readLine ∨ op = .scrubLine then some (readResults e m l) else none := by
  cases op <;> simp [performOp]

/-- Settles O9: the flip of a bit by what a memory reads after a write, each operation by its case, the report by its findings. -/
theorem lineOperationsReadAndWriteAsLaidDown : Obligations.LineOperationsReadAndWriteAsLaidDown := by
  refine ⟨fun line word bit s => ?_, fun e m op l k w => ⟨fun hk => ?_, ?_⟩, fun e m op l src => ?_⟩
  · refine ⟨_, exec_bitInError line word bit s, rfl, fun k w hne => ?_, ?_⟩
    · have hnumber : wordNumber k w ≠ wordNumber line word := fun h => by
        obtain ⟨hk, hw⟩ := wordNumber_inj w.isLt word.isLt h
        exact hne.elim (· hk) (· (Fin.ext hw))
      rw [storedAt_memoryPut, if_neg hnumber]
    · simp only [storedAt_memoryPut, if_true]
      exact ⟨flipBit_data _ bit, flipBit_check _ bit⟩
  · exact storedAt_performOp_ne e m op l k hk w.isLt
  · rintro rfl
    cases op with
    | readLine => exact ⟨rfl, _, rfl, readResults_getElem e m k w⟩
    | writeLine o => exact ⟨rfl, storedAt_performOp_writeLine e m k w o⟩
    | scrubLine =>
      refine ⟨⟨_, rfl, readResults_getElem e m k w⟩, ?_⟩
      rw [storedAt_performOp_scrubLine, scrubWord]
      cases h : (decodeStored (storedAt e m (wordNumber k w))).outcome <;>
        simp [decodeStored_data_of_uncorrectable, h]
    | initLine => exact ⟨rfl, storedAt_performOp_initLine e m k w⟩
  · simp only [performOp_result]
    split
    · simp only [healthReportOf_some, readResults_getElem]
    · rfl

end Sys2Proof.Machine
end

section
/-! O13, O14. The end of an operation: the state its source acts on, and what the source of a host or a scrub reference does with
the result (R65, R68, R69, R77 to R80). -/

namespace Sys2Proof.Machine

theorem exec_grant (b : Bank) (s : State) : exec (.grant b) s = .next (arbiterAct b s) := rfl

/-- The state on which the source acts when bank `b` has ended its operation: the bank's arbiter has acted before it or not. -/
def operationEnded (b : Bank) (arbiterFirst : Bool) (o : BankOp) (s : State) : State :=
  if arbiterFirst then arbiterAct b (bankDone b o s) else bankDone b o s

/-- What the bank does at the end of its operation, in the words of the statements (R8, R9, R68). -/
theorem bankDone_eq (b : Bank) (o : BankOp) (s : State) :
    bankDone b o s =
      { s with
        store := (performOp s.epoch s.store o.ref.op o.line).1
        reports := s.reports ++ healthReportOf o.source o.ref.op o.line (performOp s.epoch s.store o.ref.op o.line).2
        sched :=
          { s.sched.setQueue o.source ((s.sched.queue o.source).eraseP fun r => r.granted.isSome && r.bank == b) with
            banks := s.sched.banks.set b none } } := by
  have hbanks (l : List Ref) : (s.sched.setQueue o.source l).banks = s.sched.banks := by
    rcases o.source with (_ | _) | _ | _ <;> rfl
  simp only [bankDone, dropGranted, hbanks]

theorem sourceActsOn_operationEnded (b : Bank) (arbiterFirst : Bool) (o : BankOp) (s : State) :
    SourceActsOn b arbiterFirst o s (operationEnded b arbiterFirst o s) := by
  cases arbiterFirst with
  | false => exact bankDone_eq b o s
  | true =>
    show exec (.grant b) _ = .next (arbiterAct b (bankDone b o s))
    rw [exec_grant, bankDone_eq]

/-- The end of an operation: its source takes the result on the state that the bank, and its arbiter if that acts first, leave
(R68, R69). -/
theorem exec_operationDone {b : Bank} {s : State} {o : BankOp} (arbiterFirst : Bool) (hb : s.sched.banks[b] = some o) :
    exec (.operationDone b arbiterFirst) s =
      .next (giveResult o (performOp s.epoch s.store o.ref.op o.line).2 (operationEnded b arbiterFirst o s)) := by
  show execOperationDone b arbiterFirst s = _
  simp only [execOperationDone, hb, resultOf, operationEnded]

/-- Of the state it found, the end of an operation changes the store, the reports, the scheduler, the held-over set and, by the
arbiter's act, the Scrub Unit alone. -/
theorem operationEnded_frame (b : Bank) (arbiterFirst : Bool) (o : BankOp) (s : State) :
    operationEnded b arbiterFirst o s =
      { s with
        store := (performOp s.epoch s.store o.ref.op o.line).1
        reports := s.reports ++ healthReportOf o.source o.ref.op o.line (performOp s.epoch s.store o.ref.op o.line).2
        sched := (operationEnded b arbiterFirst o s).sched
        mig := (operationEnded b arbiterFirst o s).mig
        scrub := (operationEnded b arbiterFirst o s).scrub } := by
  cases arbiterFirst with
  | false => rfl
  | true => exact arbiterAct_frame b (bankDone b o s)

/-! ## Host references -/

/-- The result of a host reference goes to the transfer unit of its port (R69). -/
theorem giveResult_transfer {o : BankOp} {p : PortId} {c : CtxId} {line : Nat} (hsource : o.source = .host p)
    (horigin : o.ref.origin = .transfer c line) (r : Option LineResult) (s : State) :
    giveResult o r s = s.setPort p (takeTransferResult c line r (s.port p)) := by
  simp only [giveResult, hsource, horigin, modPort_eq]

/-- Settles O13: the result goes to the port that issued the reference, and the operation keeps the words of other lines. -/
theorem hostOperationDoneHandsItsResult : Obligations.HostOperationDoneHandsItsResult := by
  intro b arbiterFirst s o p c line hb hsource horigin
  have hframe := operationEnded_frame b arbiterFirst o s
  rw [hsource] at hframe
  refine ⟨_, sourceActsOn_operationEnded b arbiterFirst o s, hframe, ?_, fun k w hk => ?_⟩
  · have hport : (operationEnded b arbiterFirst o s).port p = s.port p := by rw [hframe]; cases p <;> rfl
    rw [exec_operationDone arbiterFirst hb, giveResult_transfer hsource horigin, hport]
  · rw [hframe]
    exact storedAt_performOp_ne s.epoch s.store o.ref.op o.line k hk w.isLt

/-! ## Scrub references -/

/-- The end of a scrub reference hands the Scrub Unit its result. -/
theorem exec_operationDone_scrub {b : Bank} {s : State} {o : BankOp} {pass : Pass} (arbiterFirst : Bool)
    (hb : s.sched.banks[b] = some o) (hsource : o.source = .scrub) (horigin : o.ref.origin = .scrub pass) :
    exec (.operationDone b arbiterFirst) s = .next (takeScrubResult pass (operationEnded b arbiterFirst o s)) := by
  rw [exec_operationDone arbiterFirst hb, giveResult, hsource, horigin]

/-- The lowest segment in service (R77). -/
theorem lowestServed_eq {g : SegMap} {p : PhysSeg} (hp : (g.phys[p]).role ≠ .retired)
    (hbelow : ∀ q : PhysSeg, q < p → (g.phys[q]).role = .retired) : lowestServed g = p := by
  have hserved : isRetired g p = false := by simpa [isRetired] using hp
  have number (q : PhysSeg) : (Fin.ofNat 520 (0 + q.val) : PhysSeg) = q := by simp
  obtain ⟨m, hm, hfind, hfound, hleast⟩ := find_served g 520 0 ⟨p, p.isLt, by rw [number]; exact hserved⟩
  have hpm : ¬ p.val < m := fun h => by
    have := hleast p h
    rw [number, hserved] at this
    cases this
  have hmp : ¬ m < p.val := fun h => by
    have hq := (isRetired_iff g _).mpr (hbelow ⟨m, hm⟩ h)
    rw [← number ⟨m, hm⟩, hfound] at hq
    cases hq
  rw [lowestServed, hfind, show m = p.val by omega, number, Option.getD_some]

/-- An INIT_LINE that is not the last of the sweep lowers the count alone (R77). -/
theorem initLineDone_of_not_last (g : SegMap) (u : ScrubUnit) (h : ¬ (u.outstanding - 1 = 0 ∧ u.pos = .ended)) :
    initLineDone g u = { u with outstanding := u.outstanding - 1 } :=
  if_neg h

/-- The last INIT_LINE of the sweep makes the store READY and starts the patrol (R78). -/
theorem initLineDone_of_last (g : SegMap) (u : ScrubUnit) (hcount : u.outstanding = 1) (hpos : u.pos = .ended) :
    initLineDone g u =
      { u with store := .ready, pass := .patrol, pos := .at ⟨lowestServed g, 0⟩, credit := 0, outstanding := 0 } := by
  simp [initLineDone, sweepDone, hcount, hpos]

/-- With no credit the patrol issues nothing (R80). -/
theorem scrubIssue_of_no_credit {s : State} {l : PLine} (hserved : ∃ q : PhysSeg, (s.seg.phys[q]).role ≠ .retired)
    (hpass : s.scrub.pass = .patrol) (hpos : s.scrub.pos = .at l) (hcredit : s.scrub.credit = 0) : scrubIssue s = s := by
  obtain ⟨new, last, hissue, hwalk, hlen⟩ := scrubIssue_patrol s l hserved hpass hpos
  obtain rfl : new = [] := List.eq_nil_of_length_eq_zero (by rw [hlen, hcredit]; simp)
  obtain rfl : last = l := hwalk
  rw [hissue, List.append_nil, ← hpos]
  rfl

/-- Settles O14: the Scrub Unit's test for issue, on the state the bank leaves, in the sweep, at its end and in the patrol. -/
theorem scrubOperationsFreeTheirPlaces : Obligations.ScrubOperationsFreeTheirPlaces := by
  intro b arbiterFirst s o hb hsource
  obtain ⟨u, hu⟩ : ∃ u, operationEnded b arbiterFirst o s = u := ⟨_, rfl⟩
  have hexec {pass : Pass} (horigin : o.ref.origin = .scrub pass) :
      exec (.operationDone b arbiterFirst) s = .next (takeScrubResult pass u) :=
    hu ▸ exec_operationDone_scrub arbiterFirst hb hsource horigin
  refine ⟨u, hu ▸ sourceActsOn_operationEnded b arbiterFirst o s, fun horigin hpass hmore => ?_,
    fun p horigin hcount hpos hp hbelow => ?_, fun l horigin hpass hpos hserved => ?_⟩
  · obtain ⟨new, pos, hissue, hwalk, hroom, hfull⟩ :=
      scrubIssue_sweep { u with scrub := { u.scrub with outstanding := u.scrub.outstanding - 1 } } hpass
    refine ⟨_, new, hexec horigin, ?_⟩
    rw [takeScrubResult, initLineDone_of_not_last _ _ hmore, hissue]
    exact ⟨rfl, rfl, hwalk, hroom, hfull⟩
  · rw [hexec horigin, takeScrubResult, initLineDone_of_last _ _ hcount hpos, lowestServed_eq hp hbelow]
    exact congrArg _ (scrubIssue_of_no_credit ⟨p, hp⟩ rfl rfl rfl)
  · obtain ⟨new, last, hissue, hwalk, hlen⟩ := scrubIssue_patrol u l hserved hpass hpos
    exact ⟨new, last, by rw [hexec horigin, takeScrubResult, hissue], hwalk, hlen⟩

end Sys2Proof.Machine
end

section
/-! O5. POWER_ON_RESET: the values it gives, and the slots of the Retirement Memory it keeps (R24, R26). -/

namespace Sys2Proof.Machine

theorem exec_powerOnReset (left : SlotRemnant) (s : State) :
    exec (.powerOnReset left) s =
      .next
        { State.reset with
          epoch := s.epoch + 1
          ret := s.ret.powerOn left
          port0 := { HostPort.powerOn with linkUp := s.port0.linkUp }
          port1 := { HostPort.powerOn with linkUp := s.port1.linkUp }
          pending := s.pending } :=
  rfl

/-- With no write in progress a power-on reset keeps both slots (R26). -/
theorem RetMem.powerOn_slots_of_not_writing (left : SlotRemnant) {r : RetMem} (h : r.writing = none) :
    (r.powerOn left).slot0 = r.slot0 ∧ (r.powerOn left).slot1 = r.slot1 := by
  simp [RetMem.powerOn, h]

/-- A write in progress leaves its remnant in the slot it targets, and the other slot as it was (R25, R26). -/
theorem RetMem.powerOn_slots_of_writing (left : SlotRemnant) {r : RetMem} {i : Image} (h : r.writing = some i) :
    if r.current = some .slot0 then (r.powerOn left).slot0 = r.slot0 ∧ (r.powerOn left).slot1 = remnantOf left i
    else (r.powerOn left).slot0 = remnantOf left i ∧ (r.powerOn left).slot1 = r.slot1 := by
  rcases hc : r.current with _ | _ | _ <;> simp [RetMem.powerOn, h, RetMem.target, RetMem.setSlot, hc]

/-- Settles O5: the state is the one after reset but for what is kept, and the slots follow the write in progress. -/
theorem powerOnResetsEveryBlock : Obligations.PowerOnResetsEveryBlock := by
  refine fun left s => ⟨_, exec_powerOnReset left s, rfl, rfl, rfl, rfl, rfl, rfl, rfl, rfl, rfl, rfl, rfl, rfl, fun p => ?_,
    rfl, rfl, rfl, rfl, RetMem.powerOn_slots_of_not_writing left, fun i hi => ?_⟩
  · cases p <;> rfl
  · have hslots := RetMem.powerOn_slots_of_writing left hi
    cases left <;> exact hslots

end Sys2Proof.Machine
end

section
/-! O60. The state after reset: the build of an empty retired list, a port at its power-on values, and the invariants. -/

namespace Sys2Proof.Machine

/-! ## The build of an empty retired list (R27) -/

/-- Logical segment `l` is mapped to the physical segment of its number. -/
theorem mapBuild_nil_map (l : LogSeg) : (mapBuild []).map[l] = ⟨⟨l.val, by omega⟩, .mapped, false⟩ := by
  have hall : nonRetired [] = (List.range' 0 520).map (Fin.ofNat 520) := List.filter_eq_self.mpr fun _ _ => rfl
  have hl : (nonRetired [])[l.val]? = some (⟨l.val, by omega⟩ : PhysSeg) := by
    rw [hall, List.getElem?_map, List.getElem?_range' (by omega), Option.map_some, Nat.one_mul, Nat.zero_add]
    exact congrArg some (Fin.ext (Nat.mod_eq_of_lt (by omega)))
  simp [mapBuild, hl]

/-- A physical segment has its own number as its place in the pairing. -/
theorem mapBuild_nil_phys (p : PhysSeg) :
    (mapBuild []).phys[p] = if p.val < 512 then ⟨.mapped, some (Fin.ofNat 512 p.val), 0⟩ else ⟨.spare, none, 0⟩ := by
  simp [mapBuild, buildPhys, buildRank, Nat.mod_eq_of_lt p.isLt]

/-- The eight segments above those paired are spare, in ascending order. -/
theorem mapBuild_nil_spares : (mapBuild []).spares = (List.range' 512 8).map (Fin.ofNat 520) := by decide +kernel

theorem mem_mapBuild_nil_spares (p : PhysSeg) : p ∈ (mapBuild []).spares ↔ 512 ≤ p.val := by
  rw [mapBuild_nil_spares, List.mem_map]
  constructor
  · rintro ⟨n, hn, rfl⟩
    simp only [List.mem_range'_1] at hn
    simp only [Fin.ofNat]
    omega
  · exact fun h => ⟨p.val, by simp only [List.mem_range'_1]; omega, Fin.ofNat_val_eq_self p⟩

theorem rolesAgree_mapBuild_nil : RolesAgree (mapBuild []) := by
  refine ⟨fun p l => ?_, fun p => ?_⟩
  · rw [mapBuild_nil_phys, mapBuild_nil_map]
    by_cases hp : p.val < 512
    · simp [hp, Fin.ext_iff, Nat.mod_eq_of_lt, eq_comm]
    · simp [hp, Fin.ext_iff]; omega
  · rw [mapBuild_nil_phys]
    by_cases hp : p.val < 512 <;> simp [hp]

theorem listsAgree_mapBuild_nil : ListsAgree (mapBuild []) := by
  refine ⟨by rw [mapBuild_nil_spares]; decide, fun p => ?_, List.nodup_nil, fun p => ?_⟩
  · rw [mem_mapBuild_nil_spares, mapBuild_nil_phys]
    by_cases hp : p.val < 512 <;> simp [hp]; omega
  · rw [mapBuild_nil_phys]
    by_cases hp : p.val < 512 <;> simp [hp, mapBuild]

theorem queueAgrees_mapBuild_nil : QueueAgrees (mapBuild []) :=
  ⟨List.nodup_nil, fun l => by rw [mapBuild_nil_map]; simp [mapBuild], Nat.zero_le _⟩

/-- No segment is MIGRATING or RESERVED, as it must be while no migration is in progress. -/
theorem migrationAgrees_mapBuild_nil {m : Migration} (h : m.inProgress = false) : MigrationAgrees (mapBuild []) m := by
  refine ⟨fun l => by rw [mapBuild_nil_map]; simp [h], fun p => ?_, fun j hj => by rw [h] at hj; cases hj⟩
  rw [mapBuild_nil_phys]
  by_cases hp : p.val < 512 <;> simp [hp, h]

theorem againOk_mapBuild_nil : AgainOk (mapBuild []) := fun l h => by
  rw [mapBuild_nil_map] at h
  cases h

/-! ## A port at its power-on values -/

theorem reset_port (p : PortId) : State.reset.port p = HostPort.powerOn := by cases p <;> rfl

theorem powerOn_contexts (c : CtxId) : HostPort.powerOn.contexts[c] = Context.free := by simp [HostPort.powerOn]

/-- After reset nothing names a context. -/
theorem owners_reset (p : PortId) : owners p State.reset = [] := by
  cases p <;> rfl

/-- OFF with nothing taken, a port at its power-on values has no context in use and no fetch, and holds no setup values. -/
theorem ringRoomOk_powerOn : RingRoomOk HostPort.powerOn :=
  ⟨fun _ hv => (nomatch hv), fun _ c => by rw [powerOn_contexts]; rfl, fun _ => rfl⟩

theorem intakeOk_powerOn : IntakeOk HostPort.powerOn :=
  ⟨fun h => (nomatch h), fun _ hv => (nomatch hv), fun _ => rfl, fun h => (nomatch h)⟩

theorem writerOk_powerOn : WriterOk HostPort.powerOn := ⟨fun _ hr => (nomatch hr), fun _ => rfl⟩

theorem completionRoomOk_reset (p : PortId) : CompletionRoomOk p State.reset := by
  rw [CompletionRoomOk, reset_port]
  refine ⟨ringRoomOk_powerOn, intakeOk_powerOn, writerOk_powerOn, ?_⟩
  rw [if_neg (by decide), ContextsOwned, owners_reset]
  exact ⟨List.nodup_nil, fun c hc => (nomatch hc)⟩

theorem portOk_powerOn : PortOk [] HostPort.powerOn := by
  simp [PortOk, HostPort.powerOn, AlertFollows]

/-! ## The invariants after reset -/

theorem sizesOk_reset : SizesOk State.reset := by
  refine ⟨by decide, by decide, by decide, by decide, by decide, by decide, fun p => ?_⟩
  show ((mapBuild []).phys[p]).counter ≤ 65535
  rw [mapBuild_nil_phys]
  split <;> exact Nat.zero_le _

/-- Every bank is IDLE, and queue M is empty with nothing kept. -/
theorem queuesOk_reset : QueuesOk State.reset :=
  ⟨⟨rfl, rfl⟩, fun b o h => by simp [State.reset] at h⟩

theorem segmentsOk_reset : SegmentsOk State.reset :=
  ⟨rolesAgree_mapBuild_nil, listsAgree_mapBuild_nil, queueAgrees_mapBuild_nil, migrationAgrees_mapBuild_nil rfl,
    againOk_mapBuild_nil, ⟨rfl, rfl, rfl⟩, ⟨rfl, rfl, rfl⟩⟩

/-- No lock is ABANDONED and none has a waiter. -/
theorem locksOk_reset : LocksOk State.reset.locks :=
  ⟨Nat.zero_le _, fun _ => Nat.zero_le _, fun _ hw => (nomatch hw), List.Pairwise.nil,
    fun k hk => by simp [State.reset] at hk⟩

/-- Settles O60: each block's invariant holds of its power-on values. -/
theorem resetIsInOrder : Obligations.ResetIsInOrder :=
  ⟨wf_reset, sizesOk_reset, queuesOk_reset, segmentsOk_reset, locksOk_reset, ⟨portOk_powerOn, portOk_powerOn⟩,
    completionRoomOk_reset⟩

end Sys2Proof.Machine
end

section
/-! The rows that leave the store side alone, so that what holds of the store, the scheduler, the map, the Migration Unit, the
Scrub Unit and the Incident List is kept by them; and one entry of a table written (R18, R19). -/

namespace Sys2Proof.Machine

/-! ## Tables written -/

theorem getElem_set_fin {α : Type} {n : Nat} (v : Vector α n) (i j : Fin n) (x : α) :
    (v.set i x)[j] = if j = i then x else v[j] := by
  rw [Fin.getElem_fin, Vector.getElem_set]
  by_cases h : j = i
  · rw [if_pos h, if_pos (congrArg Fin.val h.symm)]
  · rw [if_neg h, if_neg fun e => h (Fin.ext e.symm), Fin.getElem_fin]

/-! ## Outcomes -/

/-- The state an outcome goes on to, if it does, has a property. -/
def Ends (o : Host.Outcome State Fault Refusal) (inv : State → Prop) : Prop := ∀ t, o = .next t → inv t

theorem ends_next {inv : State → Prop} {t : State} : Ends (.next t) inv ↔ inv t :=
  ⟨fun h => h t rfl, fun h _ e => Host.Outcome.next.inj e ▸ h⟩

/-! ## The store side kept -/

/-- The store side of `t` is that of `s`. -/
structure StoreSideKept (s t : State) : Prop where
  store : t.store = s.store
  sched : t.sched = s.sched
  seg : t.seg = s.seg
  mig : t.mig = s.mig
  scrub : t.scrub = s.scrub
  incidents : t.incidents = s.incidents

namespace StoreSideKept

theorem refl (s : State) : StoreSideKept s s := ⟨rfl, rfl, rfl, rfl, rfl, rfl⟩

theorem trans {s t u : State} (h : StoreSideKept s t) (k : StoreSideKept t u) : StoreSideKept s u :=
  ⟨k.store.trans h.store, k.sched.trans h.sched, k.seg.trans h.seg, k.mig.trans h.mig, k.scrub.trans h.scrub,
    k.incidents.trans h.incidents⟩

theorem modPort (s : State) (p : PortId) (f : HostPort → HostPort) : StoreSideKept s (s.modPort p f) := by
  constructor <;> simp

theorem withPending (s : State) (l : List Instr) : StoreSideKept s (s.withPending l) := ⟨rfl, rfl, rfl, rfl, rfl, rfl⟩

theorem takeWaitingAlert (s : State) : StoreSideKept s (takeWaitingAlert s) := by
  rw [takeWaitingAlert_frame]
  exact ⟨rfl, rfl, rfl, rfl, rfl, rfl⟩

theorem faultPort (p : PortId) (code : FaultCode) (s : State) : StoreSideKept s (faultPort p code s) := by
  rw [faultPort_frame]
  exact ⟨rfl, rfl, rfl, rfl, rfl, rfl⟩

theorem deliver (as : Answers) (s : State) : StoreSideKept s (deliver as s) := by
  rw [deliver_frame]
  exact ⟨rfl, rfl, rfl, rfl, rfl, rfl⟩

/-- The Lock Unit changes its table and answers. -/
theorem answered (u : LockUnit) (as : Answers) (s : State) :
    StoreSideKept s (Machine.deliver as { s with locks := u }) := by
  rw [deliver_frame]
  exact ⟨rfl, rfl, rfl, rfl, rfl, rfl⟩

theorem takeNotice (v : LockView) (p : PortId) (f : LockUnit → LockUnit × Answers) (s : State) :
    StoreSideKept s (takeNotice v p f s) := by
  rw [takeNotice_frame]
  exact ⟨rfl, rfl, rfl, rfl, rfl, rfl⟩

end StoreSideKept

/-! ## The rows by what they reach -/

/-- The rows that can change the store side: those of power, resets of a port, the store, banks, health, migration, pacing and
maintenance. -/
def reachesStoreSide : Instr → Bool
  | .powerOnReset _ | .retirementReadDone _ | .reset _ | .linkDown _ _ | .referenceIssue _ | .grant _
  | .operationDone _ _ | .healthReport _ | .migrationStart | .chunkLockHeld | .retirementWriteDone _ | .pacingTick
  | .incidents | .tune | .relocate | .maintCheckReadDone _ | .bufferWrite | .bitInError _ _ _ => true
  | _ => false

section
variable (p : PortId) (s : State)

theorem execEnable_storeSide : Ends (execEnable p s) (StoreSideKept s) := by
  unfold execEnable
  dsimp only
  split
  · split
    · exact ends_next.mpr (.modPort s p _)
    · exact ends_next.mpr ((StoreSideKept.modPort s p _).trans (.faultPort p _ _))
  · exact ends_next.mpr (.refl s)

theorem execDisable_storeSide : Ends (execDisable p s) (StoreSideKept s) := by
  unfold execDisable
  split
  · exact ends_next.mpr (.modPort s p _)
  · exact ends_next.mpr (.refl s)

theorem execSubmit_storeSide (v : BitVec 32) : Ends (execSubmit p v s) (StoreSideKept s) := by
  unfold execSubmit
  dsimp only
  split
  · split
    · split
      · exact ends_next.mpr (.modPort s p _)
      · exact ends_next.mpr (.faultPort p _ s)
    · exact ends_next.mpr (.refl s)
  · exact ends_next.mpr (.refl s)

theorem execConsume_storeSide (v : BitVec 32) : Ends (execConsume p v s) (StoreSideKept s) := by
  unfold execConsume
  dsimp only
  split
  · split
    · split
      · exact ends_next.mpr (.modPort s p _)
      · exact ends_next.mpr (.faultPort p _ s)
    · exact ends_next.mpr (.refl s)
  · exact ends_next.mpr (.refl s)

theorem execSetupFetchDone_storeSide (block : Option (BitVec 512)) :
    Ends (execSetupFetchDone p block s) (StoreSideKept s) := by
  have hread := StoreSideKept.modPort s p fun h => { h with setupRead := none }
  unfold execSetupFetchDone
  dsimp only
  split
  · split
    · split
      · exact ends_next.mpr (hread.trans (.faultPort p _ _))
      · split
        · exact ends_next.mpr (hread.trans (.faultPort p _ _))
        · exact ends_next.mpr (hread.trans (.modPort _ p _))
    · exact ends_next.mpr hread
  · exact ends_next.mpr (.refl s)

theorem execRecordFetch_storeSide : Ends (execRecordFetch p s) (StoreSideKept s) := by
  unfold execRecordFetch
  split
  · split
    · exact ends_next.mpr (.modPort s p _)
    · exact ends_next.mpr (.refl s)
  · exact ends_next.mpr (.refl s)

theorem execRecordFetchDone_storeSide (record : Option (BitVec 512)) :
    Ends (execRecordFetchDone p record s) (StoreSideKept s) := by
  have hfetch := StoreSideKept.modPort s p fun h => { h with fetch := none }
  unfold execRecordFetchDone
  dsimp only
  split
  · split
    · split
      · exact ends_next.mpr (hfetch.trans (.faultPort p _ _))
      · split
        · exact ends_next.mpr (hfetch.trans (.modPort _ p _))
        · exact ends_next.mpr hfetch
    · exact ends_next.mpr hfetch
  · exact ends_next.mpr (.refl s)

theorem execGuardCheck_storeSide : Ends (execGuardCheck p s) (StoreSideKept s) := by
  unfold execGuardCheck
  split
  · exact ends_next.mpr ((StoreSideKept.modPort s p _).trans (.deliver _ _))
  · exact ends_next.mpr (.refl s)

theorem execAcquire_storeSide : Ends (execAcquire p s) (StoreSideKept s) := by
  unfold execAcquire
  split
  · exact ends_next.mpr ((StoreSideKept.modPort s p _).trans (.answered _ _ _))
  · exact ends_next.mpr (.refl s)

theorem execRelease_storeSide : Ends (execRelease p s) (StoreSideKept s) := by
  unfold execRelease
  split
  · exact ends_next.mpr ((StoreSideKept.modPort s p _).trans (.answered _ _ _))
  · exact ends_next.mpr (.refl s)

theorem execScatterListReadDone_storeSide (i : SlotId) (l : Option (List (BitVec 128))) :
    Ends (execScatterListReadDone p i l s) (StoreSideKept s) := by
  unfold execScatterListReadDone
  split
  · exact ends_next.mpr (.modPort s p _)
  · exact ends_next.mpr (.refl s)

theorem execHostDataReadDone_storeSide (i : SlotId) (ws : Option (List Word)) :
    Ends (execHostDataReadDone p i ws s) (StoreSideKept s) := by
  unfold execHostDataReadDone
  split
  · exact ends_next.mpr (.modPort s p _)
  · exact ends_next.mpr (.refl s)

theorem execMapQuery_storeSide : Ends (execMapQuery s) (StoreSideKept s) := by
  unfold execMapQuery
  split
  · rename_i q _ _ _ _ _
    exact ends_next.mpr ((StoreSideKept.modPort s q fun h => { h with maintQueue := h.maintQueue.tail }).trans
      ⟨rfl, rfl, rfl, rfl, rfl, rfl⟩)
  · exact ends_next.mpr (.refl s)

theorem execCompletionWriteAccepted_storeSide (stale : Bool) :
    Ends (execCompletionWriteAccepted p stale s) (StoreSideKept s) := by
  unfold execCompletionWriteAccepted
  dsimp only
  split
  · exact ends_next.mpr (.modPort s p _)
  · split
    · exact ends_next.mpr (.refl s)
    · split
      · exact ends_next.mpr (.modPort s p _)
      · split
        · exact ends_next.mpr (.modPort s p _)
        · exact ends_next.mpr (.refl s)

theorem execCompletionWriteRefused_storeSide (stale : Bool) :
    Ends (execCompletionWriteRefused p stale s) (StoreSideKept s) := by
  have hwrite := StoreSideKept.modPort s p fun h => { h with recordWrite := none }
  unfold execCompletionWriteRefused
  dsimp only
  split
  · exact ends_next.mpr (.modPort s p _)
  · split
    · exact ends_next.mpr (.refl s)
    · split
      · exact ends_next.mpr (hwrite.trans (.faultPort p _ _))
      · split
        · exact ends_next.mpr (hwrite.trans (.modPort _ p _))
        · exact ends_next.mpr (.refl s)

theorem execQuietTimerExpiry_storeSide : Ends (execQuietTimerExpiry p s) (StoreSideKept s) := by
  unfold execQuietTimerExpiry
  split
  · exact ends_next.mpr (.modPort s p _)
  · exact ends_next.mpr (.refl s)

theorem execDrainEnd_storeSide : Ends (execDrainEnd p s) (StoreSideKept s) := by
  unfold execDrainEnd
  dsimp only
  split
  · exact ends_next.mpr (.modPort s p _)
  · exact ends_next.mpr (.refl s)

theorem execResetComplete_storeSide : Ends (execResetComplete p s) (StoreSideKept s) := by
  unfold execResetComplete
  split
  · exact ends_next.mpr (.modPort s p _)
  · exact ends_next.mpr (.refl s)

end

/-- Every row outside the list above works on ports, locks and the Maintenance Unit's own record alone. -/
theorem exec_storeSide (i : Instr) (s : State) (hi : reachesStoreSide i = false) : Ends (exec i s) (StoreSideKept s) := by
  cases i with
  | setupWrite p part => exact ends_next.mpr (.modPort s p _)
  | enable p => exact execEnable_storeSide p s
  | disable p => exact execDisable_storeSide p s
  | submit p v => exact execSubmit_storeSide p s v
  | consume p v => exact execConsume_storeSide p s v
  | registerWriteDiscarded p w => exact ends_next.mpr (.refl s)
  | linkUp p => exact ends_next.mpr (.modPort s p _)
  | setupFetchDone p block => exact execSetupFetchDone_storeSide p s block
  | recordFetch p => exact execRecordFetch_storeSide p s
  | recordFetchDone p record => exact execRecordFetchDone_storeSide p s record
  | read p => exact ends_next.mpr (.modPort s p _)
  | write p => exact ends_next.mpr (.modPort s p _)
  | fill p => exact ends_next.mpr (.modPort s p _)
  | copy p => exact ends_next.mpr (.modPort s p _)
  | scan p => exact ends_next.mpr (.modPort s p _)
  | guardCheck p => exact execGuardCheck_storeSide p s
  | scatterListReadDone p slot l => exact execScatterListReadDone_storeSide p s slot l
  | hostDataReadDone p slot ws => exact execHostDataReadDone_storeSide p s slot ws
  | acquire p => exact execAcquire_storeSide p s
  | release p => exact execRelease_storeSide p s
  | waiterDeadlineExpiry p c => exact ends_next.mpr (.answered _ _ s)
  | lockRunningNotice p => exact ends_next.mpr (.takeNotice _ p _ s)
  | lockDrainNotice p => exact ends_next.mpr (.takeNotice _ p _ s)
  | lockFaultNotice p => exact ends_next.mpr (.takeNotice _ p _ s)
  | lockResetNotice p => exact ends_next.mpr (.takeNotice _ p _ s)
  | mapQuery => exact execMapQuery_storeSide s
  | completionWriteAccepted p stale => exact execCompletionWriteAccepted_storeSide p s stale
  | completionWriteRefused p stale => exact execCompletionWriteRefused_storeSide p s stale
  | quietTimerExpiry p => exact execQuietTimerExpiry_storeSide p s
  | drainEnd p => exact execDrainEnd_storeSide p s
  | resetComplete p => exact execResetComplete_storeSide p s
  | _ => cases hi

end Sys2Proof.Machine
end

section
/-! O7. The power-on map build from a list of distinct segments: the segments in service ascend, and the place of each in the
pairing is its place among them (R27). -/

namespace Sys2Proof.Machine

/-! ## The segments in service -/

theorem nonRetired_eq (retired : List PhysSeg) :
    nonRetired retired = (List.finRange 520).filter fun p => !retired.contains p := by
  have hall : (List.range' 0 520).map (Fin.ofNat 520) = List.finRange 520 := by decide +kernel
  rw [nonRetired, hall]

@[simp] theorem mem_nonRetired {retired : List PhysSeg} {p : PhysSeg} : p ∈ nonRetired retired ↔ p ∉ retired := by
  simp [nonRetired_eq]

theorem nonRetired_ascending (retired : List PhysSeg) : (nonRetired retired).Pairwise (· < ·) := by
  rw [nonRetired_eq]
  exact (List.pairwise_lt_finRange 520).filter _

/-- Of a table of all segments, distinct ones left out leave the others: how many of either kind have a property. -/
theorem countP_nonRetired {retired : List PhysSeg} (hnodup : retired.Nodup) (f : PhysSeg → Bool) :
    (nonRetired retired).countP f + retired.countP f = (List.finRange 520).countP f := by
  have hperm : ((List.finRange 520).filter fun p => retired.contains p).Perm retired :=
    (List.perm_ext_iff_of_nodup ((List.nodup_finRange 520).filter _) hnodup).mpr (by simp)
  rw [nonRetired_eq, ← hperm.countP_eq, Nat.add_comm, ← List.countP_eq_countP_filter_add]

theorem nonRetired_length {retired : List PhysSeg} (hnodup : retired.Nodup) :
    (nonRetired retired).length + retired.length = 520 := by
  simpa using countP_nonRetired hnodup fun _ => true

theorem countP_finRange_lt {n : Nat} (p : Fin n) : (List.finRange n).countP (fun q => decide (q < p)) = p.val := by
  have hcard : (List.finRange n).countP (fun q => decide (q < p)) = (Finset.univ.filter (· < p)).card :=
    List.countP_eq_length_filter
  rw [hcard, Finset.filter_gt_eq_Iio, Fin.card_Iio]

/-- In an ascending list an entry stands at the place that the number of lower entries gives. -/
theorem getElem?_countP_lt {α : Type} [LinearOrder α] {l : List α} (hl : l.Pairwise (· < ·)) {a : α} (ha : a ∈ l) :
    l[l.countP fun b => decide (b < a)]? = some a := by
  induction l with
  | nil => cases ha
  | cons b l ih =>
    obtain ⟨hb, hl⟩ := List.pairwise_cons.mp hl
    rcases List.mem_cons.mp ha with rfl | ha
    · have hnone : l.countP (fun b => decide (b < a)) = 0 :=
        List.countP_eq_zero.mpr fun c hc => by simpa using (hb c hc).le
      simp [hnone]
    · rw [List.countP_cons_of_pos (by simpa using hb a ha), List.getElem?_cons_succ]
      exact ih hl ha

/-- A segment in service stands in the pairing at its rank (R27, step 2). -/
theorem nonRetired_buildRank {retired : List PhysSeg} (hnodup : retired.Nodup) {p : PhysSeg} (hp : p ∉ retired) :
    (nonRetired retired)[buildRank retired p]? = some p := by
  have hrank : buildRank retired p = (nonRetired retired).countP fun q => decide (q < p) := by
    have h := countP_nonRetired hnodup fun q => decide (q < p)
    rw [countP_finRange_lt] at h
    have hbelow : (retired.filter fun q => decide (q.val < p.val)).length = retired.countP fun q => decide (q < p) :=
      List.countP_eq_length_filter.symm
    rw [buildRank, hbelow]
    omega
  rw [hrank]
  exact getElem?_countP_lt (nonRetired_ascending retired) (mem_nonRetired.mpr hp)

/-- The rank of the segment at a place of the pairing is that place. -/
theorem buildRank_of_getElem? {retired : List PhysSeg} (hnodup : retired.Nodup) {p : PhysSeg} {i : Nat}
    (hi : (nonRetired retired)[i]? = some p) : buildRank retired p = i := by
  have hp := mem_nonRetired.mp (List.mem_of_getElem? hi)
  have hranked := nonRetired_buildRank hnodup hp
  obtain ⟨hlt, -⟩ := List.getElem?_eq_some_iff.mp hi
  exact ((List.getElem?_inj hlt (nonRetired_ascending retired).nodup).mp (hi.trans hranked.symm)).symm

/-! ## What the build gives -/

theorem mapBuild_phys (retired : List PhysSeg) (p : PhysSeg) : (mapBuild retired).phys[p] = buildPhys retired p := by
  simp [mapBuild]

theorem mapBuild_phys_retired {retired : List PhysSeg} {p : PhysSeg} (hp : p ∈ retired) :
    (mapBuild retired).phys[p] = ⟨.retired, none, 0⟩ := by
  rw [mapBuild_phys, buildPhys, if_pos (by simpa using hp)]

theorem mapBuild_phys_ranked {retired : List PhysSeg} {p : PhysSeg} (hp : p ∉ retired) :
    (mapBuild retired).phys[p] =
      if buildRank retired p < 512 then ⟨.mapped, some (Fin.ofNat 512 (buildRank retired p)), 0⟩ else ⟨.spare, none, 0⟩ := by
  rw [mapBuild_phys, buildPhys, if_neg (by simpa using hp)]

/-- The role RETIRED is given to the listed segments and no other. -/
theorem mapBuild_role_retired (retired : List PhysSeg) (p : PhysSeg) :
    ((mapBuild retired).phys[p]).role = .retired ↔ p ∈ retired := by
  by_cases hp : p ∈ retired
  · simp [mapBuild_phys_retired hp, hp]
  · rw [mapBuild_phys_ranked hp]
    split <;> simp [hp]

section
variable {retired : List PhysSeg} (hnodup : retired.Nodup) (hlen : retired.length ≤ 8)
include hnodup hlen

/-- A logical segment is paired with the segment in service at its own place. -/
theorem mapBuild_map (l : LogSeg) :
    ∃ p, (nonRetired retired)[l.val]? = some p ∧ (mapBuild retired).map[l] = ⟨p, .mapped, false⟩ := by
  have hlong := nonRetired_length hnodup
  have hl : l.val < (nonRetired retired).length := by omega
  refine ⟨(nonRetired retired)[l.val], List.getElem?_eq_getElem hl, ?_⟩
  simp [mapBuild, hl]

/-- The entry of the segment that a logical segment is paired with. -/
theorem mapBuild_phys_map (l : LogSeg) :
    ((mapBuild retired).map[l]).phys ∉ retired ∧
      (mapBuild retired).phys[((mapBuild retired).map[l]).phys] = ⟨.mapped, some l, 0⟩ := by
  obtain ⟨p, hp, hmap⟩ := mapBuild_map hnodup hlen l
  have hserved := mem_nonRetired.mp (List.mem_of_getElem? hp)
  simp only [hmap]
  refine ⟨hserved, ?_⟩
  rw [mapBuild_phys_ranked hserved, buildRank_of_getElem? hnodup hp, if_pos l.isLt, Fin.ofNat_val_eq_self]

/-- The logical segment of a place below 512 is paired with the segment in service there. -/
theorem mapBuild_map_of_rank {p : PhysSeg} (hp : p ∉ retired) (hrank : buildRank retired p < 512) :
    ((mapBuild retired).map[(⟨buildRank retired p, hrank⟩ : LogSeg)]).phys = p := by
  obtain ⟨q, hq, hmap⟩ := mapBuild_map hnodup hlen ⟨buildRank retired p, hrank⟩
  rw [hmap]
  exact Option.some.inj (hq.symm.trans (nonRetired_buildRank hnodup hp))

theorem mapBuild_map_lt {i j : LogSeg} (h : i < j) :
    ((mapBuild retired).map[i]).phys < ((mapBuild retired).map[j]).phys := by
  obtain ⟨p, hp, hi⟩ := mapBuild_map hnodup hlen i
  obtain ⟨q, hq, hj⟩ := mapBuild_map hnodup hlen j
  obtain ⟨hilt, rfl⟩ := List.getElem?_eq_some_iff.mp hp
  obtain ⟨hjlt, rfl⟩ := List.getElem?_eq_some_iff.mp hq
  rw [hi, hj]
  exact List.pairwise_iff_getElem.mp (nonRetired_ascending retired) i j hilt hjlt h

omit hlen in
/-- The spares are the segments in service from place 512 on. -/
theorem mem_mapBuild_spares (p : PhysSeg) :
    p ∈ (mapBuild retired).spares ↔ p ∉ retired ∧ 512 ≤ buildRank retired p := by
  show p ∈ (nonRetired retired).drop 512 ↔ _
  rw [List.mem_iff_getElem?]
  constructor
  · rintro ⟨i, hi⟩
    rw [List.getElem?_drop] at hi
    exact ⟨mem_nonRetired.mp (List.mem_of_getElem? hi), by rw [buildRank_of_getElem? hnodup hi]; omega⟩
  · rintro ⟨hp, hrank⟩
    refine ⟨buildRank retired p - 512, ?_⟩
    rw [List.getElem?_drop, Nat.add_sub_cancel' hrank]
    exact nonRetired_buildRank hnodup hp

omit hlen in
theorem mapBuild_role_spare (p : PhysSeg) : p ∈ (mapBuild retired).spares ↔ ((mapBuild retired).phys[p]).role = .spare := by
  rw [mem_mapBuild_spares hnodup]
  by_cases hp : p ∈ retired
  · simp [mapBuild_phys_retired hp, hp]
  · rw [mapBuild_phys_ranked hp]
    by_cases hrank : buildRank retired p < 512
    · simp [hrank, hp]
    · simp [hrank, hp, Nat.le_of_not_lt hrank]

omit hnodup hlen in
theorem mapBuild_spares_ascending (retired : List PhysSeg) : (mapBuild retired).spares.Pairwise (· < ·) :=
  (nonRetired_ascending retired).drop

omit hlen in
theorem mapBuild_spares_length : (mapBuild retired).spares.length = 8 - retired.length := by
  have h := nonRetired_length hnodup
  show ((nonRetired retired).drop 512).length = _
  rw [List.length_drop]
  omega

/-- A spare stands above every paired segment. -/
theorem mapBuild_map_lt_spare {p : PhysSeg} (hp : p ∉ retired) (hrank : 512 ≤ buildRank retired p) (l : LogSeg) :
    ((mapBuild retired).map[l]).phys < p := by
  obtain ⟨q, hq, hmap⟩ := mapBuild_map hnodup hlen l
  obtain ⟨hl, rfl⟩ := List.getElem?_eq_some_iff.mp hq
  obtain ⟨hr, hpr⟩ := List.getElem?_eq_some_iff.mp (nonRetired_buildRank hnodup hp)
  rw [hmap]
  conv_rhs => rw [← hpr]
  exact List.pairwise_iff_getElem.mp (nonRetired_ascending retired) _ _ hl hr (by omega)

end

/-- Settles O7: places in the pairing are ranks, so the build's two tables and its spare list agree. -/
theorem mapBuildPairsSegmentsInOrder : Obligations.MapBuildPairsSegmentsInOrder := by
  refine fun retired hnodup hlen => ⟨rfl, fun p hp => mapBuild_phys_retired hp, fun l => ?_,
    fun i j h => mapBuild_map_lt hnodup hlen h, fun p hp => ?_, mapBuild_spares_ascending retired,
    mapBuild_spares_length hnodup, fun p hp => (mapBuild_role_spare hnodup p).mp hp, rfl, rfl⟩
  · obtain ⟨p, -, hmap⟩ := mapBuild_map hnodup hlen l
    exact ⟨by rw [hmap], by rw [hmap], mapBuild_phys_map hnodup hlen l⟩
  · by_cases hrank : buildRank retired p < 512
    · exact .inl ⟨_, mapBuild_map_of_rank hnodup hlen hp hrank⟩
    · have hspare := Nat.le_of_not_lt hrank
      exact .inr ⟨by rw [mapBuild_phys_ranked hp, if_neg hrank], (mem_mapBuild_spares hnodup p).mpr ⟨hp, hspare⟩,
        mapBuild_map_lt_spare hnodup hlen hp hspare⟩

end Sys2Proof.Machine
end

section
/-! O18, O20, O21. A health report taken: the offer it may make, the action on an uncorrectable word, the count of corrected
words and the threshold check, and what reaches the ports (R28, R31, R35 to R38, R172). -/

namespace Sys2Proof.Machine

/-! ## Offers (R31) -/

/-- An offer that the queue has room for. -/
theorem offer_of_room {g : SegMap} (l : LogSeg) (front : Bool) (i : Incident) (h : g.queue.length < g.spares.length) :
    offer l front i g = (setSegState l .queued { g with queue := if front then l :: g.queue else g.queue ++ [l] }, []) := by
  simp only [offer, join, if_pos h]

/-- An offer for which no spare is left. -/
theorem offer_of_full {g : SegMap} (l : LogSeg) (front : Bool) (i : Incident) (h : g.spares.length ≤ g.queue.length) :
    offer l front i g = (setSegState l .atRisk g, [i]) := by
  simp only [offer, (join_none l front g).mpr h]

/-- An offer changes the map and the queue alone. -/
theorem offer_frame (l : LogSeg) (front : Bool) (i : Incident) (g : SegMap) :
    (offer l front i g).1 = { g with map := (offer l front i g).1.map, queue := (offer l front i g).1.queue } := by
  by_cases h : g.queue.length < g.spares.length
  · rw [offer_of_room l front i h]; rfl
  · rw [offer_of_full l front i (Nat.le_of_not_lt h)]; rfl

theorem setSegState_map (l k : LogSeg) (st : SegState) (g : SegMap) :
    (setSegState l st g).map[k] = if k = l then { g.map[l] with state := st } else g.map[k] :=
  getElem_set_fin _ _ _ _

/-- After an offer the segment is no longer MAPPED. -/
theorem offer_state (l : LogSeg) (front : Bool) (i : Incident) (g : SegMap) :
    ((offer l front i g).1.map[l]).state ≠ .mapped := by
  by_cases h : g.queue.length < g.spares.length
  · rw [offer_of_room l front i h, setSegState_map, if_pos rfl]; exact nofun
  · rw [offer_of_full l front i (Nat.le_of_not_lt h), setSegState_map, if_pos rfl]; exact nofun

/-! ## The parts of a report (R28, R36, R37) -/

/-- The physical segment is MAPPED and its logical segment too, so that a report on it may bring an offer. -/
def OfferedOn (p : PhysSeg) (g : SegMap) : Prop :=
  (g.phys[p]).role = .mapped ∧ ∃ l, (g.phys[p]).logical = some l ∧ (g.map[l]).state = .mapped

section
variable (r : HealthReport) (g : SegMap)

theorem countCorrected_phys (q : PhysSeg) :
    (countCorrected r g).phys[q] =
      if q = r.line.seg then
        { g.phys[r.line.seg] with counter := min 65535 ((g.phys[r.line.seg]).counter + r.correctedCount) }
      else g.phys[q] :=
  getElem_set_fin _ _ _ _

theorem countCorrected_role (q : PhysSeg) : ((countCorrected r g).phys[q]).role = (g.phys[q]).role := by
  rw [countCorrected_phys]
  split
  · rename_i h; rw [h]
  · rfl

theorem countCorrected_logical (q : PhysSeg) : ((countCorrected r g).phys[q]).logical = (g.phys[q]).logical := by
  rw [countCorrected_phys]
  split
  · rename_i h; rw [h]
  · rfl

theorem uncorrectableAction_frame :
    (uncorrectableAction r g).1 =
      { g with map := (uncorrectableAction r g).1.map, queue := (uncorrectableAction r g).1.queue } := by
  unfold uncorrectableAction
  dsimp only
  split
  · rfl
  · split
    · split
      · exact offer_frame _ _ _ g
      · rfl
    · rfl
    · rfl

theorem thresholdCheck_frame :
    (thresholdCheck r g).1 = { g with map := (thresholdCheck r g).1.map, queue := (thresholdCheck r g).1.queue } := by
  unfold thresholdCheck
  dsimp only
  split
  · split
    · exact offer_frame _ _ _ g
    · rfl
  · rfl

variable {r g}

theorem uncorrectableAction_of_migration (hsource : r.source = .migration) :
    uncorrectableAction r g = (g, [reportIncident r .poisonCopied (g.phys[r.line.seg]).logical]) :=
  if_pos hsource

theorem uncorrectableAction_of_mapped {l : LogSeg} (hsource : r.source ≠ .migration)
    (hrole : (g.phys[r.line.seg]).role = .mapped) (hlogical : (g.phys[r.line.seg]).logical = some l)
    (hstate : (g.map[l]).state = .mapped) :
    uncorrectableAction r g =
      ((offer l true (reportIncident r .noSpare (some l)) g).1,
        reportIncident r .uncorrectable (some l) :: (offer l true (reportIncident r .noSpare (some l)) g).2) := by
  simp only [uncorrectableAction, if_neg hsource, hrole, hlogical, if_pos hstate]

theorem uncorrectableAction_of_reserved {l : LogSeg} (hsource : r.source ≠ .migration)
    (hrole : (g.phys[r.line.seg]).role = .reserved) (hlogical : (g.phys[r.line.seg]).logical = some l) :
    uncorrectableAction r g = (setAgain l true g, [reportIncident r .uncorrectable (some l)]) := by
  simp only [uncorrectableAction, if_neg hsource, hrole, hlogical]

/-- On a segment that is neither MAPPED with its logical segment nor RESERVED for one, the action only appends. -/
theorem uncorrectableAction_of_other (hsource : r.source ≠ .migration) (hmapped : ¬ OfferedOn r.line.seg g)
    (hreserved : (g.phys[r.line.seg]).role = .reserved → (g.phys[r.line.seg]).logical = none) :
    uncorrectableAction r g = (g, [reportIncident r .uncorrectable (g.phys[r.line.seg]).logical]) := by
  unfold uncorrectableAction
  dsimp only
  rw [if_neg hsource]
  split
  · rename_i l hrole hlogical
    rw [if_neg fun hstate => hmapped ⟨hrole, l, hlogical, hstate⟩]
  · rename_i l hrole hlogical
    rw [hreserved hrole] at hlogical
    cases hlogical
  · rfl

theorem thresholdCheck_of_reached {l : LogSeg} (hrole : (g.phys[r.line.seg]).role = .mapped)
    (hlogical : (g.phys[r.line.seg]).logical = some l) (hstate : (g.map[l]).state = .mapped)
    (hcount : g.threshold ≤ (g.phys[r.line.seg]).counter) :
    thresholdCheck r g =
      ((offer l false (reportIncident r .noSpare (some l)) g).1,
        reportIncident r .threshold (some l) :: (offer l false (reportIncident r .noSpare (some l)) g).2) := by
  simp only [thresholdCheck, hrole, hlogical, if_pos (And.intro hstate hcount)]

/-- Below the threshold, and for every other role and state, the check does nothing (R37). -/
theorem thresholdCheck_of_not (h : OfferedOn r.line.seg g → (g.phys[r.line.seg]).counter < g.threshold) :
    thresholdCheck r g = (g, []) := by
  unfold thresholdCheck
  dsimp only
  split
  · rename_i l hrole hlogical
    exact if_neg fun hc => absurd hc.2 (Nat.not_le_of_lt (h ⟨hrole, l, hlogical, hc.1⟩))
  · rfl

/-! ## The report whole (R35) -/

/-- A report counts on its segment and changes besides the map and the queue alone. -/
theorem takeReport_frame (r : HealthReport) (g : SegMap) :
    (takeReport r g).1 =
      { countCorrected r g with map := (takeReport r g).1.map, queue := (takeReport r g).1.queue } := by
  have hcheck (b : SegMap) :
      (if r.correctedCount ≠ 0 then thresholdCheck r b else (b, [])).1 =
        { b with map := (if r.correctedCount ≠ 0 then thresholdCheck r b else (b, [])).1.map,
                 queue := (if r.correctedCount ≠ 0 then thresholdCheck r b else (b, [])).1.queue } := by
    split
    · exact thresholdCheck_frame r b
    · rfl
  have hcount : countCorrected r (if r.hasUncorrectable then uncorrectableAction r g else (g, [])).1 =
      { countCorrected r g with
        map := (if r.hasUncorrectable then uncorrectableAction r g else (g, [])).1.map
        queue := (if r.hasUncorrectable then uncorrectableAction r g else (g, [])).1.queue } := by
    split
    · rw [uncorrectableAction_frame]; rfl
    · rfl
  unfold takeReport
  dsimp only
  rw [hcheck, hcount]

/-- A report of corrected words alone is counted and checked. -/
theorem takeReport_of_corrected (hsome : r.findings ≠ []) (hall : ∀ f ∈ r.findings, f.uncorrectable = false) :
    r.correctedCount = r.findings.length ∧ takeReport r g = thresholdCheck r (countCorrected r g) := by
  have hcount : r.correctedCount = r.findings.length :=
    List.countP_eq_length.mpr fun f hf => by simp [hall f hf]
  have hclean : r.hasUncorrectable = false := List.any_eq_false.mpr fun f hf => by simp [hall f hf]
  refine ⟨hcount, ?_⟩
  simp [takeReport, hclean, hcount, hsome]

/-- After the action on an uncorrectable word the count is all that is left, unless the segment is still MAPPED and the report has
corrected words too. -/
theorem takeReport_of_uncorrectable (hsome : ∃ f ∈ r.findings, f.uncorrectable = true)
    (hquiet : r.correctedCount = 0 ∨ ¬ OfferedOn r.line.seg (uncorrectableAction r g).1) :
    takeReport r g = (countCorrected r (uncorrectableAction r g).1, (uncorrectableAction r g).2) := by
  have hany : r.hasUncorrectable = true := List.any_eq_true.mpr hsome
  unfold takeReport
  dsimp only
  rw [if_pos hany]
  split
  · rename_i hcorrected
    have hstill : ¬ OfferedOn r.line.seg (countCorrected r (uncorrectableAction r g).1) := fun ⟨hrole, l, hlogical, hstate⟩ =>
      hquiet.resolve_left hcorrected
        ⟨(countCorrected_role r _ _).symm.trans hrole, l, (countCorrected_logical r _ _).symm.trans hlogical, hstate⟩
    rw [thresholdCheck_of_not fun h => absurd h hstill, List.append_nil]
  · rw [List.append_nil]

end

/-! ## Appends (R170, R172) -/

/-- The list after appends rests on the list and the time base before them alone. -/
theorem appendIncidents_congr (is : List Incident) {s t : State} (hlist : s.incidents = t.incidents)
    (htime : s.timeBase = t.timeBase) : (appendIncidents is s).incidents = (appendIncidents is t).incidents := by
  induction is generalizing s t with
  | nil => exact hlist
  | cons i is ih =>
    refine ih (s := appendIncident i s) (t := appendIncident i t) ?_ ?_
    · rw [appendIncident_incidents, appendIncident_incidents, hlist, htime]
    · rw [appendIncident_frame i s, appendIncident_frame i t]
      exact htime

/-- Of port `h` only what a notice of the Incident List touches has changed in `k` (R172). -/
def AlertsOnly (h k : HostPort) : Prop :=
  k = { h with notices := k.notices, noticesTaken := k.noticesTaken, alertCause := k.alertCause, sent := k.sent }

theorem AlertsOnly.refl (h : HostPort) : AlertsOnly h h := rfl

theorem AlertsOnly.trans {h k m : HostPort} (a : AlertsOnly h k) (b : AlertsOnly k m) : AlertsOnly h m := by
  unfold AlertsOnly at a b ⊢
  rw [b, a]

theorem appendTelling_port (atOnce : PortId → Bool) (i : Incident) (s : State) (p : PortId) :
    AlertsOnly (s.port p) ((appendTelling atOnce i s).port p) := by
  unfold appendTelling
  dsimp only
  split
  · split
    · cases p <;> rfl
    · cases p <;> rfl
  · cases p <;> rfl

theorem appendIncidents_port (is : List Incident) (s : State) (p : PortId) :
    AlertsOnly (s.port p) ((appendIncidents is s).port p) := by
  induction is generalizing s with
  | nil => exact .refl _
  | cons i is ih => exact (appendTelling_port _ i s p).trans (ih (appendIncident i s))

/-! ## HEALTH_REPORT -/

section
variable {b : Bank} {s : State} {pre post : List HealthReport} {r : HealthReport}

/-- The oldest report of the bank is taken, and the others stay. -/
theorem exec_healthReport (hreports : s.reports = pre ++ r :: post) (hpre : ∀ x ∈ pre, bankOf x.line.off ≠ b)
    (hbank : bankOf r.line.off = b) :
    exec (.healthReport b) s = .next (absorbReport r { s with reports := pre ++ post }) := by
  have hother : ∀ x ∈ pre, ¬ reportOfBank b x = true := fun x hx => by simpa [reportOfBank] using hpre x hx
  have hthis : reportOfBank b r = true := by simpa [reportOfBank] using hbank
  have hfind : s.reports.find? (reportOfBank b) = some r := by
    rw [hreports, List.find?_append, List.find?_eq_none.mpr hother, List.find?_cons_of_pos hthis]; rfl
  have herase : s.reports.eraseP (reportOfBank b) = pre ++ post := by
    rw [hreports, List.eraseP_append_right _ hother, List.eraseP_cons_of_pos hthis]
  show execHealthReport b s = _
  simp only [execHealthReport, hfind, herase]

/-- A report taken leaves everything but the map, the list and the ports. -/
theorem absorbReport_frame (r : HealthReport) (s : State) :
    absorbReport r s =
      { s with
        seg := (takeReport r s.seg).1
        incidents := (absorbReport r s).incidents
        port0 := (absorbReport r s).port0
        port1 := (absorbReport r s).port1 } := by
  unfold absorbReport
  dsimp only
  rw [appendIncidents_frame]

theorem absorbReport_seg (r : HealthReport) (s : State) : (absorbReport r s).seg = (takeReport r s.seg).1 :=
  congrArg State.seg (absorbReport_frame r s)

theorem absorbReport_port (r : HealthReport) (s : State) (p : PortId) : AlertsOnly (s.port p) ((absorbReport r s).port p) := by
  have h := appendIncidents_port (takeReport r s.seg).2 { s with seg := (takeReport r s.seg).1 } p
  cases p <;> exact h

/-- What a report that is taken leaves of the map and the list. -/
theorem healthReport_taken (hreports : s.reports = pre ++ r :: post) (hpre : ∀ x ∈ pre, bankOf x.line.off ≠ b)
    (hbank : bankOf r.line.off = b) :
    ∃ t, exec (.healthReport b) s = .next t ∧ t.seg = (takeReport r s.seg).1 ∧
      t.incidents = (appendIncidents (takeReport r s.seg).2 s).incidents :=
  ⟨_, exec_healthReport hreports hpre hbank, absorbReport_seg _ _, appendIncidents_congr _ rfl rfl⟩

end

/-- Settles O18: every part of a report but the count leaves the physical table, and the count adds on the report's segment. -/
theorem healthReportCountsItsCorrectedWords : Obligations.HealthReportCountsItsCorrectedWords := by
  intro b s pre post r hreports hpre hbank
  have hframe := absorbReport_frame r { s with reports := pre ++ post }
  have hseg := absorbReport_seg r { s with reports := pre ++ post }
  have hphys (q : PhysSeg) : ((takeReport r s.seg).1).phys[q] = (countCorrected r s.seg).phys[q] := by
    rw [takeReport_frame]
  refine ⟨_, exec_healthReport hreports hpre hbank, ?_, fun p => ?_, ?_, fun q hq => ?_, fun q => ?_, ?_⟩
  · rw [hframe]
  · have h := absorbReport_port r { s with reports := pre ++ post } p
    cases p <;> exact h
  · rw [hseg, hphys, countCorrected_phys, if_pos rfl, HealthReport.correctedCount, List.countP_eq_length_filter]
  · rw [hseg, hphys, countCorrected_phys, if_neg hq]
  · rw [hseg, hphys]
    exact ⟨countCorrected_role r s.seg q, countCorrected_logical r s.seg q⟩
  · rw [hseg, takeReport_frame]
    exact ⟨rfl, rfl, rfl⟩

/-- Settles O20: the check on the report counted, by whether the segment is MAPPED with its logical segment and by the room. -/
theorem thresholdOffersTheSegmentAtTheBack : Obligations.ThresholdOffersTheSegmentAtTheBack := by
  intro b s pre post r hreports hpre hbank hsome hall
  obtain ⟨hcount, htake⟩ := takeReport_of_corrected (g := s.seg) hsome hall
  have hcounter : ((countCorrected r s.seg).phys[r.line.seg]).counter =
      min 65535 ((s.seg.phys[r.line.seg]).counter + r.findings.length) := by
    rw [countCorrected_phys, if_pos rfl, hcount]
  obtain ⟨t, hexec, hseg, hlist⟩ := healthReport_taken hreports hpre hbank
  refine ⟨t, hexec, fun l hrole hlogical hstate => ?_, fun hother => ?_⟩
  · have hreached (hle : s.seg.threshold ≤ min 65535 ((s.seg.phys[r.line.seg]).counter + r.findings.length)) :=
      thresholdCheck_of_reached (r := r) (g := countCorrected r s.seg) ((countCorrected_role r _ _).trans hrole)
        ((countCorrected_logical r _ _).trans hlogical) hstate (by rw [hcounter]; exact hle)
    refine ⟨fun hlt => ?_, fun hle hroom => ?_, fun hle hfull => ?_⟩
    · rw [hseg, hlist, htake, thresholdCheck_of_not fun _ => by rw [hcounter]; exact hlt]
      exact ⟨rfl, rfl, rfl⟩
    · rw [hseg, hlist, htake, hreached hle, offer_of_room (g := countCorrected r s.seg) _ _ _ hroom]
      exact ⟨rfl, rfl, rfl⟩
    · rw [hseg, hlist, htake, hreached hle, offer_of_full (g := countCorrected r s.seg) _ _ _ hfull]
      exact ⟨rfl, rfl, rfl⟩
  · have hnothing : takeReport r s.seg = (countCorrected r s.seg, []) := by
      rw [htake, thresholdCheck_of_not]
      rintro ⟨hrole, l, hlogical, hstate⟩
      exact absurd ⟨(countCorrected_role r _ _).symm.trans hrole, l, (countCorrected_logical r _ _).symm.trans hlogical,
        hstate⟩ hother
    rw [exec_healthReport hreports hpre hbank] at hexec
    obtain rfl := Host.Outcome.next.inj hexec
    simp only [absorbReport, hnothing]
    rfl

/-- Settles O21: the action by source, role and state, after which the threshold check finds no MAPPED segment. -/
theorem uncorrectableWordActsByRole : Obligations.UncorrectableWordActsByRole := by
  intro b s pre post r hreports hpre hbank hsome
  have htake := takeReport_of_uncorrectable (g := s.seg) hsome
  obtain ⟨t, hexec, hseg, hlist⟩ := healthReport_taken hreports hpre hbank
  refine ⟨t, hexec, fun hsource hquiet => ?_, fun hsource =>
    ⟨fun l hrole hlogical hstate => ?_, fun l hrole hlogical => ?_, fun hother => ?_⟩⟩
  · rw [uncorrectableAction_of_migration hsource] at htake
    have hzero : (∀ f ∈ r.findings, f.uncorrectable = true) → r.correctedCount = 0 := fun h =>
      List.countP_eq_zero.mpr fun f hf => by simp [h f hf]
    rw [hseg, hlist, htake (hquiet.imp_left hzero)]
    exact ⟨rfl, rfl, rfl⟩
  · rw [uncorrectableAction_of_mapped hsource hrole hlogical hstate] at htake
    have hoffered : ¬ OfferedOn r.line.seg (offer l true (reportIncident r .noSpare (some l)) s.seg).1 := by
      rintro ⟨-, k, hk, hmapped⟩
      have hphys := congrArg SegMap.phys (offer_frame l true (reportIncident r .noSpare (some l)) s.seg)
      rw [hphys, hlogical] at hk
      obtain rfl := Option.some.inj hk
      exact offer_state l true _ s.seg hmapped
    rw [hseg, hlist, htake (.inr hoffered), hlogical]
    refine ⟨fun hroom => ?_, fun hfull => ?_⟩
    · rw [offer_of_room _ _ _ hroom]
      exact ⟨rfl, rfl, rfl⟩
    · rw [offer_of_full _ _ _ hfull]
      exact ⟨rfl, rfl, rfl⟩
  · rw [uncorrectableAction_of_reserved hsource hrole hlogical] at htake
    have hreserved : ¬ OfferedOn r.line.seg (setAgain l true s.seg) := fun h => by
      have hmapped : (s.seg.phys[r.line.seg]).role = .mapped := h.1
      rw [hrole] at hmapped
      cases hmapped
    rw [hseg, hlist, htake (.inr hreserved), hlogical]
    exact ⟨rfl, rfl, rfl⟩
  · have hoffered : ¬ OfferedOn r.line.seg s.seg := by
      rintro ⟨hrole, k, hk, hmapped⟩
      rcases hother with h | h | ⟨l, -, hlogical, hstate⟩
      · rw [hrole] at h; cases h
      · rw [hrole] at h; cases h
      · rw [hlogical] at hk
        obtain rfl := Option.some.inj hk
        exact hstate hmapped
    have hreserved : (s.seg.phys[r.line.seg]).role ≠ .reserved := by
      rcases hother with h | h | ⟨l, h, -⟩ <;> rw [h] <;> exact nofun
    rw [uncorrectableAction_of_other hsource hoffered (absurd · hreserved)] at htake
    rw [hseg, hlist, htake (.inr hoffered)]
    exact ⟨rfl, rfl, rfl⟩

end Sys2Proof.Machine
end

section
/-! The queues and the banks: what an act of the arbiter, an issue and the end of an operation leave of the references in
progress, of queue M and of the Migration Unit (R46, R48, R54, R59, R65, R68). -/

namespace Sys2Proof.Machine

/-! ## An act of the arbiter -/

/-- The head that makes its source eligible at a bank targets that bank (R63). -/
theorem eligible_head {s : State} {b : Bank} {src : Source} (h : eligible s b src = true) :
    ∃ r, headOf (s.sched.queue src) = some r ∧ r.bank = b := by
  unfold eligible at h
  split at h
  · cases h
  · rename_i r hr
    exact ⟨r, hr, by simpa using (Bool.and_eq_true_iff.mp h).1⟩

/-- What holds through the steps of an act of the arbiter, a discard, a grant of the IDLE bank to an eligible source and an
issue of the Scrub Unit, holds after it (R65). -/
theorem arbiterAct_induct {P : State → Prop} {b : Bank} {s : State} (start : P s) (discard : P s → P (discardScrub b s))
    (grant : ∀ src, s.sched.banks[b] = none → eligible (discardScrub b s) b src = true → P (discardScrub b s) →
      P (grantTo b src (discardScrub b s)))
    (issue : ∀ t, P t → P (scrubIssue t)) : P (arbiterAct b s) := by
  unfold arbiterAct
  split
  · exact start
  · rename_i hidle
    have hdiscarded := discard start
    have hgranted : P (match (arbiterOrder (discardScrub b s) b).find? (eligible (discardScrub b s) b) with
        | some src => grantTo b src (discardScrub b s)
        | none => discardScrub b s) := by
      split
      · rename_i src hsrc
        exact grant src (by simpa using hidle) (List.find?_some hsrc) hdiscarded
      · exact hdiscarded
    dsimp only
    split
    · exact hgranted
    · exact issue _ hgranted

theorem discardScrub_cases (b : Bank) (s : State) :
    discardScrub b s = s ∨
      discardScrub b s =
        { s with
          sched := s.sched.setQueue .scrub (dropRetired s.seg b s.sched.s), mig := leaveHeldOver .scrub s.mig } := by
  unfold discardScrub
  dsimp only
  split
  · exact .inl rfl
  · exact .inr rfl

/-- A grant of bank `b` to the head of a source (R66, R67). -/
theorem grantTo_of_head {b : Bank} {src : Source} {s : State} {r : Ref} (h : headOf (s.sched.queue src) = some r) :
    ∃ l turns,
      grantTo b src s =
        { s with
          sched :=
            { s.sched.setQueue src (grantHead l (s.sched.queue src)) with
              banks := s.sched.banks.set b (some ⟨src, { r with granted := some l }, l⟩), turns := turns }
          mig := leaveHeldOver src s.mig } := by
  refine ⟨resolvedLine s.seg s.mig r, s.sched.turns.set b (turnAfter src s.sched.turns[b]), ?_⟩
  simp only [grantTo, h, setQueue_banks, setQueue_turns]

/-- Of the Migration Unit an act of the arbiter changes what queues leaving the held-over set change (R46). -/
theorem arbiterAct_mig {Q : Migration → Prop} (hleave : ∀ src m, Q m → Q (leaveHeldOver src m)) {b : Bank} {s : State}
    (h : Q s.mig) : Q (arbiterAct b s).mig := by
  refine arbiterAct_induct (P := fun t => Q t.mig) h (fun h => ?_) (fun src _ he h => ?_) fun t h => h
  · rcases discardScrub_cases b s with e | e <;> rw [e]
    · exact h
    · exact hleave _ _ h
  · obtain ⟨r, hr, -⟩ := eligible_head he
    obtain ⟨l, turns, e⟩ := grantTo_of_head (b := b) hr
    rw [e]
    exact hleave _ _ h

theorem arbiterAct_seg (b : Bank) (s : State) : (arbiterAct b s).seg = s.seg := by
  rw [arbiterAct_frame]

/-- The Migration Unit but for the held-over set and the lock. -/
def CopyKept (m m' : Migration) : Prop := m' = { m with heldOver := m'.heldOver, lock := m'.lock }

theorem CopyKept.refl (m : Migration) : CopyKept m m := rfl

theorem CopyKept.leave {m m' : Migration} (h : CopyKept m m') (src : Source) : CopyKept m (leaveHeldOver src m') := by
  unfold CopyKept at h ⊢
  rw [leaveHeldOver_frame, h]

theorem arbiterAct_copyKept (b : Bank) (s : State) : CopyKept s.mig (arbiterAct b s).mig :=
  arbiterAct_mig (Q := CopyKept s.mig) (fun src _ h => h.leave src) (.refl _)

theorem operationEnded_copyKept (b : Bank) (arbiterFirst : Bool) (o : BankOp) (s : State) :
    CopyKept s.mig (operationEnded b arbiterFirst o s).mig := by
  cases arbiterFirst with
  | false => exact .refl _
  | true => exact arbiterAct_copyKept b (bankDone b o s)

/-! ## References in progress -/

/-- Every reference in progress in a queue stays in it. -/
def GrantedKept (q q' : Scheduler) : Prop := ∀ src, ∀ r ∈ q.queue src, r.granted.isSome = true → r ∈ q'.queue src

theorem GrantedKept.setQueue {q : Scheduler} {src : Source} {l : List Ref}
    (h : ∀ r ∈ q.queue src, r.granted.isSome = true → r ∈ l) : GrantedKept q (q.setQueue src l) := by
  intro other r hr hg
  by_cases he : other = src
  · subst he
    rw [queue_setQueue_same]
    exact h r hr hg
  · rw [queue_setQueue_ne q l he]
    exact hr

/-- The reference of a BUSY bank is IN_PROGRESS in the queue of its source, at that bank (R65). -/
def BanksOk (q : Scheduler) : Prop :=
  ∀ (b : Bank) (o : BankOp), q.banks[b] = some o → o.ref ∈ q.queue o.source ∧ o.ref.granted.isSome = true ∧ o.ref.bank = b

theorem BanksOk.of_kept {q q' : Scheduler} (h : BanksOk q) (hbanks : q'.banks = q.banks) (hkept : GrantedKept q q') :
    BanksOk q' := by
  intro b o ho
  rw [hbanks] at ho
  obtain ⟨hmem, hgranted, hbank⟩ := h b o ho
  exact ⟨hkept _ _ hmem hgranted, hgranted, hbank⟩

theorem BanksOk.setQueue {q : Scheduler} (h : BanksOk q) {src : Source} {l : List Ref}
    (hl : ∀ r ∈ q.queue src, r.granted.isSome = true → r ∈ l) : BanksOk (q.setQueue src l) :=
  h.of_kept (setQueue_banks q src l) (.setQueue hl)

theorem BanksOk.append {q : Scheduler} (h : BanksOk q) (src : Source) (new : List Ref) :
    BanksOk (q.setQueue src (q.queue src ++ new)) :=
  h.setQueue fun _ hr _ => List.mem_append_left _ hr

/-- A discard leaves the references in progress (R70). -/
theorem mem_dropRetired {g : SegMap} {b : Bank} {q : List Ref} {r : Ref} (hr : r ∈ q) (hg : r.granted.isSome = true) :
    r ∈ dropRetired g b q := by
  have hbusy : r.waiting = false := by simpa [Ref.waiting] using hg
  induction q with
  | nil => cases hr
  | cons x q ih =>
    unfold dropRetired
    split
    · exact (List.mem_cons.mp hr).elim (fun e => e ▸ List.mem_cons_self) fun h => List.mem_cons_of_mem _ (ih h)
    · rename_i hx
      split
      · split
        · refine ih ((List.mem_cons.mp hr).resolve_left ?_)
          rintro rfl
          simp [hbusy] at hx
        · exact hr
      · exact hr

/-- A grant leaves the references in progress. -/
theorem mem_grantHead {l : PLine} {q : List Ref} {r : Ref} (hr : r ∈ q) (hg : r.granted.isSome = true) :
    r ∈ grantHead l q := by
  have hbusy : r.waiting = false := by simpa [Ref.waiting] using hg
  induction q with
  | nil => cases hr
  | cons x q ih =>
    unfold grantHead
    split
    · rename_i hx
      refine List.mem_cons_of_mem _ ((List.mem_cons.mp hr).resolve_left ?_)
      rintro rfl
      rw [hbusy] at hx
      cases hx
    · exact (List.mem_cons.mp hr).elim (fun e => e ▸ List.mem_cons_self) fun h => List.mem_cons_of_mem _ (ih h)

/-- The head granted is in its queue with its line. -/
theorem head_mem_grantHead {l : PLine} {q : List Ref} {r : Ref} (h : headOf q = some r) :
    { r with granted := some l } ∈ grantHead l q := by
  unfold headOf at h
  induction q with
  | nil => cases h
  | cons x q ih =>
    unfold grantHead
    cases hx : x.waiting with
    | true =>
      rw [List.find?_cons_of_pos hx] at h
      obtain rfl := Option.some.inj h
      exact List.mem_cons_self
    | false =>
      rw [List.find?_cons_of_neg (by simp [hx])] at h
      exact List.mem_cons_of_mem _ (ih h)

theorem banksOk_grantTo {b : Bank} {src : Source} {s : State} (he : eligible s b src = true) (h : BanksOk s.sched) :
    BanksOk (grantTo b src s).sched := by
  obtain ⟨r, hr, hbank⟩ := eligible_head he
  obtain ⟨l, turns, e⟩ := grantTo_of_head (b := b) hr
  have hkept : GrantedKept s.sched (s.sched.setQueue src (grantHead l (s.sched.queue src))) :=
    .setQueue fun _ hx hg => mem_grantHead hx hg
  rw [e]
  intro b' o ho
  have ho' : (s.sched.banks.set b (some ⟨src, { r with granted := some l }, l⟩))[b'] = some o := ho
  rw [getElem_set_fin] at ho'
  split at ho'
  · rename_i hb
    obtain rfl := Option.some.inj ho'
    refine ⟨?_, rfl, by rw [hb]; exact hbank⟩
    show _ ∈ (s.sched.setQueue src (grantHead l (s.sched.queue src))).queue src
    rw [queue_setQueue_same]
    exact head_mem_grantHead hr
  · obtain ⟨hmem, hgranted, hbank⟩ := h b' o ho'
    exact ⟨hkept _ _ hmem hgranted, hgranted, hbank⟩

/-- The Scrub Unit issues at the back of queue S (R61). -/
theorem scrubIssueOne_prefix (g : SegMap) (x : List Ref × ScrubUnit) : x.1 <+: (scrubIssueOne g x).1 := by
  unfold scrubIssueOne
  dsimp only
  split
  · split
    · exact List.prefix_append _ _
    · split
      · exact List.prefix_append _ _
      · exact List.prefix_rfl
    · exact List.prefix_rfl
  · exact List.prefix_rfl

theorem scrubIssue_prefix (s : State) : s.sched.s <+: (scrubIssue s).sched.s := by
  have h := scrubIssueOne_prefix s.seg
  exact (h (s.sched.s, s.scrub)).trans ((h _).trans ((h _).trans (h _)))

theorem banksOk_scrubIssue {s : State} (h : BanksOk s.sched) : BanksOk (scrubIssue s).sched :=
  h.setQueue (src := .scrub) fun _ hr _ => (scrubIssue_prefix s).subset hr

theorem banksOk_arbiterAct {b : Bank} {s : State} (h : BanksOk s.sched) : BanksOk (arbiterAct b s).sched := by
  refine arbiterAct_induct (P := fun t => BanksOk t.sched) h (fun h => ?_) (fun src _ he h => banksOk_grantTo he h)
    fun t h => banksOk_scrubIssue h
  rcases discardScrub_cases b s with e | e <;> rw [e]
  · exact h
  · exact h.setQueue fun _ hr hg => mem_dropRetired hr hg

/-- The end of an operation takes its own reference from its queue, and leaves those of the other banks (R68). -/
theorem banksOk_bankDone {b : Bank} {o : BankOp} {s : State} (h : BanksOk s.sched) : BanksOk (bankDone b o s).sched := by
  intro b' o' ho'
  have hbanks : (s.sched.banks.set b none)[b'] = some o' := by
    rw [← setQueue_banks s.sched o.source (dropGranted b (s.sched.queue o.source))]
    exact ho'
  rw [getElem_set_fin] at hbanks
  split at hbanks
  · cases hbanks
  · rename_i hne
    obtain ⟨hmem, hgranted, hbank⟩ := h b' o' hbanks
    refine ⟨?_, hgranted, hbank⟩
    show o'.ref ∈ (s.sched.setQueue o.source (dropGranted b (s.sched.queue o.source))).queue o'.source
    by_cases hsource : o'.source = o.source
    · rw [← hsource, queue_setQueue_same]
      refine (List.mem_eraseP_of_neg ?_).mpr hmem
      rw [hbank, hgranted, Bool.true_and, beq_iff_eq]
      exact hne
    · rw [queue_setQueue_ne _ _ hsource]
      exact hmem

theorem banksOk_operationEnded {b : Bank} (arbiterFirst : Bool) {o : BankOp} {s : State} (h : BanksOk s.sched) :
    BanksOk (operationEnded b arbiterFirst o s).sched := by
  cases arbiterFirst with
  | false => exact banksOk_bankDone h
  | true => exact banksOk_arbiterAct (banksOk_bankDone h)

/-! ## Queue M -/

/-- A reference as it was issued, WAITING. -/
def Ref.ungranted (r : Ref) : Ref := { r with granted := none }

theorem ungranted_eq_iff {x r : Ref} (hr : r.granted = none) : x.ungranted = r ↔ x = { r with granted := x.granted } := by
  obtain ⟨_, _, _, _⟩ := x
  obtain ⟨_, _, _, _⟩ := r
  obtain rfl : _ = none := hr
  simp [Ref.ungranted]

theorem ungranted_bank (r : Ref) : r.ungranted.bank = r.bank := rfl

@[simp] theorem copyReadRef_ungranted (j : Job) (c k : Nat) : (copyReadRef j c k).ungranted = copyReadRef j c k := rfl
@[simp] theorem copyWriteRef_ungranted (j : Job) (c k : Nat) (r : LineResult) :
    (copyWriteRef j c k r).ungranted = copyWriteRef j c k r := rfl

theorem grantHead_ungranted (l : PLine) (q : List Ref) : (grantHead l q).map Ref.ungranted = q.map Ref.ungranted := by
  induction q with
  | nil => rfl
  | cons r q ih =>
    unfold grantHead
    split
    · rfl
    · rw [List.map_cons, List.map_cons, ih]

/-- The arbiter leaves queue M as it was issued. -/
theorem arbiterAct_m (b : Bank) (s : State) :
    (arbiterAct b s).sched.m.map Ref.ungranted = s.sched.m.map Ref.ungranted := by
  refine arbiterAct_induct (P := fun t => t.sched.m.map Ref.ungranted = s.sched.m.map Ref.ungranted) rfl (fun h => ?_)
    (fun src _ he h => ?_) fun t h => h
  · rcases discardScrub_cases b s with e | e <;> rw [e]
    exact h
  · obtain ⟨r, hr, -⟩ := eligible_head he
    obtain ⟨l, turns, e⟩ := grantTo_of_head (b := b) hr
    rw [e]
    rcases src with (_ | _) | _ | _
    · exact h
    · exact h
    · exact (grantHead_ungranted l _).trans h
    · exact h

/-- What queue M holds at a copy position, as it was issued (R48). -/
def CopyRefs (m : Migration) (j : Job) (refs : List Ref) : Prop :=
  (m.kept = none ∧ m.copyStep = .write ∧ m.copyLine ≤ 63 ∧
      (refs = [copyReadRef j m.watermark m.copyLine] ∨
        ∃ i r, m.copyLine = i + 1 ∧ refs = [copyWriteRef j m.watermark i r, copyReadRef j m.watermark m.copyLine])) ∨
    (∃ i r r', m.kept = some (m.copyLine, r') ∧ m.copyStep = .write ∧ m.copyLine = i + 1 ∧ m.copyLine ≤ 63 ∧
        refs = [copyWriteRef j m.watermark i r]) ∨
    (m.kept = none ∧ m.copyStep = .read ∧ m.copyLine = 0 ∧ ∃ r, refs = [copyWriteRef j m.watermark 63 r])

theorem isRead_iff {j : Job} {c k : Nat} {x : Ref} :
    x = { copyReadRef j c k with granted := x.granted } ↔ x.ungranted = copyReadRef j c k :=
  (ungranted_eq_iff rfl).symm

theorem isWrite_iff {j : Job} {c k : Nat} {x : Ref} :
    (∃ r, x = { copyWriteRef j c k r with granted := x.granted }) ↔ ∃ r, x.ungranted = copyWriteRef j c k r :=
  exists_congr fun _ => (ungranted_eq_iff rfl).symm

/-- Queue M is as the copy of a chunk has it, whichever of its references are in progress. -/
theorem copyQueueOk_iff (m : Migration) (q : List Ref) :
    CopyQueueOk m q ↔
      (m.state = .copying → ∃ j, m.job = some j ∧ CopyRefs m j (q.map Ref.ungranted)) ∧
        (m.state ≠ .copying → q = [] ∧ m.kept = none) := by
  by_cases hstate : m.state = .copying
  · simp only [CopyQueueOk, hstate, forall_const, ne_eq, not_true_eq_false, false_imp_iff, and_true, isRead_iff,
      isWrite_iff]
    refine exists_congr fun j => and_congr_right fun _ => or_congr ?_ (or_congr ?_ ?_)
    · refine and_congr_right fun _ => and_congr_right fun _ => and_congr_right fun _ => ⟨?_, ?_⟩
      · rintro ⟨y, hy, rfl | ⟨i, x, hi, ⟨r, hx⟩, rfl⟩⟩
        · exact .inl (by simp [hy])
        · exact .inr ⟨i, r, hi, by simp [hx, hy]⟩
      · rintro (h | ⟨i, r, hi, h⟩)
        · obtain ⟨y, rfl, hy⟩ := List.map_eq_singleton_iff.mp h
          exact ⟨y, hy, .inl rfl⟩
        · obtain ⟨x, rest, rfl, hx, hrest⟩ := List.map_eq_cons_iff.mp h
          obtain ⟨y, rfl, hy⟩ := List.map_eq_singleton_iff.mp hrest
          exact ⟨y, hy, .inr ⟨i, x, hi, ⟨r, hx⟩, rfl⟩⟩
    · constructor
      · rintro ⟨i, x, r', hkept, hstep, hi, hle, ⟨r, hx⟩, rfl⟩
        exact ⟨i, r, r', hkept, hstep, hi, hle, by simp [hx]⟩
      · rintro ⟨i, r, r', hkept, hstep, hi, hle, h⟩
        obtain ⟨x, rfl, hx⟩ := List.map_eq_singleton_iff.mp h
        exact ⟨i, x, r', hkept, hstep, hi, hle, ⟨r, hx⟩, rfl⟩
    · refine and_congr_right fun _ => and_congr_right fun _ => and_congr_right fun _ => ⟨?_, ?_⟩
      · rintro ⟨x, ⟨r, hx⟩, rfl⟩
        exact ⟨r, by simp [hx]⟩
      · rintro ⟨r, h⟩
        obtain ⟨x, rfl, hx⟩ := List.map_eq_singleton_iff.mp h
        exact ⟨x, ⟨r, hx⟩, rfl⟩
  · simp [CopyQueueOk, hstate]

/-! ## The end of an operation of queue M -/

theorem dropGranted_cons_self {b : Bank} {x : Ref} (hgranted : x.granted.isSome = true) (hbank : x.bank = b) (q : List Ref) :
    dropGranted b (x :: q) = q :=
  List.eraseP_cons_of_pos (by simp [hgranted, hbank])

theorem dropGranted_cons_ne {b : Bank} {x : Ref} (hbank : x.bank ≠ b) (q : List Ref) :
    dropGranted b (x :: q) = x :: dropGranted b q :=
  List.eraseP_cons_of_neg (by simp [hbank])

/-- The write of a line and the read of the next are of different banks (R3). -/
theorem copyWriteRef_bank_ne (j : Job) (c i : Nat) (r : LineResult) :
    (copyWriteRef j c i r).bank ≠ (copyReadRef j c (i + 1)).bank := by
  intro h
  have hval : (64 * c + i) % 1048576 % 16 = (64 * c + (i + 1)) % 1048576 % 16 := congrArg Fin.val h
  omega

/-- What a copy leaves in queue M when the operation of one of its references ends, and which one that was: the read at the copy
position; the write before it, with the read still to come or its result kept; or the write of line 63 (R48, R54). -/
theorem CopyRefs.ended {m : Migration} {j : Job} {q : List Ref} (h : CopyRefs m j (q.map Ref.ungranted)) {x : Ref} {b : Bank}
    (hx : x ∈ q) (hgranted : x.granted.isSome = true) (hbank : x.bank = b) :
    (x.ungranted = copyReadRef j m.watermark m.copyLine ∧ m.kept = none ∧ m.copyStep = .write ∧ m.copyLine ≤ 63 ∧
        ((dropGranted b q).map Ref.ungranted = [] ∨
          ∃ i r, m.copyLine = i + 1 ∧ (dropGranted b q).map Ref.ungranted = [copyWriteRef j m.watermark i r])) ∨
      (∃ i r, x.ungranted = copyWriteRef j m.watermark i r ∧ m.copyLine = i + 1 ∧ m.copyLine ≤ 63 ∧ m.copyStep = .write ∧
        (m.kept = none ∧ (dropGranted b q).map Ref.ungranted = [copyReadRef j m.watermark m.copyLine] ∨
          ∃ r', m.kept = some (m.copyLine, r') ∧ (dropGranted b q).map Ref.ungranted = [])) ∨
      ∃ r, x.ungranted = copyWriteRef j m.watermark 63 r ∧ m.kept = none ∧ (dropGranted b q).map Ref.ungranted = [] := by
  have single {y : Ref} (hq : q = [y]) : x = y ∧ dropGranted b q = [] := by
    subst hq
    obtain rfl := List.mem_singleton.mp hx
    exact ⟨rfl, dropGranted_cons_self hgranted hbank []⟩
  rcases h with ⟨hkept, hstep, hle, h | ⟨i, r, hi, h⟩⟩ | ⟨i, r, r', hkept, hstep, hi, hle, h⟩ | ⟨hkept, -, -, r, h⟩
  · obtain ⟨y, hq, hy⟩ := List.map_eq_singleton_iff.mp h
    obtain ⟨rfl, hdrop⟩ := single hq
    exact .inl ⟨hy, hkept, hstep, hle, .inl (by rw [hdrop]; rfl)⟩
  · obtain ⟨w, rest, rfl, hw, hrest⟩ := List.map_eq_cons_iff.mp h
    obtain ⟨y, rfl, hy⟩ := List.map_eq_singleton_iff.mp hrest
    have hne : w.bank ≠ y.bank := by
      rw [← ungranted_bank w, ← ungranted_bank y, hw, hy, hi]
      exact copyWriteRef_bank_ne j m.watermark i r
    rcases List.mem_cons.mp hx with rfl | hx
    · refine .inr (.inl ⟨i, r, hw, hi, hle, hstep, .inl ⟨hkept, ?_⟩⟩)
      rw [dropGranted_cons_self hgranted hbank, List.map_singleton, hy]
    · obtain rfl := List.mem_singleton.mp hx
      refine .inl ⟨hy, hkept, hstep, hle, .inr ⟨i, r, hi, ?_⟩⟩
      rw [dropGranted_cons_ne (by rw [← hbank]; exact hne), dropGranted_cons_self hgranted hbank, List.map_singleton, hw]
  · obtain ⟨w, hq, hw⟩ := List.map_eq_singleton_iff.mp h
    obtain ⟨rfl, hdrop⟩ := single hq
    exact .inr (.inl ⟨i, r, hw, hi, hle, hstep, .inr ⟨r', hkept, by rw [hdrop]; rfl⟩⟩)
  · obtain ⟨w, hq, hw⟩ := List.map_eq_singleton_iff.mp h
    obtain ⟨rfl, hdrop⟩ := single hq
    exact .inr (.inr ⟨r, hw, hkept, by rw [hdrop]; rfl⟩)

/-- Queue M as the end of an operation leaves it to the Migration Unit. -/
theorem operationEnded_m (b : Bank) (arbiterFirst : Bool) (o : BankOp) (s : State) :
    (operationEnded b arbiterFirst o s).sched.m.map Ref.ungranted =
      (if o.source = .migration then dropGranted b s.sched.m else s.sched.m).map Ref.ungranted := by
  have hdone : (bankDone b o s).sched.m = if o.source = .migration then dropGranted b s.sched.m else s.sched.m := by
    rw [bankDone]
    rcases o.source with (_ | _) | _ | _ <;> rfl
  rw [← hdone]
  cases arbiterFirst with
  | false => rfl
  | true => exact arbiterAct_m b _

end Sys2Proof.Machine
end

section
/-! O22. The start of a migration (R33, R42). -/

namespace Sys2Proof.Machine

theorem startClaim_of_queue_nil {g : SegMap} (h : g.queue = []) : startClaim g = none := by
  simp [startClaim, h]

/-- The map after a start claim of segment `l` with spare `d` (R33). -/
def started (l : LogSeg) (ls : List LogSeg) (d : PhysSeg) (ds : List PhysSeg) (g : SegMap) : SegMap :=
  { g with
    queue := ls
    spares := ds
    map := g.map.set l ⟨(g.map[l]).phys, .migrating, false⟩
    phys := g.phys.set d ⟨.reserved, some l, (g.phys[d]).counter⟩ }

theorem startClaim_of_cons {g : SegMap} {l : LogSeg} {ls : List LogSeg} {d : PhysSeg} {ds : List PhysSeg}
    (hqueue : g.queue = l :: ls) (hspares : g.spares = d :: ds) :
    startClaim g = some (started l ls d ds g, ⟨l, (g.map[l]).phys, d⟩) := by
  simp only [startClaim, hqueue, hspares, setPhys, started]

/-- A start claim that is made takes the heads of the queue and of the spare list. -/
theorem startClaim_cons {g g' : SegMap} {j : Job} (h : startClaim g = some (g', j)) :
    ∃ ls ds, g.queue = j.seg :: ls ∧ g.spares = j.dest :: ds ∧ g' = started j.seg ls j.dest ds g ∧
      j = ⟨j.seg, (g.map[j.seg]).phys, j.dest⟩ := by
  obtain ⟨ls, ds, hqueue, hspares, -⟩ := startClaim_some h
  rw [startClaim_of_cons hqueue hspares] at h
  obtain ⟨hg, hj⟩ := Prod.mk.inj (Option.some.inj h)
  exact ⟨ls, ds, hqueue, hspares, hg.symm, hj.symm⟩

/-- With an empty held-over set chunk 0 closes at once (R46). -/
theorem startedMigration_eq (j : Job) :
    startedMigration j = ⟨.stepping, some j, 0, .closing, ⟨false, false, false⟩, 0, .read, none⟩ := rfl

theorem exec_migrationStart_of_not {s : State} (h : ¬ (s.mig.state = .idle ∧ s.scrub.store = .ready ∧ s.seg.queue ≠ [])) :
    exec .migrationStart s = .next s := by
  show execMigrationStart s = _
  unfold execMigrationStart
  split
  · rename_i hready
    have hqueue : s.seg.queue = [] := by
      by_contra hne
      exact h ⟨hready.1, hready.2, hne⟩
    rw [startClaim_of_queue_nil hqueue]
  · rfl

/-- A start claim that finds a segment and a spare is taken up by the Migration Unit. -/
theorem exec_migrationStart_of_claim {s : State} {g : SegMap} {j : Job} (hidle : s.mig.state = .idle)
    (hready : s.scrub.store = .ready) (hclaim : startClaim s.seg = some (g, j)) :
    exec .migrationStart s = .next { s with seg := g, mig := startedMigration j } := by
  show execMigrationStart s = _
  simp only [execMigrationStart, hidle, hready, hclaim, and_self, if_true]

/-- Settles O22: the start claim on a queue and a spare list with heads, and no claim unless the three conditions hold. -/
theorem migrationStartsWithQueueHeadAndLowestSpare : Obligations.MigrationStartsWithQueueHeadAndLowestSpare :=
  ⟨fun _ h => exec_migrationStart_of_not h, fun s l ls d ds hidle hready hqueue hspares => by
    rw [exec_migrationStart_of_claim hidle hready (startClaim_of_cons hqueue hspares), startedMigration_eq]; rfl⟩

end Sys2Proof.Machine
end

section
/-! O17. The end of the last chunk: the switch claim, and what stands in queue M at the end of an operation of the copy (R34, R48,
R54, R55). -/

namespace Sys2Proof.Machine

/-! ## The switch claim (R34) -/

/-- The map, the roles and the retired list after a switch, before an offer that RELOCATE-again may bring. -/
def switched (j : Job) (g : SegMap) : SegMap :=
  { g with
    map := g.map.set j.seg ⟨j.dest, .mapped, false⟩
    phys := (g.phys.set j.dest ⟨.mapped, some j.seg, (g.phys[j.dest]).counter⟩).set j.source
      ⟨.retired, some j.seg, (g.phys[j.source]).counter⟩
    retired := g.retired ++ [j.source] }

/-- The incident of a segment switched with RELOCATE-again for which no spare is left (R31). -/
def switchNoSpare (j : Job) : Incident := ⟨.noSpare, .migration, some j.seg, some j.dest, none, none⟩

theorem switchClaim_eq (j : Job) (g : SegMap) :
    switchClaim j g =
      if (g.map[j.seg]).again then offer j.seg false (switchNoSpare j) (switched j g) else (switched j g, []) := rfl

theorem switched_map (j : Job) (g : SegMap) (l : LogSeg) :
    (switched j g).map[l] = if l = j.seg then ⟨j.dest, .mapped, false⟩ else g.map[l] :=
  getElem_set_fin _ _ _ _

theorem switched_phys (j : Job) (g : SegMap) (p : PhysSeg) :
    (switched j g).phys[p] =
      if p = j.source then ⟨.retired, some j.seg, (g.phys[j.source]).counter⟩
      else if p = j.dest then ⟨.mapped, some j.seg, (g.phys[j.dest]).counter⟩
      else g.phys[p] := by
  show ((g.phys.set j.dest _).set j.source _)[p] = _
  rw [getElem_set_fin, getElem_set_fin]

/-- The claim changes the map and the queue of what a switch leaves, and those only for an offer. -/
theorem switchClaim_frame (j : Job) (g : SegMap) :
    (switchClaim j g).1 =
      { switched j g with map := (switchClaim j g).1.map, queue := (switchClaim j g).1.queue } := by
  rw [switchClaim_eq]
  split
  · exact offer_frame _ _ _ _
  · rfl

/-- The entry of the segment, the queue and the incidents after the claim, by RELOCATE-again and the room for an offer. -/
theorem switchClaim_offer (j : Job) (g : SegMap) :
    (switchClaim j g).1.map = g.map.set j.seg
        ⟨j.dest, if (g.map[j.seg]).again = true then (if g.queue.length < g.spares.length then .queued else .atRisk)
          else .mapped, false⟩ ∧
      (switchClaim j g).1.queue =
        (if (g.map[j.seg]).again = true ∧ g.queue.length < g.spares.length then g.queue ++ [j.seg] else g.queue) ∧
      (switchClaim j g).2 =
        if (g.map[j.seg]).again = true ∧ ¬ g.queue.length < g.spares.length then [switchNoSpare j] else [] := by
  rw [switchClaim_eq]
  cases hagain : (g.map[j.seg]).again with
  | false => simp [switched]
  | true =>
    have hentry : (switched j g).map[j.seg] = ⟨j.dest, .mapped, false⟩ := by rw [switched_map, if_pos rfl]
    by_cases hroom : g.queue.length < g.spares.length
    · rw [if_pos rfl, offer_of_room (g := switched j g) _ _ _ hroom]
      simp only [setSegState, hentry, hroom]
      simp [switched]
    · rw [if_pos rfl, offer_of_full (g := switched j g) _ _ _ (Nat.le_of_not_lt hroom)]
      simp only [setSegState, hentry, hroom]
      simp [switched]

/-! ## The end of the copy of a chunk -/

theorem takeCopyResult_last {s : State} {j : Job} (hstate : s.mig.state = .copying) (hjob : s.mig.job = some j)
    (r : Option LineResult) : takeCopyResult 63 .write r s = endChunk j s := by
  simp only [takeCopyResult, hstate, hjob, if_true]

theorem endChunk_last {s : State} (j : Job) (h : s.mig.watermark = 16383) :
    endChunk j s = switchOver j { s with mig := { s.mig with watermark := 16384, lock := .none } } := by
  simp only [endChunk, h]
  rfl

/-- The switch changes the map, the Migration Unit and the Retirement Memory, and appends. -/
theorem switchOver_frame (j : Job) (s : State) :
    switchOver j s =
      { s with
        seg := (switchClaim j s.seg).1
        mig := { s.mig with state := .recording }
        ret := s.ret.startWrite (s.seg.retired ++ [j.source])
        incidents := (appendIncidents (switchClaim j s.seg).2 s).incidents
        port0 := (switchOver j s).port0
        port1 := (switchOver j s).port1 } := by
  have hretired : (switchClaim j s.seg).1.retired = s.seg.retired ++ [j.source] := by rw [switchClaim_frame]; rfl
  have hlist := appendIncidents_congr (switchClaim j s.seg).2 (t := s) (s := { s with
      seg := (switchClaim j s.seg).1
      mig := { s.mig with state := .recording }
      ret := s.ret.startWrite (s.seg.retired ++ [j.source]) }) rfl rfl
  rw [← hlist]
  unfold switchOver
  dsimp only
  rw [hretired, appendIncidents_frame]

theorem switchOver_port (j : Job) (s : State) (p : PortId) : AlertsOnly (s.port p) ((switchOver j s).port p) := by
  have h := appendIncidents_port (switchClaim j s.seg).2
    { s with
      seg := (switchClaim j s.seg).1
      mig := { s.mig with state := .recording }
      ret := s.ret.startWrite (switchClaim j s.seg).1.retired } p
  cases p <;> exact h

/-- What the end of an operation leaves of the blocks that only its source then changes. -/
theorem operationEnded_kept (b : Bank) (arbiterFirst : Bool) (o : BankOp) (s : State) :
    (operationEnded b arbiterFirst o s).seg = s.seg ∧ (operationEnded b arbiterFirst o s).ret = s.ret ∧
      (operationEnded b arbiterFirst o s).incidents = s.incidents ∧
      (operationEnded b arbiterFirst o s).timeBase = s.timeBase ∧
      ∀ p, (operationEnded b arbiterFirst o s).port p = s.port p := by
  rw [operationEnded_frame]
  exact ⟨rfl, rfl, rfl, rfl, fun p => by cases p <;> rfl⟩

/-- The write of line 63 leaves queue M empty (R54). -/
theorem operationEnded_m_of_last {b : Bank} (arbiterFirst : Bool) {o : BankOp} {s : State} {c : Nat}
    (hb : s.sched.banks[b] = some o) (hsource : o.source = .migration) (horigin : o.ref.origin = .copy c 63 .write)
    (hstate : s.mig.state = .copying) (h : QueuesOk s) : (operationEnded b arbiterFirst o s).sched.m = [] := by
  obtain ⟨hm, hbanks⟩ := h
  obtain ⟨j, -, hrefs⟩ := ((copyQueueOk_iff _ _).mp hm).1 hstate
  obtain ⟨hmem, hgranted, hbank⟩ := hbanks b o hb
  rw [hsource] at hmem
  have horigin' : o.ref.ungranted.origin = .copy c 63 .write := horigin
  have hm := operationEnded_m b arbiterFirst o s
  rw [if_pos hsource] at hm
  rcases hrefs.ended hmem hgranted hbank with ⟨href, -⟩ | ⟨i, r, href, hi, hle, -⟩ | ⟨r, -, -, hleft⟩
  · simp [href, copyReadRef] at horigin'
  · have hi63 : i = 63 := by
      rw [href] at horigin'
      exact (Origin.copy.inj horigin').2.1
    omega
  · rw [hleft] at hm
    exact List.map_eq_nil_iff.mp hm

/-- Settles O17: the write of line 63 of chunk 16,383 ends in the switch, on the state that the bank and its arbiter leave. -/
theorem lastChunkMakesTheSwitch : Obligations.LastChunkMakesTheSwitch := by
  intro b arbiterFirst s o j c' hb hsource horigin hstate hjob hwatermark _
  have hcopy := operationEnded_copyKept b arbiterFirst o s
  obtain ⟨hseg, hret, hlist, htime, hport⟩ := operationEnded_kept b arbiterFirst o s
  have hm := operationEnded_m_of_last arbiterFirst hb hsource horigin hstate
  refine ⟨_, _, sourceActsOn_operationEnded b arbiterFirst o s, exec_operationDone arbiterFirst hb, ?_⟩
  generalize operationEnded b arbiterFirst o s = u at hcopy hseg hret hlist htime hport hm ⊢
  have hlast : giveResult o (performOp s.epoch s.store o.ref.op o.line).2 u =
      switchOver j { u with mig := { u.mig with watermark := 16384, lock := .none } } := by
    have hcopying : u.mig.state = .copying := by rw [hcopy]; exact hstate
    have hujob : u.mig.job = some j := by rw [hcopy]; exact hjob
    have hlastChunk : u.mig.watermark = 16383 := by rw [hcopy]; exact hwatermark
    simp only [giveResult, hsource, horigin]
    rw [takeCopyResult_last hcopying hujob, endChunk_last j hlastChunk]
  obtain ⟨hmap, hqueue, hincidents⟩ := switchClaim_offer j s.seg
  have hports := switchOver_port j { u with mig := { u.mig with watermark := 16384, lock := .none } }
  have hframe := switchOver_frame j { u with mig := { u.mig with watermark := 16384, lock := .none } }
  rw [hlast]
  generalize switchOver j { u with mig := { u.mig with watermark := 16384, lock := .none } } = t at hports hframe ⊢
  simp only [hseg, hret] at hframe
  have htseg : t.seg = (switchClaim j s.seg).1 := congrArg State.seg hframe
  have htret : t.ret = s.ret.startWrite (s.seg.retired ++ [j.source]) := congrArg State.ret hframe
  have htmig : t.mig = { u.mig with state := .recording, watermark := 16384, lock := .none } := congrArg State.mig hframe
  have htlist : t.incidents = (appendIncidents (switchClaim j s.seg).2 s).incidents :=
    (congrArg State.incidents hframe).trans (appendIncidents_congr _ hlist htime)
  have hclaim := switchClaim_frame j s.seg
  refine ⟨?_, fun h => ?_, fun p => ?_, htmig, ?_, ?_, ?_, ?_, ?_, ?_, ?_, htret, fun hnone => ?_, fun hsome hlt => ?_⟩
  · conv_lhs => rw [hframe]
    rw [htseg, htret, htmig, congrArg State.incidents hframe]
  · rw [congrArg State.sched hframe]
    exact hm h
  · have h := hports p
    rw [← hport p]
    cases p <;> exact h
  · rw [htseg, hmap]
  · rw [htseg, hclaim]; rfl
  · rw [htseg, hclaim]; rfl
  · rw [htseg, hclaim]; rfl
  · rw [htseg, hclaim]; rfl
  · rw [htseg, hqueue]
  · rw [htlist, hincidents]
    split <;> rfl
  · simp only [RetMem.nextGeneration, hnone]
  · obtain ⟨n, hn⟩ := Option.ne_none_iff_exists'.mp hsome
    simp only [RetMem.nextGeneration, hn, if_pos hlt]

end Sys2Proof.Machine
end

section
/-! What the claims, the offers and the build leave of the agreement of map, roles, lists, queue and migration (R18, R19, R21, R22,
R27, R30, R31, R33, R34, R40). -/

namespace Sys2Proof.Machine

/-! ## The agreement -/

/-- Migration `j` is in progress. -/
def Migration.Runs (m : Migration) (j : Job) : Prop := m.inProgress = true ∧ m.job = some j

/-- The segment and the destination of a migration in progress are the MIGRATING and the RESERVED one, and no others are. -/
theorem migrationAgrees_iff (g : SegMap) (m : Migration) :
    MigrationAgrees g m ↔
      (∀ l : LogSeg, (g.map[l]).state = .migrating ↔ ∃ j, m.Runs j ∧ j.seg = l) ∧
        (∀ p : PhysSeg, (g.phys[p]).role = .reserved ↔ ∃ j, m.Runs j ∧ j.dest = p) ∧
        ∀ j, m.Runs j → (g.map[j.seg]).phys = j.source ∧ (g.phys[j.dest]).logical = some j.seg := by
  simp only [MigrationAgrees, Migration.Runs, Option.map_eq_some_iff, and_assoc, exists_and_left, and_imp]

/-- Map, roles, lists and queue agree with each other and with the migration. -/
structure MapOk (g : SegMap) (m : Migration) : Prop where
  roles : RolesAgree g
  lists : ListsAgree g
  queue : QueueAgrees g
  migration : MigrationAgrees g m
  again : AgainOk g

/-- The Migration Unit holds in its state what R40 and R46 give it. -/
structure UnitOk (m : Migration) : Prop where
  fields : MigrationFieldsOk m
  heldOver : HeldOverOk m

theorem segmentsOk_iff (s : State) : SegmentsOk s ↔ MapOk s.seg s.mig ∧ UnitOk s.mig :=
  ⟨fun ⟨roles, lists, queue, migration, again, fields, heldOver⟩ =>
    ⟨⟨roles, lists, queue, migration, again⟩, fields, heldOver⟩,
   fun ⟨⟨roles, lists, queue, migration, again⟩, fields, heldOver⟩ =>
    ⟨roles, lists, queue, migration, again, fields, heldOver⟩⟩

/-- Two maps alike in all that the agreement speaks of: counters and threshold may differ. -/
structure SameMap (g g' : SegMap) : Prop where
  map : g'.map = g.map
  role : ∀ p : PhysSeg, (g'.phys[p]).role = (g.phys[p]).role
  logical : ∀ p : PhysSeg, (g'.phys[p]).logical = (g.phys[p]).logical
  spares : g'.spares = g.spares
  retired : g'.retired = g.retired
  queue : g'.queue = g.queue

theorem MapOk.same {g g' : SegMap} {m : Migration} (h : MapOk g m) (k : SameMap g g') : MapOk g' m := by
  obtain ⟨roles, lists, queue, migration, again⟩ := h
  constructor
  · simpa only [RolesAgree, k.map, k.role, k.logical] using roles
  · simpa only [ListsAgree, k.spares, k.retired, k.role] using lists
  · simpa only [QueueAgrees, k.queue, k.spares, k.map] using queue
  · simpa only [MigrationAgrees, k.map, k.role, k.logical] using migration
  · simpa only [AgainOk, k.map] using again

/-- With no migration in progress no segment is MIGRATING and none RESERVED. -/
theorem migrationAgrees_of_idle {g : SegMap} {m : Migration} (hidle : ∀ j, ¬ m.Runs j)
    (hstate : ∀ l : LogSeg, (g.map[l]).state ≠ .migrating) (hrole : ∀ p : PhysSeg, (g.phys[p]).role ≠ .reserved) :
    MigrationAgrees g m :=
  (migrationAgrees_iff g m).mpr
    ⟨fun l => ⟨fun h => absurd h (hstate l), fun ⟨j, hj, _⟩ => absurd hj (hidle j)⟩,
      fun p => ⟨fun h => absurd h (hrole p), fun ⟨j, hj, _⟩ => absurd hj (hidle j)⟩, fun j hj => absurd hj (hidle j)⟩

/-- Of the migration the agreement speaks of the one in progress alone. -/
theorem MapOk.runs {g : SegMap} {m m' : Migration} (h : MapOk g m) (k : ∀ j, m'.Runs j ↔ m.Runs j) : MapOk g m' :=
  ⟨h.roles, h.lists, h.queue, by simpa only [migrationAgrees_iff, k] using h.migration, h.again⟩

theorem sameMap_countCorrected (r : HealthReport) (g : SegMap) : SameMap g (countCorrected r g) :=
  ⟨rfl, countCorrected_role r g, countCorrected_logical r g, rfl, rfl, rfl⟩

/-! ## Offers (R31) -/

section
variable {g : SegMap} {m : Migration} {l : LogSeg}

/-- A MAPPED segment that enters another state, MIGRATING apart, leaves the agreement if the queue follows. -/
theorem MapOk.enter (h : MapOk g m) (hl : (g.map[l]).state = .mapped) {st : SegState} (hst : st ≠ .migrating)
    {q : List LogSeg} (hq : QueueAgrees (setSegState l st { g with queue := q })) :
    MapOk (setSegState l st { g with queue := q }) m := by
  have hentry (k : LogSeg) : (setSegState l st { g with queue := q }).map[k] =
      if k = l then { g.map[l] with state := st } else g.map[k] := setSegState_map l k st _
  have hphys (k : LogSeg) : ((setSegState l st { g with queue := q }).map[k]).phys = (g.map[k]).phys := by
    rw [hentry]
    split
    · rename_i hk; rw [hk]
    · rfl
  have hmigrating (k : LogSeg) :
      ((setSegState l st { g with queue := q }).map[k]).state = .migrating ↔ (g.map[k]).state = .migrating := by
    rw [hentry]
    split
    · rename_i hk; rw [hk, hl]; simp [hst]
    · rfl
  have htable : (setSegState l st { g with queue := q }).phys = g.phys := rfl
  refine ⟨?_, h.lists, hq, ?_, fun k hk => (hmigrating k).mpr (h.again k ?_)⟩
  · simpa only [RolesAgree, hphys, htable] using h.roles
  · simpa only [MigrationAgrees, hphys, htable, hmigrating] using h.migration
  · rw [hentry] at hk
    split at hk
    · rename_i e; rw [e]; exact hk
    · exact hk

/-- A MAPPED segment is not in the queue. -/
theorem MapOk.not_mem_queue (h : MapOk g m) (hl : (g.map[l]).state = .mapped) : l ∉ g.queue := fun hmem => by
  rw [(h.queue.2.1 l).mp hmem] at hl
  cases hl

/-- An offer of a MAPPED segment that the queue has room for. -/
theorem MapOk.queued (h : MapOk g m) (hl : (g.map[l]).state = .mapped) (hroom : g.queue.length < g.spares.length)
    {q : List LogSeg} (hq : q.Perm (l :: g.queue)) : MapOk (setSegState l .queued { g with queue := q }) m := by
  obtain ⟨hnodup, hmem, -⟩ := h.queue
  refine h.enter hl (by decide) ⟨hq.nodup_iff.mpr (List.nodup_cons.mpr ⟨h.not_mem_queue hl, hnodup⟩), fun k => ?_, ?_⟩
  · show k ∈ q ↔ _
    rw [hq.mem_iff, List.mem_cons, setSegState_map, hmem k]
    by_cases hk : k = l <;> simp [hk]
  · show q.length ≤ g.spares.length
    rw [hq.length_eq, List.length_cons]
    omega

/-- A refused offer of a MAPPED segment. -/
theorem MapOk.atRisk (h : MapOk g m) (hl : (g.map[l]).state = .mapped) : MapOk (setSegState l .atRisk g) m := by
  obtain ⟨hnodup, hmem, hlen⟩ := h.queue
  refine h.enter (q := g.queue) hl (by decide) ⟨hnodup, fun k => ?_, hlen⟩
  show k ∈ g.queue ↔ _
  rw [setSegState_map, hmem k]
  by_cases hk : k = l
  · rw [if_pos hk, hk, hl]; simp
  · rw [if_neg hk]

theorem MapOk.offer (h : MapOk g m) (hl : (g.map[l]).state = .mapped) (front : Bool) (i : Incident) :
    MapOk (offer l front i g).1 m := by
  by_cases hroom : g.queue.length < g.spares.length
  · rw [offer_of_room l front i hroom]
    refine h.queued hl hroom ?_
    cases front with
    | true => exact .refl _
    | false => exact List.perm_append_singleton l g.queue
  · rw [offer_of_full l front i (Nat.le_of_not_lt hroom)]
    exact h.atRisk hl

theorem MapOk.relocateOffer (h : MapOk g m) : MapOk (relocateOffer l g).1 m := by
  unfold Machine.relocateOffer
  split
  · exact h
  · exact h
  · exact h
  · rename_i hl
    split
    · rename_i g' hjoin
      obtain ⟨hroom, rfl⟩ := join_some hjoin
      exact h.queued hl hroom (List.perm_append_singleton l g.queue)
    · exact h

/-- RELOCATE-again of the MIGRATING segment. -/
theorem MapOk.setAgain (h : MapOk g m) (hl : (g.map[l]).state = .migrating) : MapOk (setAgain l true g) m := by
  have hentry (k : LogSeg) : (Machine.setAgain l true g).map[k] = if k = l then { g.map[l] with again := true } else g.map[k] :=
    getElem_set_fin _ _ _ _
  have hphys (k : LogSeg) : ((Machine.setAgain l true g).map[k]).phys = (g.map[k]).phys := by
    rw [hentry]
    split
    · rename_i hk; rw [hk]
    · rfl
  have hstate (k : LogSeg) : ((Machine.setAgain l true g).map[k]).state = (g.map[k]).state := by
    rw [hentry]
    split
    · rename_i hk; rw [hk]
    · rfl
  have htable : (Machine.setAgain l true g).phys = g.phys := rfl
  have hlists : (Machine.setAgain l true g).queue = g.queue ∧ (Machine.setAgain l true g).spares = g.spares := ⟨rfl, rfl⟩
  refine ⟨?_, h.lists, ?_, ?_, fun k hk => ?_⟩
  · simpa only [RolesAgree, hphys, htable] using h.roles
  · simpa only [QueueAgrees, hstate, hlists] using h.queue
  · simpa only [MigrationAgrees, hphys, hstate, htable] using h.migration
  · rw [hentry] at hk
    rw [hstate]
    split at hk
    · rename_i e; rw [e]; exact hl
    · exact h.again k hk

/-! ## Health reports (R35 to R37) -/

theorem MapOk.uncorrectableAction (h : MapOk g m) (r : HealthReport) : MapOk (uncorrectableAction r g).1 m := by
  by_cases hsource : r.source = .migration
  · rw [uncorrectableAction_of_migration hsource]
    exact h
  · by_cases hmapped : OfferedOn r.line.seg g
    · obtain ⟨hrole, l, hlogical, hstate⟩ := hmapped
      rw [uncorrectableAction_of_mapped hsource hrole hlogical hstate]
      exact h.offer hstate _ _
    · by_cases hreserved : (g.phys[r.line.seg]).role = .reserved ∧ (g.phys[r.line.seg]).logical ≠ none
      · obtain ⟨hrole, hsome⟩ := hreserved
        obtain ⟨l, hlogical⟩ := Option.ne_none_iff_exists'.mp hsome
        obtain ⟨hstates, hroles, hjob⟩ := (migrationAgrees_iff g m).mp h.migration
        obtain ⟨j, hj, hdest⟩ := (hroles _).mp hrole
        have hl : j.seg = l := by
          have hseg := (hjob j hj).2
          simp only [hdest, hlogical, Option.some.injEq] at hseg
          exact hseg.symm
        rw [uncorrectableAction_of_reserved hsource hrole hlogical]
        exact h.setAgain ((hstates l).mpr ⟨j, hj, hl⟩)
      · rw [uncorrectableAction_of_other hsource hmapped fun hrole => by_contra fun hne => hreserved ⟨hrole, hne⟩]
        exact h

theorem MapOk.thresholdCheck (h : MapOk g m) (r : HealthReport) : MapOk (thresholdCheck r g).1 m := by
  unfold Machine.thresholdCheck
  dsimp only
  split
  · split
    · rename_i hstate
      exact h.offer hstate.1 _ _
    · exact h
  · exact h

theorem MapOk.takeReport (h : MapOk g m) (r : HealthReport) : MapOk (takeReport r g).1 m := by
  have haction : MapOk (if r.hasUncorrectable then Machine.uncorrectableAction r g else (g, [])).1 m := by
    split
    · exact h.uncorrectableAction r
    · exact h
  have hcounted := haction.same (sameMap_countCorrected r _)
  unfold Machine.takeReport
  dsimp only
  split
  · exact hcounted.thresholdCheck r
  · exact hcounted

/-! ## Segments and migrations (R19, R40) -/

theorem Migration.Runs.unique {i j : Job} (hi : m.Runs i) (hj : m.Runs j) : i = j := Option.some.inj (hi.2.symm.trans hj.2)

/-- The segment a physical segment is MAPPED to is the one whose entry names it, and the other way round (R19). -/
theorem MapOk.mapped_iff (h : MapOk g m) (p : PhysSeg) (l : LogSeg) :
    ((g.phys[p]).role = .mapped ∧ (g.phys[p]).logical = some l) ↔ (g.map[l]).phys = p := h.roles.1 p l

/-- No map entry names a segment that is not MAPPED. -/
theorem MapOk.phys_ne (h : MapOk g m) {p : PhysSeg} (hp : (g.phys[p]).role ≠ .mapped) (k : LogSeg) : (g.map[k]).phys ≠ p :=
  fun e => hp ((h.mapped_iff p k).mpr e).1

theorem MapOk.migrating_iff (h : MapOk g m) {j : Job} (hj : m.Runs j) (k : LogSeg) :
    (g.map[k]).state = .migrating ↔ k = j.seg :=
  (((migrationAgrees_iff g m).mp h.migration).1 k).trans
    ⟨fun ⟨_, hi, hk⟩ => hi.unique hj ▸ hk.symm, fun hk => ⟨j, hj, hk.symm⟩⟩

theorem MapOk.reserved_iff (h : MapOk g m) {j : Job} (hj : m.Runs j) (p : PhysSeg) :
    (g.phys[p]).role = .reserved ↔ p = j.dest :=
  (((migrationAgrees_iff g m).mp h.migration).2.1 p).trans
    ⟨fun ⟨_, hi, hp⟩ => hi.unique hj ▸ hp.symm, fun hp => ⟨j, hj, hp.symm⟩⟩

theorem MapOk.not_migrating (h : MapOk g m) (hidle : ∀ j, ¬ m.Runs j) (k : LogSeg) : (g.map[k]).state ≠ .migrating :=
  fun e => (((migrationAgrees_iff g m).mp h.migration).1 k).mp e |>.elim fun j hj => hidle j hj.1

theorem MapOk.not_reserved (h : MapOk g m) (hidle : ∀ j, ¬ m.Runs j) (p : PhysSeg) : (g.phys[p]).role ≠ .reserved :=
  fun e => (((migrationAgrees_iff g m).mp h.migration).2.1 p).mp e |>.elim fun j hj => hidle j hj.1

/-- The source of a migration in progress is the segment that the map still names. -/
theorem MapOk.source (h : MapOk g m) {j : Job} (hj : m.Runs j) : (g.map[j.seg]).phys = j.source :=
  (((migrationAgrees_iff g m).mp h.migration).2.2 j hj).1

theorem MapOk.source_mapped (h : MapOk g m) {j : Job} (hj : m.Runs j) :
    (g.phys[j.source]).role = .mapped ∧ (g.phys[j.source]).logical = some j.seg := (h.mapped_iff _ _).mpr (h.source hj)

theorem MapOk.dest_reserved (h : MapOk g m) {j : Job} (hj : m.Runs j) : (g.phys[j.dest]).role = .reserved :=
  (h.reserved_iff hj _).mpr rfl

theorem MapOk.dest_ne_source (h : MapOk g m) {j : Job} (hj : m.Runs j) : j.dest ≠ j.source := fun e =>
  h.phys_ne (p := j.dest) (by rw [h.dest_reserved hj]; decide) j.seg ((h.source hj).trans e.symm)

/-! ## The start of a migration (R33) -/

section
variable {ls : List LogSeg} {d : PhysSeg} {ds : List PhysSeg}

theorem started_map (k : LogSeg) :
    (started l ls d ds g).map[k] = if k = l then ⟨(g.map[l]).phys, .migrating, false⟩ else g.map[k] :=
  getElem_set_fin _ _ _ _

theorem started_phys (p : PhysSeg) :
    (started l ls d ds g).phys[p] = if p = d then ⟨.reserved, some l, (g.phys[d]).counter⟩ else g.phys[p] :=
  getElem_set_fin _ _ _ _

theorem started_runs (j : Job) : (startedMigration ⟨l, (g.map[l]).phys, d⟩).Runs j ↔ j = ⟨l, (g.map[l]).phys, d⟩ := by
  simp [Migration.Runs, startedMigration_eq, Migration.inProgress, eq_comm]

theorem MapOk.rolesAgree_started (h : MapOk g m) (hd : (g.phys[d]).role = .spare) : RolesAgree (started l ls d ds g) := by
  have hname (k : LogSeg) : ((started l ls d ds g).map[k]).phys = (g.map[k]).phys := by
    rw [started_map]
    split
    · rename_i hk; rw [hk]
    · rfl
  refine ⟨fun p k => ?_, fun p hp => ?_⟩
  · rw [hname, started_phys]
    by_cases hpd : p = d
    · rw [if_pos hpd, hpd]
      exact ⟨fun e => (nomatch e.1), fun e => absurd e (h.phys_ne (by rw [hd]; decide) k)⟩
    · rw [if_neg hpd]
      exact h.mapped_iff p k
  · rw [started_phys] at hp ⊢
    split at hp
    · cases hp
    · rename_i hpd
      rw [if_neg hpd]
      exact h.roles.2 p hp

theorem MapOk.listsAgree_started (h : MapOk g m) (hspares : g.spares = d :: ds) : ListsAgree (started l ls d ds g) := by
  obtain ⟨hasc, hspare, hnodup, hretired⟩ := h.lists
  rw [hspares] at hasc hspare
  have hd : (g.phys[d]).role = .spare := (hspare d).mp List.mem_cons_self
  refine ⟨(List.pairwise_cons.mp hasc).2, fun p => ?_, hnodup, fun p => (hretired p).trans ?_⟩
  · rw [started_phys]
    by_cases hpd : p = d
    · rw [if_pos hpd, hpd]
      exact ⟨fun hmem => absurd hmem (List.nodup_cons.mp hasc.nodup).1, fun e => nomatch e⟩
    · rw [if_neg hpd, ← hspare p, List.mem_cons, or_iff_right hpd]
      rfl
  · rw [started_phys]
    by_cases hpd : p = d
    · rw [if_pos hpd, hpd, hd]
      exact ⟨fun e => (nomatch e), fun e => nomatch e⟩
    · rw [if_neg hpd]

theorem MapOk.queueAgrees_started (h : MapOk g m) (hqueue : g.queue = l :: ls) (hspares : g.spares = d :: ds) :
    QueueAgrees (started l ls d ds g) := by
  obtain ⟨hnodup, hqueued, hlen⟩ := h.queue
  rw [hqueue] at hnodup hqueued hlen
  rw [hspares] at hlen
  refine ⟨(List.nodup_cons.mp hnodup).2, fun k => ?_, Nat.le_of_succ_le_succ hlen⟩
  rw [started_map]
  by_cases hk : k = l
  · rw [if_pos hk, hk]
    exact ⟨fun hmem => absurd hmem (List.nodup_cons.mp hnodup).1, fun e => nomatch e⟩
  · rw [if_neg hk, ← hqueued k, List.mem_cons, or_iff_right hk]
    rfl

theorem MapOk.migrationAgrees_started (h : MapOk g m) (hidle : ∀ j, ¬ m.Runs j) :
    MigrationAgrees (started l ls d ds g) (startedMigration ⟨l, (g.map[l]).phys, d⟩) := by
  refine (migrationAgrees_iff _ _).mpr ⟨fun k => ?_, fun p => ?_, fun j hj => ?_⟩
  · simp only [started_runs, exists_eq_left, started_map]
    by_cases hk : k = l
    · simp [hk]
    · rw [if_neg hk]
      exact ⟨fun e => absurd e (h.not_migrating hidle k), fun e => absurd e.symm hk⟩
  · simp only [started_runs, exists_eq_left, started_phys]
    by_cases hpd : p = d
    · simp [hpd]
    · rw [if_neg hpd]
      exact ⟨fun e => absurd e (h.not_reserved hidle p), fun e => absurd e.symm hpd⟩
  · obtain rfl := (started_runs j).mp hj
    rw [started_map, started_phys, if_pos rfl, if_pos rfl]
    exact ⟨rfl, rfl⟩

/-- A start claim leaves the segment MIGRATING and the spare RESERVED for it. -/
theorem MapOk.started (h : MapOk g m) (hidle : ∀ j, ¬ m.Runs j) (hqueue : g.queue = l :: ls) (hspares : g.spares = d :: ds) :
    MapOk (started l ls d ds g) (startedMigration ⟨l, (g.map[l]).phys, d⟩) := by
  have hd : (g.phys[d]).role = .spare := (h.lists.2.1 d).mp (hspares ▸ List.mem_cons_self)
  refine ⟨h.rolesAgree_started hd, h.listsAgree_started hspares, h.queueAgrees_started hqueue hspares,
    h.migrationAgrees_started hidle, fun k hk => ?_⟩
  rw [started_map] at hk ⊢
  split at hk
  · cases hk
  · rename_i hkl
    rw [if_neg hkl]
    exact h.again k hk

end

/-! ## The switch (R34) -/

section
variable {j : Job}

theorem MapOk.rolesAgree_switched (h : MapOk g m) (hj : m.Runs j) : RolesAgree (switched j g) := by
  have hne := h.dest_ne_source hj
  obtain ⟨hsource, hlogical⟩ := h.source_mapped hj
  have hdest : (g.phys[j.dest]).role ≠ .mapped := by rw [h.dest_reserved hj]; decide
  have hother {k : LogSeg} (hk : k ≠ j.seg) : (g.map[k]).phys ≠ j.source := fun e =>
    hk (Option.some.inj (((h.mapped_iff j.source k).mpr e).2.symm.trans hlogical))
  refine ⟨fun p k => ?_, fun p hp => ?_⟩
  · rw [switched_phys, switched_map]
    by_cases hps : p = j.source
    · rw [if_pos hps, hps]
      refine ⟨fun e => (nomatch e.1), fun e => ?_⟩
      split at e
      · exact absurd e hne
      · rename_i hk; exact absurd e (hother hk)
    · rw [if_neg hps]
      by_cases hpd : p = j.dest
      · rw [if_pos hpd, hpd]
        split
        · rename_i hk; rw [hk]; exact ⟨fun _ => rfl, fun _ => ⟨rfl, rfl⟩⟩
        · rename_i hk
          exact ⟨fun e => absurd (Option.some.inj e.2).symm hk, fun e => absurd e (h.phys_ne hdest k)⟩
      · rw [if_neg hpd, h.mapped_iff p k]
        split
        · rename_i hk
          rw [hk, h.source hj]
          exact ⟨fun e => absurd e.symm hps, fun e => absurd e.symm hpd⟩
        · rfl
  · rw [switched_phys] at hp ⊢
    by_cases hps : p = j.source
    · rw [if_pos hps] at hp
      cases hp
    · rw [if_neg hps] at hp ⊢
      by_cases hpd : p = j.dest
      · rw [if_pos hpd]; rfl
      · rw [if_neg hpd] at hp ⊢
        exact h.roles.2 p hp

theorem MapOk.listsAgree_switched (h : MapOk g m) (hj : m.Runs j) : ListsAgree (switched j g) := by
  obtain ⟨hasc, hspare, hnodup, hretired⟩ := h.lists
  have hne := h.dest_ne_source hj
  have hsource := (h.source_mapped hj).1
  have hdest := h.dest_reserved hj
  have hunlisted : j.source ∉ g.retired := fun hmem => by
    rw [(hretired _).mp hmem] at hsource
    cases hsource
  refine ⟨hasc, fun p => (hspare p).trans ?_, List.nodup_append.mpr ⟨hnodup, List.nodup_singleton _, fun a ha b hb e =>
    hunlisted (List.mem_singleton.mp hb ▸ e ▸ ha)⟩, fun p => List.mem_append.trans ?_⟩
  · rw [switched_phys]
    by_cases hps : p = j.source
    · rw [if_pos hps, hps, hsource]
      exact ⟨fun e => (nomatch e), fun e => nomatch e⟩
    · rw [if_neg hps]
      by_cases hpd : p = j.dest
      · rw [if_pos hpd, hpd, hdest]
        exact ⟨fun e => (nomatch e), fun e => nomatch e⟩
      · rw [if_neg hpd]
  · rw [switched_phys, List.mem_singleton, hretired p]
    by_cases hps : p = j.source
    · simp [hps]
    · rw [if_neg hps, or_iff_left hps]
      by_cases hpd : p = j.dest
      · rw [if_pos hpd, hpd, hdest]
        exact ⟨fun e => (nomatch e), fun e => nomatch e⟩
      · rw [if_neg hpd]

theorem MapOk.queueAgrees_switched (h : MapOk g m) (hj : m.Runs j) : QueueAgrees (switched j g) := by
  obtain ⟨hnodup, hqueued, hlen⟩ := h.queue
  refine ⟨hnodup, fun k => (hqueued k).trans ?_, hlen⟩
  rw [switched_map]
  by_cases hk : k = j.seg
  · rw [if_pos hk, (h.migrating_iff hj k).mpr hk]
    exact ⟨fun e => (nomatch e), fun e => nomatch e⟩
  · rw [if_neg hk]

/-- A switch leaves no migration in progress, the destination MAPPED and the source RETIRED. -/
theorem MapOk.switched (h : MapOk g m) (hj : m.Runs j) {m' : Migration} (hdone : ∀ j, ¬ m'.Runs j) :
    MapOk (switched j g) m' := by
  refine ⟨h.rolesAgree_switched hj, h.listsAgree_switched hj, h.queueAgrees_switched hj,
    migrationAgrees_of_idle hdone (fun k => ?_) fun p => ?_, fun k hk => ?_⟩
  · rw [switched_map]
    split
    · exact nofun
    · rename_i hk
      exact fun e => hk ((h.migrating_iff hj k).mp e)
  · rw [switched_phys]
    split
    · exact nofun
    · split
      · exact nofun
      · rename_i hpd
        exact fun e => hpd ((h.reserved_iff hj p).mp e)
  · rw [switched_map] at hk ⊢
    split at hk
    · cases hk
    · rename_i hks
      exact absurd ((h.migrating_iff hj k).mp (h.again k hk)) hks

/-- The switch claim whole, with the offer that RELOCATE-again brings. -/
theorem MapOk.switchClaim (h : MapOk g m) (hj : m.Runs j) {m' : Migration} (hdone : ∀ j, ¬ m'.Runs j) :
    MapOk (switchClaim j g).1 m' := by
  have hswitched := h.switched hj hdone
  rw [switchClaim_eq]
  split
  · exact hswitched.offer (by rw [switched_map, if_pos rfl]) _ _
  · exact hswitched

end

end

/-! ## The build (R27) -/

theorem MapOk.mapBuild {retired : List PhysSeg} (hnodup : retired.Nodup) (hlen : retired.length ≤ 8) {m : Migration}
    (hidle : ∀ j, ¬ m.Runs j) : MapOk (mapBuild retired) m := by
  have hmap (l : LogSeg) : ((Machine.mapBuild retired).map[l]).state = .mapped ∧
      ((Machine.mapBuild retired).map[l]).again = false := by
    obtain ⟨p, -, e⟩ := mapBuild_map hnodup hlen l
    rw [e]
    exact ⟨rfl, rfl⟩
  constructor
  · refine ⟨fun p l => ⟨fun ⟨hrole, hlogical⟩ => ?_, ?_⟩, fun p hp => ?_⟩
    · by_cases hp : p ∈ retired
      · rw [mapBuild_phys_retired hp] at hrole
        cases hrole
      · rw [mapBuild_phys_ranked hp] at hrole hlogical
        split at hlogical
        · rename_i hrank
          have hl : l = ⟨buildRank retired p, hrank⟩ :=
            Fin.ext ((congrArg Fin.val (Option.some.inj hlogical)).symm.trans (Nat.mod_eq_of_lt hrank))
          rw [hl]
          exact mapBuild_map_of_rank hnodup hlen hp hrank
        · cases hlogical
    · rintro rfl
      rw [(mapBuild_phys_map hnodup hlen l).2]
      exact ⟨rfl, rfl⟩
    · by_cases hret : p ∈ retired
      · rw [mapBuild_phys_retired hret] at hp
        cases hp
      · rw [mapBuild_phys_ranked hret] at hp ⊢
        split at hp
        · rename_i hrank; rw [if_pos hrank]; rfl
        · cases hp
  · exact ⟨mapBuild_spares_ascending retired, mapBuild_role_spare hnodup, hnodup,
      fun p => (mapBuild_role_retired retired p).symm⟩
  · exact ⟨List.nodup_nil, fun l => by rw [(hmap l).1]; simp [Machine.mapBuild], Nat.zero_le _⟩
  · refine migrationAgrees_of_idle hidle (fun l => by rw [(hmap l).1]; decide) fun p => ?_
    by_cases hp : p ∈ retired
    · rw [mapBuild_phys_retired hp]; decide
    · rw [mapBuild_phys_ranked hp]
      split <;> exact nofun
  · intro l hl
    rw [(hmap l).2] at hl
    cases hl

end Sys2Proof.Machine
end

section
/-! What every row does to the store side, said once: the shapes of a change of the store, the scheduler, the map, the Migration
Unit, the Scrub Unit and the Incident List, and the row that makes each. An invariant of the store side is kept by every step if
each shape keeps it. -/

namespace Sys2Proof.Machine

/-! ## The shapes -/

/-- The state in which the power-on read begins the sweep: the map built, NV_FAULT appended if the read gave it, and the scrub
position at the lowest segment in service (R24, R27, R77). -/
def readDone (answered : Bool) (s : State) : State :=
  let x := powerOnRead answered s.ret.slot0 s.ret.slot1
  { s with
    seg := mapBuild x.retired
    incidents := if x.nvFault then (appendIncident powerOnFault s).incidents else s.incidents
    scrub := { s.scrub with pos := .at ⟨lowestServed (mapBuild x.retired), 0⟩ } }

/-- The Migration Unit as the lock of its closing chunk is held (R47). -/
def heldMigration (m : Migration) : Migration :=
  { m with state := .copying, lock := .held, copyLine := 0, copyStep := .write, kept := none }

/-- The Migration Unit as its migration is completed (R56). -/
def idleMigration (m : Migration) : Migration :=
  { m with state := .idle, job := none, watermark := 0, copyLine := 0, copyStep := .read, kept := none }

/-- The shapes of what one row does to the store side. -/
inductive StoreSideStep (s : State) : State → Prop
  | same : StoreSideStep s s
  | powerOn : StoreSideStep s State.reset
  | built (answered : Bool) (hidle : s.mig.state = .idle) : StoreSideStep s (scrubIssue (readDone answered s))
  | purged (p : PortId) : StoreSideStep s (purgeQueue p s)
  | issued (p : PortId) (r : Ref) (hroom : (s.sched.queue (.host p)).length < 4) : StoreSideStep s (issueRef (.host p) r s)
  | granted (b : Bank) : StoreSideStep s (arbiterAct b s)
  | operated (b : Bank) (arbiterFirst : Bool) (o : BankOp) (hbank : s.sched.banks[b] = some o) :
    StoreSideStep s (giveResult o (performOp s.epoch s.store o.ref.op o.line).2 (operationEnded b arbiterFirst o s))
  | reported (r : HealthReport) : StoreSideStep s (absorbReport r s)
  | started (g : SegMap) (j : Job) (hidle : s.mig.state = .idle) (hclaim : startClaim s.seg = some (g, j)) :
    StoreSideStep s { s with seg := g, mig := startedMigration j }
  | held (j : Job) (hjob : s.mig.job = some j) (hstate : s.mig.state = .stepping) (hlock : s.mig.lock = .closing) :
    StoreSideStep s (issueRef .migration (copyReadRef j s.mig.watermark 0) { s with mig := heldMigration s.mig })
  | migrated (is : List Incident) (hstate : s.mig.state = .recording) :
    StoreSideStep s { s with mig := idleMigration s.mig, incidents := (appendIncidents is s).incidents }
  | ticked : StoreSideStep s (patrolIssue { s with scrub := accrue s.scrub })
  | shortened (l : IncidentList) (hrecords : l.records.length ≤ s.incidents.records.length)
      (hdropped : l.dropped ≤ s.incidents.dropped) : StoreSideStep s { s with incidents := l }
  | tuned (threshold rate : Option Nat) : StoreSideStep s (tuneRate rate (tuneThreshold threshold s))
  | relocated (l : LogSeg) : StoreSideStep s { s with seg := (relocateOffer l s.seg).1 }
  | flipped (line : PLine) (word : Fin 8) (v : StoredWord) :
    StoreSideStep s { s with store := memoryPut s.store (wordNumber line word) v }

/-- The store side of `t` is what one of the shapes makes of `s`. -/
def StoreSideSteps (s t : State) : Prop := ∃ u, StoreSideStep s u ∧ StoreSideKept u t

theorem StoreSideKept.steps {s t : State} (h : StoreSideKept s t) : StoreSideSteps s t := ⟨s, .same, h⟩

/-- The issue of the Scrub Unit rests on the store side alone. -/
theorem StoreSideKept.scrubIssue {s t : State} (h : StoreSideKept s t) : StoreSideKept (scrubIssue s) (scrubIssue t) := by
  refine ⟨h.store, ?_, h.seg, h.mig, ?_, h.incidents⟩
  · simp only [Machine.scrubIssue, h.sched, h.seg, h.scrub]
  · simp only [Machine.scrubIssue, h.sched, h.seg, h.scrub]

/-! ## Power -/

/-- The end of the power-on read, in the words of its shape; the ports take the notice of a first NV_FAULT. -/
theorem exec_retirementReadDone {answered : Bool} {s : State} (hreading : s.ret.reading = true)
    (hidle : s.mig.state = .idle) :
    let x := powerOnRead answered s.ret.slot0 s.ret.slot1
    let s1 : State := { s with ret := s.ret.afterRead x.current, seg := mapBuild x.retired }
    let s2 := if x.nvFault then appendTelling (powerOnTakes s1) powerOnFault s1 else s1
    exec (.retirementReadDone answered) s =
      .next { scrubIssue (readDone answered s) with ret := s.ret.afterRead x.current, port0 := s2.port0, port1 := s2.port1 } := by
  intro x s1 s2
  have hs2 : s2 =
      { s with
        ret := s.ret.afterRead x.current
        seg := mapBuild x.retired
        incidents := (readDone answered s).incidents
        port0 := s2.port0
        port1 := s2.port1 } := by
    have hlist : (readDone answered s).incidents = if x.nvFault then (appendIncident powerOnFault s).incidents else s.incidents :=
      rfl
    rw [hlist]
    unfold s2
    split
    · rw [appendTelling_frame, appendTelling_incidents, appendIncident_incidents]
    · rfl
  show execRetirementReadDone answered s = _
  unfold execRetirementReadDone
  rw [if_pos ⟨hreading, hidle⟩]
  show Host.Outcome.next (scrubIssue { s2 with scrub := { s2.scrub with pos := .at ⟨lowestServed s2.seg, 0⟩ } }) = _
  generalize s2 = u at hs2 ⊢
  rw [hs2]
  rfl

theorem exec_retirementReadDone_steps (answered : Bool) (s : State) :
    Ends (exec (.retirementReadDone answered) s) (StoreSideSteps s) := by
  by_cases h : s.ret.reading = true ∧ s.mig.state = .idle
  · rw [exec_retirementReadDone h.1 h.2]
    exact ends_next.mpr ⟨_, .built answered h.2, rfl, rfl, rfl, rfl, rfl, rfl⟩
  · have hsame : exec (.retirementReadDone answered) s = .next s := if_neg h
    rw [hsame]
    exact ends_next.mpr (StoreSideKept.refl s).steps

/-! ## Ports -/

theorem resetPort_purged (p : PortId) (s : State) : StoreSideKept (purgeQueue p s) (resetPort p s) := by
  rw [resetPort_frame, purgeQueue_frame]
  exact ⟨rfl, rfl, rfl, rfl, rfl, rfl⟩

theorem exec_reset_steps (p : PortId) (s : State) : Ends (exec (.reset p) s) (StoreSideSteps s) := by
  show Ends (execReset p s) _
  unfold execReset
  split
  · exact ends_next.mpr (StoreSideKept.refl s).steps
  · exact ends_next.mpr ⟨_, .purged p, resetPort_purged p s⟩

theorem failCheckRead_storeSide (p : PortId) (s : State) : StoreSideKept s (failCheckRead p s) := by
  unfold failCheckRead
  split
  · exact ⟨rfl, rfl, rfl, rfl, rfl, rfl⟩
  · exact .refl s

theorem exec_linkDown_steps (p : PortId) (delivered : Nat) (s : State) :
    Ends (exec (.linkDown p delivered) s) (StoreSideSteps s) := by
  have hlost (t : State) (f : HostPort → HostPort) : StoreSideKept t ((failCheckRead p t).modPort p f) :=
    (failCheckRead_storeSide p t).trans (.modPort _ p f)
  show Ends (execLinkDown p delivered s) _
  unfold execLinkDown
  split
  · dsimp only
    split
    · exact ends_next.mpr (hlost s _).steps
    · exact ends_next.mpr ⟨_, .purged p, (resetPort_purged p s).trans (hlost _ _)⟩
  · exact ends_next.mpr (StoreSideKept.refl s).steps

theorem exec_referenceIssue_steps (p : PortId) (s : State) : Ends (exec (.referenceIssue p) s) (StoreSideSteps s) := by
  show Ends (execReferenceIssue p s) _
  unfold execReferenceIssue
  split
  · rename_i hroom
    split
    · rename_i i x _
      have hport := StoreSideKept.modPort s p (issueFrom i x)
      refine ends_next.mpr ⟨_, .issued p x.issue.1 (of_decide_eq_true (Bool.and_eq_true_iff.mp hroom).2), hport.store, ?_,
        hport.seg, hport.mig, hport.scrub, hport.incidents⟩
      simp only [issueRef, hport.sched]
    · exact ends_next.mpr (StoreSideKept.refl s).steps
  · exact ends_next.mpr (StoreSideKept.refl s).steps

/-! ## Banks, health and migration -/

theorem exec_operationDone_steps (b : Bank) (arbiterFirst : Bool) (s : State) :
    Ends (exec (.operationDone b arbiterFirst) s) (StoreSideSteps s) := by
  cases hb : s.sched.banks[b] with
  | none =>
    have hsame : exec (.operationDone b arbiterFirst) s = .next s := by
      show execOperationDone b arbiterFirst s = _
      simp only [execOperationDone, hb]
    rw [hsame]
    exact ends_next.mpr (StoreSideKept.refl s).steps
  | some o =>
    rw [exec_operationDone arbiterFirst hb]
    exact ends_next.mpr ⟨_, .operated b arbiterFirst o hb, .refl _⟩

/-- What a report does to the store side rests on the store side and the time base alone. -/
theorem absorbReport_storeSide (r : HealthReport) (s : State) (reports : List HealthReport) :
    StoreSideKept (absorbReport r s) (absorbReport r { s with reports := reports }) := by
  have hs := absorbReport_frame r s
  have ht := absorbReport_frame r { s with reports := reports }
  refine ⟨?_, ?_, ?_, ?_, ?_, appendIncidents_congr _ rfl rfl⟩ <;> rw [ht, hs]

theorem exec_healthReport_steps (b : Bank) (s : State) : Ends (exec (.healthReport b) s) (StoreSideSteps s) := by
  show Ends (execHealthReport b s) _
  unfold execHealthReport
  split
  · exact ends_next.mpr (StoreSideKept.refl s).steps
  · exact ends_next.mpr ⟨_, .reported _, absorbReport_storeSide _ s _⟩

theorem exec_migrationStart_steps (s : State) : Ends (exec .migrationStart s) (StoreSideSteps s) := by
  show Ends (execMigrationStart s) _
  unfold execMigrationStart
  split
  · rename_i hready
    split
    · rename_i g j hclaim
      exact ends_next.mpr ⟨_, .started g j hready.1 hclaim, .refl _⟩
    · exact ends_next.mpr (StoreSideKept.refl s).steps
  · exact ends_next.mpr (StoreSideKept.refl s).steps

theorem exec_chunkLockHeld_steps (s : State) : Ends (exec .chunkLockHeld s) (StoreSideSteps s) := by
  show Ends (execChunkLockHeld s) _
  unfold execChunkLockHeld
  split
  · exact ends_next.mpr (StoreSideKept.refl s).steps
  · rename_i j hjob
    split
    · rename_i h
      exact ends_next.mpr ⟨_, .held j hjob h.1 h.2.1, .refl _⟩
    · exact ends_next.mpr (StoreSideKept.refl s).steps

/-- The end of the Retirement Memory write: the appends, the migrated notice at both ports, and the unit IDLE (R25, R56, R57). -/
theorem exec_retirementWriteDone {outcome : WriteOutcome} {s : State} {j : Job} {i : Image}
    (hstate : s.mig.state = .recording) (hjob : s.mig.job = some j) (hwriting : s.ret.writing = some i) :
    let u := appendIncidents (migratedIncidents j outcome) { s with ret := s.ret.endWrite outcome i }
    exec (.retirementWriteDone outcome) s =
      .next
        { s with
          mig := idleMigration s.mig
          ret := s.ret.endWrite outcome i
          incidents := u.incidents
          port0 := migratedNotice j.seg u.port0
          port1 := migratedNotice j.seg u.port1 } := by
  intro u
  have hframe : u = { s with ret := s.ret.endWrite outcome i, incidents := u.incidents, port0 := u.port0, port1 := u.port1 } :=
    appendIncidents_frame _ _
  have hexec : exec (.retirementWriteDone outcome) s =
      .next
        { u with
          port0 := migratedNotice j.seg u.port0
          port1 := migratedNotice j.seg u.port1
          mig := idleMigration u.mig } := by
    show execRetirementWriteDone outcome s = _
    simp only [execRetirementWriteDone, hjob, hwriting]
    exact if_pos hstate
  rw [hexec]
  generalize u = v at hframe ⊢
  rw [hframe]

theorem exec_retirementWriteDone_steps (outcome : WriteOutcome) (s : State) :
    Ends (exec (.retirementWriteDone outcome) s) (StoreSideSteps s) := by
  by_cases h : ∃ j i, s.mig.state = .recording ∧ s.mig.job = some j ∧ s.ret.writing = some i
  · obtain ⟨j, i, hstate, hjob, hwriting⟩ := h
    rw [exec_retirementWriteDone hstate hjob hwriting]
    exact ends_next.mpr
      ⟨_, .migrated (migratedIncidents j outcome) hstate, rfl, rfl, rfl, rfl, rfl, appendIncidents_congr _ rfl rfl⟩
  · have hsame : exec (.retirementWriteDone outcome) s = .next s := by
      show execRetirementWriteDone outcome s = _
      unfold execRetirementWriteDone
      split
      · rename_i j i hjob hwriting
        exact if_neg fun hstate => h ⟨j, i, hstate, hjob, hwriting⟩
      · rfl
    rw [hsame]
    exact ends_next.mpr (StoreSideKept.refl s).steps

theorem StoreSideKept.patrolIssue {s t : State} (h : StoreSideKept s t) :
    StoreSideKept (patrolIssue s) (patrolIssue t) := by
  unfold Machine.patrolIssue
  rw [h.scrub]
  split
  · exact h.scrubIssue
  · exact h

theorem exec_pacingTick_steps (s : State) : Ends (exec .pacingTick s) (StoreSideSteps s) :=
  ends_next.mpr ⟨_, .ticked, StoreSideKept.patrolIssue ⟨rfl, rfl, rfl, rfl, rfl, rfl⟩⟩

/-! ## Maintenance -/

theorem startCommand_storeSide (p : PortId) (s : State) : StoreSideKept s (startCommand p s) := by
  rw [startCommand_frame]
  cases p <;> exact ⟨rfl, rfl, rfl, rfl, rfl, rfl⟩

theorem StoreSideKept.shortened {s t : State} (l : IncidentList) (h : StoreSideKept { s with incidents := l } t)
    (hrecords : l.records.length ≤ s.incidents.records.length) (hdropped : l.dropped ≤ s.incidents.dropped) :
    StoreSideSteps s t := ⟨_, .shortened l hrecords hdropped, h⟩

/-- The two sides agree after the same change of the Incident List. -/
theorem StoreSideKept.withIncidents {s t : State} (h : StoreSideKept s t) (l : IncidentList) :
    StoreSideKept { s with incidents := l } { t with incidents := l } :=
  ⟨h.store, h.sched, h.seg, h.mig, h.scrub, rfl⟩

/-- The two sides agree after the same change of the map. -/
theorem StoreSideKept.withSeg {s t : State} (h : StoreSideKept s t) (g : SegMap) :
    StoreSideKept { s with seg := g } { t with seg := g } :=
  ⟨h.store, h.sched, rfl, h.mig, h.scrub, h.incidents⟩

/-- The Incident List after an INCIDENTS command reports the dropped count (R173). -/
def undropped (l : IncidentList) : IncidentList := { l with dropped := 0 }

theorem completeIncidents_storeSide (p : PortId) (c : CtxId) (st : Status) (n : Nat) (s : State) :
    StoreSideKept { s with incidents := undropped s.incidents } (completeIncidents p c st n s) :=
  StoreSideKept.modPort _ p _

theorem completeIncidents_steps {s t : State} (h : StoreSideKept s t) (p : PortId) (c : CtxId) (st : Status) (n : Nat) :
    StoreSideSteps s (completeIncidents p c st n t) := by
  exact StoreSideKept.shortened (undropped t.incidents)
    ((h.withIncidents _).trans (completeIncidents_storeSide p c st n t))
    (Nat.le_of_eq (congrArg (fun l => l.records.length) h.incidents)) (Nat.zero_le _)

theorem setRunning_storeSide (p : PortId) (c : CtxId) (j : MaintJob) (s : State) : StoreSideKept s (setRunning p c j s) :=
  ⟨rfl, rfl, rfl, rfl, rfl, rfl⟩

theorem exec_incidents_steps (s : State) : Ends (exec .incidents s) (StoreSideSteps s) := by
  show Ends (execIncidents s) _
  unfold execIncidents
  split
  · rename_i p c _ _ _
    have hstart := startCommand_storeSide p s
    split
    · exact ends_next.mpr (completeIncidents_steps hstart p c _ _)
    · exact ends_next.mpr (hstart.trans (setRunning_storeSide p c _ _)).steps
  · exact ends_next.mpr (StoreSideKept.refl s).steps

theorem endRunning_storeSide (s : State) : StoreSideKept s (endRunning s) := ⟨rfl, rfl, rfl, rfl, rfl, rfl⟩

theorem completeMaint_steps {s t : State} (h : StoreSideKept s t) (r : Running) (st : Status) :
    StoreSideSteps s (completeMaint r st t) := by
  unfold completeMaint
  split
  · exact (h.trans (.modPort _ _ _)).steps
  · exact completeIncidents_steps h _ _ _ _

theorem exec_maintCheckReadDone_steps (returned : Bool) (s : State) :
    Ends (exec (.maintCheckReadDone returned) s) (StoreSideSteps s) := by
  have hend (r : Running) (mark : Nat) : StoreSideSteps s (endCheckRead r mark returned s) := by
    have hconfirm : StoreSideKept s (if returned then s.modPort r.port (confirmSent mark) else s) := by
      split
      · exact .modPort s _ _
      · exact .refl s
    have hdone := hconfirm.trans (endRunning_storeSide _)
    unfold endCheckRead
    dsimp only
    split
    · exact completeMaint_steps hdone r _
    · exact (hdone.trans (.modPort _ _ _)).steps
    · exact hdone.steps
  show Ends (execMaintCheckReadDone returned s) _
  unfold execMaintCheckReadDone
  split
  · split
    · exact ends_next.mpr (hend _ _)
    · exact ends_next.mpr (StoreSideKept.refl s).steps
  · exact ends_next.mpr (StoreSideKept.refl s).steps

/-- The Incident List without its oldest record (R170). -/
def withoutOldest (l : IncidentList) : IncidentList := { l with records := l.records.tail }

theorem notifyPorts_storeSide (atOnce : PortId → Bool) (n : AlertNotice) (s : State) :
    StoreSideKept s (notifyPorts atOnce n s) := ⟨rfl, rfl, rfl, rfl, rfl, rfl⟩

theorem removeIncident_storeSide (s : State) :
    StoreSideKept { s with incidents := withoutOldest s.incidents } (removeIncident s) := by
  unfold removeIncident
  dsimp only
  split
  · exact notifyPorts_storeSide _ _ _
  · exact .refl _

theorem removeIncident_steps {s t : State} (h : StoreSideKept s t) : StoreSideSteps s (removeIncident t) := by
  refine StoreSideKept.shortened (withoutOldest t.incidents) ((h.withIncidents _).trans (removeIncident_storeSide t)) ?_ ?_
  · rw [h.incidents]
    exact List.length_tail .. ▸ Nat.sub_le ..
  · rw [h.incidents]
    exact Nat.le_refl _

theorem wroteBuffer_storeSide (r : Running) (j : MaintJob) (last : Bool) (s : State) :
    StoreSideKept s (wroteBuffer r j last s) := ⟨rfl, rfl, rfl, rfl, rfl, rfl⟩

theorem exec_bufferWrite_steps (s : State) : Ends (exec .bufferWrite s) (StoreSideSteps s) := by
  have hissue (r : Running) : StoreSideSteps s (issueBufferWrite r s) := by
    unfold issueBufferWrite
    split
    · exact ((StoreSideKept.modPort s _ _).trans (wroteBuffer_storeSide _ _ _ _)).steps
    · split
      · split
        · exact removeIncident_steps ((StoreSideKept.modPort s _ _).trans (wroteBuffer_storeSide _ _ _ _))
        · exact (StoreSideKept.refl s).steps
      · exact (StoreSideKept.refl s).steps
    · exact (StoreSideKept.refl s).steps
  show Ends (execBufferWrite s) _
  unfold execBufferWrite
  split
  · split
    · exact ends_next.mpr (StoreSideKept.refl s).steps
    · exact ends_next.mpr (hissue _)
  · exact ends_next.mpr (StoreSideKept.refl s).steps

theorem tuneThreshold_eq (v : Option Nat) (s : State) :
    tuneThreshold v s = { s with seg := { s.seg with threshold := v.getD s.seg.threshold } } := by
  cases v <;> rfl

theorem tuneRate_eq (v : Option Nat) (s : State) :
    tuneRate v s =
      { s with
        scrub := { s.scrub with
          rate := v.getD s.scrub.rate
          credit := if v = some 0 then 0 else s.scrub.credit } } := by
  cases v with
  | none => rfl
  | some r =>
    by_cases h : r = 0
    · subst h; rfl
    · simp [tuneRate, h]

theorem exec_tune_steps (s : State) : Ends (exec .tune s) (StoreSideSteps s) := by
  show Ends (execTune s) _
  unfold execTune
  split
  · rename_i p c threshold rate _
    have hstart := startCommand_storeSide p s
    refine ends_next.mpr ⟨_, .tuned threshold rate, StoreSideKept.trans ?_ (.modPort _ _ _)⟩
    rw [tuneThreshold_eq, tuneRate_eq, tuneThreshold_eq, tuneRate_eq]
    generalize startCommand p s = t at hstart ⊢
    exact ⟨hstart.store, hstart.sched, by simp only [hstart.seg], hstart.mig, by simp only [hstart.scrub], hstart.incidents⟩
  · exact ends_next.mpr (StoreSideKept.refl s).steps

theorem exec_relocate_steps (s : State) : Ends (exec .relocate s) (StoreSideSteps s) := by
  show Ends (execRelocate s) _
  unfold execRelocate
  split
  · rename_i p c l _
    have hstart := startCommand_storeSide p s
    have hoffer (f : HostPort → HostPort) :
        StoreSideSteps s ({ startCommand p s with seg := (relocateOffer l s.seg).1 }.modPort p f) :=
      ⟨_, .relocated l, (hstart.withSeg _).trans (.modPort _ p f)⟩
    dsimp only
    split <;> exact ends_next.mpr (hoffer _)
  · exact ends_next.mpr (StoreSideKept.refl s).steps

/-! ## Every row -/

theorem exec_powerOnReset_steps (left : SlotRemnant) (s : State) : Ends (exec (.powerOnReset left) s) (StoreSideSteps s) :=
  ends_next.mpr ⟨_, .powerOn, rfl, rfl, rfl, rfl, rfl, rfl⟩

/-- What every row does to the store side is one of the shapes. -/
theorem exec_steps (i : Instr) (s : State) : Ends (exec i s) (StoreSideSteps s) := by
  cases hreach : reachesStoreSide i with
  | false => exact fun t ht => (exec_storeSide i s hreach t ht).steps
  | true =>
    cases i with
    | powerOnReset left => exact exec_powerOnReset_steps left s
    | retirementReadDone answered => exact exec_retirementReadDone_steps answered s
    | reset p => exact exec_reset_steps p s
    | linkDown p delivered => exact exec_linkDown_steps p delivered s
    | referenceIssue p => exact exec_referenceIssue_steps p s
    | grant b => exact ends_next.mpr ⟨_, .granted b, .refl _⟩
    | operationDone b arbiterFirst => exact exec_operationDone_steps b arbiterFirst s
    | healthReport b => exact exec_healthReport_steps b s
    | migrationStart => exact exec_migrationStart_steps s
    | chunkLockHeld => exact exec_chunkLockHeld_steps s
    | retirementWriteDone outcome => exact exec_retirementWriteDone_steps outcome s
    | pacingTick => exact exec_pacingTick_steps s
    | incidents => exact exec_incidents_steps s
    | tune => exact exec_tune_steps s
    | relocate => exact exec_relocate_steps s
    | maintCheckReadDone returned => exact exec_maintCheckReadDone_steps returned s
    | bufferWrite => exact exec_bufferWrite_steps s
    | bitInError line word bit => exact ends_next.mpr ⟨_, .flipped line word _, .refl _⟩
    | _ => exact nomatch hreach

/-- An invariant of the store side is kept by every step if each shape keeps it. -/
theorem kept_of_steps {inv : State → Prop} (hsame : ∀ s t, StoreSideKept s t → inv s → inv t)
    (hstep : ∀ s u, StoreSideStep s u → inv s → inv u) : Kept inv := by
  intro s t hs ht
  unfold step at ht
  split at ht
  · exact hsame s t (Host.Outcome.next.inj ht ▸ .takeWaitingAlert s) hs
  · rename_i i rest _
    obtain ⟨u, hu, hut⟩ := exec_steps i (s.withPending rest) t ht
    exact hsame u t hut (hstep _ u hu (hsame s _ (.withPending s rest) hs))

end Sys2Proof.Machine
end

section
/-! O56. Every shape of a step keeps the agreement of map, roles, lists, relocation queue and migration (R18, R19, R21, R22, R30,
R40, R46). -/

namespace Sys2Proof.Machine

/-! ## What the source of an ended operation does -/

/-- The shapes of what the source of a reference does with its result. -/
inductive ResultGiven (o : BankOp) (s : State) : State → Prop
  | none : ResultGiven o s s
  | taken (p : PortId) (f : HostPort → HostPort) : ResultGiven o s (s.modPort p f)
  | scrubbed (u : ScrubUnit) (hcredit : u.credit ≤ s.scrub.credit) : ResultGiven o s (scrubIssue { s with scrub := u })
  | issued (j : Job) (k : Nat) (r : LineResult) : ResultGiven o s (issueCopyLine j k r s)
  | held (k : Nat) (r : LineResult) : ResultGiven o s { s with mig := { s.mig with kept := some (k, r) } }
  | ended (j : Job) (hstate : s.mig.state = .copying) (hjob : s.mig.job = some j) : ResultGiven o s (endChunk j s)

theorem initLineDone_credit (g : SegMap) (u : ScrubUnit) : (initLineDone g u).credit ≤ u.credit := by
  unfold initLineDone sweepDone
  dsimp only
  split
  · exact Nat.zero_le _
  · exact Nat.le_refl _

theorem takeCopyResult_given (o : BankOp) (k : Nat) (step : CopyStep) (r : Option LineResult) (s : State) :
    ResultGiven o s (takeCopyResult k step r s) := by
  unfold takeCopyResult
  split
  · rename_i j hstate hjob
    split
    · rename_i r
      rcases copyReadDone_cases j k r s with ⟨-, e⟩ | ⟨-, e⟩
      · exact e ▸ .issued j k r
      · exact e ▸ .held k r
    · exact .none
    · split
      · exact .ended j hstate hjob
      · unfold copyWriteDone
        split
        · exact .issued j _ _
        · exact .none
  · exact .none

theorem giveResult_given (o : BankOp) (r : Option LineResult) (s : State) : ResultGiven o s (giveResult o r s) := by
  unfold giveResult
  split
  · exact .taken _ _
  · exact takeCopyResult_given o _ _ _ s
  · rename_i pass _ _
    cases pass with
    | sweep => exact .scrubbed _ (initLineDone_credit _ _)
    | patrol => exact .scrubbed s.scrub (Nat.le_refl _)
  · exact .none

/-! ## The Migration Unit -/

/-- A migration is in progress in STEPPING and COPYING. -/
theorem runs_iff {m : Migration} {j : Job} :
    m.Runs j ↔ (m.state = .stepping ∨ m.state = .copying) ∧ m.job = some j := by
  simp [Migration.Runs, Migration.inProgress]

theorem HeldOver.isEmpty_iff {h : HeldOver} : h.isEmpty = true ↔ h.t0 = false ∧ h.t1 = false ∧ h.s = false := by
  simp [HeldOver.isEmpty, and_assoc]

theorem closeIfFree_frame (m : Migration) : closeIfFree m = { m with lock := (closeIfFree m).lock } := by
  unfold closeIfFree
  split <;> rfl

/-- In STEPPING the lock closes when the held-over set is empty. -/
theorem unitOk_closeIfFree {m : Migration} (hstate : m.state = .stepping) (hjob : m.job.isSome = true)
    (hwatermark : m.watermark ≤ 16383) (hlock : m.lock = .none ∨ m.lock = .closing ∧ m.heldOver.isEmpty = true) :
    UnitOk (closeIfFree m) := by
  by_cases hempty : m.heldOver.isEmpty = true
  · have hclosed : closeIfFree m = { m with lock := .closing } := by
      unfold closeIfFree
      split
      · rfl
      · rename_i hnot
        rw [← (hlock.resolve_left fun hnone => hnot ⟨hstate, hnone, hempty⟩).1]
    rw [hclosed]
    refine ⟨?_, ?_⟩
    · simp only [MigrationFieldsOk, hstate]
      exact ⟨hjob, hwatermark, .inr trivial⟩
    · simp only [HeldOverOk, hstate, if_true, true_iff]
      exact HeldOver.isEmpty_iff.mp hempty
  · have hnone := hlock.resolve_right fun h => hempty h.2
    have hopen : closeIfFree m = m := if_neg fun h => hempty h.2.2
    rw [hopen]
    refine ⟨?_, ?_⟩
    · simp only [MigrationFieldsOk, hstate]
      exact ⟨hjob, hwatermark, .inl hnone⟩
    · simp only [HeldOverOk, hstate, if_true, hnone]
      exact ⟨nofun, fun h => absurd (HeldOver.isEmpty_iff.mpr h) hempty⟩

theorem UnitOk.of_stepping {m : Migration} (h : UnitOk m) (hstate : m.state = .stepping) :
    m.job.isSome = true ∧ m.watermark ≤ 16383 ∧ (m.lock = .none ∨ m.lock = .closing ∧ m.heldOver.isEmpty = true) := by
  obtain ⟨hfields, hheld⟩ := h
  simp only [MigrationFieldsOk, hstate] at hfields
  simp only [HeldOverOk, hstate, if_true] at hheld
  obtain ⟨hjob, hwatermark, hlock⟩ := hfields
  exact ⟨hjob, hwatermark, hlock.imp_right fun hclosing => ⟨hclosing, HeldOver.isEmpty_iff.mpr (hheld.mp hclosing)⟩⟩

/-- Outside STEPPING the held-over set is empty. -/
theorem UnitOk.empty {m : Migration} (h : UnitOk m) (hstate : m.state ≠ .stepping) :
    m.heldOver.t0 = false ∧ m.heldOver.t1 = false ∧ m.heldOver.s = false := by
  have hheld := h.heldOver
  simp only [HeldOverOk, if_neg hstate] at hheld
  exact hheld

/-- The copy fields are not among those of R40. -/
theorem UnitOk.copyFields {m : Migration} (h : UnitOk m) (line : Nat) (step : CopyStep) (kept : Option (Nat × LineResult)) :
    UnitOk { m with copyLine := line, copyStep := step, kept := kept } := ⟨h.fields, h.heldOver⟩

/-- Outside STEPPING, a state with the fields that R40 gives it and an empty held-over set. -/
theorem unitOk_of_empty {m : Migration} (hfields : MigrationFieldsOk m) (hstate : m.state ≠ .stepping)
    (hempty : m.heldOver.t0 = false ∧ m.heldOver.t1 = false ∧ m.heldOver.s = false) : UnitOk m :=
  ⟨hfields, by simpa only [HeldOverOk, if_neg hstate] using hempty⟩

theorem leave_of_empty {h : HeldOver} (hempty : h.t0 = false ∧ h.t1 = false ∧ h.s = false) (src : Source) :
    h.leave src = h := by
  obtain ⟨t0, t1, s⟩ := h
  obtain ⟨rfl, rfl, rfl⟩ := hempty
  rcases src with (_ | _) | _ | _ <;> rfl

theorem isEmpty_leave {h : HeldOver} (hempty : h.isEmpty = true) (src : Source) : (h.leave src).isEmpty = true := by
  rw [leave_of_empty (HeldOver.isEmpty_iff.mp hempty)]
  exact hempty

theorem UnitOk.leave {m : Migration} (h : UnitOk m) (src : Source) : UnitOk (leaveHeldOver src m) := by
  by_cases hstate : m.state = .stepping
  · obtain ⟨hjob, hwatermark, hlock⟩ := h.of_stepping hstate
    exact unitOk_closeIfFree hstate hjob hwatermark
      (hlock.imp_right fun ⟨hclosing, hempty⟩ => ⟨hclosing, isEmpty_leave hempty src⟩)
  · have hsame : leaveHeldOver src m = m := by
      rw [leaveHeldOver, leave_of_empty (h.empty hstate)]
      exact if_neg fun e => hstate e.1
    rw [hsame]
    exact h

/-! ## The agreement and the steps -/

/-- `SegmentsOk` of a map and a Migration Unit. -/
def SidesOk (g : SegMap) (m : Migration) : Prop := MapOk g m ∧ UnitOk m

theorem SidesOk.runs {g : SegMap} {m m' : Migration} (h : SidesOk g m) (hunit : UnitOk m')
    (hstate : m'.state = m.state) (hjob : m'.job = m.job) : SidesOk g m' :=
  ⟨h.1.runs fun j => by rw [runs_iff, runs_iff, hstate, hjob], hunit⟩

theorem SidesOk.leave {g : SegMap} {m : Migration} (h : SidesOk g m) (src : Source) : SidesOk g (leaveHeldOver src m) :=
  h.runs (h.2.leave src) (by rw [leaveHeldOver_frame]) (by rw [leaveHeldOver_frame])

theorem SidesOk.copyFields {g : SegMap} {m : Migration} (h : SidesOk g m) (line : Nat) (step : CopyStep)
    (kept : Option (Nat × LineResult)) : SidesOk g { m with copyLine := line, copyStep := step, kept := kept } :=
  h.runs (h.2.copyFields line step kept) rfl rfl

theorem sidesOk_arbiterAct {b : Bank} {s : State} (h : SidesOk s.seg s.mig) :
    SidesOk (arbiterAct b s).seg (arbiterAct b s).mig := by
  rw [arbiterAct_seg]
  exact arbiterAct_mig (Q := SidesOk s.seg) (fun src _ hm => hm.leave src) h

theorem sidesOk_operationEnded {b : Bank} (arbiterFirst : Bool) {o : BankOp} {s : State} (h : SidesOk s.seg s.mig) :
    SidesOk (operationEnded b arbiterFirst o s).seg (operationEnded b arbiterFirst o s).mig := by
  cases arbiterFirst with
  | false => exact h
  | true => exact sidesOk_arbiterAct (s := bankDone b o s) h

theorem UnitOk.of_copying {m : Migration} (h : UnitOk m) (hstate : m.state = .copying) :
    m.job.isSome = true ∧ m.watermark ≤ 16383 ∧ m.lock = .held := by
  have hfields := h.fields
  simp only [MigrationFieldsOk, hstate] at hfields
  exact hfields

/-- At the end of the copy of a chunk the unit steps to the next chunk, or switches (R50, R54). -/
theorem sidesOk_endChunk {j : Job} {s : State} (h : SidesOk s.seg s.mig) (hstate : s.mig.state = .copying)
    (hjob : s.mig.job = some j) : SidesOk (endChunk j s).seg (endChunk j s).mig := by
  obtain ⟨hmap, hunit⟩ := h
  obtain ⟨hsome, hwatermark, -⟩ := hunit.of_copying hstate
  by_cases hlast : s.mig.watermark = 16383
  · rw [endChunk_last j hlast, switchOver_frame]
    have hruns : s.mig.Runs j := runs_iff.mpr ⟨.inr hstate, hjob⟩
    refine ⟨hmap.switchClaim hruns fun i hi => ?_, unitOk_of_empty ⟨hsome, rfl, rfl⟩ nofun (hunit.empty ?_)⟩
    · exact (runs_iff.mp hi).1.elim nofun nofun
    · rw [hstate]
      exact nofun
  · have hmore : s.mig.watermark + 1 < 16384 := by omega
    simp only [endChunk, if_pos hmore]
    refine ⟨hmap.runs fun i => ?_, unitOk_closeIfFree rfl hsome (Nat.le_of_lt_succ hmore) (.inl rfl)⟩
    rw [closeIfFree_frame, runs_iff, runs_iff, hstate]
    simp

theorem ResultGiven.sidesOk {o : BankOp} {s t : State} (hgiven : ResultGiven o s t) (h : SidesOk s.seg s.mig) :
    SidesOk t.seg t.mig := by
  cases hgiven with
  | none => exact h
  | taken p f => simpa using h
  | scrubbed u _ => exact h
  | issued j k r =>
    rw [issueCopyLine_eq]
    exact h.copyFields _ _ _
  | held k r => exact h.copyFields _ _ _
  | ended j hstate hjob => exact sidesOk_endChunk h hstate hjob

/-- The power-on read finds at most eight segments, none twice (R24). -/
theorem powerOnRead_retired (answered : Bool) (slot0 slot1 : SlotImage) :
    (powerOnRead answered slot0 slot1).retired.Nodup ∧ (powerOnRead answered slot0 slot1).retired.length ≤ 8 := by
  have hvalid {x : SlotImage} {i : Image} (hx : x.validImage = some i) : i.segments.Nodup ∧ i.segments.length ≤ 8 := by
    have hi : i.valid = true := by
      cases x with
      | blank => cases hx
      | image k =>
        simp only [SlotImage.validImage] at hx
        split at hx
        · rename_i hk
          exact Option.some.inj hx ▸ hk
        · cases hx
    simp only [Image.valid, Bool.and_eq_true, decide_eq_true_eq, List.all_eq_true] at hi
    obtain ⟨⟨⟨-, hlen⟩, hnodup⟩, hlt⟩ := hi
    refine ⟨hnodup.map_on fun a ha c hc e => ?_, by simpa [Image.segments] using hlen⟩
    have hmod : a % 520 = c % 520 := congrArg Fin.val e
    rwa [Nat.mod_eq_of_lt (hlt a ha), Nat.mod_eq_of_lt (hlt c hc)] at hmod
  unfold powerOnRead
  split
  · split
    · rename_i ha hb
      split
      · exact hvalid hb
      · exact hvalid ha
    · rename_i ha _
      exact hvalid ha
    · rename_i hb
      exact hvalid hb
    · exact ⟨List.nodup_nil, Nat.zero_le _⟩
  · exact ⟨List.nodup_nil, Nat.zero_le _⟩

theorem not_runs_of_idle {m : Migration} (h : m.state = .idle) (j : Job) : ¬ m.Runs j := fun hj => by
  rcases runs_iff.mp hj with ⟨e | e, -⟩ <;> rw [h] at e <;> cases e

theorem StoreSideStep.sidesOk {s u : State} (hstep : StoreSideStep s u) (h : SidesOk s.seg s.mig) : SidesOk u.seg u.mig := by
  obtain ⟨hmap, hunit⟩ := h
  cases hstep with
  | same => exact ⟨hmap, hunit⟩
  | powerOn => exact (segmentsOk_iff _).mp segmentsOk_reset
  | built answered hidle =>
    obtain ⟨hnodup, hlen⟩ := powerOnRead_retired answered s.ret.slot0 s.ret.slot1
    exact ⟨.mapBuild hnodup hlen (not_runs_of_idle hidle), hunit⟩
  | purged p => exact SidesOk.leave ⟨hmap, hunit⟩ _
  | issued p r hroom => exact ⟨hmap, hunit⟩
  | granted b => exact sidesOk_arbiterAct ⟨hmap, hunit⟩
  | operated b arbiterFirst o hbank =>
    exact (giveResult_given o _ _).sidesOk (sidesOk_operationEnded arbiterFirst ⟨hmap, hunit⟩)
  | reported r =>
    rw [absorbReport_frame]
    exact ⟨hmap.takeReport r, hunit⟩
  | started g j hidle hclaim =>
    obtain ⟨ls, ds, hqueue, hspares, rfl, hj⟩ := startClaim_cons hclaim
    have hunit' : UnitOk (startedMigration j) := unitOk_closeIfFree rfl rfl (Nat.zero_le _) (.inl rfl)
    refine ⟨?_, hunit'⟩
    have hstarted := hmap.started (not_runs_of_idle hidle) hqueue hspares
    rw [← hj] at hstarted
    exact hstarted
  | held j hjob hstate hlock =>
    obtain ⟨hsome, hwatermark, hclosed⟩ := hunit.of_stepping hstate
    have hempty : s.mig.heldOver.isEmpty = true := (hclosed.resolve_left (by rw [hlock]; exact nofun)).2
    refine ⟨hmap.runs fun i => ?_, unitOk_of_empty ⟨hsome, hwatermark, rfl⟩ nofun (HeldOver.isEmpty_iff.mp hempty)⟩
    rw [runs_iff, runs_iff, hstate]
    simp [issueRef, heldMigration]
  | migrated is hstate =>
    have hfields := hunit.fields
    simp only [MigrationFieldsOk, hstate] at hfields
    obtain ⟨-, -, hlock⟩ := hfields
    refine ⟨hmap.runs fun i => ?_, unitOk_of_empty ⟨rfl, rfl, hlock⟩ nofun (hunit.empty (by rw [hstate]; exact nofun))⟩
    rw [runs_iff, runs_iff, hstate]
    simp [idleMigration]
  | ticked =>
    unfold patrolIssue
    split <;> exact ⟨hmap, hunit⟩
  | shortened l => exact ⟨hmap, hunit⟩
  | tuned threshold rate =>
    rw [tuneRate_eq, tuneThreshold_eq]
    exact ⟨hmap.same ⟨rfl, fun _ => rfl, fun _ => rfl, rfl, rfl, rfl⟩, hunit⟩
  | relocated l => exact ⟨hmap.relocateOffer, hunit⟩
  | flipped line word v => exact ⟨hmap, hunit⟩

/-- Settles O56: the agreement speaks of map and migration alone, and each shape of a step keeps it. -/
theorem mapRolesAndQueueAgreeAfterEveryStep : Obligations.MapRolesAndQueueAgreeAfterEveryStep := by
  unfold Obligations.MapRolesAndQueueAgreeAfterEveryStep
  refine kept_of_steps (fun s t hkept h => ?_) fun s u hstep h => ?_
  · rw [segmentsOk_iff] at h ⊢
    rw [hkept.seg, hkept.mig]
    exact h
  · exact (segmentsOk_iff u).mpr (hstep.sidesOk ((segmentsOk_iff s).mp h))

end Sys2Proof.Machine
end

section
/-! O55. Every shape of a step keeps the form of the store, the limits of queues, lists and counters, and queue M at its copy
position (R28, R48, R54, R59, R65, R80, R170). -/

namespace Sys2Proof.Machine

/-- At the end of a chunk the Migration Unit leaves COPYING and keeps what it kept; with the last chunk it switches. -/
theorem endChunk_cases (j : Job) (s : State) :
    ∃ m : Migration, m.kept = s.mig.kept ∧
      (m.state = .stepping ∧ endChunk j s = { s with mig := m } ∨ endChunk j s = switchOver j { s with mig := m }) := by
  unfold endChunk
  dsimp only
  split
  · refine ⟨_, ?_, .inl ⟨?_, rfl⟩⟩ <;> rw [closeIfFree_frame]
  · exact ⟨_, by exact rfl, .inr rfl⟩

/-! ## The store -/

theorem ResultGiven.store {o : BankOp} {s t : State} (hgiven : ResultGiven o s t) : t.store = s.store := by
  cases hgiven with
  | none => rfl
  | taken p f => simp
  | scrubbed u _ => rfl
  | issued j k r => rw [issueCopyLine_eq]
  | held k r => rfl
  | ended j _ _ =>
    obtain ⟨m, -, ⟨-, e⟩ | e⟩ := endChunk_cases j s
    · rw [e]
    · rw [e, switchOver_frame]

theorem StoreSideStep.storeOk {s u : State} (hstep : StoreSideStep s u) (h : StoreOk s) : StoreOk u := by
  unfold StoreOk at h ⊢
  cases hstep with
  | same => exact h
  | powerOn => exact wf_reset
  | built answered _ => exact h
  | purged p => exact h
  | issued p r _ => exact h
  | granted b =>
    rw [arbiterAct_frame]
    exact h
  | operated b arbiterFirst o _ =>
    rw [(giveResult_given o _ _).store, operationEnded_frame]
    exact wf_performOp _ _ _ h
  | reported r =>
    rw [absorbReport_frame]
    exact h
  | started g j _ _ => exact h
  | held j _ _ _ => exact h
  | migrated is _ => exact h
  | ticked =>
    unfold patrolIssue
    split <;> exact h
  | shortened l _ _ => exact h
  | tuned threshold rate =>
    rw [tuneRate_eq, tuneThreshold_eq]
    exact h
  | relocated l => exact h
  | flipped line word v => exact wf_memoryPut v (wordNumber_lt line word.isLt) h

/-! ## The limits of queues, lists and counters -/

/-- The queues but M hold at most four references (R59). -/
def QueuesShort (q : Scheduler) : Prop := ∀ src : Source, src ≠ .migration → (q.queue src).length ≤ 4

theorem QueuesShort.setQueue {q : Scheduler} (h : QueuesShort q) {src : Source} {l : List Ref}
    (hl : src ≠ .migration → l.length ≤ 4) : QueuesShort (q.setQueue src l) := by
  intro other hother
  by_cases he : other = src
  · subst he
    rw [queue_setQueue_same]
    exact hl hother
  · rw [queue_setQueue_ne q l he]
    exact h other hother

/-- The queue of a source may be replaced by one no longer. -/
theorem QueuesShort.shorter {q : Scheduler} (h : QueuesShort q) {src : Source} {l : List Ref}
    (hl : l.length ≤ (q.queue src).length) : QueuesShort (q.setQueue src l) :=
  h.setQueue fun hsrc => hl.trans (h src hsrc)

/-- The Incident List and its dropped count within their limits (R170). -/
def ListShort (l : IncidentList) : Prop := l.records.length ≤ 16 ∧ l.dropped ≤ 255

/-- Each health counter within its limit (R28). -/
def CountersOk (g : SegMap) : Prop := ∀ p : PhysSeg, (g.phys[p]).counter ≤ 65535

theorem sizesOk_iff (s : State) :
    SizesOk s ↔ (QueuesShort s.sched ∧ s.scrub.credit ≤ 4000) ∧ ListShort s.incidents ∧ CountersOk s.seg := by
  constructor
  · rintro ⟨ht0, ht1, hs, hrecords, hdropped, hcredit, hcounters⟩
    refine ⟨⟨fun src hsrc => ?_, hcredit⟩, ⟨hrecords, hdropped⟩, hcounters⟩
    match src with
    | .host .p0 => exact ht0
    | .host .p1 => exact ht1
    | .scrub => exact hs
    | .migration => exact absurd rfl hsrc
  · rintro ⟨⟨hqueues, hcredit⟩, ⟨hrecords, hdropped⟩, hcounters⟩
    exact ⟨hqueues (.host .p0) nofun, hqueues (.host .p1) nofun, hqueues .scrub nofun, hrecords, hdropped, hcredit, hcounters⟩

theorem listShort_appendIncidents (is : List Incident) {s : State} (h : ListShort s.incidents) :
    ListShort (appendIncidents is s).incidents := by
  induction is generalizing s with
  | nil => exact h
  | cons i is ih =>
    refine ih (s := appendIncident i s) ?_
    obtain ⟨hrecords, hdropped⟩ := h
    rw [appendIncident_incidents]
    split
    · rename_i hroom
      refine ⟨?_, hdropped⟩
      simp only [List.length_append, List.length_singleton]
      omega
    · exact ⟨hrecords, Nat.min_le_left _ _⟩

theorem scrubIssueOne_credit (g : SegMap) (x : List Ref × ScrubUnit) : (scrubIssueOne g x).2.credit ≤ x.2.credit := by
  unfold scrubIssueOne
  dsimp only
  split
  · split
    · exact Nat.le_refl _
    · split
      · exact Nat.sub_le _ _
      · exact Nat.le_refl _
    · exact Nat.le_refl _
  · exact Nat.le_refl _

theorem scrubIssue_credit (s : State) : (scrubIssue s).scrub.credit ≤ s.scrub.credit := by
  have h := scrubIssueOne_credit s.seg
  exact (h _).trans ((h _).trans ((h _).trans (h (s.sched.s, s.scrub))))

section
variable {s : State}

theorem issueOk_scrubIssue (h : QueuesShort s.sched ∧ s.scrub.credit ≤ 4000) :
    QueuesShort (scrubIssue s).sched ∧ (scrubIssue s).scrub.credit ≤ 4000 :=
  ⟨h.1.setQueue (src := .scrub) fun hsrc => scrubIssue_length s (h.1 .scrub hsrc), (scrubIssue_credit s).trans h.2⟩

theorem queuesShort_grantTo {b : Bank} {src : Source} (he : eligible s b src = true) (h : QueuesShort s.sched) :
    QueuesShort (grantTo b src s).sched := by
  obtain ⟨r, hr, -⟩ := eligible_head he
  obtain ⟨l, turns, e⟩ := grantTo_of_head (b := b) hr
  rw [e]
  exact h.shorter (Nat.le_of_eq (grantHead_length l _))

theorem issueOk_arbiterAct {b : Bank} (h : QueuesShort s.sched ∧ s.scrub.credit ≤ 4000) :
    QueuesShort (arbiterAct b s).sched ∧ (arbiterAct b s).scrub.credit ≤ 4000 := by
  refine arbiterAct_induct (P := fun t => QueuesShort t.sched ∧ t.scrub.credit ≤ 4000) h (fun h => ?_) (fun src _ he h => ?_)
    fun t h => issueOk_scrubIssue h
  · rcases discardScrub_cases b s with e | e <;> rw [e]
    · exact h
    · exact ⟨h.1.shorter (src := .scrub) (dropRetired_length _ b _), h.2⟩
  · rw [grantTo_frame]
    exact ⟨queuesShort_grantTo he h.1, h.2⟩

theorem issueOk_operationEnded {b : Bank} (arbiterFirst : Bool) {o : BankOp}
    (h : QueuesShort s.sched ∧ s.scrub.credit ≤ 4000) :
    QueuesShort (operationEnded b arbiterFirst o s).sched ∧ (operationEnded b arbiterFirst o s).scrub.credit ≤ 4000 := by
  have hdone : QueuesShort (bankDone b o s).sched ∧ (bankDone b o s).scrub.credit ≤ 4000 :=
    ⟨h.1.shorter (List.length_eraseP_le ..), h.2⟩
  cases arbiterFirst with
  | false => exact hdone
  | true => exact issueOk_arbiterAct hdone

end

section
variable {g : SegMap}

theorem CountersOk.countCorrected (h : CountersOk g) (r : HealthReport) : CountersOk (countCorrected r g) := fun p => by
  rw [countCorrected_phys]
  split
  · exact Nat.min_le_left _ _
  · exact h p

theorem CountersOk.takeReport (h : CountersOk g) (r : HealthReport) : CountersOk (takeReport r g).1 := by
  rw [takeReport_frame]
  exact h.countCorrected r

theorem CountersOk.started (h : CountersOk g) {l : LogSeg} {ls : List LogSeg} {d : PhysSeg} {ds : List PhysSeg} :
    CountersOk (started l ls d ds g) := fun p => by
  rw [started_phys]
  split
  · exact h d
  · exact h p

theorem CountersOk.switchClaim (h : CountersOk g) (j : Job) : CountersOk (switchClaim j g).1 := fun p => by
  rw [switchClaim_frame]
  show ((switched j g).phys[p]).counter ≤ 65535
  rw [switched_phys]
  split
  · exact h _
  · split <;> exact h _

theorem relocateOffer_phys (l : LogSeg) (g : SegMap) : (relocateOffer l g).1.phys = g.phys := by
  unfold relocateOffer
  split
  · rfl
  · rfl
  · rfl
  · split
    · rename_i g' hjoin
      obtain ⟨-, rfl⟩ := join_some hjoin
      rfl
    · rfl

theorem countersOk_mapBuild (retired : List PhysSeg) : CountersOk (mapBuild retired) := fun p => by
  by_cases hp : p ∈ retired
  · rw [mapBuild_phys_retired hp]
    exact Nat.zero_le _
  · rw [mapBuild_phys_ranked hp]
    split <;> exact Nat.zero_le _

end

theorem ResultGiven.sizesOk {o : BankOp} {s t : State} (hgiven : ResultGiven o s t) (h : SizesOk s) : SizesOk t := by
  obtain ⟨⟨hqueues, hcredit⟩, hlist, hcounters⟩ := (sizesOk_iff s).mp h
  cases hgiven with
  | none => exact h
  | taken p f =>
    have hport := StoreSideKept.modPort s p f
    rw [sizesOk_iff, hport.sched, hport.scrub, hport.incidents, hport.seg]
    exact ⟨⟨hqueues, hcredit⟩, hlist, hcounters⟩
  | scrubbed u hle =>
    exact (sizesOk_iff _).mpr
      ⟨issueOk_scrubIssue (s := { s with scrub := u }) ⟨hqueues, hle.trans hcredit⟩, hlist, hcounters⟩
  | issued j k r =>
    rw [issueCopyLine_eq, sizesOk_iff]
    exact ⟨⟨hqueues.setQueue (src := .migration) fun hne => absurd rfl hne, hcredit⟩, hlist, hcounters⟩
  | held k r => exact h
  | ended j _ _ =>
    obtain ⟨m, -, ⟨-, e⟩ | e⟩ := endChunk_cases j s
    · rw [e]
      exact h
    · rw [e, switchOver_frame, sizesOk_iff]
      exact ⟨⟨hqueues, hcredit⟩, listShort_appendIncidents _ (s := { s with mig := m }) hlist, hcounters.switchClaim j⟩

theorem StoreSideStep.sizesOk {s u : State} (hstep : StoreSideStep s u) (h : SizesOk s) : SizesOk u := by
  obtain ⟨⟨hqueues, hcredit⟩, hlist, hcounters⟩ := (sizesOk_iff s).mp h
  cases hstep with
  | same => exact h
  | powerOn => exact sizesOk_reset
  | built answered _ =>
    refine (sizesOk_iff _).mpr
      ⟨issueOk_scrubIssue (s := readDone answered s) ⟨hqueues, hcredit⟩, ?_, countersOk_mapBuild _⟩
    show ListShort (if (powerOnRead answered s.ret.slot0 s.ret.slot1).nvFault then _ else _)
    split
    · exact listShort_appendIncidents [powerOnFault] hlist
    · exact hlist
  | purged p => exact (sizesOk_iff _).mpr ⟨⟨hqueues.shorter (List.length_filter_le ..), hcredit⟩, hlist, hcounters⟩
  | issued p r hroom =>
    refine (sizesOk_iff _).mpr ⟨⟨hqueues.setQueue fun _ => ?_, hcredit⟩, hlist, hcounters⟩
    rw [List.length_append, List.length_singleton]
    exact hroom
  | granted b =>
    rw [sizesOk_iff, arbiterAct_frame]
    exact ⟨issueOk_arbiterAct ⟨hqueues, hcredit⟩, hlist, hcounters⟩
  | operated b arbiterFirst o _ =>
    refine (giveResult_given o _ _).sizesOk ((sizesOk_iff _).mpr ?_)
    rw [operationEnded_frame]
    exact ⟨issueOk_operationEnded arbiterFirst ⟨hqueues, hcredit⟩, hlist, hcounters⟩
  | reported r =>
    rw [sizesOk_iff, absorbReport_frame]
    exact ⟨⟨hqueues, hcredit⟩, listShort_appendIncidents _ (s := { s with seg := (takeReport r s.seg).1 }) hlist,
      hcounters.takeReport r⟩
  | started g j _ hclaim =>
    obtain ⟨ls, ds, -, -, rfl, -⟩ := startClaim_cons hclaim
    exact (sizesOk_iff _).mpr ⟨⟨hqueues, hcredit⟩, hlist, hcounters.started⟩
  | held j _ _ _ =>
    exact (sizesOk_iff _).mpr
      ⟨⟨hqueues.setQueue (src := .migration) fun hne => absurd rfl hne, hcredit⟩, hlist, hcounters⟩
  | migrated is _ => exact (sizesOk_iff _).mpr ⟨⟨hqueues, hcredit⟩, listShort_appendIncidents is hlist, hcounters⟩
  | ticked =>
    have haccrued : QueuesShort s.sched ∧ (accrue s.scrub).credit ≤ 4000 := ⟨hqueues, Nat.min_le_left _ _⟩
    unfold patrolIssue
    split
    · exact (sizesOk_iff _).mpr ⟨issueOk_scrubIssue (s := { s with scrub := accrue s.scrub }) haccrued, hlist, hcounters⟩
    · exact (sizesOk_iff _).mpr ⟨haccrued, hlist, hcounters⟩
  | shortened l hrecords hdropped =>
    exact (sizesOk_iff _).mpr ⟨⟨hqueues, hcredit⟩, ⟨hrecords.trans hlist.1, hdropped.trans hlist.2⟩, hcounters⟩
  | tuned threshold rate =>
    rw [tuneRate_eq, tuneThreshold_eq, sizesOk_iff]
    refine ⟨⟨hqueues, ?_⟩, hlist, hcounters⟩
    dsimp only
    split
    · exact Nat.zero_le _
    · exact hcredit
  | relocated l =>
    refine (sizesOk_iff _).mpr ⟨⟨hqueues, hcredit⟩, hlist, fun p => ?_⟩
    rw [relocateOffer_phys]
    exact hcounters p
  | flipped line word v => exact h

/-! ## Queue M and the banks -/

/-- Queue M at its copy position rests on the copy fields and on the references as issued. -/
theorem CopyQueueOk.of_kept {m m' : Migration} {q q' : List Ref} (h : CopyQueueOk m q) (hm : CopyKept m m')
    (hq : q'.map Ref.ungranted = q.map Ref.ungranted) : CopyQueueOk m' q' := by
  rw [copyQueueOk_iff] at h ⊢
  rw [hm, hq]
  refine ⟨h.1, fun hstate => ⟨?_, (h.2 hstate).2⟩⟩
  rw [(h.2 hstate).1] at hq
  exact List.map_eq_nil_iff.mp hq

/-- Outside COPYING queue M is empty and nothing is kept (R54). -/
theorem copyQueueOk_of_not {m : Migration} {q : List Ref} (hstate : m.state ≠ .copying) :
    CopyQueueOk m q ↔ q = [] ∧ m.kept = none := by
  rw [copyQueueOk_iff]
  exact ⟨fun h => h.2 hstate, fun h => ⟨fun e => absurd e hstate, fun _ => h⟩⟩

theorem copyQueueOk_of_copying {m : Migration} {q : List Ref} {j : Job} (hstate : m.state = .copying) (hjob : m.job = some j) :
    CopyQueueOk m q ↔ CopyRefs m j (q.map Ref.ungranted) := by
  rw [copyQueueOk_iff]
  refine ⟨fun h => ?_, fun h => ⟨fun _ => ⟨j, hjob, h⟩, fun e => absurd hstate e⟩⟩
  obtain ⟨i, hi, hrefs⟩ := h.1 hstate
  obtain rfl : i = j := Option.some.inj (hi.symm.trans hjob)
  exact hrefs

/-- A line's write issued into an empty queue M, with the read of the next line (R48). -/
theorem copyQueueOk_issueCopyLine {s : State} {j : Job} (hstate : s.mig.state = .copying) (hjob : s.mig.job = some j)
    (hempty : s.sched.m = []) {k : Nat} (hk : k ≤ 63) (r : LineResult) :
    CopyQueueOk (issueCopyLine j k r s).mig (issueCopyLine j k r s).sched.m := by
  rw [issueCopyLine_eq]
  refine (copyQueueOk_of_copying (by exact hstate) (by exact hjob)).mpr ?_
  by_cases hlast : k < 63
  · simp only [if_pos hlast, hempty]
    exact .inl ⟨rfl, rfl, hlast, .inr ⟨k, r, rfl, rfl⟩⟩
  · obtain rfl : k = 63 := by omega
    simp only [if_neg hlast, hempty]
    exact .inr (.inr ⟨rfl, rfl, rfl, r, rfl⟩)

/-- The end of a chunk finds queue M empty and leaves it so. -/
theorem copyQueueOk_endChunk {s : State} (j : Job) (hempty : s.sched.m = []) (hkept : s.mig.kept = none) :
    CopyQueueOk (endChunk j s).mig (endChunk j s).sched.m := by
  obtain ⟨m, hm, ⟨hstate, e⟩ | e⟩ := endChunk_cases j s
  · rw [e]
    exact (copyQueueOk_of_not (by rw [hstate]; exact nofun)).mpr ⟨hempty, hm.trans hkept⟩
  · rw [e, switchOver_frame]
    exact (copyQueueOk_of_not (by exact nofun)).mpr ⟨hempty, hm.trans hkept⟩

/-- A source but the Migration Unit leaves queue M and the copy fields. -/
theorem giveResult_copyKept {o : BankOp} (hsource : o.source ≠ .migration) (r : Option LineResult) (s : State) :
    (giveResult o r s).mig = s.mig ∧ (giveResult o r s).sched.m = s.sched.m := by
  unfold giveResult
  split
  · exact ⟨by simp, by simp⟩
  · rename_i h _
    exact absurd h hsource
  · rename_i pass _ _
    cases pass <;> exact ⟨rfl, rfl⟩
  · exact ⟨rfl, rfl⟩

theorem giveResult_copy {o : BankOp} {c k : Nat} {step : CopyStep} (hsource : o.source = .migration)
    (horigin : o.ref.origin = .copy c k step) (r : Option LineResult) (s : State) :
    giveResult o r s = takeCopyResult k step r s := by
  simp only [giveResult, hsource, horigin]

section
variable {s : State} {j : Job} (hstate : s.mig.state = .copying) (hjob : s.mig.job = some j)
include hstate hjob

theorem takeCopyResult_read (k : Nat) (r : LineResult) : takeCopyResult k .read (some r) s = copyReadDone j k r s := by
  simp only [takeCopyResult, hstate, hjob]

theorem takeCopyResult_write {k : Nat} (hk : k ≠ 63) (r : Option LineResult) :
    takeCopyResult k .write r s = copyWriteDone j s := by
  simp only [takeCopyResult, hstate, hjob, if_neg hk]

/-- The result of the read at the copy position, behind the write before it or alone. -/
theorem copyQueueOk_copyReadDone (hstep : s.mig.copyStep = .write) (hle : s.mig.copyLine ≤ 63)
    (hm : s.sched.m.map Ref.ungranted = [] ∨
      ∃ i r, s.mig.copyLine = i + 1 ∧ s.sched.m.map Ref.ungranted = [copyWriteRef j s.mig.watermark i r]) (r : LineResult) :
    CopyQueueOk (copyReadDone j s.mig.copyLine r s).mig (copyReadDone j s.mig.copyLine r s).sched.m := by
  rcases copyReadDone_cases j s.mig.copyLine r s with ⟨hempty, e⟩ | ⟨hne, e⟩ <;> rw [e]
  · exact copyQueueOk_issueCopyLine hstate hjob hempty hle r
  · obtain ⟨i, w, hi, hwrite⟩ := hm.resolve_left fun h => hne (List.map_eq_nil_iff.mp h)
    exact (copyQueueOk_of_copying (by exact hstate) (by exact hjob)).mpr (.inr (.inl ⟨i, w, r, rfl, hstep, hi, hle, hwrite⟩))

/-- The end of a line's write, with the read of the next line still queued or its result kept. -/
theorem copyQueueOk_copyWriteDone (hstep : s.mig.copyStep = .write) (hle : s.mig.copyLine ≤ 63)
    (hm : s.mig.kept = none ∧ s.sched.m.map Ref.ungranted = [copyReadRef j s.mig.watermark s.mig.copyLine] ∨
      ∃ r, s.mig.kept = some (s.mig.copyLine, r) ∧ s.sched.m.map Ref.ungranted = []) :
    CopyQueueOk (copyWriteDone j s).mig (copyWriteDone j s).sched.m := by
  rcases hm with ⟨hkept, hread⟩ | ⟨r, hkept, hempty⟩ <;> simp only [copyWriteDone, hkept]
  · exact (copyQueueOk_of_copying hstate hjob).mpr (.inl ⟨hkept, hstep, hle, .inl hread⟩)
  · exact copyQueueOk_issueCopyLine hstate hjob (List.map_eq_nil_iff.mp hempty) hle r

end

/-- The Migration Unit takes the result of its operation on a state with the copy fields of `s` and queue M of `s` without the
reference that ended. -/
theorem copyQueueOk_giveResult {s u : State} {b : Bank} {o : BankOp} {e : Nat} {mem : Memory} (h : QueuesOk s)
    (hbusy : s.sched.banks[b] = some o) (hsource : o.source = .migration) (hmig : CopyKept s.mig u.mig)
    (hm : u.sched.m.map Ref.ungranted = (dropGranted b s.sched.m).map Ref.ungranted) :
    CopyQueueOk (giveResult o (performOp e mem o.ref.op o.line).2 u).mig
      (giveResult o (performOp e mem o.ref.op o.line).2 u).sched.m := by
  obtain ⟨hqueue, hbanks⟩ := h
  obtain ⟨hmem, hgranted, hbank⟩ := hbanks b o hbusy
  rw [hsource] at hmem
  have hcopying : s.mig.state = .copying := by
    by_contra hne
    have hnil : s.sched.queue .migration = [] := ((copyQueueOk_of_not hne).mp hqueue).1
    rw [hnil] at hmem
    cases hmem
  obtain ⟨j, hjob, hrefs⟩ := ((copyQueueOk_iff _ _).mp hqueue).1 hcopying
  have hustate : u.mig.state = .copying := by rw [hmig]; exact hcopying
  have hujob : u.mig.job = some j := by rw [hmig]; exact hjob
  have hline : u.mig.copyLine = s.mig.copyLine := by rw [hmig]
  have hstep' : u.mig.copyStep = s.mig.copyStep := by rw [hmig]
  have hkept' : u.mig.kept = s.mig.kept := by rw [hmig]
  have hmark : u.mig.watermark = s.mig.watermark := by rw [hmig]
  have hended := hrefs.ended hmem hgranted hbank
  rw [← hm, ← hline, ← hstep', ← hkept', ← hmark] at hended
  rcases hended with ⟨href, hkept, hstep, hle, hleft⟩ | ⟨i, r, href, hi, hle, hstep, hleft⟩ | ⟨r, href, hkept, hleft⟩
  · have horigin : o.ref.origin = .copy u.mig.watermark u.mig.copyLine .read := congrArg Ref.origin href
    have hop : o.ref.op = .readLine := congrArg Ref.op href
    rw [giveResult_copy hsource horigin, performOp_result, if_pos (.inl hop), takeCopyResult_read hustate hujob]
    exact copyQueueOk_copyReadDone hustate hujob hstep hle hleft _
  · have horigin : o.ref.origin = .copy u.mig.watermark i .write := congrArg Ref.origin href
    rw [giveResult_copy hsource horigin, takeCopyResult_write hustate hujob (by omega)]
    exact copyQueueOk_copyWriteDone hustate hujob hstep hle hleft
  · have horigin : o.ref.origin = .copy u.mig.watermark 63 .write := congrArg Ref.origin href
    rw [giveResult_copy hsource horigin, takeCopyResult_last hustate hujob]
    exact copyQueueOk_endChunk j (List.map_eq_nil_iff.mp hleft) hkept

theorem ResultGiven.banksOk {o : BankOp} {s t : State} (hgiven : ResultGiven o s t) (h : BanksOk s.sched) : BanksOk t.sched := by
  cases hgiven with
  | none => exact h
  | taken p f =>
    rw [(StoreSideKept.modPort s p f).sched]
    exact h
  | scrubbed u _ => exact banksOk_scrubIssue (s := { s with scrub := u }) h
  | issued j k r =>
    rw [issueCopyLine_eq, List.append_assoc]
    exact h.append .migration _
  | held k r => exact h
  | ended j _ _ =>
    obtain ⟨m, -, ⟨-, e⟩ | e⟩ := endChunk_cases j s
    · rw [e]
      exact h
    · rw [e, switchOver_frame]
      exact h

theorem queuesOk_operated {s : State} {b : Bank} (arbiterFirst : Bool) {o : BankOp} (h : QueuesOk s)
    (hbusy : s.sched.banks[b] = some o) :
    QueuesOk (giveResult o (performOp s.epoch s.store o.ref.op o.line).2 (operationEnded b arbiterFirst o s)) := by
  have hmig := operationEnded_copyKept b arbiterFirst o s
  have hm := operationEnded_m b arbiterFirst o s
  refine ⟨?_, (giveResult_given o _ _).banksOk (banksOk_operationEnded arbiterFirst h.2)⟩
  by_cases hsource : o.source = .migration
  · rw [if_pos hsource] at hm
    exact copyQueueOk_giveResult h hbusy hsource hmig hm
  · rw [if_neg hsource] at hm
    obtain ⟨hsame, hqueue⟩ := giveResult_copyKept hsource (performOp s.epoch s.store o.ref.op o.line).2
      (operationEnded b arbiterFirst o s)
    rw [hsame, hqueue]
    exact h.1.of_kept hmig hm

theorem StoreSideStep.queuesOk {s u : State} (hstep : StoreSideStep s u) (h : QueuesOk s) : QueuesOk u := by
  obtain ⟨hcopy, hbanks⟩ := h
  cases hstep with
  | same => exact ⟨hcopy, hbanks⟩
  | powerOn => exact queuesOk_reset
  | built answered _ => exact ⟨hcopy, banksOk_scrubIssue (s := readDone answered s) hbanks⟩
  | purged p =>
    refine ⟨hcopy.of_kept ((CopyKept.refl _).leave _) ?_, BanksOk.setQueue hbanks fun r hr hgranted => ?_⟩
    · cases p <;> rfl
    · exact List.mem_filter.mpr ⟨hr, by simpa [Ref.waiting] using hgranted⟩
  | issued p r _ =>
    refine ⟨?_, BanksOk.append hbanks _ _⟩
    cases p <;> exact hcopy
  | granted b => exact ⟨hcopy.of_kept (arbiterAct_copyKept b s) (arbiterAct_m b s), banksOk_arbiterAct hbanks⟩
  | operated b arbiterFirst o hbusy => exact queuesOk_operated arbiterFirst ⟨hcopy, hbanks⟩ hbusy
  | reported r =>
    rw [absorbReport_frame]
    exact ⟨hcopy, hbanks⟩
  | started g j hidle _ =>
    obtain ⟨hempty, -⟩ := (copyQueueOk_of_not (by rw [hidle]; exact nofun)).mp hcopy
    exact ⟨(copyQueueOk_of_not (by exact nofun)).mpr ⟨hempty, rfl⟩, hbanks⟩
  | held j hjob hstate _ =>
    obtain ⟨hempty, -⟩ := (copyQueueOk_of_not (by rw [hstate]; exact nofun)).mp hcopy
    refine ⟨(copyQueueOk_of_copying (j := j) (by exact rfl) (by exact hjob)).mpr (.inl ⟨rfl, rfl, Nat.zero_le _, .inl ?_⟩),
      BanksOk.append hbanks _ _⟩
    show (s.sched.m ++ [_]).map Ref.ungranted = _
    rw [hempty]
    rfl
  | migrated is hstate =>
    obtain ⟨hempty, -⟩ := (copyQueueOk_of_not (by rw [hstate]; exact nofun)).mp hcopy
    exact ⟨(copyQueueOk_of_not (by exact nofun)).mpr ⟨hempty, rfl⟩, hbanks⟩
  | ticked =>
    unfold patrolIssue
    split
    · exact ⟨hcopy, banksOk_scrubIssue (s := { s with scrub := accrue s.scrub }) hbanks⟩
    · exact ⟨hcopy, hbanks⟩
  | shortened l _ _ => exact ⟨hcopy, hbanks⟩
  | tuned threshold rate =>
    rw [tuneRate_eq, tuneThreshold_eq]
    exact ⟨hcopy, hbanks⟩
  | relocated l => exact ⟨hcopy, hbanks⟩
  | flipped line word v => exact ⟨hcopy, hbanks⟩

/-- Settles O55: each of the three speaks of the store side alone, and each shape of a step keeps it. -/
theorem storeFormAndSizesAreKept : Obligations.StoreFormAndSizesAreKept := by
  unfold Obligations.StoreFormAndSizesAreKept
  refine kept_of_steps (fun s t hkept ⟨hstore, hsizes, hqueues⟩ => ?_) fun s u hstep ⟨hstore, hsizes, hqueues⟩ =>
    ⟨hstep.storeOk hstore, hstep.sizesOk hsizes, hstep.queuesOk hqueues⟩
  refine ⟨?_, ?_, ?_⟩
  · rw [StoreOk, hkept.store]
    exact hstore
  · rw [SizesOk, hkept.sched, hkept.seg, hkept.scrub, hkept.incidents]
    exact hsizes
  · rw [QueuesOk, hkept.sched, hkept.mig]
    exact hqueues

end Sys2Proof.Machine
end

section
/-! O24. The end of the Retirement Memory write, and the migrated notice (R25, R56, R57, R169). -/

namespace Sys2Proof.Machine

/-! ## The Retirement Memory (R25) -/

theorem endWrite_writing (outcome : WriteOutcome) (i : Image) (r : RetMem) : (r.endWrite outcome i).writing = none := by
  cases outcome <;> rfl

section
variable {r : RetMem}

/-- With slot 0 current a write goes to slot 1. -/
theorem target_of_slot0 (h : r.current = some .slot0) : r.target = .slot1 := by
  rw [RetMem.target, h]

theorem target_of_not_slot0 (h : r.current ≠ some .slot0) : r.target = .slot0 := by
  unfold RetMem.target
  split
  · rename_i e
    exact absurd e h
  · rfl
  · rfl

/-- A write leaves the current slot as it was. -/
theorem endWrite_slot0 (outcome : WriteOutcome) (i : Image) (h : r.current = some .slot0) :
    (r.endWrite outcome i).slot0 = r.slot0 := by
  cases outcome <;> simp only [RetMem.endWrite, target_of_slot0 h] <;> rfl

theorem endWrite_slot1 (outcome : WriteOutcome) (i : Image) (h : r.current ≠ some .slot0) :
    (r.endWrite outcome i).slot1 = r.slot1 := by
  cases outcome <;> simp only [RetMem.endWrite, target_of_not_slot0 h] <;> rfl

/-- A write that succeeds makes its slot current, with the image's generation. -/
theorem endWrite_succeeded (i : Image) :
    (r.endWrite .succeeded i).generation = i.generation ∧
      if r.current = some .slot0 then
        (r.endWrite .succeeded i).current = some .slot1 ∧ (r.endWrite .succeeded i).slot1 = .image i
      else (r.endWrite .succeeded i).current = some .slot0 ∧ (r.endWrite .succeeded i).slot0 = .image i := by
  refine ⟨rfl, ?_⟩
  split
  · rename_i h
    simp only [RetMem.endWrite, target_of_slot0 h]
    exact ⟨trivial, rfl⟩
  · rename_i h
    simp only [RetMem.endWrite, target_of_not_slot0 h]
    exact ⟨trivial, rfl⟩

/-- A write that fails leaves the current slot and its generation. -/
theorem endWrite_failed (left : SlotRemnant) (i : Image) :
    (r.endWrite (.failed left) i).current = r.current ∧ (r.endWrite (.failed left) i).generation = r.generation ∧
      if r.current = some .slot0 then (r.endWrite (.failed left) i).slot1 = remnantOf left i
      else (r.endWrite (.failed left) i).slot0 = remnantOf left i := by
  refine ⟨?_, ?_, ?_⟩
  · simp only [RetMem.endWrite]
    cases r.target <;> rfl
  · simp only [RetMem.endWrite]
    cases r.target <;> rfl
  · split
    · rename_i h
      simp only [RetMem.endWrite, target_of_slot0 h]
      rfl
    · rename_i h
      simp only [RetMem.endWrite, target_of_not_slot0 h]
      rfl

end

/-! ## The migrated notice (R57, R169) -/

/-- The contexts of a port that wait for the migration of a segment. -/
def awaiting (l : LogSeg) (h : HostPort) : List CtxId :=
  ((List.range' 0 64).map (Fin.ofNat 64)).filter fun c => awaitsMigration l h.contexts[c]

theorem mem_awaiting {l : LogSeg} {h : HostPort} {c : CtxId} :
    c ∈ awaiting l h ↔ (h.contexts[c]).state = .relocateWait ∧ (h.contexts[c]).cmd = .relocate l := by
  have hall : c ∈ (List.range' 0 64).map (Fin.ofNat 64) :=
    List.mem_map.mpr ⟨c.val, by simp, Fin.ext (Nat.mod_eq_of_lt c.isLt)⟩
  simp only [awaiting, List.mem_filter, hall, true_and, awaitsMigration, Bool.and_eq_true, beq_iff_eq]

theorem nodup_awaiting (l : LogSeg) (h : HostPort) : (awaiting l h).Nodup :=
  List.Nodup.filter _ (by decide)

theorem migratedNotice_taken (l : LogSeg) (h : HostPort) :
    CompletionsTaken ((awaiting l h).map fun c => (c, .ok, .none)) h (migratedNotice l h) := by
  have htaken := handCompletions_taken ((awaiting l h).map fun c => (c, .ok, .none)) h
  rw [List.foldl_map] at htaken
  exact htaken

/-- Settles O24: the write's end, the appends, then the migrated notice at each port in what the appends leave of it. -/
theorem retirementWriteDoneCompletesTheMigration : Obligations.RetirementWriteDoneCompletesTheMigration := by
  intro outcome s j i hstate hjob hwriting
  have hexec := exec_retirementWriteDone (outcome := outcome) hstate hjob hwriting
  have hport (p : PortId) : AlertsOnly (s.port p)
      ((appendIncidents (migratedIncidents j outcome) { s with ret := s.ret.endWrite outcome i }).port p) := by
    have h := appendIncidents_port (migratedIncidents j outcome) { s with ret := s.ret.endWrite outcome i } p
    cases p <;> exact h
  have hlist : (appendIncidents (migratedIncidents j outcome) { s with ret := s.ret.endWrite outcome i }).incidents =
      (appendIncidents (migratedIncidents j outcome) s).incidents := appendIncidents_congr _ rfl rfl
  generalize appendIncidents (migratedIncidents j outcome) { s with ret := s.ret.endWrite outcome i } = u
    at hexec hport hlist
  refine ⟨_, hexec, rfl, rfl, endWrite_writing _ _ _, endWrite_slot0 _ _, endWrite_slot1 _ _, fun p => ?_, ?_⟩
  · refine ⟨u.port p, awaiting j.seg (u.port p), hport p, nodup_awaiting _ _, fun c => ?_, ?_⟩
    · rw [mem_awaiting, hport p]
    · cases p <;> exact migratedNotice_taken _ _
  · cases outcome with
    | succeeded => exact ⟨hlist, endWrite_succeeded i⟩
    | failed left => exact ⟨hlist, endWrite_failed left i⟩

end Sys2Proof.Machine
end

section
/-! O6. The end of the power-on read: the table of R24, the first NV_FAULT at the ports, and the first lines of the sweep (R24,
R27, R77, R172). -/

namespace Sys2Proof.Machine

/-! ## The Retirement Memory (R24) -/

theorem afterRead_eq (c : Option (SlotNo × BitVec 32)) (r : RetMem) :
    r.afterRead c = { r with current := c.map Prod.fst, generation := (c.map Prod.snd).getD 0, reading := false } := by
  rcases c with _ | ⟨n, g⟩ <;> rfl

/-- With no valid image NV_FAULT is due unless both slots are blank. -/
theorem powerOnRead_of_none {slot0 slot1 : SlotImage} (h0 : slot0.validImage = none) (h1 : slot1.validImage = none) :
    powerOnRead true slot0 slot1 = ⟨[], none, !(slot0 == .blank && slot1 == .blank)⟩ := by
  simp only [powerOnRead, if_true, h0, h1]

/-! ## The ports (R172) -/

/-- An append gives a notice to the ports when it ends an empty list. -/
theorem appendTelling_port_eq (atOnce : PortId → Bool) (i : Incident) (s : State) (p : PortId) :
    (appendTelling atOnce i s).port p =
      if s.incidents.records = [] then giveAlert (atOnce p) .nonEmpty (s.port p) else s.port p := by
  unfold appendTelling
  dsimp only
  by_cases hempty : s.incidents.records = []
  · rw [if_pos hempty, if_pos hempty, hempty, if_pos (by decide)]
    cases p <;> rfl
  · rw [if_neg hempty, if_neg hempty]
    split <;> cases p <;> rfl

/-- A port that takes its notices at once holds ALERT after *non-empty*, with no notice left. -/
theorem giveAlert_atOnce (h : HostPort) :
    (giveAlert true .nonEmpty h).alertCause = true ∧ (giveAlert true .nonEmpty h).notices = [] := by
  simp only [giveAlert, if_true, takeAlerts_eq]
  simp [alertsTaken]

/-! ## The first lines of the sweep (R77) -/

/-- The INIT_LINE of line `n` of segment `p`. -/
def initRef (p : PhysSeg) (n : Nat) : Ref := ⟨.scrub .sweep, .physical ⟨p, Fin.ofNat 1048576 n⟩, .initLine, none⟩

theorem scrubIssueOne_initRef {g : SegMap} {q : List Ref} {u : ScrubUnit} {p : PhysSeg} {n : Nat} (hroom : q.length < 4)
    (hpass : u.pass = .sweep) (hn : n < 1048575) (hpos : u.pos = .at ⟨p, Fin.ofNat 1048576 n⟩) :
    scrubIssueOne g (q, u) =
      (q ++ [initRef p n],
        { u with pos := .at ⟨p, Fin.ofNat 1048576 (n + 1)⟩, outstanding := u.outstanding + 1 }) := by
  have hval : (Fin.ofNat 1048576 n).val = n := Nat.mod_eq_of_lt (by omega)
  have hnext : (Fin.ofNat 1048576 n + 1 : Fin 1048576) = Fin.ofNat 1048576 (n + 1) := by
    apply Fin.ext
    rw [Fin.val_add, hval]
    rfl
  have hafter : afterSweepLine g ⟨p, Fin.ofNat 1048576 n⟩ = .at ⟨p, Fin.ofNat 1048576 (n + 1)⟩ := by
    rw [afterSweepLine, if_neg (by rw [hval]; omega), hnext]
  simp only [scrubIssueOne, if_pos hroom, hpass, hpos, hafter]
  rfl

/-- From line 0 of a segment, with queue S empty, the first issues of the sweep are the INIT_LINEs of its first lines. -/
theorem scrubIssueOne_iterate {g : SegMap} {u : ScrubUnit} {p : PhysSeg} (hpass : u.pass = .sweep) (hpos : u.pos = .at ⟨p, 0⟩)
    (n : Nat) (hn : n ≤ 4) :
    (scrubIssueOne g)^[n] ([], u) =
      ((List.range n).map (initRef p), { u with pos := .at ⟨p, Fin.ofNat 1048576 n⟩, outstanding := u.outstanding + n }) := by
  induction n with
  | zero =>
    obtain ⟨_, _, _, _, _, _⟩ := u
    obtain rfl : _ = ScrubPos.at ⟨p, 0⟩ := hpos
    rfl
  | succ n ih =>
    rw [Function.iterate_succ_apply', ih (by omega), List.range_succ, List.map_append]
    refine scrubIssueOne_initRef ?_ hpass (by omega) rfl
    rw [List.length_map, List.length_range]
    omega

theorem scrubIssue_first {s : State} {p : PhysSeg} (hempty : s.sched.s = []) (hpass : s.scrub.pass = .sweep)
    (hpos : s.scrub.pos = .at ⟨p, 0⟩) (hnone : s.scrub.outstanding = 0) :
    (scrubIssue s).sched.s = (List.range 4).map (initRef p) ∧
      (scrubIssue s).scrub = { s.scrub with pos := .at ⟨p, 4⟩, outstanding := 4 } := by
  have hfour := scrubIssueOne_iterate (g := s.seg) hpass hpos 4 (Nat.le_refl 4)
  rw [← hempty, hnone] at hfour
  exact ⟨congrArg Prod.fst hfour, congrArg Prod.snd hfour⟩

/-- The ports after an append made if a fault is found. -/
theorem appendIf_port (fault : Bool) (atOnce : PortId → Bool) (i : Incident) (s : State) (p : PortId) :
    (if fault then appendTelling atOnce i s else s).port p =
      if fault = true ∧ s.incidents.records = [] then giveAlert (atOnce p) .nonEmpty (s.port p) else s.port p := by
  cases fault with
  | false => simp
  | true => simp only [if_true, true_and, appendTelling_port_eq]

/-! ## The statement -/

/-- The end of the power-on read by its shape, with the notice of a first NV_FAULT at each port. -/
theorem retirementReadDone_ports {answered : Bool} {s : State} (hreading : s.ret.reading = true)
    (hidle : s.mig.state = .idle) :
    let x := powerOnRead answered s.ret.slot0 s.ret.slot1
    ∃ t, exec (.retirementReadDone answered) s = .next t ∧
      t = { scrubIssue (readDone answered s) with ret := s.ret.afterRead x.current, port0 := t.port0, port1 := t.port1 } ∧
      ∀ p, t.port p =
        if x.nvFault = true ∧ s.incidents.records = [] then giveAlert (powerOnTakes s p) .nonEmpty (s.port p)
        else s.port p := by
  intro x
  refine ⟨_, exec_retirementReadDone hreading hidle, rfl, fun p => ?_⟩
  have happend := appendIf_port x.nvFault
    (powerOnTakes { s with ret := s.ret.afterRead x.current, seg := mapBuild x.retired }) powerOnFault
    { s with ret := s.ret.afterRead x.current, seg := mapBuild x.retired } p
  cases p <;> exact happend

/-- Settles O6: the table by the two images and the answer, the notice of the append, and the sweep from the lowest segment that
the build leaves in service. -/
theorem retirementReadSetsTheListAndTheSlot : Obligations.RetirementReadSetsTheListAndTheSlot := by
  intro answered s hreading hidle
  obtain ⟨t, hexec, ht, hport⟩ := retirementReadDone_ports (answered := answered) hreading hidle
  have hseg : t.seg = mapBuild (powerOnRead answered s.ret.slot0 s.ret.slot1).retired := congrArg State.seg ht
  have hret : t.ret = s.ret.afterRead _ := congrArg State.ret ht
  refine ⟨t, (powerOnRead answered s.ret.slot0 s.ret.slot1).retired, (powerOnRead answered s.ret.slot0 s.ret.slot1).current,
    (powerOnRead answered s.ret.slot0 s.ret.slot1).nvFault, hexec, ?_, hret.trans (afterRead_eq _ _),
    congrArg State.incidents ht, fun p => ?_,
    fun p hfault hrecords hoff => ?_, fun p hempty hpass hnone hp hbelow => ?_, ?_⟩
  · conv_lhs => rw [ht]
    rw [ht]
    rfl
  · rw [hport p]
    split
    · exact giveAlert_notified _ _ _
    · rfl
  · rw [hport p, if_pos ⟨hfault, hrecords⟩, powerOnTakes, hoff]
    exact giveAlert_atOnce _
  · have hlowest : lowestServed (mapBuild (powerOnRead answered s.ret.slot0 s.ret.slot1).retired) = p :=
      lowestServed_eq (fun h => hp ((mapBuild_role_retired _ p).mp h)) fun q hq =>
        (mapBuild_role_retired _ q).mpr (hbelow q hq)
    rw [ht]
    refine scrubIssue_first (s := readDone answered s) hempty hpass ?_ hnone
    rw [← hlowest]
    rfl
  · cases answered with
    | false => exact ⟨rfl, rfl, rfl⟩
    | true =>
      cases h0 : s.ret.slot0.validImage with
      | none =>
        cases h1 : s.ret.slot1.validImage with
        | none =>
          rw [powerOnRead_of_none h0 h1]
          exact ⟨rfl, rfl, by simp⟩
        | some b =>
          simp only [powerOnRead, if_true, h0, h1]
          exact ⟨rfl, trivial, trivial⟩
      | some a =>
        cases h1 : s.ret.slot1.validImage with
        | none =>
          simp only [powerOnRead, if_true, h0, h1]
          exact ⟨rfl, trivial, trivial⟩
        | some b =>
          simp only [powerOnRead, if_true, h0, h1]
          split <;> exact ⟨rfl, rfl, rfl⟩

end Sys2Proof.Machine
end

section
/-! O51. The start of a maintenance command by the arbiter, and what each of the four does with it (R39, R81, R162, R165 to R168,
R173). -/

namespace Sys2Proof.Machine

/-! ## Entry and trailer of a MAP_QUERY (R165, R166) -/

@[simp] theorem bytesOf_length (n v : Nat) : (bytesOf n v).length = n := by
  induction n generalizing v with
  | zero => rfl
  | succ n ih => rw [bytesOf, List.length_cons, ih]

@[simp] theorem bytesOrAbsent_length (n : Nat) (v : Option Nat) : (bytesOrAbsent n v).length = n := by
  cases v with
  | none => exact List.length_replicate ..
  | some v => exact bytesOf_length n v

@[simp] theorem eightEntries_length (l : List Nat) : (eightEntries l).length = 16 := by
  simp [eightEntries, List.length_flatMap]

theorem mapEntryBytes_length (g : SegMap) (dest : Option PhysSeg) (l : LogSeg) : (mapEntryBytes g dest l).length = 16 := by
  simp [mapEntryBytes, padded]

theorem trailerBytes_length (g : SegMap) (m : Migration) (r : RetMem) (rate : Nat) : (trailerBytes g m r rate).length = 64 := by
  simp [trailerBytes]

/-- Write `k` of a snapshot is the entry of the `k`-th segment from the first. -/
theorem snapshot_entry {first count k : Nat} (hk : k < count) (s : State) :
    (snapshot first count s)[k]? = some (mapEntryBytes s.seg (s.mig.job.map Job.dest) (Fin.ofNat 512 (first + k))) := by
  rw [snapshot, List.getElem?_append_left (by simpa using hk), List.getElem?_map, List.getElem?_range' hk]
  simp

/-- The last write of a snapshot is the trailer. -/
theorem snapshot_trailer (first count : Nat) (s : State) :
    (snapshot first count s)[count]? = some (trailerBytes s.seg s.mig s.ret s.scrub.rate) := by
  simp [snapshot]

/-! ## The start of a command (R162) -/

/-- The state once the oldest command of port `p` has left its queue, `rest` staying, with no command running. -/
def commandStarted (p : PortId) (rest : List CtxId) (s : State) : State :=
  { s.setPort p { s.port p with maintQueue := rest } with maint := ⟨none, p.other⟩ }

section
variable {p : PortId} {s : State} {c : CtxId} {rest : List CtxId}

theorem startCommand_eq (hidle : s.maint.running = none) (hqueue : (s.port p).maintQueue = c :: rest) :
    startCommand p s = commandStarted p rest s := by
  simp only [startCommand_frame, hqueue, hidle, List.tail_cons, commandStarted]

/-- The arbiter starts the command of the port whose queue alone holds one, or of the one that holds the turn. -/
theorem nextCommand_eq (hidle : s.maint.running = none) (hqueue : (s.port p).maintQueue = c :: rest)
    (hturn : (s.port p.other).maintQueue = [] ∨ s.maint.turn = p) : nextCommand s = some (p, c) := by
  have hstill : ¬ s.maint.running.isSome = true := by rw [hidle]; exact nofun
  rw [nextCommand, if_neg hstill]
  cases p with
  | p0 =>
    have hmine : s.port0.maintQueue = c :: rest := hqueue
    cases hother : s.port1.maintQueue with
    | nil => simp only [hmine]
    | cons b bs =>
      have hat : s.maint.turn = .p0 := hturn.resolve_left fun h => List.cons_ne_nil b bs (hother.symm.trans h)
      simp only [hmine, hat]
  | p1 =>
    have hmine : s.port1.maintQueue = c :: rest := hqueue
    cases hother : s.port0.maintQueue with
    | nil => simp only [hmine]
    | cons b bs =>
      have hat : s.maint.turn = .p1 := hturn.resolve_left fun h => List.cons_ne_nil b bs (hother.symm.trans h)
      simp only [hmine, hat]

theorem nextMaint_eq (hnext : nextCommand s = some (p, c)) :
    nextMaint s = some (p, c, ((s.port p).contexts[c]).cmd) := by
  rw [nextMaint, hnext]
  rfl

/-! ## The four commands -/

/-- What a RELOCATE does to its port, by the answer to its offer (R168). -/
def relocateAnswer (c : CtxId) : OfferAnswer → HostPort → HostPort
  | .already => handCompletion c .already .none
  | .noSpare => handCompletion c .noSpare .none
  | .queued => setCtxState c .relocateWait

section
variable (hnext : nextCommand s = some (p, c)) (hstart : startCommand p s = commandStarted p rest s)
include hnext hstart

theorem exec_mapQuery {first count buffer : Nat} (hcmd : ((s.port p).contexts[c]).cmd = .mapQuery first count buffer) :
    exec .mapQuery s = .next (setRunning p c (.mapQuery count buffer (snapshot first count s)) (commandStarted p rest s)) := by
  show execMapQuery s = _
  simp only [execMapQuery, nextMaint_eq hnext, hcmd, hstart]

theorem exec_incidents_of_some {maximum buffer : Nat} (hcmd : ((s.port p).contexts[c]).cmd = .incidents maximum buffer)
    (hcopies : min maximum s.incidents.records.length ≠ 0) :
    exec .incidents s =
      .next (setRunning p c (.incidents (min maximum s.incidents.records.length) 0 buffer) (commandStarted p rest s)) := by
  show execIncidents s = _
  simp only [execIncidents, nextMaint_eq hnext, hcmd, hstart, incidentsToCopy, if_neg hcopies]

theorem exec_incidents_of_none {maximum buffer : Nat} (hcmd : ((s.port p).contexts[c]).cmd = .incidents maximum buffer)
    (hcopies : min maximum s.incidents.records.length = 0) :
    exec .incidents s = .next (completeIncidents p c .ok 0 (commandStarted p rest s)) := by
  show execIncidents s = _
  simp only [execIncidents, nextMaint_eq hnext, hcmd, hstart, incidentsToCopy, if_pos hcopies]

theorem exec_tune {threshold rate : Option Nat} (hcmd : ((s.port p).contexts[c]).cmd = .tune threshold rate) :
    exec .tune s =
      .next ((tuneRate rate (tuneThreshold threshold (commandStarted p rest s))).modPort p
        (handCompletion c .ok (.tune s.seg.threshold s.scrub.rate))) := by
  show execTune s = _
  simp only [execTune, nextMaint_eq hnext, hcmd, hstart]

theorem exec_relocate {l : LogSeg} (hcmd : ((s.port p).contexts[c]).cmd = .relocate l) :
    exec .relocate s =
      .next ({ commandStarted p rest s with seg := (relocateOffer l s.seg).1 }.modPort p
        (relocateAnswer c (relocateOffer l s.seg).2)) := by
  show execRelocate s = _
  simp only [execRelocate, nextMaint_eq hnext, hcmd, hstart]
  cases (relocateOffer l s.seg).2 <;> rfl

end

end

/-! ## The offer of a RELOCATE (R39) -/

section
variable {l : LogSeg} {g : SegMap}

theorem relocateOffer_of_waiting (h : (g.map[l]).state = .queued ∨ (g.map[l]).state = .migrating) :
    relocateOffer l g = (g, .already) := by
  rcases h with h | h <;> simp only [relocateOffer, h]

theorem relocateOffer_of_noSpare
    (h : (g.map[l]).state = .atRisk ∨ (g.map[l]).state = .mapped ∧ ¬ g.queue.length < g.spares.length) :
    relocateOffer l g = (g, .noSpare) := by
  rcases h with h | ⟨h, hfull⟩
  · simp only [relocateOffer, h]
  · simp only [relocateOffer, h, join, if_neg hfull]

theorem relocateOffer_of_room (h : (g.map[l]).state = .mapped) (hroom : g.queue.length < g.spares.length) :
    relocateOffer l g =
      ({ g with queue := g.queue ++ [l], map := g.map.set l { g.map[l] with state := .queued } }, .queued) := by
  simp only [relocateOffer, h, join, if_pos hroom]
  rfl

end

/-- Settles O51: the arbiter's choice, then each command on the state in which it has left its queue. -/
theorem maintenanceCommandsStartByTheArbiter : Obligations.MaintenanceCommandsStartByTheArbiter := by
  intro p s c rest h k started m room hidle hqueue hturn
  have hnext := nextCommand_eq hidle hqueue hturn
  have hstart := startCommand_eq hidle hqueue
  refine ⟨fun first count buffer hcmd => ?_, fun maximum buffer hcmd => ⟨fun hcopies => ?_, fun hcopies => ?_⟩,
    fun threshold rate hcmd => ?_, fun l hcmd => ?_⟩
  · refine ⟨snapshot first count s, exec_mapQuery hnext hstart hcmd, by simp [snapshot], fun i hi => ?_, ?_⟩
    · exact ⟨_, snapshot_entry hi s, mapEntryBytes_length _ _ _, rfl⟩
    · exact ⟨_, snapshot_trailer first count s, trailerBytes_length _ _ _ _, rfl⟩
  · exact exec_incidents_of_some hnext hstart hcmd hcopies
  · refine ⟨_, exec_incidents_of_none hnext hstart hcmd hcopies, ?_, ?_⟩
    · cases p <;> rfl
    · cases p <;> exact handCompletion_taken _ _ _ _
  · refine ⟨_, exec_tune hnext hstart hcmd, ?_, ?_⟩
    · rw [tuneThreshold_eq, tuneRate_eq]
      cases p <;> rfl
    · rw [tuneThreshold_eq, tuneRate_eq]
      cases p <;> exact handCompletion_taken _ _ _ _
  · have hport : (({ commandStarted p rest s with seg := (relocateOffer l s.seg).1 }.modPort p
        (relocateAnswer c (relocateOffer l s.seg).2)).port p) = relocateAnswer c (relocateOffer l s.seg).2 k := by
      cases p <;> rfl
    have hseg : (({ commandStarted p rest s with seg := (relocateOffer l s.seg).1 }.modPort p
        (relocateAnswer c (relocateOffer l s.seg).2)).seg) = (relocateOffer l s.seg).1 := modPort_seg _ _ _
    refine ⟨_, exec_relocate hnext hstart hcmd, ?_, fun hwaiting => ?_, fun hfull => ?_, fun hmapped hroom => ?_⟩
    · cases p <;> rfl
    · rw [hport, hseg, relocateOffer_of_waiting hwaiting]
      exact ⟨rfl, handCompletion_taken _ _ _ _⟩
    · rw [hport, hseg, relocateOffer_of_noSpare hfull]
      exact ⟨rfl, handCompletion_taken _ _ _ _⟩
    · rw [hport, hseg, relocateOffer_of_room hmapped hroom]
      exact ⟨rfl, rfl⟩

end Sys2Proof.Machine
end

section
/-! O10. Where a logical line resolves (R2, R44). -/

namespace Sys2Proof.Machine

section
variable {g : SegMap} {m : Migration} {l : LLine}

/-- A line of the segment in migration resolves by the watermark. -/
theorem resolve_of_runs {j : Job} (hj : m.Runs j) (hseg : l.seg = j.seg) :
    resolve g m l = ⟨if l.off.val / 64 < m.watermark then j.dest else j.source, l.off⟩ := by
  obtain ⟨hin, hjob⟩ := hj
  simp only [resolve, hjob, hin, hseg, beq_self_eq_true, Bool.and_self, if_true, chunkOf]
  exact (apply_ite (PLine.mk · l.off) _ _ _).symm

/-- A line of any other segment resolves by the map. -/
theorem resolve_of_not_runs (h : ∀ j, m.Runs j → j.seg ≠ l.seg) : resolve g m l = ⟨(g.map[l.seg]).phys, l.off⟩ := by
  unfold resolve
  split
  · rename_i j hjob
    refine if_neg fun hboth => ?_
    obtain ⟨hin, hseg⟩ := Bool.and_eq_true_iff.mp hboth
    exact h j ⟨hin, hjob⟩ (eq_of_beq hseg).symm
  · rfl

end

/-- Settles O10: the MIGRATING segment is that of the migration in progress, whose lines alone resolve by the watermark. -/
theorem logicalLinesResolveByMapAndWatermark : Obligations.LogicalLinesResolveByMapAndWatermark := by
  intro s l hagrees r
  obtain ⟨hmigrating, -, -⟩ := (migrationAgrees_iff _ _).mp hagrees
  by_cases hruns : ∃ j, s.mig.Runs j ∧ j.seg = l.seg
  · obtain ⟨j, hj, hseg⟩ := hruns
    have hr : r = _ := resolve_of_runs hj hseg.symm
    rw [hr]
    exact ⟨rfl, rfl, fun hnot => absurd ((hmigrating l.seg).mpr ⟨j, hj, hseg⟩) hnot, fun _ => ⟨j, hj.2, hseg, rfl⟩⟩
  · have hr : r = _ := resolve_of_not_runs fun j hj hseg => hruns ⟨j, hj, hseg⟩
    rw [hr]
    exact ⟨rfl, rfl, fun _ => rfl, fun hstate => absurd ((hmigrating l.seg).mp hstate) hruns⟩

end Sys2Proof.Machine
end

section
/-! O11, O12. An act of a bank's arbiter, by what stands in the queues: which heads are eligible, which scrub references are
discarded, and what the one grant does (R46, R63 to R67, R70, R80). -/

namespace Sys2Proof.Machine

/-! ## Heads -/

theorem waiting_of_granted {r : Ref} (h : r.granted.isSome = true) : r.waiting = false := by
  simpa [Ref.waiting] using h

section
variable {pre post : List Ref} {r : Ref}

/-- The references in progress at the front of a queue are passed over in the search for its head (R59). -/
theorem headOf_append_of_granted (hpre : ∀ x ∈ pre, x.granted.isSome = true) (q : List Ref) : headOf (pre ++ q) = headOf q := by
  have hnone : pre.find? Ref.waiting = none :=
    List.find?_eq_none.mpr fun x hx => by simp [waiting_of_granted (hpre x hx)]
  rw [headOf, List.find?_append, hnone, Option.none_or, headOf]

theorem headOf_cons_of_waiting (hr : r.granted = none) (q : List Ref) : headOf (r :: q) = some r :=
  List.find?_cons_of_pos (by simp [Ref.waiting, hr])

theorem headOf_append_cons (hpre : ∀ x ∈ pre, x.granted.isSome = true) (hr : r.granted = none) :
    headOf (pre ++ r :: post) = some r := by
  rw [headOf_append_of_granted hpre, headOf_cons_of_waiting hr]

theorem grantHead_append_cons (hpre : ∀ x ∈ pre, x.granted.isSome = true) (hr : r.granted = none) (l : PLine) :
    grantHead l (pre ++ r :: post) = pre ++ { r with granted := some l } :: post := by
  induction pre with
  | nil => simp [grantHead, Ref.waiting, hr]
  | cons x pre ih =>
    obtain ⟨hx, hpre⟩ := List.forall_mem_cons.mp hpre
    simp [grantHead, waiting_of_granted hx, ih hpre]

end

/-! ## Eligible heads (R63) -/

theorem inWatermarkChunk_iff (m : Migration) (l : PLine) :
    inWatermarkChunk m l = true ↔
      ∃ j, m.job = some j ∧ (l.seg = j.source ∨ l.seg = j.dest) ∧ l.off.val / 64 = m.watermark := by
  unfold inWatermarkChunk
  cases m.job <;> simp [chunkOf]

/-- The 128 lines of a lock that is CLOSING or HELD (R45). -/
theorem lockedLine_iff (m : Migration) (l : PLine) :
    lockedLine m l = true ↔
      m.lock ≠ .none ∧ ∃ j, m.job = some j ∧ (l.seg = j.source ∨ l.seg = j.dest) ∧ l.off.val / 64 = m.watermark := by
  rw [lockedLine, Bool.and_eq_true, inWatermarkChunk_iff, bne_iff_ne]

/-- The table of R63: the conditions on a head, by its source. -/
theorem eligible_iff_of_head {s : State} {b : Bank} {src : Source} {r : Ref} (hhead : headOf (s.sched.queue src) = some r) :
    eligible s b src = true ↔
      r.bank = b ∧ (src ≠ .migration → ¬ lockedLine s.mig (resolvedLine s.seg s.mig r) = true) ∧
        (src = .scrub → (s.seg.phys[(resolvedLine s.seg s.mig r).seg]).role ≠ .retired) := by
  simp only [eligible, hhead, Bool.and_eq_true, beq_iff_eq]
  cases src with
  | host p => simp
  | migration => simp
  | scrub => simp [isRetired]

/-! ## Discards (R70) -/

/-- The head of queue S, if it targets bank `b`, is not in a RETIRED segment. -/
def ScrubHeadServed (g : SegMap) (b : Bank) (q : List Ref) : Prop :=
  ∀ x l, headOf q = some x → x.bank = b → x.line = .physical l → (g.phys[l.seg]).role ≠ .retired

/-- A reference targets bank `b` in a RETIRED segment. -/
def RetiredAt (g : SegMap) (b : Bank) (r : Ref) : Prop :=
  r.bank = b ∧ ∃ k : PLine, r.line = .physical k ∧ (g.phys[k.seg]).role = .retired

section
variable {g : SegMap} {b : Bank}

theorem dropRetired_append_of_granted {busy : List Ref} (hbusy : ∀ r ∈ busy, r.granted.isSome = true) (q : List Ref) :
    dropRetired g b (busy ++ q) = busy ++ dropRetired g b q := by
  induction busy with
  | nil => rfl
  | cons x busy ih =>
    obtain ⟨hx, hbusy⟩ := List.forall_mem_cons.mp hbusy
    simp [dropRetired, waiting_of_granted hx, ih hbusy]

theorem dropRetired_append_of_retired {gone : List Ref} (hgone : ∀ r ∈ gone, r.granted = none ∧ RetiredAt g b r)
    (q : List Ref) : dropRetired g b (gone ++ q) = dropRetired g b q := by
  induction gone with
  | nil => rfl
  | cons x gone ih =>
    obtain ⟨⟨hx, hbank, k, hline, hrole⟩, hgone⟩ := List.forall_mem_cons.mp hgone
    simp [dropRetired, Ref.waiting, hx, hline, hbank, (isRetired_iff g k.seg).mpr hrole, ih hgone]

/-- A head in a segment in service, or for another bank, stays with all behind it (R64, R70). -/
theorem dropRetired_of_served {q : List Ref} (h : ScrubHeadServed g b q) : dropRetired g b q = q := by
  induction q with
  | nil => rfl
  | cons x q ih =>
    cases hx : x.granted with
    | some line =>
      have hrest : headOf (x :: q) = headOf q := headOf_append_of_granted (pre := [x]) (by simp [hx]) q
      simp only [ScrubHeadServed, hrest] at h
      simp [dropRetired, Ref.waiting, hx, ih h]
    | none =>
      cases hline : x.line with
      | logical l => simp [dropRetired, Ref.waiting, hx, hline]
      | physical l =>
        have hstays : ¬ (x.bank = b ∧ isRetired g l.seg = true) := fun ⟨hbank, hrole⟩ =>
          h x l (headOf_cons_of_waiting hx q) hbank hline ((isRetired_iff g l.seg).mp hrole)
        simp [dropRetired, Ref.waiting, hx, hline, hstays]

/-- A queue whose first WAITING reference is not to be discarded. -/
theorem scrubHeadServed_append {busy rest : List Ref} (hbusy : ∀ r ∈ busy, r.granted.isSome = true)
    (hrest : ∀ r rs, rest = r :: rs → r.granted = none ∧ ¬ RetiredAt g b r) : ScrubHeadServed g b (busy ++ rest) := by
  intro x k hx hbank hline hrole
  rw [headOf_append_of_granted hbusy] at hx
  cases rest with
  | nil => cases hx
  | cons r rs =>
    obtain ⟨hwaits, hnot⟩ := hrest r rs rfl
    obtain rfl := Option.some.inj ((headOf_cons_of_waiting hwaits rs).symm.trans hx)
    exact hnot ⟨hbank, k, hline, hrole⟩

/-- Of a queue the references between those in progress and the first that stays are discarded. -/
theorem dropRetired_of_gone {busy gone rest : List Ref} (hbusy : ∀ r ∈ busy, r.granted.isSome = true)
    (hgone : ∀ r ∈ gone, r.granted = none ∧ RetiredAt g b r) (hstays : ScrubHeadServed g b (busy ++ rest)) :
    dropRetired g b (busy ++ gone ++ rest) = busy ++ rest := by
  rw [List.append_assoc, dropRetired_append_of_granted hbusy, dropRetired_append_of_retired hgone,
    ← dropRetired_append_of_granted hbusy, dropRetired_of_served hstays]

/-- The state after discards that leave `left` in queue S, which leaves the held-over set (R46). -/
def scrubDiscarded (left : List Ref) (s : State) : State :=
  { s with sched := { s.sched with s := left }, mig := leaveHeldOver .scrub s.mig }

theorem discardScrub_of_dropped {s : State} {left : List Ref} (hdrop : dropRetired s.seg b s.sched.s = left)
    (hshorter : left.length ≠ s.sched.s.length) : discardScrub b s = scrubDiscarded left s := by
  subst hdrop
  exact if_neg hshorter

theorem discardScrub_of_served {s : State} (h : ScrubHeadServed s.seg b s.sched.s) : discardScrub b s = s := by
  rw [discardScrub, dropRetired_of_served h]
  exact if_pos rfl

end

/-! ## The act of the arbiter (R65) -/

/-- The one grant of an IDLE bank, once the discards are made. -/
def arbiterGrant (b : Bank) (s : State) : State :=
  match (arbiterOrder s b).find? (eligible s b) with
  | some src => grantTo b src s
  | none => s

theorem arbiterGrant_of_some {b : Bank} {s : State} {src : Source}
    (h : (arbiterOrder s b).find? (eligible s b) = some src) : arbiterGrant b s = grantTo b src s := by
  simp only [arbiterGrant, h]

theorem arbiterGrant_of_none {b : Bank} {s : State} (h : ∀ src, eligible s b src = false) : arbiterGrant b s = s := by
  have hnone : (arbiterOrder s b).find? (eligible s b) = none := List.find?_eq_none.mpr fun src _ => by simp [h src]
  simp only [arbiterGrant, hnone]

theorem arbiterAct_of_busy {b : Bank} {s : State} (h : s.sched.banks[b] ≠ none) : arbiterAct b s = s :=
  if_pos (Option.isSome_iff_ne_none.mpr h)

/-- The act of an IDLE bank's arbiter: discards, the grant, and the Scrub Unit's test for issue if a discard freed a place. -/
theorem arbiterAct_of_idle {b : Bank} {s : State} (h : s.sched.banks[b] = none) :
    arbiterAct b s =
      if (discardScrub b s).sched.s.length = s.sched.s.length then arbiterGrant b (discardScrub b s)
      else scrubIssue (arbiterGrant b (discardScrub b s)) := by
  have hidle : ¬ (s.sched.banks[b]).isSome = true := by rw [h]; exact nofun
  rw [arbiterAct, if_neg hidle]
  rfl

theorem arbiterAct_of_served {b : Bank} {s : State} (hidle : s.sched.banks[b] = none)
    (hserved : ScrubHeadServed s.seg b s.sched.s) : arbiterAct b s = arbiterGrant b s := by
  rw [arbiterAct_of_idle hidle, discardScrub_of_served hserved, if_pos rfl]

theorem arbiterAct_of_discard {b : Bank} {s : State} {left : List Ref} (hidle : s.sched.banks[b] = none)
    (hdiscard : discardScrub b s = scrubDiscarded left s) (hshorter : left.length ≠ s.sched.s.length) :
    arbiterAct b s = scrubIssue (arbiterGrant b (scrubDiscarded left s)) := by
  rw [arbiterAct_of_idle hidle, hdiscard]
  exact if_neg hshorter

/-- The grant leaves the number of references in queue S, the map and the Scrub Unit. -/
theorem arbiterGrant_kept (b : Bank) (s : State) :
    (arbiterGrant b s).sched.s.length = s.sched.s.length ∧ (arbiterGrant b s).seg = s.seg ∧
      (arbiterGrant b s).scrub = s.scrub := by
  unfold arbiterGrant
  split
  · rename_i src hsrc
    obtain ⟨r, hr, -⟩ := eligible_head (List.find?_some hsrc)
    obtain ⟨l, turns, hgrant⟩ := grantTo_of_head (b := b) hr
    rw [hgrant]
    rcases src with (_ | _) | _ | _
    · exact ⟨rfl, rfl, rfl⟩
    · exact ⟨rfl, rfl, rfl⟩
    · exact ⟨rfl, rfl, rfl⟩
    · exact ⟨grantHead_length l s.sched.s, rfl, rfl⟩
  · exact ⟨rfl, rfl, rfl⟩

/-- A grant of bank `b` to the head `r` of a source, behind references in progress (R66, R67). -/
theorem grantTo_eq {b : Bank} {s : State} {src : Source} {pre post : List Ref} {r : Ref}
    (hqueue : s.sched.queue src = pre ++ r :: post) (hpre : ∀ x ∈ pre, x.granted.isSome = true) (hr : r.granted = none) :
    let line := resolvedLine s.seg s.mig r
    let granted := { r with granted := some line }
    grantTo b src s =
      { s with
        sched :=
          { s.sched.setQueue src (pre ++ granted :: post) with
            banks := s.sched.banks.set b (some ⟨src, granted, line⟩)
            turns := s.sched.turns.set b (turnAfter src s.sched.turns[b]) }
        mig := leaveHeldOver src s.mig } := by
  have hhead : headOf (s.sched.queue src) = some r := by rw [hqueue, headOf_append_cons hpre hr]
  simp only [grantTo, hhead]
  simp only [hqueue, grantHead_append_cons hpre hr, setQueue_banks, setQueue_turns]

/-! ## The statements -/

/-- Settles O11: an IDLE bank without a discard makes its one grant, which is spelt out at the head of the source found. -/
theorem grantGoesToTheFirstEligibleHead : Obligations.GrantGoesToTheFirstEligibleHead := by
  refine ⟨fun b s hbusy => ?_, fun b s hidle hserved hnone => ?_,
    fun b s src pre post r hidle hserved hfirst hqueue hpre hr => ?_⟩
  · rw [exec_grant, arbiterAct_of_busy hbusy]
  · rw [exec_grant, arbiterAct_of_served hidle hserved, arbiterGrant_of_none hnone]
  · have hgrant : arbiterAct b s = grantTo b src s := by
      rw [arbiterAct_of_served hidle hserved, arbiterGrant_of_some hfirst]
    rw [grantTo_eq hqueue hpre hr] at hgrant
    refine ⟨_, congrArg Host.Outcome.next hgrant, rfl, leaveHeldOver_left src s.mig, ?_, fun o ho => ?_, rfl, ?_⟩
    · exact queue_setQueue_same s.sched src _
    · exact queue_setQueue_ne s.sched _ ho
    · cases src <;> rfl

/-- Settles O12: the table at the head of a queue; and the discards take `gone` away, so that the arbiter goes on as without
them and the patrol issues into their places. -/
theorem eligibleHeadsAreThoseOfTheTable : Obligations.EligibleHeadsAreThoseOfTheTable := by
  refine ⟨fun s b src pre post r hqueue hpre hr => ?_, fun b s busy gone rest l => ?_⟩
  · have hhead : headOf (s.sched.queue src) = some r := by rw [hqueue, headOf_append_cons hpre hr]
    rw [eligible_iff_of_head hhead, lockedLine_iff]
  · intro _ left hidle hqueue hbusy hsome hgone hrest hpass hpos hserved
    have hstays : ScrubHeadServed s.seg b left := scrubHeadServed_append hbusy hrest
    have hdrop : dropRetired s.seg b s.sched.s = left := by rw [hqueue, dropRetired_of_gone hbusy hgone hstays]
    have hshorter : left.length ≠ s.sched.s.length := by
      have := List.length_pos_iff.mpr hsome
      simp only [left, hqueue, List.length_append]
      omega
    have hact := arbiterAct_of_discard hidle (discardScrub_of_dropped hdrop hshorter) hshorter
    obtain ⟨hlength, hseg, hscrub⟩ := arbiterGrant_kept b (scrubDiscarded left s)
    obtain ⟨new, last, hissue, hwalk, hnew⟩ := scrubIssue_patrol (arbiterGrant b (scrubDiscarded left s)) l
      (by rw [hseg]; exact hserved) (by rw [hscrub]; exact hpass) (by rw [hscrub]; exact hpos)
    rw [hseg] at hwalk
    rw [hlength, hscrub] at hnew
    rw [← hact, hscrub] at hissue
    exact ⟨_, _, new, last, leaveHeldOver_left .scrub s.mig,
      congrArg Host.Outcome.next (arbiterAct_of_served (s := scrubDiscarded left s) hidle hstays), arbiterGrant_of_none,
      hwalk, hnew, congrArg Host.Outcome.next hissue⟩

end Sys2Proof.Machine
end

section
/-! O15, O16, O23. The copy of a chunk: its start once the chunk is quiet, its lines, and its end below the last chunk (R44, R46 to
R50, R68, R69). -/

namespace Sys2Proof.Machine

/-! ## The start (R47, R48) -/

/-- An operation of T0, T1 or S is in progress on the watermark chunk of migration `j`. -/
def ChunkBusy (s : State) (j : Job) : Prop :=
  ∃ (b : Bank) (o : BankOp), s.sched.banks[b] = some o ∧ o.source ≠ .migration ∧
    (o.line.seg = j.source ∨ o.line.seg = j.dest) ∧ o.line.off.val / 64 = s.mig.watermark

theorem holdsChunk_iff {m : Migration} {j : Job} (hjob : m.job = some j) (x : Option BankOp) :
    holdsChunk m x = true ↔
      ∃ o, x = some o ∧ o.source ≠ .migration ∧ (o.line.seg = j.source ∨ o.line.seg = j.dest) ∧
        o.line.off.val / 64 = m.watermark := by
  cases x with
  | none => simp [holdsChunk]
  | some o => simp [holdsChunk, inWatermarkChunk, hjob, chunkOf]

theorem chunkQuiet_iff {s : State} {j : Job} (hjob : s.mig.job = some j) : chunkQuiet s = true ↔ ¬ ChunkBusy s j := by
  rw [chunkQuiet, Bool.not_eq_true', Bool.eq_false_iff]
  refine not_congr ?_
  simp only [List.any_eq_true, holdsChunk_iff hjob, Vector.mem_toList_iff, Vector.mem_iff_getElem, ChunkBusy]
  constructor
  · rintro ⟨_, ⟨i, hi, rfl⟩, o, ho, h⟩
    exact ⟨⟨i, hi⟩, o, ho, h⟩
  · rintro ⟨b, o, ho, h⟩
    exact ⟨_, ⟨b.val, b.isLt, rfl⟩, o, ho, h⟩

theorem exec_chunkLockHeld_of_busy {s : State} {j : Job} (hjob : s.mig.job = some j) (hbusy : ChunkBusy s j) :
    exec .chunkLockHeld s = .next s := by
  show execChunkLockHeld s = _
  simp only [execChunkLockHeld, hjob]
  exact if_neg fun h => (chunkQuiet_iff hjob).mp h.2.2 hbusy

theorem exec_chunkLockHeld_of_quiet {s : State} {j : Job} (hjob : s.mig.job = some j) (hstate : s.mig.state = .stepping)
    (hlock : s.mig.lock = .closing) (hquiet : ¬ ChunkBusy s j) :
    exec .chunkLockHeld s =
      .next (issueRef .migration (copyReadRef j s.mig.watermark 0)
        { s with mig := { s.mig with state := .copying, lock := .held, copyLine := 0, copyStep := .write, kept := none } }) := by
  show execChunkLockHeld s = _
  simp only [execChunkLockHeld, hjob]
  exact if_pos ⟨hstate, hlock, (chunkQuiet_iff hjob).mpr hquiet⟩

/-- Settles O23: CHUNK_LOCK_HELD by whether the chunk is quiet. -/
theorem chunkLockIsHeldWhenTheChunkIsQuiet : Obligations.ChunkLockIsHeldWhenTheChunkIsQuiet := by
  intro s j hjob hstate hlock busy
  exact ⟨exec_chunkLockHeld_of_busy hjob, exec_chunkLockHeld_of_quiet hjob hstate hlock⟩

/-! ## The lines (R48, R49) -/

/-- Setting a bit for each listed word that the predicate holds of. -/
theorem getLsbD_foldl_twoPow (f : Nat → Bool) {n : Nat} (hn : n < 8) (ws : List Nat) (m : BitVec 8) :
    (ws.foldl (fun m w => if f w then m ||| BitVec.twoPow 8 w else m) m).getLsbD n =
      (m.getLsbD n || decide (n ∈ ws) && f n) := by
  induction ws generalizing m with
  | nil => simp
  | cons w ws ih =>
    rw [List.foldl_cons, ih]
    by_cases hw : n = w
    · subst hw
      cases hf : f n <;> simp [hn]
    · cases hf : f w <;> simp [hw, Ne.symm hw, BitVec.getLsbD_twoPow]

theorem mask8_getLsbD (f : Nat → Bool) (w : Fin 8) : (mask8 f).getLsbD w.val = f w.val := by
  have hmem : w.val ∈ List.range' 0 8 := by simp
  rw [mask8, getLsbD_foldl_twoPow f w.isLt]
  simp [hmem]

/-- The operand of the WRITE_LINE of a line read: every word, as delivered, the UNCORRECTABLE and the POISONED ones named in the
poison mask (R49). -/
def CopyOperand (r : LineResult) (w : WriteOperand) : Prop :=
  w.mask = 0xFF#8 ∧
    ∀ n : Fin 8, w.data[n] = (r[n]).data ∧
      (w.poison.getLsbD n.val = true ↔ (r[n]).outcome = .uncorrectable ∨ (r[n]).outcome = .poisoned)

theorem copyWriteRef_operand (j : Job) (c k : Nat) (r : LineResult) :
    ∃ w, copyWriteRef j c k r = ⟨.copy c k .write, .physical ⟨j.dest, chunkLine c k⟩, .writeLine w, none⟩ ∧
      CopyOperand r w := by
  refine ⟨_, rfl, rfl, fun n => ⟨getElem_mapTable _ _ _ _, ?_⟩⟩
  simp only [mask8_getLsbD, Fin.ofNat_val_eq_self]
  cases (r[n]).outcome <;> simp

/-- The Migration Unit takes the result of a reference of its own (R69). -/
theorem exec_operationDone_copy {b : Bank} {s : State} {o : BankOp} {c k : Nat} {step : CopyStep} (arbiterFirst : Bool)
    (hb : s.sched.banks[b] = some o) (hsource : o.source = .migration) (horigin : o.ref.origin = .copy c k step) :
    exec (.operationDone b arbiterFirst) s =
      .next (takeCopyResult k step (performOp s.epoch s.store o.ref.op o.line).2 (operationEnded b arbiterFirst o s)) := by
  rw [exec_operationDone arbiterFirst hb, giveResult_copy hsource horigin]

theorem copyReadDone_of_empty {j : Job} {k : Nat} {r : LineResult} {s : State} (h : s.sched.m = []) :
    copyReadDone j k r s = issueCopyLine j k r s := if_pos h

theorem copyReadDone_of_write {j : Job} {k : Nat} {r : LineResult} {s : State} (h : s.sched.m ≠ []) :
    copyReadDone j k r s = { s with mig := { s.mig with kept := some (k, r) } } := if_neg h

/-- Settles O15: each result of the copy on the state that the bank and its arbiter leave; the references are those of
`issueCopyLine`. -/
theorem copyWritesWhatItRead : Obligations.CopyWritesWhatItRead := by
  intro b arbiterFirst s o j c k hb hsource
  obtain ⟨u, hu⟩ : ∃ u, operationEnded b arbiterFirst o s = u := ⟨_, rfl⟩
  have hexec {c' : Nat} {step : CopyStep} (horigin : o.ref.origin = .copy c' k step) :=
    hu ▸ exec_operationDone_copy arbiterFirst hb hsource horigin
  refine ⟨u, hu ▸ sourceActsOn_operationEnded b arbiterFirst o s, fun hstate hjob hwatermark => ?_⟩
  intro line writes
  have issued {i : Nat} {r : LineResult} (h : exec (.operationDone b arbiterFirst) s = .next (issueCopyLine j i r u)) :
      writes i r := by
    obtain ⟨w, hwrite, hoperand⟩ := copyWriteRef_operand j c i r
    refine ⟨w, ?_, hoperand⟩
    rw [h, issueCopyLine_eq, hwatermark, hwrite]
    rfl
  refine ⟨fun horigin hop => ?_, fun horigin hk => ?_⟩
  · have hdone := hexec horigin
    rw [performOp_result, if_pos (.inl hop), takeCopyResult_read hstate hjob] at hdone
    exact ⟨fun hempty => issued (by rw [hdone, copyReadDone_of_empty hempty]),
      fun hbusy => by rw [hdone, copyReadDone_of_write hbusy]⟩
  · have hdone := hexec horigin
    rw [takeCopyResult_write hstate hjob hk] at hdone
    exact ⟨fun hkept => by simp only [hdone, copyWriteDone, hkept],
      fun i r hkept => issued (by simp only [hdone, copyWriteDone, hkept])⟩

/-! ## The end below the last chunk (R46, R50) -/

/-- A host's queue is held over for its head alone, and that by the logical line the head names (R46). -/
theorem headNamesChunk_logical (j : Job) (c : Nat) (q : List Ref) :
    (headOf q = none → (headOf q).any (namesChunk j c) = false) ∧
      ∀ r l, headOf q = some r → r.line = .logical l →
        ((headOf q).any (namesChunk j c) = true ↔ l.seg = j.seg ∧ l.off.val / 64 = c) := by
  exact ⟨fun h => by simp [h], fun r l h hline => by simp [h, namesChunk, hline, chunkOf]⟩

/-- Queue S is held over for its head alone, and that by the physical line the head names (R46). -/
theorem headNamesChunk_physical (j : Job) (c : Nat) (q : List Ref) :
    (headOf q = none → (headOf q).any (namesChunk j c) = false) ∧
      ∀ r l, headOf q = some r → r.line = .physical l →
        ((headOf q).any (namesChunk j c) = true ↔ (l.seg = j.source ∨ l.seg = j.dest) ∧ l.off.val / 64 = c) := by
  exact ⟨fun h => by simp [h], fun r l h hline => by simp [h, namesChunk, hline, chunkOf]⟩

/-- In STEPPING with the lock free, the lock closes when no queue is held over (R46). -/
theorem closeIfFree_lock {m : Migration} (hstate : m.state = .stepping) (hlock : m.lock = .none) :
    (closeIfFree m).lock =
      if m.heldOver.t0 = true ∨ m.heldOver.t1 = true ∨ m.heldOver.s = true then .none else .closing := by
  unfold closeIfFree
  by_cases hempty : m.heldOver.isEmpty = true
  · obtain ⟨h0, h1, hs⟩ := HeldOver.isEmpty_iff.mp hempty
    rw [if_pos ⟨hstate, hlock, hempty⟩, h0, h1, hs]
    rfl
  · have hheld : m.heldOver.t0 = true ∨ m.heldOver.t1 = true ∨ m.heldOver.s = true := by
      by_contra hfree
      simp only [not_or, Bool.not_eq_true] at hfree
      exact hempty (HeldOver.isEmpty_iff.mpr hfree)
    rw [if_neg fun h => hempty h.2.2, if_pos hheld, hlock]

/-- The Migration Unit after the copy of a chunk `c` below the last, the heads of `q` forming the held-over set (R46, R50). -/
def chunkStepped (q : Scheduler) (j : Job) (c : Nat) (m : Migration) : Migration :=
  closeIfFree { m with state := .stepping, watermark := c + 1, lock := .none, heldOver := formHeldOver q j c }

theorem endChunk_of_more {s : State} {c : Nat} (j : Job) (hwatermark : s.mig.watermark = c) (hmore : c + 1 < 16384) :
    endChunk j s = { s with mig := chunkStepped s.sched j c s.mig } := by
  subst hwatermark
  exact if_pos hmore

theorem chunkStepped_frame (q : Scheduler) (j : Job) (c : Nat) (m : Migration) :
    chunkStepped q j c m =
      { m with
        state := .stepping, watermark := c + 1, heldOver := formHeldOver q j c
        lock := (chunkStepped q j c m).lock } := by
  rw [chunkStepped, closeIfFree_frame]

/-- Settles O16: the write of line 63 on the state that the bank and its arbiter leave; the held-over set is formed of the heads of
that state. -/
theorem chunkCopyEndAdvancesTheWatermark : Obligations.ChunkCopyEndAdvancesTheWatermark := by
  intro b arbiterFirst s o j c c' hb hsource horigin hstate hjob hwatermark hmore
  have hcopy := operationEnded_copyKept b arbiterFirst o s
  have hm := operationEnded_m_of_last arbiterFirst hb hsource horigin hstate
  have hdone := exec_operationDone_copy arbiterFirst hb hsource horigin
  have hsource := sourceActsOn_operationEnded b arbiterFirst o s
  generalize operationEnded b arbiterFirst o s = u at hcopy hm hdone hsource
  have hustate : u.mig.state = .copying := by rw [hcopy]; exact hstate
  have hujob : u.mig.job = some j := by rw [hcopy]; exact hjob
  have huwatermark : u.mig.watermark = c := by rw [hcopy]; exact hwatermark
  rw [takeCopyResult_last hustate hujob, endChunk_of_more j huwatermark hmore] at hdone
  have hframe := chunkStepped_frame u.sched j c u.mig
  have hlock : (chunkStepped u.sched j c u.mig).lock = _ := closeIfFree_lock rfl rfl
  generalize chunkStepped u.sched j c u.mig = m at hdone hframe hlock
  have hheld : m.heldOver = formHeldOver u.sched j c := by rw [hframe]
  obtain ⟨hnone, hphysical⟩ := headNamesChunk_physical j c u.sched.s
  refine ⟨u, _, hsource, hdone, rfl, hm, ?_, ?_, fun x hx => ?_, ?_, ?_, ?_, fun off hoff => ?_⟩
  · rw [hheld]
    exact hframe
  · rw [hframe]
    exact hujob
  · rw [hheld] at hx
    rcases List.mem_pair.mp hx with rfl | rfl
    · exact headNamesChunk_logical j c u.sched.t0
    · exact headNamesChunk_logical j c u.sched.t1
  · rw [hheld]
    exact hnone
  · rw [hheld]
    exact hphysical
  · rw [hheld]
    exact hlock
  · have hruns : m.Runs j := runs_iff.mpr ⟨.inl (by rw [hframe]), by rw [hframe]; exact hujob⟩
    have hbelow : off.val / 64 < m.watermark := by rw [hframe, hoff]; exact Nat.lt_succ_self c
    exact (resolve_of_runs hruns rfl).trans (by rw [if_pos hbelow])

end Sys2Proof.Machine
end

section
/-! O35, O36. RESET, and a link that goes down or comes back (R46, R73, R105, R106, R124, R160, R164). -/

namespace Sys2Proof.Machine

theorem exec_reset_of_resetting {p : PortId} {s : State} (h : (s.port p).state = .resetting) :
    exec (.reset p) s = .next s := by
  show execReset p s = _
  rw [execReset, if_pos h]

theorem exec_reset_of_not {p : PortId} {s : State} (h : (s.port p).state ≠ .resetting) :
    exec (.reset p) s = .next (resetPort p s) := by
  show execReset p s = _
  rw [execReset, if_neg h]

/-- Settles O35: RESET is the entry to RESETTING, whole. -/
theorem resetDropsTheWorkOfItsPort : Obligations.ResetDropsTheWorkOfItsPort := by
  intro p s h
  obtain ⟨hpurged, hreset⟩ := resetPort_entered p s
  exact ⟨exec_reset_of_resetting, fun hstate => ⟨_, exec_reset_of_not hstate, hpurged, hreset⟩⟩

/-! ## The link (R106) -/

/-- The Maintenance Unit after its running command has ended, if that is one of those that end. -/
def MaintUnit.endIf (ends : Running → Bool) (m : MaintUnit) : MaintUnit :=
  { m with running := m.running.bind fun r => if ends r then none else some r }

theorem MaintUnit.endIf_of_ends {m : MaintUnit} {r : Running} {ends : Running → Bool} (hrunning : m.running = some r)
    (hends : ends r = true) : m.endIf ends = { m with running := none } := by
  simp only [endIf, hrunning, Option.bind_some, hends, if_true]

theorem MaintUnit.endIf_of_not {m : MaintUnit} {ends : Running → Bool}
    (h : ∀ r, m.running = some r → ends r = false) : m.endIf ends = m := by
  obtain ⟨running, turn⟩ := m
  cases running with
  | none => rfl
  | some r => simp [endIf, h r rfl]

/-- The running command is of port `p` and waits for its check read (R163). -/
def checkReadAt (p : PortId) (r : Running) : Bool := decide (r.port = p) && r.checkRead.isSome

theorem checkReadOf_iff (p : PortId) (s : State) :
    checkReadOf p s = true ↔ ∃ r, s.maint.running = some r ∧ checkReadAt p r = true := by
  unfold checkReadOf
  cases s.maint.running <;> simp [checkReadAt]

/-- A failed check read ends the command that waited for it (R106, R164). -/
theorem failCheckRead_eq (p : PortId) (s : State) :
    failCheckRead p s = { s with maint := s.maint.endIf (checkReadAt p) } := by
  unfold failCheckRead
  by_cases hread : checkReadOf p s = true
  · obtain ⟨r, hrunning, hwaits⟩ := (checkReadOf_iff p s).mp hread
    rw [if_pos hread, MaintUnit.endIf_of_ends hrunning hwaits]
    rfl
  · have hnone : ∀ r, s.maint.running = some r → checkReadAt p r = false := fun r hr =>
      Bool.eq_false_iff.mpr fun hwaits => hread ((checkReadOf_iff p s).mpr ⟨r, hr, hwaits⟩)
    rw [if_neg hread, MaintUnit.endIf_of_not hnone]

/-- After a reset notice the running command of the port is one whose check read is outstanding (R164). -/
theorem endIf_maintAfterStop (p : PortId) (m : MaintUnit) :
    (maintAfterStop p .reset m).endIf (checkReadAt p) = m.endIf fun r => decide (r.port = p) := by
  unfold maintAfterStop MaintUnit.endIf checkReadAt
  cases m.running with
  | none => rfl
  | some r =>
    by_cases hport : r.port = p
    · cases hread : r.checkRead <;> simp [hport, hread]
    · simp [hport]

/-- A port whose link is lost: its reads end as failed, and the posted writes not delivered are gone (R106). -/
def linkLost (delivered : Nat) (h : HostPort) : HostPort := { loseWrites delivered (failReads h) with linkUp := false }

theorem exec_linkDown_of_down {p : PortId} {delivered : Nat} {s : State} (h : (s.port p).linkUp = false) :
    exec (.linkDown p delivered) s = .next s := by
  show execLinkDown p delivered s = _
  simp only [execLinkDown, h]
  rfl

theorem exec_linkDown_of_up {p : PortId} {delivered : Nat} {s : State} (h : (s.port p).linkUp = true) :
    exec (.linkDown p delivered) s =
      .next ((failCheckRead p (if (s.port p).state = .resetting then s else resetPort p s)).modPort p (linkLost delivered)) := by
  show execLinkDown p delivered s = _
  simp only [execLinkDown, h]
  rfl

/-- Settles O36: the loss of the reads and the writes in RESETTING, and the same behind an entry to RESETTING from elsewhere. -/
theorem linkLossResetsAndLinkReturnLeavesThePort : Obligations.LinkLossResetsAndLinkReturnLeavesThePort := by
  intro p s delivered h keep cut ended
  refine ⟨rfl, exec_linkDown_of_down, fun hlink hstate => ?_, fun hlink hstate => ?_⟩
  · rw [exec_linkDown_of_up hlink, if_pos hstate, failCheckRead_eq]
    cases p <;> rfl
  · obtain ⟨hpurged, hreset⟩ := resetPort_entered p s
    have hexec := exec_linkDown_of_up (delivered := delivered) hlink
    rw [if_neg hstate, failCheckRead_eq] at hexec
    generalize resetPort p s = t at hpurged hreset hexec
    have hmaint : t.maint = maintAfterStop p .reset s.maint := by rw [hreset]
    rw [hmaint, endIf_maintAfterStop] at hexec
    refine ⟨_, hexec, ?_, ?_⟩
    · cases p <;> exact hpurged
    · conv_lhs => rw [hreset]
      cases p <;> rfl

end Sys2Proof.Machine
end

section
/-! O46. The references of a transfer: when one is ready, which slot issues, and the reference and the slot of each kind (R126,
R131 to R138). -/

namespace Sys2Proof.Machine

/-! ## Words of a range (R131) -/

theorem covered_iff (start len i w : Nat) :
    covered start len i w = true ↔ start ≤ wordAddress start i w ∧ wordAddress start i w < start + len := by
  rw [covered, Bool.and_eq_true, decide_eq_true_eq, decide_eq_true_eq]
  rfl

theorem coveredMask_getLsbD_iff (start len i : Nat) (w : Fin 8) :
    (coveredMask start len i).getLsbD w.val = true ↔
      start ≤ wordAddress start i w.val ∧ wordAddress start i w.val < start + len := by
  rw [coveredMask, mask8_getLsbD, covered_iff]

theorem WordOutcome.isBad_iff (o : WordOutcome) : o.isBad = true ↔ o = .uncorrectable ∨ o = .poisoned := by
  cases o <;> simp [isBad]

/-! ## The source lines of a destination line (R137) -/

/-- Destination line `j` of a COPY has a covered word whose source word stands in source line `k`. -/
def DrawsFrom (src len dst j k : Nat) : Prop :=
  ∃ w : Fin 8, dst ≤ wordAddress dst j w.val ∧ wordAddress dst j w.val < dst + len ∧
    k = sourceIndex src (wordAddress dst j w.val - dst)

theorem sourceIndex_mono (src : Nat) {o o' : Nat} (h : o ≤ o') : sourceIndex src o ≤ sourceIndex src o' := by
  unfold sourceIndex
  omega

/-- The words of a line span 56 bytes, so they come from two source lines at most. -/
theorem drawsLast_le (src len dst j : Nat) : drawsLast src len dst j ≤ drawsFirst src dst j + 1 := by
  unfold drawsLast drawsFirst sourceIndex
  omega

section
variable {src len dst j k : Nat}

theorem DrawsFrom.bounds (hd : dst % 8 = 0) (hn : len % 8 = 0) (h : DrawsFrom src len dst j k) :
    drawsFirst src dst j ≤ k ∧ k ≤ drawsLast src len dst j := by
  obtain ⟨w, hfrom, hto, rfl⟩ := h
  have hw := w.isLt
  unfold wordAddress at hfrom hto ⊢
  exact ⟨sourceIndex_mono src (by omega), sourceIndex_mono src (by omega)⟩

theorem drawsFrom_first (hd : dst % 8 = 0) (h8 : 8 ≤ len) (hj : j < rangeLines dst len) :
    DrawsFrom src len dst j (drawsFirst src dst j) := by
  unfold rangeLines at hj
  have hword : (max dst ((dst / 64 + j) * 64) - (dst / 64 + j) * 64) / 8 < 8 := by omega
  have haddress : wordAddress dst j ((max dst ((dst / 64 + j) * 64) - (dst / 64 + j) * 64) / 8) =
      max dst ((dst / 64 + j) * 64) := by unfold wordAddress; omega
  refine ⟨⟨_, hword⟩, ?_⟩
  simp only [haddress]
  refine ⟨by omega, by omega, ?_⟩
  rw [drawsFirst, show max dst ((dst / 64 + j) * 64) - dst = (dst / 64 + j) * 64 - dst by omega]

theorem drawsFrom_last (hd : dst % 8 = 0) (hn : len % 8 = 0) (h8 : 8 ≤ len) (hj : j < rangeLines dst len) :
    DrawsFrom src len dst j (drawsLast src len dst j) := by
  unfold rangeLines at hj
  have hword : (min (dst + len - 8) ((dst / 64 + j) * 64 + 56) - (dst / 64 + j) * 64) / 8 < 8 := by omega
  have haddress : wordAddress dst j ((min (dst + len - 8) ((dst / 64 + j) * 64 + 56) - (dst / 64 + j) * 64) / 8) =
      min (dst + len - 8) ((dst / 64 + j) * 64 + 56) := by unfold wordAddress; omega
  refine ⟨⟨_, hword⟩, ?_⟩
  simp only [haddress]
  refine ⟨by omega, by omega, ?_⟩
  rw [drawsLast, show min (dst + len - 8) ((dst / 64 + j) * 64 + 56) - dst =
    min (len - 8) ((dst / 64 + j) * 64 + 56 - dst) by omega]

/-- A source line is still to read exactly when the last one is (R132, R137). -/
theorem exists_drawsFrom_ge_iff (hd : dst % 8 = 0) (hn : len % 8 = 0) (h8 : 8 ≤ len) (hj : j < rangeLines dst len) (m : Nat) :
    (∃ k, DrawsFrom src len dst j k ∧ m ≤ k) ↔ m ≤ drawsLast src len dst j := by
  constructor
  · rintro ⟨k, hk, hm⟩
    exact hm.trans (hk.bounds hd hn).2
  · exact fun hm => ⟨_, drawsFrom_last hd hn h8 hj, hm⟩

/-- Every source line has returned exactly when the first and the last have (R132, R137). -/
theorem forall_drawsFrom_staged_iff (hd : dst % 8 = 0) (hn : len % 8 = 0) (h8 : 8 ≤ len) (hj : j < rangeLines dst len)
    (lines : List (Nat × LineResult)) :
    (∀ k, DrawsFrom src len dst j k → (stagedLine lines k).isSome = true) ↔ sourcesReady lines src len dst j = true := by
  rw [sourcesReady, Bool.and_eq_true]
  constructor
  · exact fun h => ⟨h _ (drawsFrom_first hd h8 hj), h _ (drawsFrom_last hd hn h8 hj)⟩
  · rintro ⟨hfirst, hlast⟩ k hk
    obtain ⟨hlow, hhigh⟩ := hk.bounds hd hn
    have hspan := drawsLast_le src len dst j
    obtain rfl | rfl : k = drawsFirst src dst j ∨ k = drawsLast src len dst j := by omega
    · exact hfirst
    · exact hlast

end

/-! ## The WRITE_LINE of a COPY (R137, R138) -/

/-- The search for a staged line among those kept by their index. -/
theorem stagedLine_filter (keep : Nat → Bool) (lines : List (Nat × LineResult)) (k : Nat) :
    stagedLine (lines.filter fun x => keep x.1) k = if keep k = true then stagedLine lines k else none := by
  unfold stagedLine
  rw [List.find?_filter]
  induction lines with
  | nil => simp
  | cons x lines ih =>
    by_cases hx : x.1 = k
    · subst hx
      by_cases hkeep : keep x.1 = true
      · simp [hkeep]
      · simpa [hkeep] using ih
    · simpa [hx] using ih

section
variable {src len dst j k : Nat} {w v : Fin 8} {r : LineResult} {lines : List (Nat × LineResult)}

/-- The source word of a destination word is the one at its offset (R126). -/
theorem sourceWord_eq (hline : stagedLine lines k = some r)
    (haddress : wordAddress src k v.val = src + (wordAddress dst j w.val - dst)) :
    sourceWord lines src dst j w.val = some r[v] := by
  have hoffset : wordAddress src k v.val = src + offsetOf dst j w.val := haddress
  have hv := v.isLt
  unfold wordAddress at hoffset
  have hindex : sourceIndex src (offsetOf dst j w.val) = k := by unfold sourceIndex; omega
  have hword : (src + offsetOf dst j w.val) / 8 % 8 = v.val := by omega
  simp only [sourceWord, hindex, hword, hline, Option.map_some, resultWord, Fin.ofNat_val_eq_self]

theorem copyWrite_data (hcovered : covered dst len j w.val = true) (hline : stagedLine lines k = some r)
    (haddress : wordAddress src k v.val = src + (wordAddress dst j w.val - dst)) :
    (copyWrite lines src len dst j).data[w] = (r[v]).data := by
  show (tabulate 8 _)[w.val] = _
  rw [getElem_tabulate, if_pos hcovered, sourceWord_eq hline haddress]
  rfl

theorem copyWrite_poison_iff (hcovered : covered dst len j w.val = true) (hline : stagedLine lines k = some r)
    (haddress : wordAddress src k v.val = src + (wordAddress dst j w.val - dst)) :
    (copyWrite lines src len dst j).poison.getLsbD w.val = true ↔
      (r[v]).outcome = .uncorrectable ∨ (r[v]).outcome = .poisoned := by
  rw [copyWrite, mask8_getLsbD, hcovered, sourceWord_eq hline haddress]
  exact WordOutcome.isBad_iff _

end

/-- Each word written is the source word at its offset, and the poison mask names the bad ones (R126, R138). -/
theorem copyWrite_words (lines : List (Nat × LineResult)) (src len dst j : Nat) (w v : Fin 8) (k : Nat) (r : LineResult)
    (hmask : (copyWrite lines src len dst j).mask.getLsbD w.val = true) (hline : stagedLine lines k = some r)
    (haddress : wordAddress src k v.val = src + (wordAddress dst j w.val - dst)) :
    (copyWrite lines src len dst j).data[w] = (r[v]).data ∧
      ((copyWrite lines src len dst j).poison.getLsbD w.val = true ↔
        (r[v]).outcome = .uncorrectable ∨ (r[v]).outcome = .poisoned) := by
  have hcovered : covered dst len j w.val = true := by rwa [copyWrite, coveredMask, mask8_getLsbD] at hmask
  exact ⟨copyWrite_data hcovered hline haddress, copyWrite_poison_iff hcovered hline haddress⟩

/-! ## Readiness (R132) -/

section
variable {x : Transfer}

theorem moving_of_ready (h : x.ready = true) : x.phase = .moving ∧ x.next < x.lineCount := by
  unfold Transfer.ready at h
  simp only [Bool.and_eq_true, beq_iff_eq, decide_eq_true_eq] at h
  exact h.1

theorem staged_of_ready_write {a n : Nat} {side : HostSide} (hcmd : x.cmd = .write a n side) (h : x.ready = true) :
    ∃ data, x.staged = some data := by
  simp only [Transfer.ready, hcmd, Bool.and_eq_true] at h
  exact Option.isSome_iff_exists.mp h.2

/-- A COPY is ready when its next destination line exists and one of its source lines is still to read, or all have returned. -/
theorem ready_copy_iff {src len dst : Nat} (hcmd : x.cmd = .copy src len dst) (hd : dst % 8 = 0) (hn : len % 8 = 0)
    (h8 : 8 ≤ len) :
    x.ready = true ↔
      (x.phase = .moving ∧ x.next < rangeLines dst len) ∧
        ((∃ k, DrawsFrom src len dst x.next k ∧ x.nextSource ≤ k) ∨
          ∀ k, DrawsFrom src len dst x.next k → (stagedLine x.lines k).isSome = true) := by
  have hready : x.ready = true ↔ (x.phase = .moving ∧ x.next < rangeLines dst len) ∧
      (x.nextSource ≤ drawsLast src len dst x.next ∨ sourcesReady x.lines src len dst x.next = true) := by
    simp [Transfer.ready, Transfer.lineCount, hcmd]
  rw [hready]
  refine and_congr_right fun hnext => or_congr ?_ ?_
  · exact (exists_drawsFrom_ge_iff hd hn h8 hnext.2 _).symm
  · exact (forall_drawsFrom_staged_iff hd hn h8 hnext.2 _).symm

end

/-! ## The slot that issues (R132) -/

section
variable {h : HostPort}

theorem issuingSlot_of_none_ready (hnone : ∀ (i : SlotId) (x : Transfer), h.slots[i] = some x → x.ready = false) :
    issuingSlot h = none := by
  unfold issuingSlot
  rw [List.findSome?_eq_none_iff]
  intro i _
  split
  · rename_i x hx
    simp [hnone i x hx]
  · rfl

theorem issuingSlot_of_first {i : SlotId} {x : Transfer} {pre post : List SlotId} (hslot : h.slots[i] = some x)
    (hready : x.ready = true) (horder : rotation h.lastIssuer = pre ++ i :: post)
    (hpre : ∀ j ∈ pre, ∀ y, h.slots[j] = some y → y.ready = false) : issuingSlot h = some (i, x) := by
  unfold issuingSlot
  rw [horder, List.findSome?_append, List.findSome?_eq_none_iff.mpr, Option.none_or, List.findSome?_cons]
  · simp [hslot, hready]
  · intro j hj
    split
    · rename_i y hy
      simp [hpre j hj y hy]
    · rfl

end

/-! ## The event -/

/-- The state after slot `i` of a port, which holds `x`, has issued its reference. -/
def issueBy (p : PortId) (i : SlotId) (x : Transfer) (s : State) : State :=
  issueRef (.host p) x.issue.1 (s.modPort p (issueFrom i x))

section
variable {p : PortId} {s : State}

theorem exec_referenceIssue_of_idle
    (hidle : (s.port p).state = .resetting ∨ 4 ≤ (s.sched.queue (.host p)).length ∨ issuingSlot (s.port p) = none) :
    exec (.referenceIssue p) s = .next s := by
  show execReferenceIssue p s = _
  rw [execReferenceIssue]
  split
  · rename_i hroom
    simp only [Bool.and_eq_true, bne_iff_ne, decide_eq_true_eq] at hroom
    obtain hstate | hfull | hnone := hidle
    · exact absurd hstate hroom.1
    · omega
    · rw [hnone]
  · rfl

theorem exec_referenceIssue_of_issuing {i : SlotId} {x : Transfer} (hstate : (s.port p).state ≠ .resetting)
    (hroom : (s.sched.queue (.host p)).length < 4) (hslot : issuingSlot (s.port p) = some (i, x)) :
    exec (.referenceIssue p) s = .next (issueBy p i x s) := by
  show execReferenceIssue p s = _
  rw [execReferenceIssue, if_pos (by simp [hstate, hroom]), hslot]
  rfl

end

section
variable (p : PortId) (i : SlotId) (x : Transfer) (s : State)

@[simp] theorem issueBy_port : (issueBy p i x s).port p = issueFrom i x (s.port p) := by cases p <;> rfl

theorem issueBy_frame :
    issueBy p i x s = { s.setPort p ((issueBy p i x s).port p) with sched := (issueBy p i x s).sched } := by
  rw [issueBy_port]
  rfl

theorem issueBy_sched :
    (issueBy p i x s).sched = s.sched.setQueue (.host p) (s.sched.queue (.host p) ++ [x.issue.1]) := by
  simp only [issueBy, issueRef, modPort_sched]

end

section
variable (i : SlotId) (x : Transfer) (h : HostPort)

theorem issueFrom_frame :
    issueFrom i x h =
      { h with
        lastIssuer := i, slots := h.slots.set i (some x.issue.2), slotReads := (issueFrom i x h).slotReads } := by
  unfold issueFrom
  cases x.cmd.isWrite <;> rfl

theorem issueFrom_slotReads_ne {j : SlotId} (hj : j ≠ i) : (issueFrom i x h).slotReads[j] = h.slotReads[j] := by
  unfold issueFrom
  cases x.cmd.isWrite with
  | false => rfl
  | true => exact Vector.getElem_set_ne i.isLt j.isLt fun hij => hj (Fin.ext hij.symm)

theorem issueFrom_slotReads_of_write (hwrite : x.cmd.isWrite = true) :
    (issueFrom i x h).slotReads[i] = x.issue.2.pieceRead := by
  simp [issueFrom, hwrite, setSlotRead]

theorem issueFrom_slotReads_of_not_write (hwrite : x.cmd.isWrite = false) :
    (issueFrom i x h).slotReads[i] = h.slotReads[i] := by
  simp [issueFrom, hwrite, setSlot]

end

/-! ## The host read of a WRITE's next line (R134) -/

section
variable {x : Transfer}

theorem pieceRead_of_not_moving (h : x.phase ≠ .moving) : x.pieceRead = none := by
  unfold Transfer.pieceRead
  split
  · exact if_neg fun hm => h hm.1
  · rfl

theorem pieceRead_of_first_piece {a n : Nat} {side : HostSide} {q : Piece} {qs : List Piece} (hcmd : x.cmd = .write a n side)
    (hphase : x.phase = .moving) (hnext : x.next < x.lineCount) (hpiece : x.piece = 0)
    (hpieces : piecesOf x.entries a n x.next = q :: qs) : x.pieceRead = some (.data q.addr q.words.length) := by
  simp [Transfer.pieceRead, hcmd, hphase, hnext, hpiece, hpieces]

end

/-! ## The reference issued (R131 to R138) -/

/-- The next reference of a COPY reads a source line (R137). -/
@[simp] def Transfer.readsSource (x : Transfer) : Bool :=
  match x.cmd with
  | .copy src len dst => x.nextSource ≤ drawsLast src len dst x.next
  | _ => false

/-- The line index of the next reference. -/
@[simp] def Transfer.issueLine (x : Transfer) : Nat := if x.readsSource then x.nextSource else x.next

/-- The start of the range of the next reference: for the WRITE_LINE of a COPY, its destination. -/
@[simp] def Transfer.issueStart (x : Transfer) : Nat :=
  match x.cmd with
  | .copy src _ dst => if x.readsSource then src else dst
  | c => (rangeOf c).1

/-- Whatever its kind, a reference is WAITING, has the context and the line index as its origin, and names that line of its range
(R131, R132). -/
theorem issue_ref (x : Transfer) :
    x.issue.1 =
      ⟨.transfer x.ctx x.issueLine, .logical (logicalLine (x.issueStart / 64 + x.issueLine)), x.issue.1.op, none⟩ := by
  unfold Transfer.issue Transfer.issueLine Transfer.issueStart Transfer.readsSource
  cases hcmd : x.cmd with
  | copy src len dst =>
    by_cases hsource : x.nextSource ≤ drawsLast src len dst x.next
    · simp [hsource, rangeLine]
    · simp [hsource, rangeLine]
  | _ => rfl

/-- The transfer once the reference of its next line is issued: FINISHING after the last (R132). -/
@[simp] def Transfer.issued (x : Transfer) : Transfer :=
  { x with
    next := x.next + 1
    outstanding := x.outstanding + 1
    phase := if x.next + 1 = x.lineCount then .finishing else .moving }

/-- The next reference of a transfer is of line `line` of the range at `start` and asks for `op`; the transfer is `y` after it. -/
@[simp] def Transfer.Issues (x : Transfer) (line start : Nat) (op : LineOp) (y : Transfer) : Prop :=
  x.issueLine = line ∧ x.issueStart = start ∧ x.issue.1.op = op ∧ x.issue.2 = y

section
variable {x : Transfer}

theorem phaseAfterIssue_of_moving (h : x.phase = .moving) :
    x.phaseAfterIssue = if x.next + 1 = x.lineCount then .finishing else .moving := by
  rw [Transfer.phaseAfterIssue, h]

/-- A READ and a SCAN read their next line. -/
theorem issues_readLine {a n : Nat} (hcmd : (∃ side, x.cmd = .read a n side) ∨ ∃ pattern mask, x.cmd = .scan a n pattern mask)
    (hphase : x.phase = .moving) : x.Issues x.next a .readLine x.issued := by
  obtain ⟨side, hcmd⟩ | ⟨pattern, mask, hcmd⟩ := hcmd
  · simp [Transfer.issue, hcmd, rangeOf, phaseAfterIssue_of_moving hphase]
  · simp [Transfer.issue, hcmd, rangeOf, phaseAfterIssue_of_moving hphase]

theorem issues_write {a n : Nat} {side : HostSide} {data : Vector Word 8} (hcmd : x.cmd = .write a n side)
    (hphase : x.phase = .moving) (hstaged : x.staged = some data) :
    x.Issues x.next a (.writeLine ⟨coveredMask a n x.next, data, 0#8⟩)
      { x.issued with staged := none, piece := 0, gathered := [] } := by
  simp [Transfer.issue, hcmd, rangeOf, phaseAfterIssue_of_moving hphase, hstaged]

theorem issues_fill {a n : Nat} {pattern : Word} (hcmd : x.cmd = .fill a n pattern) (hphase : x.phase = .moving) :
    x.Issues x.next a (.writeLine ⟨coveredMask a n x.next, Vector.replicate 8 pattern, 0#8⟩) x.issued := by
  simp [Transfer.issue, hcmd, rangeOf, phaseAfterIssue_of_moving hphase]

theorem issues_copy_read {src len dst : Nat} (hcmd : x.cmd = .copy src len dst)
    (hsource : x.nextSource ≤ drawsLast src len dst x.next) :
    x.Issues x.nextSource src .readLine
      { x with nextSource := x.nextSource + 1, outstanding := x.outstanding + 1 } := by
  simp [Transfer.issue, hcmd, hsource]

theorem issues_copy_write {src len dst : Nat} (hcmd : x.cmd = .copy src len dst) (hphase : x.phase = .moving)
    (hsource : ¬ x.nextSource ≤ drawsLast src len dst x.next) :
    x.Issues x.next dst (.writeLine (copyWrite x.lines src len dst x.next))
      { x.issued with lines := x.lines.filter fun l => drawsFirst src dst (x.next + 1) ≤ l.1 } := by
  simp [Transfer.issue, hcmd, hsource, phaseAfterIssue_of_moving hphase]

/-- The read that a WRITE begins with the issue of a line: that of the first piece of its next line, if it has one (R134). -/
theorem pieceRead_after_write {a n : Nat} {side : HostSide} (hcmd : x.cmd = .write a n side) :
    let y : Transfer := { x.issued with staged := none, piece := 0, gathered := [] }
    (∀ q qs, x.next + 1 < x.lineCount → piecesOf x.entries a n (x.next + 1) = q :: qs →
      y.pieceRead = some (.data q.addr q.words.length)) ∧
    (x.next + 1 = x.lineCount → y.pieceRead = none) := by
  intro y
  refine ⟨fun q qs hmore hpieces => ?_, fun hlast => ?_⟩
  · have hphase : y.phase = .moving := if_neg hmore.ne
    exact pieceRead_of_first_piece hcmd hphase hmore rfl hpieces
  · have hphase : y.phase = .finishing := if_pos hlast
    exact pieceRead_of_not_moving (by rw [hphase]; decide)

/-- The lines a COPY keeps are those that later destination lines draw from (R137). -/
theorem stagedLine_kept (lines : List (Nat × LineResult)) (first k : Nat) (r : LineResult) :
    stagedLine (lines.filter fun l => first ≤ l.1) k = some r ↔ stagedLine lines k = some r ∧ first ≤ k := by
  rw [stagedLine_filter (fun m => first ≤ m)]
  by_cases hk : first ≤ k <;> simp [hk]

end

/-- Settles O46: the readiness of each kind, the first ready slot in the rotation, and the reference of its kind. -/
theorem readySlotIssuesInRotation : Obligations.ReadySlotIssuesInRotation := by
  refine ⟨fun p s hidle => ?_, fun x => ?_, ?_⟩
  · exact exec_referenceIssue_of_idle (hidle.imp_right (Or.imp_right issuingSlot_of_none_ready))
  · cases hcmd : x.cmd with
    | copy src len dst => exact ready_copy_iff hcmd
    | _ => simp [Transfer.ready, Transfer.lineCount, hcmd, rangeOf, rangeLines]
  · intro p s i x pre post h hstate hroom hslot hready horder hpre
    have hexec := exec_referenceIssue_of_issuing hstate hroom (issuingSlot_of_first hslot hready horder hpre)
    obtain ⟨hphase, hnext⟩ := moving_of_ready hready
    refine ⟨issueBy p i x s, x.issueLine, x.issueStart, x.issue.1.op, x.issue.2, hexec, issueBy_frame p i x s, ?_, ?_, ?_, ?_⟩
    · rw [issueBy_port]
      exact issueFrom_frame i x h
    · rw [issueBy_port]
      exact fun j hj => issueFrom_slotReads_ne i x h hj
    · rw [issueBy_sched, ← issue_ref]
    · rw [issueBy_port]
      intro mask issued
      have hmask : ∀ a n, mask a n (coveredMask a n x.issueLine) := fun a n => coveredMask_getLsbD_iff a n x.issueLine
      split
      next a n side hcmd =>
        obtain ⟨hline, hstart, hop, hafter⟩ := issues_readLine (.inl ⟨_, hcmd⟩) hphase
        exact ⟨hline, hstart, hop, hafter, issueFrom_slotReads_of_not_write i x h (by rw [hcmd]; rfl)⟩
      next a n pattern word hcmd =>
        obtain ⟨hline, hstart, hop, hafter⟩ := issues_readLine (.inr ⟨_, _, hcmd⟩) hphase
        exact ⟨hline, hstart, hop, hafter, issueFrom_slotReads_of_not_write i x h (by rw [hcmd]; rfl)⟩
      next a n side hcmd =>
        obtain ⟨data, hdata⟩ := staged_of_ready_write hcmd hready
        obtain ⟨hline, hstart, hop, hafter⟩ := issues_write hcmd hphase hdata
        obtain ⟨hmore, hlast⟩ := pieceRead_after_write hcmd
        rw [issueFrom_slotReads_of_write i x h (by rw [hcmd]; rfl), hafter]
        exact ⟨hline, hstart, rfl, hmore, hlast, _, data, hdata, hop, hline ▸ hmask a n⟩
      next a n pattern hcmd =>
        obtain ⟨hline, hstart, hop, hafter⟩ := issues_fill hcmd hphase
        exact ⟨hline, hstart, hafter, issueFrom_slotReads_of_not_write i x h (by rw [hcmd]; rfl), _, hop, hline ▸ hmask a n⟩
      next src len dst hcmd =>
        refine ⟨issueFrom_slotReads_of_not_write i x h (by rw [hcmd]; rfl), ?_⟩
        split
        next hsource => exact issues_copy_read hcmd hsource
        next hsource =>
          obtain ⟨hline, hstart, hop, hafter⟩ := issues_copy_write hcmd hphase hsource
          rw [hafter]
          refine ⟨hline, hstart, rfl, stagedLine_kept x.lines _, _, hop, hline ▸ hmask dst len, ?_⟩
          rw [hline]
          exact copyWrite_words x.lines src len dst x.next
      next hread hscan hwrite hfill hcopy =>
        cases hcmd : x.cmd with
        | read a n side => exact hread a n side hcmd
        | scan a n pattern word => exact hscan a n pattern word hcmd
        | write a n side => exact hwrite a n side hcmd
        | fill a n pattern => exact hfill a n pattern hcmd
        | copy src len dst => exact hcopy src len dst hcmd
        | _ => simp [Transfer.ready, hcmd] at hready

end Sys2Proof.Machine
end

section
/-! O25. A microsecond of the time base: the deadlines it reaches, the credit, and the patrol's issue (R79, R80, R93, R153). -/

namespace Sys2Proof.Machine

/-! ## The deadlines reached (R93, R153) -/

theorem markWaiters_eq (now : Time) (u : LockUnit) :
    markWaiters now u =
      { u with pool := u.pool.map fun w => { w with due := w.due || decide (w.deadline = some now) } } := by
  have hmark : ∀ w : Waiter,
      (if w.deadline = some now then { w with due := true } else w) =
        { w with due := w.due || decide (w.deadline = some now) } := by
    intro w
    by_cases hdeadline : w.deadline = some now <;> simp [hdeadline]
  rw [markWaiters, funext hmark]

theorem markTimer_eq (now : Time) (h : HostPort) :
    markTimer now h =
      { h with quietTimer := h.quietTimer.map fun x => { x with due := x.due || decide (x.deadline = now) } } := by
  have hmark : ∀ x : QuietTimer,
      (if x.deadline = now then { x with due := true } else x) =
        { x with due := x.due || decide (x.deadline = now) } := by
    intro x
    by_cases hdeadline : x.deadline = now <;> simp [hdeadline]
  rw [markTimer, funext hmark]

/-! ## What the patrol issues (R77, R79, R80) -/

theorem scrubIssueOne_of_ended (g : SegMap) {x : List Ref × ScrubUnit} (hended : x.2.pos = .ended) :
    scrubIssueOne g x = x := by
  cases hpass : x.2.pass <;> simp [scrubIssueOne, hended, hpass]

/-- The patrol's test for issue reaches queue S and the Scrub Unit alone: it issues nothing in the sweep, and in the patrol what
the room and the credit allow. -/
theorem patrolIssue_issues (s : State) (hserved : ∃ q : PhysSeg, (s.seg.phys[q]).role ≠ .retired) :
    ∃ new u,
      patrolIssue s = { s with sched := { s.sched with s := s.sched.s ++ new }, scrub := u } ∧
        (s.scrub.pass = .sweep → new = [] ∧ u = s.scrub) ∧
        ∀ l, s.scrub.pass = .patrol → s.scrub.pos = .at l →
          new.length = min (4 - s.sched.s.length) (s.scrub.credit / 1000) ∧
            ∃ last, u = { s.scrub with pos := .at last, credit := s.scrub.credit - 1000 * new.length } ∧
              PatrolWalk s.seg l new last := by
  cases hpass : s.scrub.pass with
  | sweep => exact ⟨[], s.scrub, by simp [patrolIssue, hpass], fun _ => ⟨rfl, rfl⟩, nofun⟩
  | patrol =>
    have hissue : patrolIssue s = scrubIssue s := by rw [patrolIssue, hpass]
    rw [hissue]
    match hpos : s.scrub.pos with
    | .ended => exact ⟨[], s.scrub, by simp [scrubIssue, scrubIssueOne_of_ended, hpos], nofun, nofun⟩
    | .at l =>
      obtain ⟨new, last, hscrub, hwalk, hlength⟩ := scrubIssue_patrol s l hserved hpass hpos
      refine ⟨new, _, hscrub, nofun, fun k _ hk => ?_⟩
      obtain rfl : l = k := by simpa using hk
      exact ⟨hlength, last, rfl, hwalk⟩

/-! ## The row -/

/-- The state in which the patrol's test for issue is made: the deadlines reached are marked and the credit has risen. -/
def tickedState (s : State) : State := { advanceTime s with scrub := accrue s.scrub }

theorem exec_pacingTick (s : State) : exec .pacingTick s = .next (patrolIssue (tickedState s)) := rfl

/-- Settles O25: the patrol's test for issue, made once the deadlines reached are marked and the credit has risen. -/
theorem pacingTickAccruesAndIssues : Obligations.PacingTickAccruesAndIssues := by
  intro s hserved credit
  obtain ⟨new, u, hissue, hsweep, hpatrol⟩ := patrolIssue_issues (tickedState s) hserved
  refine ⟨{ tickedState s with sched := { s.sched with s := s.sched.s ++ new }, scrub := u }, new,
    congrArg Host.Outcome.next hissue, rfl, ?_, fun p => ?_, hsweep, hpatrol⟩
  · exact congrArg LockUnit.pool (markWaiters_eq (s.timeBase + 1) s.locks)
  · rw [← markTimer_eq]
    cases p <;> rfl

end Sys2Proof.Machine
end

section
/-! The rules of the Lock Unit's operations: its table and pool after each, and the rows that reach neither (R86 to R101). -/

namespace Sys2Proof.Machine

/-! ## Table and pool -/

theorem setLock_table (k j : LockId) (r : LockRecord) (u : LockUnit) :
    (setLock k r u).table[j] = if j = k then r else u.table[j] :=
  getElem_set_fin u.table k j r

@[simp] theorem setView_table (u : LockUnit) (p : PortId) (v : LockView) : (u.setView p v).table = u.table := by
  cases p <;> rfl

@[simp] theorem setView_pool (u : LockUnit) (p : PortId) (v : LockView) : (u.setView p v).pool = u.pool := by
  cases p <;> rfl

@[simp] theorem view_setView_same (u : LockUnit) (p : PortId) (v : LockView) : (u.setView p v).view p = v := by
  cases p <;> rfl

@[simp] theorem view_setView_other (u : LockUnit) (p : PortId) (v : LockView) :
    (u.setView p v).view p.other = u.view p.other := by
  cases p <;> rfl

theorem LockUnit.takes_iff (u : LockUnit) (p : PortId) : u.takes p = true ↔ u.view p = .running ∨ u.view p = .draining := by
  simp [LockUnit.takes]

/-! ## The first of a list to meet a test -/

section
variable {α : Type} {test : α → Bool} {pre post : List α} {x : α} (hpre : ∀ y ∈ pre, ¬ test y = true) (hx : test x = true)
include hpre hx

theorem find?_of_first : (pre ++ x :: post).find? test = some x := by
  rw [List.find?_append, List.find?_eq_none.mpr hpre, Option.none_or, List.find?_cons_of_pos hx]

theorem eraseP_of_first : (pre ++ x :: post).eraseP test = pre ++ post := by
  rw [List.eraseP_append_right _ hpre, List.eraseP_cons_of_pos hx]

end

/-! ## A lock given up (R91, R94, R100) -/

/-- A lock has no waiter, or an oldest one. -/
theorem no_waiter_or_oldest (k : LockId) (pool : List Waiter) :
    (∀ w ∈ pool, w.lock ≠ k) ∨ ∃ pre w post, pool = pre ++ w :: post ∧ (∀ x ∈ pre, x.lock ≠ k) ∧ w.lock = k := by
  induction pool with
  | nil => exact .inl nofun
  | cons x pool ih =>
    by_cases hx : x.lock = k
    · exact .inr ⟨[], x, pool, rfl, nofun, hx⟩
    · rcases ih with hnone | ⟨pre, w, post, rfl, hpre, hw⟩
      · exact .inl (List.forall_mem_cons.mpr ⟨hx, hnone⟩)
      · exact .inr ⟨x :: pre, w, post, rfl, List.forall_mem_cons.mpr ⟨hx, hpre⟩, hw⟩

section
variable {k : LockId} {u : LockUnit} (abandoned : Bool)

theorem passLock_of_none (hnone : ∀ w ∈ u.pool, w.lock ≠ k) :
    passLock abandoned k u = (setLock k ⟨none, abandoned⟩ u, []) := by
  have hfind : (u.pool.find? fun w => w.lock = k) = none := List.find?_eq_none.mpr (by simpa using hnone)
  simp only [passLock, hfind]

theorem passLock_of_oldest {pre post : List Waiter} {w : Waiter} (hpool : u.pool = pre ++ w :: post)
    (hpre : ∀ x ∈ pre, x.lock ≠ k) (hw : w.lock = k) :
    passLock abandoned k u =
      (setLock k ⟨some w.party, false⟩ { u with pool := pre ++ post },
        [(w.party.port, .completion w.ctx .ok abandoned (some w.party))]) := by
  have hpre' : ∀ x ∈ pre, ¬ (decide (x.lock = k) = true) := by simpa using hpre
  simp only [passLock, hpool, find?_of_first (test := fun w : Waiter => w.lock = k) hpre' (decide_eq_true hw),
    eraseP_of_first (test := fun w : Waiter => w.lock = k) hpre' (decide_eq_true hw)]

end

/-! ## Rows that leave the Lock Unit -/

@[simp] theorem deliver_locks (as : Answers) (s : State) : (deliver as s).locks = s.locks := by rw [deliver_frame]

@[simp] theorem faultPort_locks (p : PortId) (code : FaultCode) (s : State) : (faultPort p code s).locks = s.locks := by
  rw [faultPort_frame]

@[simp] theorem resetPort_locks (p : PortId) (s : State) : (resetPort p s).locks = s.locks := by rw [resetPort_frame]

@[simp] theorem takeWaitingAlert_locks (s : State) : (takeWaitingAlert s).locks = s.locks := by rw [takeWaitingAlert_frame]

@[simp] theorem appendTelling_locks (atOnce : PortId → Bool) (i : Incident) (s : State) :
    (appendTelling atOnce i s).locks = s.locks := by
  rw [appendTelling_frame]

@[simp] theorem appendIncidents_locks (is : List Incident) (s : State) : (appendIncidents is s).locks = s.locks := by
  rw [appendIncidents_frame]

@[simp] theorem notifyPorts_locks (atOnce : PortId → Bool) (n : AlertNotice) (s : State) :
    (notifyPorts atOnce n s).locks = s.locks := by
  rw [notifyPorts_eq]

@[simp] theorem issueRef_locks (src : Source) (r : Ref) (s : State) : (issueRef src r s).locks = s.locks := rfl

@[simp] theorem scrubIssue_locks (s : State) : (scrubIssue s).locks = s.locks := by rw [scrubIssue_frame]

@[simp] theorem arbiterAct_locks (b : Bank) (s : State) : (arbiterAct b s).locks = s.locks := by rw [arbiterAct_frame]

@[simp] theorem startCommand_locks (p : PortId) (s : State) : (startCommand p s).locks = s.locks :=
  modPort_locks s p _

@[simp] theorem operationEnded_locks (b : Bank) (arbiterFirst : Bool) (o : BankOp) (s : State) :
    (operationEnded b arbiterFirst o s).locks = s.locks := by
  rw [operationEnded_frame]

@[simp] theorem absorbReport_locks (r : HealthReport) (s : State) : (absorbReport r s).locks = s.locks := by
  rw [absorbReport_frame]

@[simp] theorem failCheckRead_locks (p : PortId) (s : State) : (failCheckRead p s).locks = s.locks := by
  unfold failCheckRead
  split <;> rfl

@[simp] theorem completeIncidents_locks (p : PortId) (c : CtxId) (st : Status) (n : Nat) (s : State) :
    (completeIncidents p c st n s).locks = s.locks :=
  modPort_locks _ p _

@[simp] theorem tune_locks (rate threshold : Option Nat) (s : State) :
    (tuneRate rate (tuneThreshold threshold s)).locks = s.locks := by
  cases rate <;> cases threshold <;> rfl

@[simp] theorem removeIncident_locks (s : State) : (removeIncident s).locks = s.locks := by
  unfold removeIncident
  dsimp only
  split
  · rw [notifyPorts_locks]
  · rfl

@[simp] theorem patrolIssue_locks (s : State) : (patrolIssue s).locks = s.locks := by
  unfold patrolIssue
  split
  · rw [scrubIssue_locks]
  · rfl

/-- What a source does with its result leaves the Lock Unit. -/
theorem ResultGiven.locks {o : BankOp} {s t : State} (h : ResultGiven o s t) : t.locks = s.locks := by
  cases h with
  | none => rfl
  | taken p f => exact modPort_locks s p f
  | scrubbed u hcredit => exact scrubIssue_locks _
  | issued j k r => unfold issueCopyLine; dsimp only; split <;> rfl
  | held k r => rfl
  | ended j hstate hjob =>
    unfold endChunk
    dsimp only
    split
    · rfl
    · exact appendIncidents_locks _ _

/-- The Lock Unit of `t` is that of `s`. -/
def LocksKept (s t : State) : Prop := t.locks = s.locks

theorem ends_ite {c : Prop} [Decidable c] {a b : Host.Outcome State Fault Refusal} {inv : State → Prop} (ha : Ends a inv)
    (hb : Ends b inv) : Ends (if c then a else b) inv := by
  split
  · exact ha
  · exact hb

section
variable (p : PortId) (s : State)

theorem unchanged_locksKept : Ends (.next s) (LocksKept s) := ends_next.mpr rfl

theorem modPort_locksKept (f : HostPort → HostPort) : Ends (.next (s.modPort p f)) (LocksKept s) :=
  ends_next.mpr (modPort_locks s p f)

theorem modPort_modPort_locksKept (f g : HostPort → HostPort) : Ends (.next ((s.modPort p f).modPort p g)) (LocksKept s) :=
  ends_next.mpr ((modPort_locks _ p g).trans (modPort_locks s p f))

theorem faultPort_locksKept (code : FaultCode) : Ends (.next (faultPort p code s)) (LocksKept s) :=
  ends_next.mpr (faultPort_locks p code s)

theorem faultPort_modPort_locksKept (code : FaultCode) (f : HostPort → HostPort) :
    Ends (.next (faultPort p code (s.modPort p f))) (LocksKept s) :=
  ends_next.mpr ((faultPort_locks p code _).trans (modPort_locks s p f))

theorem execSubmit_locks (v : BitVec 32) : Ends (execSubmit p v s) (LocksKept s) := by
  refine ends_ite ?_ (unchanged_locksKept s)
  split
  · exact ends_ite (modPort_locksKept p s _) (faultPort_locksKept p s _)
  · exact unchanged_locksKept s

theorem execConsume_locks (v : BitVec 32) : Ends (execConsume p v s) (LocksKept s) := by
  refine ends_ite ?_ (unchanged_locksKept s)
  split
  · exact ends_ite (modPort_locksKept p s _) (faultPort_locksKept p s _)
  · exact unchanged_locksKept s

theorem execLinkDown_locks (delivered : Nat) : Ends (execLinkDown p delivered s) (LocksKept s) := by
  refine ends_ite (ends_next.mpr ((modPort_locks _ p _).trans ((failCheckRead_locks p _).trans ?_))) (unchanged_locksKept s)
  split
  · rfl
  · exact resetPort_locks p s

theorem execSetupFetchDone_locks (block : Option (BitVec 512)) : Ends (execSetupFetchDone p block s) (LocksKept s) := by
  refine ends_ite (ends_ite ?_ (modPort_locksKept p s _)) (unchanged_locksKept s)
  split
  · exact faultPort_modPort_locksKept p s _ _
  · split
    · exact faultPort_modPort_locksKept p s _ _
    · exact modPort_modPort_locksKept p s _ _

theorem execRecordFetch_locks : Ends (execRecordFetch p s) (LocksKept s) := by
  unfold execRecordFetch
  split
  · exact ends_ite (modPort_locksKept p s _) (unchanged_locksKept s)
  · exact unchanged_locksKept s

theorem execRecordFetchDone_locks (record : Option (BitVec 512)) : Ends (execRecordFetchDone p record s) (LocksKept s) := by
  refine ends_ite (ends_ite ?_ (modPort_locksKept p s _)) (unchanged_locksKept s)
  split
  · exact faultPort_modPort_locksKept p s _ _
  · split
    · exact modPort_modPort_locksKept p s _ _
    · exact modPort_locksKept p s _

theorem execGuardCheck_locks : Ends (execGuardCheck p s) (LocksKept s) := by
  unfold execGuardCheck
  split
  · exact ends_next.mpr ((deliver_locks _ _).trans (modPort_locks s p _))
  · exact unchanged_locksKept s

theorem execScatterListReadDone_locks (i : SlotId) (l : Option (List (BitVec 128))) :
    Ends (execScatterListReadDone p i l s) (LocksKept s) := by
  unfold execScatterListReadDone
  split
  · exact modPort_locksKept p s _
  · exact unchanged_locksKept s

theorem execHostDataReadDone_locks (i : SlotId) (ws : Option (List Word)) :
    Ends (execHostDataReadDone p i ws s) (LocksKept s) := by
  unfold execHostDataReadDone
  split
  · exact modPort_locksKept p s _
  · exact unchanged_locksKept s

theorem execReferenceIssue_locks : Ends (execReferenceIssue p s) (LocksKept s) := by
  refine ends_ite ?_ (unchanged_locksKept s)
  split
  · exact ends_next.mpr ((issueRef_locks _ _ _).trans (modPort_locks s p _))
  · exact unchanged_locksKept s

theorem execCompletionWriteAccepted_locks (stale : Bool) : Ends (execCompletionWriteAccepted p stale s) (LocksKept s) := by
  refine ends_ite (modPort_locksKept p s _) ?_
  split
  · exact unchanged_locksKept s
  · exact ends_ite (modPort_locksKept p s _) (ends_ite (modPort_locksKept p s _) (unchanged_locksKept s))

theorem execCompletionWriteRefused_locks (stale : Bool) : Ends (execCompletionWriteRefused p stale s) (LocksKept s) := by
  refine ends_ite (modPort_locksKept p s _) ?_
  dsimp only
  split
  · exact unchanged_locksKept s
  · exact ends_ite (faultPort_modPort_locksKept p s _ _) (ends_ite (modPort_modPort_locksKept p s _ _) (unchanged_locksKept s))

theorem execRetirementReadDone_locks (answered : Bool) : Ends (execRetirementReadDone answered s) (LocksKept s) := by
  refine ends_ite (ends_next.mpr ((scrubIssue_locks _).trans ?_)) (unchanged_locksKept s)
  dsimp only
  split
  · exact appendTelling_locks _ _ _
  · rfl

theorem execOperationDone_locks (b : Bank) (arbiterFirst : Bool) : Ends (exec (.operationDone b arbiterFirst) s) (LocksKept s) := by
  cases hb : s.sched.banks[b] with
  | none =>
    show Ends (execOperationDone b arbiterFirst s) _
    simp only [execOperationDone, hb]
    exact unchanged_locksKept s
  | some o =>
    rw [exec_operationDone arbiterFirst hb]
    exact ends_next.mpr ((giveResult_given o _ _).locks.trans (operationEnded_locks b arbiterFirst o s))

theorem execHealthReport_locks (b : Bank) : Ends (execHealthReport b s) (LocksKept s) := by
  unfold execHealthReport
  split
  · exact unchanged_locksKept s
  · exact ends_next.mpr (absorbReport_locks _ _)

theorem execMigrationStart_locks : Ends (execMigrationStart s) (LocksKept s) := by
  refine ends_ite ?_ (unchanged_locksKept s)
  split
  · exact ends_next.mpr rfl
  · exact unchanged_locksKept s

theorem execChunkLockHeld_locks : Ends (execChunkLockHeld s) (LocksKept s) := by
  unfold execChunkLockHeld
  split
  · exact unchanged_locksKept s
  · exact ends_ite (ends_next.mpr (issueRef_locks _ _ _)) (unchanged_locksKept s)

theorem execRetirementWriteDone_locks (outcome : WriteOutcome) : Ends (execRetirementWriteDone outcome s) (LocksKept s) := by
  unfold execRetirementWriteDone
  split
  · exact ends_ite (ends_next.mpr (appendIncidents_locks _ _)) (unchanged_locksKept s)
  · exact unchanged_locksKept s

theorem execMapQuery_locks : Ends (execMapQuery s) (LocksKept s) := by
  unfold execMapQuery
  split
  · exact ends_next.mpr (startCommand_locks _ s)
  · exact unchanged_locksKept s

theorem execIncidents_locks : Ends (execIncidents s) (LocksKept s) := by
  unfold execIncidents
  split
  · exact ends_ite (ends_next.mpr ((completeIncidents_locks _ _ _ _ _).trans (startCommand_locks _ s)))
      (ends_next.mpr (startCommand_locks _ s))
  · exact unchanged_locksKept s

theorem execTune_locks : Ends (execTune s) (LocksKept s) := by
  unfold execTune
  split
  · exact ends_next.mpr ((modPort_locks _ _ _).trans ((tune_locks _ _ _).trans (startCommand_locks _ s)))
  · exact unchanged_locksKept s

theorem execRelocate_locks : Ends (execRelocate s) (LocksKept s) := by
  unfold execRelocate
  dsimp only
  split
  · split <;> exact ends_next.mpr ((modPort_locks _ _ _).trans (startCommand_locks _ s))
  · exact unchanged_locksKept s

theorem issueBufferWrite_locks (r : Running) : (issueBufferWrite r s).locks = s.locks := by
  unfold issueBufferWrite
  split
  · exact modPort_locks s _ _
  · split
    · split
      · exact (removeIncident_locks _).trans (modPort_locks s _ _)
      · rfl
    · rfl
  · rfl

theorem execBufferWrite_locks : Ends (execBufferWrite s) (LocksKept s) := by
  unfold execBufferWrite
  split
  · exact ends_ite (unchanged_locksKept s) (ends_next.mpr (issueBufferWrite_locks s _))
  · exact unchanged_locksKept s

theorem completeMaint_locks (r : Running) (st : Status) : (completeMaint r st s).locks = s.locks := by
  unfold completeMaint
  split
  · exact modPort_locks _ _ _
  · exact completeIncidents_locks _ _ _ _ _

theorem endCheckRead_locks (r : Running) (mark : Nat) (returned : Bool) : (endCheckRead r mark returned s).locks = s.locks := by
  have hended : (endRunning (if returned then s.modPort r.port (confirmSent mark) else s)).locks = s.locks := by
    cases returned
    · rfl
    · exact modPort_locks s _ _
  unfold endCheckRead
  dsimp only
  split
  · exact (completeMaint_locks _ _ _).trans hended
  · exact (modPort_locks _ _ _).trans hended
  · exact hended

theorem execMaintCheckReadDone_locks (returned : Bool) : Ends (execMaintCheckReadDone returned s) (LocksKept s) := by
  unfold execMaintCheckReadDone
  split
  · split
    · exact ends_next.mpr (endCheckRead_locks s _ _ _)
    · exact unchanged_locksKept s
  · exact unchanged_locksKept s

end

/-- The rows that can change the Lock Unit: those it takes itself, the microsecond, and a power-on reset. -/
def reachesLocks : Instr → Bool
  | .powerOnReset _ | .pacingTick | .acquire _ | .release _ | .waiterDeadlineExpiry _ _ | .lockRunningNotice _
  | .lockDrainNotice _ | .lockFaultNotice _ | .lockResetNotice _ => true
  | _ => false

/-- Every other row leaves table, pool and views. -/
theorem exec_locksKept (i : Instr) (s : State) (hi : reachesLocks i = false) : Ends (exec i s) (LocksKept s) := by
  cases i with
  | retirementReadDone answered => exact execRetirementReadDone_locks s answered
  | setupWrite p part => exact modPort_locksKept p s _
  | enable p => exact ends_ite (ends_ite (modPort_locksKept p s _) (faultPort_modPort_locksKept p s _ _)) (unchanged_locksKept s)
  | disable p => exact ends_ite (modPort_locksKept p s _) (unchanged_locksKept s)
  | reset p => exact ends_ite (unchanged_locksKept s) (ends_next.mpr (resetPort_locks p s))
  | submit p v => exact execSubmit_locks p s v
  | consume p v => exact execConsume_locks p s v
  | registerWriteDiscarded p w => exact unchanged_locksKept s
  | linkDown p delivered => exact execLinkDown_locks p s delivered
  | linkUp p => exact modPort_locksKept p s _
  | setupFetchDone p block => exact execSetupFetchDone_locks p s block
  | recordFetch p => exact execRecordFetch_locks p s
  | recordFetchDone p record => exact execRecordFetchDone_locks p s record
  | read p => exact modPort_locksKept p s _
  | write p => exact modPort_locksKept p s _
  | fill p => exact modPort_locksKept p s _
  | copy p => exact modPort_locksKept p s _
  | scan p => exact modPort_locksKept p s _
  | guardCheck p => exact execGuardCheck_locks p s
  | scatterListReadDone p slot l => exact execScatterListReadDone_locks p s slot l
  | hostDataReadDone p slot ws => exact execHostDataReadDone_locks p s slot ws
  | referenceIssue p => exact execReferenceIssue_locks p s
  | grant b => exact ends_next.mpr (arbiterAct_locks b s)
  | operationDone b arbiterFirst => exact execOperationDone_locks s b arbiterFirst
  | healthReport b => exact execHealthReport_locks s b
  | migrationStart => exact execMigrationStart_locks s
  | chunkLockHeld => exact execChunkLockHeld_locks s
  | retirementWriteDone outcome => exact execRetirementWriteDone_locks s outcome
  | mapQuery => exact execMapQuery_locks s
  | incidents => exact execIncidents_locks s
  | tune => exact execTune_locks s
  | relocate => exact execRelocate_locks s
  | maintCheckReadDone returned => exact execMaintCheckReadDone_locks s returned
  | completionWriteAccepted p stale => exact execCompletionWriteAccepted_locks p s stale
  | completionWriteRefused p stale => exact execCompletionWriteRefused_locks p s stale
  | quietTimerExpiry p => exact ends_ite (modPort_locksKept p s _) (unchanged_locksKept s)
  | drainEnd p => exact ends_ite (modPort_locksKept p s _) (unchanged_locksKept s)
  | resetComplete p => exact ends_ite (modPort_locksKept p s _) (unchanged_locksKept s)
  | bufferWrite => exact execBufferWrite_locks s
  | bitInError line word bit => exact ends_next.mpr rfl
  | _ => cases hi

end Sys2Proof.Machine
end

section
/-! O57. The lock table is kept in order by whatever the Lock Unit takes, and a holder changes on four causes alone (R86, R87). -/

namespace Sys2Proof.Machine

/-! ## The pool and one record (R86, R87) -/

section
variable {u : LockUnit}

theorem LocksOk.no_waiter_of_free {k : LockId} (h : LocksOk u) (hfree : (u.table[k]).holder = none) :
    ∀ w ∈ u.pool, w.lock ≠ k := by
  rintro w hw rfl
  obtain ⟨-, -, hheld, -⟩ := h
  have hsome := (hheld w hw).1
  rw [hfree] at hsome
  cases hsome

/-- Waiters leave the pool. -/
theorem LocksOk.sublist {pool : List Waiter} (h : LocksOk u) (hsub : pool.Sublist u.pool) : LocksOk { u with pool := pool } := by
  obtain ⟨hlen, hcount, hheld, hdistinct, hmark⟩ := h
  exact ⟨hsub.length_le.trans hlen, fun p => (hsub.countP_le).trans (hcount p), fun w hw => hheld w (hsub.subset hw),
    hdistinct.sublist hsub, hmark⟩

theorem LocksOk.setView (h : LocksOk u) (p : PortId) (v : LockView) : LocksOk (u.setView p v) := by
  cases p <;> exact h

/-- A lock's record is replaced by one that suits the lock's waiters. -/
theorem LocksOk.setLock {k : LockId} {r : LockRecord} (h : LocksOk u) (hmark : r.abandoned = true → r.holder = none)
    (hheld : ∀ w ∈ u.pool, w.lock = k → r.holder.isSome = true ∧ r.holder ≠ some w.party) : LocksOk (setLock k r u) := by
  obtain ⟨hlen, hcount, hheld', hdistinct, hmark'⟩ := h
  refine ⟨hlen, hcount, fun w hw => ?_, hdistinct, fun j => ?_⟩
  · rw [setLock_table]
    split
    · exact hheld w hw ‹_›
    · exact hheld' w hw
  · rw [setLock_table]
    split
    · exact hmark
    · exact hmark' j

/-- A lock given up passes to a party that waits no more for it, or stays without waiters. -/
theorem LocksOk.passLock (h : LocksOk u) (abandoned : Bool) (k : LockId) : LocksOk (passLock abandoned k u).1 := by
  rcases no_waiter_or_oldest k u.pool with hnone | ⟨pre, w, post, hpool, hpre, hw⟩
  · rw [passLock_of_none abandoned hnone]
    exact h.setLock (fun _ => rfl) fun x hx hk => absurd hk (hnone x hx)
  · rw [passLock_of_oldest abandoned hpool hpre hw]
    have hsub : (pre ++ post).Sublist u.pool := hpool ▸ List.Sublist.append_left (List.sublist_cons_self w post) pre
    refine (h.sublist hsub).setLock nofun fun x hx hk => ⟨rfl, fun hparty => ?_⟩
    obtain ⟨-, -, -, hdistinct, -⟩ := h
    rw [hpool] at hdistinct
    rcases List.mem_append.mp hx with hx | hx
    · exact hpre x hx hk
    · have hwx := List.rel_of_pairwise_cons (List.pairwise_append.mp hdistinct).2.1 hx
      exact hwx ⟨hw.trans hk.symm, Option.some.inj hparty⟩

/-- A party joins the pool that neither holds the lock nor waits for it, while the limits of R87 leave room. -/
theorem LocksOk.enqueue {w : Waiter} (h : LocksOk u) (hlen : u.pool.length < 64) (hcount : waiterCount u w.party.port < 40)
    (hheld : (u.table[w.lock]).holder.isSome = true ∧ (u.table[w.lock]).holder ≠ some w.party)
    (hnew : ∀ x ∈ u.pool, x.distinct w) : LocksOk { u with pool := u.pool ++ [w] } := by
  obtain ⟨-, hcount', hheld', hdistinct, hmark⟩ := h
  refine ⟨by simpa using hlen, fun p => ?_, fun x hx => ?_, ?_, hmark⟩
  · have hsum : waiterCount { u with pool := u.pool ++ [w] } p = waiterCount u p + if w.party.port = p then 1 else 0 := by
      simp [waiterCount, List.countP_append, List.countP_singleton]
    rw [hsum]
    split
    · rename_i hp
      have := hp ▸ hcount
      omega
    · exact hcount' p
  · rcases List.mem_append.mp hx with hx | hx
    · exact hheld' x hx
    · rw [List.mem_singleton.mp hx]
      exact hheld
  · exact List.pairwise_append.mpr ⟨hdistinct, List.pairwise_singleton _ w, fun x hx y hy => by
      rw [List.mem_singleton.mp hy]
      exact hnew x hx⟩

end

/-! ## What the Lock Unit takes -/

section
variable {u : LockUnit} (p : PortId) (c : CtxId) (k : LockId) (o : Owner)

theorem LocksOk.takeAcquire (h : LocksOk u) (now : Time) (timeout : Nat) :
    LocksOk (takeAcquire now p c k o timeout u).1 := by
  unfold Machine.takeAcquire
  dsimp only
  split
  · exact h
  split
  · rename_i hfree
    exact h.setLock nofun fun w hw hk => absurd hk (h.no_waiter_of_free hfree w hw)
  split
  · exact h
  split
  · exact h
  split
  · exact h
  split
  · exact h
  split
  · exact h
  · rename_i hheld hother _ hwaits _ hroom
    push Not at hroom
    refine h.enqueue hroom.1 hroom.2 ⟨Option.isSome_iff_ne_none.mpr hheld, hother⟩ fun x hx hsame => hwaits ?_
    exact List.any_eq_true.mpr ⟨x, hx, decide_eq_true hsame⟩

theorem LocksOk.takeRelease (h : LocksOk u) : LocksOk (takeRelease p c k o u).1 := by
  unfold Machine.takeRelease
  dsimp only
  split
  · exact h
  split
  · exact h.passLock false k
  · exact h

theorem LocksOk.takeExpiry (h : LocksOk u) : LocksOk (takeExpiry p c u).1 := by
  unfold Machine.takeExpiry
  split
  · split
    · exact h.sublist (List.eraseP_sublist)
    · exact h
  · exact h

theorem LocksOk.dropWaiters (h : LocksOk u) : LocksOk (dropWaiters p u) := h.sublist List.filter_sublist

theorem LocksOk.abandonLock {x : LockUnit × Answers} (h : LocksOk x.1) : LocksOk (abandonLock p x k).1 := by
  unfold Machine.abandonLock
  split
  · exact h.passLock true k
  · exact h

theorem LocksOk.takeReset (h : LocksOk u) : LocksOk (takeReset p u).1 := by
  unfold Machine.takeReset
  generalize (List.range' 0 256).map (Fin.ofNat 256) = ks
  have hdropped : LocksOk ((Machine.dropWaiters p u).setView p .resetting) := (h.dropWaiters p).setView p .resetting
  exact List.foldlRecOn (motive := fun x : LockUnit × Answers => LocksOk x.1) ks (Machine.abandonLock p) hdropped
    fun _ hx j _ => hx.abandonLock p j

theorem LocksOk.markWaiters (h : LocksOk u) (now : Time) : LocksOk (markWaiters now u) := by
  obtain ⟨hlen, hcount, hheld, hdistinct, hmark⟩ := h
  rw [markWaiters_eq]
  refine ⟨by simpa using hlen, fun q => ?_, ?_, ?_, hmark⟩
  · simpa only [waiterCount, List.countP_map, Function.comp_def] using hcount q
  · exact List.forall_mem_map.mpr hheld
  · exact List.pairwise_map.mpr hdistinct

end

/-! ## The rows that reach the Lock Unit -/

/-- The Lock Unit takes the mail of a row or, where the row is an event that does not occur, nothing. -/
theorem exec_acquire_locks (p : PortId) (s : State) :
    Ends (exec (.acquire p) s) fun t =>
      t.locks = s.locks ∨ ∃ c k o timeout, t.locks = (takeAcquire s.timeBase p c k o timeout s.locks).1 := by
  show Ends (execAcquire p s) _
  unfold execAcquire
  split
  · exact ends_next.mpr (.inr ⟨_, _, _, _, deliver_locks _ _⟩)
  · exact ends_next.mpr (.inl rfl)

theorem exec_release_locks (p : PortId) (s : State) :
    Ends (exec (.release p) s) fun t => t.locks = s.locks ∨ ∃ c k o, t.locks = (takeRelease p c k o s.locks).1 := by
  show Ends (execRelease p s) _
  unfold execRelease
  split
  · exact ends_next.mpr (.inr ⟨_, _, _, deliver_locks _ _⟩)
  · exact ends_next.mpr (.inl rfl)

theorem takeNotice_locks_or (v : LockView) (p : PortId) (f : LockUnit → LockUnit × Answers) (s : State) :
    (takeNotice v p f s).locks = s.locks ∨ (takeNotice v p f s).locks = (f s.locks).1 := by
  by_cases h : nextNotice (s.port p).lockMail = some v
  · exact .inr (takeNotice_locks v p f s h)
  · exact .inl (by rw [takeNotice, if_neg h])

theorem exec_pacingTick_locks (s : State) :
    Ends (exec .pacingTick s) fun t => t.locks = markWaiters (s.timeBase + 1) s.locks := by
  rw [exec_pacingTick]
  exact ends_next.mpr (patrolIssue_locks _)

theorem Ends.mono {o : Host.Outcome State Fault Refusal} {inv inv' : State → Prop} (h : Ends o inv)
    (hinv : ∀ t, inv t → inv' t) : Ends o inv' :=
  fun t ht => hinv t (h t ht)

/-- Every row keeps the lock table in order. -/
theorem exec_locksOk (i : Instr) {s : State} (h : LocksOk s.locks) : Ends (exec i s) fun t => LocksOk t.locks := by
  have hor {u t : LockUnit} (hu : LocksOk u) (ht : t = s.locks ∨ t = u) : LocksOk t := by
    rcases ht with rfl | rfl
    · exact h
    · exact hu
  have hnotice (v : LockView) (p : PortId) (f : LockUnit → LockUnit × Answers) (hf : LocksOk (f s.locks).1) :
      Ends (.next (takeNotice v p f s)) fun t => LocksOk t.locks :=
    ends_next.mpr (hor hf (takeNotice_locks_or v p f s))
  cases hi : reachesLocks i with
  | false => exact (exec_locksKept i s hi).mono fun t ht => hor h (.inl ht)
  | true =>
    cases i with
    | powerOnReset left => exact ends_next.mpr locksOk_reset
    | pacingTick => exact (exec_pacingTick_locks s).mono fun t ht => hor (h.markWaiters _) (.inr ht)
    | acquire p =>
      refine (exec_acquire_locks p s).mono fun t ht => ?_
      rcases ht with ht | ⟨c, k, o, timeout, ht⟩
      · exact hor h (.inl ht)
      · exact hor (h.takeAcquire p c k o _ timeout) (.inr ht)
    | release p =>
      refine (exec_release_locks p s).mono fun t ht => ?_
      rcases ht with ht | ⟨c, k, o, ht⟩
      · exact hor h (.inl ht)
      · exact hor (h.takeRelease p c k o) (.inr ht)
    | waiterDeadlineExpiry p c => exact ends_next.mpr (hor (h.takeExpiry p c) (.inr (deliver_locks _ _)))
    | lockRunningNotice p => exact hnotice .running p _ (h.setView p .running)
    | lockDrainNotice p => exact hnotice .draining p _ ((h.dropWaiters p).setView p .draining)
    | lockFaultNotice p => exact hnotice .faulted p _ ((h.dropWaiters p).setView p .faulted)
    | lockResetNotice p => exact hnotice .resetting p _ (h.takeReset p)
    | _ => cases hi

/-! ## The causes on which a holder changes (R86) -/

/-- The rows on which a holder can change. -/
def changesHolders : Instr → Bool
  | .powerOnReset _ | .acquire _ | .release _ | .lockResetNotice _ => true
  | _ => false

theorem takeExpiry_table (p : PortId) (c : CtxId) (u : LockUnit) : (takeExpiry p c u).1.table = u.table := by
  unfold takeExpiry
  split
  · split <;> rfl
  · rfl

/-- Every other row keeps the lock records. -/
theorem exec_table_kept (i : Instr) (s : State) (hi : changesHolders i = false) :
    Ends (exec i s) fun t => t.locks.table = s.locks.table := by
  have hnotice (v : LockView) (p : PortId) (f : LockUnit → LockUnit × Answers) (hf : (f s.locks).1.table = s.locks.table) :
      Ends (.next (takeNotice v p f s)) fun t => t.locks.table = s.locks.table := by
    refine ends_next.mpr ?_
    rcases takeNotice_locks_or v p f s with h | h
    · rw [h]
    · rw [h, hf]
  cases hreach : reachesLocks i with
  | false => exact (exec_locksKept i s hreach).mono fun t ht => congrArg LockUnit.table ht
  | true =>
    cases i with
    | pacingTick => exact (exec_pacingTick_locks s).mono fun t ht => (congrArg LockUnit.table ht).trans rfl
    | waiterDeadlineExpiry p c =>
      exact ends_next.mpr ((congrArg LockUnit.table (deliver_locks _ _)).trans (takeExpiry_table p c s.locks))
    | lockRunningNotice p => exact hnotice .running p _ (setView_table _ p _)
    | lockDrainNotice p => exact hnotice .draining p _ (setView_table _ p _)
    | lockFaultNotice p => exact hnotice .faulted p _ (setView_table _ p _)
    | powerOnReset left => cases hi
    | acquire p => cases hi
    | release p => cases hi
    | lockResetNotice p => cases hi
    | _ => cases hreach

/-- Settles O57: each thing the Lock Unit takes keeps the table in order, and the rows but four keep its records. -/
theorem lockTableIsKeptInOrder : Obligations.LockTableIsKeptInOrder := by
  refine ⟨fun s t h hstep => ?_, fun i s t k hexec hchange => ?_⟩
  · unfold step at hstep
    split at hstep
    · obtain rfl := Host.Outcome.next.inj hstep
      rwa [takeWaitingAlert_locks]
    · rename_i c rest _
      have hrest : LocksOk (s.withPending rest).locks := h
      exact exec_locksOk c hrest t hstep
  · cases hi : changesHolders i with
    | false => exact absurd (by rw [exec_table_kept i s hi t hexec]) hchange
    | true =>
      cases i with
      | powerOnReset left => exact .inl ⟨left, rfl⟩
      | acquire p => exact .inr ⟨p, .inl rfl⟩
      | release p => exact .inr ⟨p, .inr (.inl rfl)⟩
      | lockResetNotice p => exact .inr ⟨p, .inr (.inr rfl)⟩
      | _ => cases hi

end Sys2Proof.Machine
end

section
/-! O26. ACQUIRE: one equation for each case of the table of R89, and what the port makes of the one answer (R90, R92). -/

namespace Sys2Proof.Machine

/-! ## One answer to the port whose request or notice was taken -/

/-- The state with port `p` and the Lock Unit replaced. -/
def State.setPortLocks (s : State) (p : PortId) (h : HostPort) (u : LockUnit) : State := { s.setPort p h with locks := u }

section
variable (s : State) (p : PortId) (h : HostPort) (u : LockUnit)

@[simp] theorem setPortLocks_port : (s.setPortLocks p h u).port p = h := by cases p <;> rfl

@[simp] theorem setPortLocks_port_other : (s.setPortLocks p h u).port p.other = s.port p.other := by cases p <;> rfl

/-- With the Lock Unit as it was, its port alone is replaced. -/
theorem setPortLocks_same : s.setPortLocks p h s.locks = s.setPort p h := by cases p <;> rfl

end

/-- The Lock Unit has taken the front of port `p`'s mail, is left as `u`, and the port has its answer `a`. -/
def answered (p : PortId) (rest : List LockMail) (u : LockUnit) (a : LockAnswer) (s : State) : State :=
  s.setPortLocks p (takeLockAnswer a { s.port p with lockMail := rest }) u

section
variable (p : PortId) (rest : List LockMail) (u : LockUnit) (a : LockAnswer) (s : State)

@[simp] theorem answered_port : (answered p rest u a s).port p = takeLockAnswer a { s.port p with lockMail := rest } :=
  setPortLocks_port ..

theorem answered_port_other : (answered p rest u a s).port p.other = s.port p.other := setPortLocks_port_other ..

theorem answered_frame :
    answered p rest u a s = { s.setPort p ((answered p rest u a s).port p) with locks := (answered p rest u a s).locks } := by
  rw [answered_port]
  rfl

/-- One answer delivered on the state with the request taken. -/
theorem deliver_one :
    deliver [(p, a)] { s.modPort p (fun h => { h with lockMail := rest }) with locks := u } = answered p rest u a s := by
  cases p <;> rfl

theorem answered_completion (c : CtxId) (st : Status) (abandoned : Bool) (holder : Option Party) :
    CompletionTaken c st (.lock abandoned holder) { s.port p with lockMail := rest }
      ((answered p rest u (.completion c st abandoned holder) s).port p) := by
  rw [answered_port]
  exact handCompletion_taken c st (.lock abandoned holder) _

end

/-! ## The cases of R89 -/

section
variable {u : LockUnit} {p : PortId} {c : CtxId} {k : LockId} {o : Owner} {timeout : Nat} {now : Time}

theorem takeAcquire_of_not_takes (htakes : u.takes p = false) :
    takeAcquire now p c k o timeout u = (u, [(p, .endNotice c)]) := by
  simp [takeAcquire, htakes]

/-- An ACQUIRE has one answer, to its own port. -/
theorem takeAcquire_answer : ∃ u' a, takeAcquire now p c k o timeout u = (u', [(p, a)]) := by
  unfold takeAcquire
  dsimp only
  repeat' split
  all_goals exact ⟨_, _, rfl⟩

variable (htakes : u.takes p = true)
include htakes

theorem takeAcquire_of_free (hfree : (u.table[k]).holder = none) :
    takeAcquire now p c k o timeout u =
      (setLock k ⟨some ⟨p, o⟩, false⟩ u, [(p, .completion c .ok (u.table[k]).abandoned (some ⟨p, o⟩))]) := by
  simp only [takeAcquire, htakes, hfree, Bool.not_true, Bool.false_eq_true, if_false, if_true]

theorem takeAcquire_of_own (hholder : (u.table[k]).holder = some ⟨p, o⟩) :
    takeAcquire now p c k o timeout u = (u, [(p, .completion c .already false (u.table[k]).holder)]) := by
  simp [-Fin.getElem_fin, takeAcquire, htakes, hholder]

section
variable {x : Party} (hholder : (u.table[k]).holder = some x) (hother : x ≠ ⟨p, o⟩)
include hholder hother

theorem takeAcquire_of_lockBusy (hzero : timeout = 0) :
    takeAcquire now p c k o timeout u = (u, [(p, .completion c .lockBusy false (u.table[k]).holder)]) := by
  simp [-Fin.getElem_fin, takeAcquire, htakes, hholder, hother, hzero]

variable (htimeout : timeout ≠ 0)
include htimeout

theorem takeAcquire_of_duplicate (hwaits : ∃ w ∈ u.pool, w.lock = k ∧ w.party = ⟨p, o⟩) :
    takeAcquire now p c k o timeout u = (u, [(p, .completion c .duplicate false (u.table[k]).holder)]) := by
  simp [-Fin.getElem_fin, takeAcquire, htakes, hholder, hother, htimeout, hwaits]

variable (hwaits : ¬ ∃ w ∈ u.pool, w.lock = k ∧ w.party = ⟨p, o⟩)
include hwaits

theorem takeAcquire_of_draining (hview : u.view p = .draining) :
    takeAcquire now p c k o timeout u = (u, [(p, .completion c .cancelled false (u.table[k]).holder)]) := by
  simp [-Fin.getElem_fin, takeAcquire, htakes, hholder, hother, htimeout, hwaits, hview]

variable (hview : u.view p = .running)
include hview

theorem takeAcquire_of_full (hfull : 64 ≤ u.pool.length ∨ 40 ≤ waiterCount u p) :
    takeAcquire now p c k o timeout u = (u, [(p, .completion c .waitLimit false (u.table[k]).holder)]) := by
  simp [-Fin.getElem_fin, takeAcquire, htakes, hholder, hother, htimeout, hwaits, hview, hfull]

theorem takeAcquire_of_room (hroom : ¬ (64 ≤ u.pool.length ∨ 40 ≤ waiterCount u p)) :
    takeAcquire now p c k o timeout u =
      ({ u with pool := u.pool ++ [⟨k, ⟨p, o⟩, c, waiterDeadline now timeout, false⟩] }, [(p, .waiting c)]) := by
  simp [-Fin.getElem_fin, takeAcquire, htakes, hholder, hother, htimeout, hwaits, hview, hroom]

end

end

/-- The row, from the Lock Unit's answer. -/
theorem exec_acquire {p : PortId} {s : State} {c : CtxId} {k : LockId} {o : Owner} {timeout : Nat} {rest : List LockMail}
    {u : LockUnit} {a : LockAnswer} (hmail : (s.port p).lockMail = .acquire c k o timeout :: rest)
    (htake : takeAcquire s.timeBase p c k o timeout s.locks = (u, [(p, a)])) :
    exec (.acquire p) s = .next (answered p rest u a s) := by
  show execAcquire p s = _
  simp only [execAcquire, hmail, htake, deliver_one]

/-- Settles O26: the answer is that of the first case that matches, each by its equation. -/
theorem acquireTakesTheFirstMatchingCase : Obligations.AcquireTakesTheFirstMatchingCase := by
  intro p s c k o timeout rest hmail hview me r waits full h
  have htakes := (s.locks.takes_iff p).mpr hview
  obtain ⟨u, a, htake⟩ := takeAcquire_answer (u := s.locks) (p := p) (c := c) (k := k) (o := o) (timeout := timeout)
    (now := s.timeBase)
  have hanswer {u' : LockUnit} {a' : LockAnswer}
      (hcase : takeAcquire s.timeBase p c k o timeout s.locks = (u', [(p, a')])) : u = u' ∧ a = a' := by
    simpa using htake.symm.trans hcase
  have hrefused {st : Status}
      (hcase : takeAcquire s.timeBase p c k o timeout s.locks = (s.locks, [(p, .completion c st false r.holder)])) :
      (answered p rest u a s).locks = s.locks ∧
        CompletionTaken c st (.lock false r.holder) h ((answered p rest u a s).port p) := by
    obtain ⟨rfl, rfl⟩ := hanswer hcase
    exact ⟨rfl, answered_completion p rest _ s c st false r.holder⟩
  have hfull : full ↔ 64 ≤ s.locks.pool.length ∨ 40 ≤ waiterCount s.locks p := by
    rw [waiterCount, List.countP_eq_length_filter]
  refine ⟨answered p rest u a s, exec_acquire hmail htake, answered_frame p rest u a s, fun hfree => ?_,
    fun hown => hrefused (takeAcquire_of_own htakes hown), fun x hx hne => ⟨fun hzero => ?_, fun htimeout hwaits => ?_,
      fun htimeout hwaits hdraining => ?_, fun htimeout hwaits hrunning hf => ?_,
      fun htimeout hwaits hrunning hroom => ?_⟩⟩
  · obtain ⟨rfl, rfl⟩ := hanswer (takeAcquire_of_free htakes hfree)
    exact ⟨rfl, answered_completion p rest _ s c .ok r.abandoned (some me)⟩
  · exact hrefused (takeAcquire_of_lockBusy htakes hx hne hzero)
  · exact hrefused (takeAcquire_of_duplicate htakes hx hne htimeout hwaits)
  · exact hrefused (takeAcquire_of_draining htakes hx hne htimeout hwaits hdraining)
  · exact hrefused (takeAcquire_of_full htakes hx hne htimeout hwaits hrunning (hfull.mp hf))
  · obtain ⟨rfl, rfl⟩ := hanswer (takeAcquire_of_room htakes hx hne htimeout hwaits hrunning (mt hfull.mpr hroom))
    refine ⟨rfl, fun hactive => ?_⟩
    rw [answered_port]
    exact if_pos hactive

end Sys2Proof.Machine
end

section
/-! O27. Requests of a port held as FAULTED or RESETTING: an end notice, and what the port makes of it (R88, R145, R146). -/

namespace Sys2Proof.Machine

/-! ## What is answered -/

section
variable {p : PortId} {s : State} {c : CtxId} {k : LockId} {o : Owner} {rest : List LockMail}

/-- An answer that leaves the Lock Unit changes its port alone. -/
theorem answered_locks_same (a : LockAnswer) :
    answered p rest s.locks a s = s.setPort p ((answered p rest s.locks a s).port p) := by
  rw [answered_port]
  exact setPortLocks_same ..

theorem takeRelease_of_not_takes {u : LockUnit} (htakes : u.takes p = false) :
    takeRelease p c k o u = (u, [(p, .endNotice c)]) := by
  simp [takeRelease, htakes]

theorem takeGuardCheck_of_not_takes {u : LockUnit} (htakes : u.takes p = false) :
    takeGuardCheck p c k o u = [(p, .guardEnd c)] := by
  simp [takeGuardCheck, htakes]

theorem takeGuardCheck_of_takes {u : LockUnit} (htakes : u.takes p = true) :
    takeGuardCheck p c k o u = [(p, .guardAnswer c ((u.table[k]).holder = some ⟨p, o⟩))] := by
  simp [takeGuardCheck, htakes]

theorem exec_release (hmail : (s.port p).lockMail = .release c k o :: rest) :
    exec (.release p) s =
      .next (deliver (takeRelease p c k o s.locks).2
        { s.modPort p (fun h => { h with lockMail := rest }) with locks := (takeRelease p c k o s.locks).1 }) := by
  show execRelease p s = _
  simp only [execRelease, hmail]

theorem exec_guardCheck (hmail : (s.port p).lockMail = .guardCheck c k o :: rest) {a : LockAnswer}
    (htake : takeGuardCheck p c k o s.locks = [(p, a)]) :
    exec (.guardCheck p) s = .next (answered p rest s.locks a s) := by
  show execGuardCheck p s = _
  simp only [execGuardCheck, hmail, htake]
  cases p <;> rfl

end

theorem LockUnit.not_takes {u : LockUnit} {p : PortId} (hview : u.view p = .faulted ∨ u.view p = .resetting) :
    u.takes p = false := by
  rcases hview with hview | hview <;> simp [LockUnit.takes, hview]

/-! ## The end of a guard check (R145, R146) -/

section
variable {c : CtxId} {h : HostPort}

theorem takeGuardEnd_of_none (hslot : slotOf h c = none) : takeGuardEnd c h = h := by
  simp only [takeGuardEnd, hslot]

section
variable {i : SlotId} {x : Transfer} (hslot : slotOf h c = some (i, x))
include hslot

theorem takeGuardEnd_of_checking (hphase : x.phase = .checking) (hstate : h.state = .faulted) :
    takeGuardEnd c h = freeContext c (setSlot i none h) := by
  simp only [takeGuardEnd, hslot]
  exact if_pos ⟨hphase, hstate⟩

theorem takeGuardEnd_of_other (hother : x.phase ≠ .checking ∨ h.state ≠ .faulted) : takeGuardEnd c h = h := by
  simp only [takeGuardEnd, hslot]
  exact if_neg (by tauto)

end

variable (c h)

theorem takeGuardEnd_cases : takeGuardEnd c h = h ∨ ∃ i, takeGuardEnd c h = freeContext c (setSlot i none h) := by
  unfold takeGuardEnd
  split
  · exact .inl rfl
  · split
    · exact .inr ⟨_, rfl⟩
    · exact .inl rfl

/-- The end of a guard check changes slots, its own context and the hold state alone. -/
theorem takeGuardEnd_frame :
    takeGuardEnd c h =
      { h with
        slots := (takeGuardEnd c h).slots, contexts := (takeGuardEnd c h).contexts, hold := (takeGuardEnd c h).hold } := by
  rcases takeGuardEnd_cases c h with hsame | ⟨i, hfreed⟩
  · rw [hsame]
  · rw [hfreed, freeContext_frame]
    rfl

theorem takeGuardEnd_resumes : ResumesAtItsMark h (takeGuardEnd c h) := by
  rcases takeGuardEnd_cases c h with hsame | ⟨i, hfreed⟩
  · rw [hsame]
    exact .refl h
  · rw [hfreed]
    exact (freeContext_resumes c (setSlot i none h)).1.congr rfl rfl rfl rfl rfl

theorem takeGuardEnd_at {d : CtxId} (hd : d ≠ c) : (takeGuardEnd c h).contexts[d] = h.contexts[d] := by
  rcases takeGuardEnd_cases c h with hsame | ⟨i, hfreed⟩
  · rw [hsame]
  · rw [hfreed]
    exact (freeContext_at c d (setSlot i none h)).2 hd

end

/-- Settles O27: the Lock Unit hands an end notice alone, and the port takes it by its state. -/
theorem requestsAfterAFaultOrResetChangeNoLock : Obligations.RequestsAfterAFaultOrResetChangeNoLock := by
  intro p s c k o timeout rest hview h
  have htakes := LockUnit.not_takes hview
  let h' : HostPort := { h with lockMail := rest }
  refine ⟨fun x hx hmail => ?_, fun hmail => ?_⟩
  · have hexec : exec x.1 s = .next (answered p rest s.locks (.endNotice c) s) := by
      rcases List.mem_pair.mp hx with rfl | rfl
      · exact exec_acquire hmail (takeAcquire_of_not_takes htakes)
      · rw [exec_release hmail, takeRelease_of_not_takes htakes, deliver_one]
    refine ⟨_, hexec, answered_locks_same _, ?_⟩
    rw [answered_port]
    exact ⟨endNotice_frame c h', (endNotice_resumes c h').1.congr rfl rfl rfl rfl rfl, fun d => endNotice_at c d h',
      endNotice_frees c h', fun hstate => if_neg hstate⟩
  · refine ⟨_, exec_guardCheck hmail (takeGuardCheck_of_not_takes htakes), answered_locks_same _, ?_⟩
    rw [answered_port]
    refine ⟨takeGuardEnd_frame c h', (takeGuardEnd_resumes c h').congr rfl rfl rfl rfl rfl, fun d => takeGuardEnd_at c h',
      fun i x hx hc hunique => ?_, fun hnone => takeGuardEnd_of_none (slotOf_none (h := h') hnone)⟩
    have hslot : slotOf h' c = some (i, x) := slotOf_some hx hc hunique
    refine ⟨fun hphase hstate => ?_, takeGuardEnd_of_other hslot⟩
    have hend : takeLockAnswer (.guardEnd c) h' = freeContext c (setSlot i none h') :=
      takeGuardEnd_of_checking hslot hphase hstate
    rw [hend]
    exact ⟨by rw [freeContext_frame]; rfl, (freeContext_at c c _).1⟩

end Sys2Proof.Machine
end

section
/-! O28. RELEASE: the lock passed on, freed, or kept by its holder, with the completions in their order (R91, R94). -/

namespace Sys2Proof.Machine

section
variable {u : LockUnit} {p : PortId} {c : CtxId} {k : LockId} {o : Owner} (htakes : u.takes p = true)
include htakes

theorem takeRelease_of_not_holder (hholder : (u.table[k]).holder ≠ some ⟨p, o⟩) :
    takeRelease p c k o u = (u, [(p, .completion c .notHolder false (u.table[k]).holder)]) := by
  simp only [takeRelease, htakes, hholder, Bool.not_true, Bool.false_eq_true, if_false]

theorem takeRelease_of_holder (hholder : (u.table[k]).holder = some ⟨p, o⟩) :
    takeRelease p c k o u =
      ((passLock false k u).1, (passLock false k u).2 ++ [(p, .completion c .ok false none)]) := by
  simp only [takeRelease, htakes, hholder, Bool.not_true, Bool.false_eq_true, if_false, if_true]

end

/-- The state after the Lock Unit has taken the request or notice in front of `rest`, is left as `r.1`, and its answers `r.2` have
reached their ports. -/
def requestTaken (p : PortId) (rest : List LockMail) (r : LockUnit × Answers) (s : State) : State :=
  deliver r.2 { s.modPort p (fun h => { h with lockMail := rest }) with locks := r.1 }

section
variable {p : PortId} {rest : List LockMail} {s : State}

@[simp] theorem requestTaken_locks (r : LockUnit × Answers) : (requestTaken p rest r s).locks = r.1 := by
  rw [requestTaken, deliver_locks]

theorem requestTaken_frame (r : LockUnit × Answers) :
    requestTaken p rest r s =
      { s with
        locks := (requestTaken p rest r s).locks
        port0 := (requestTaken p rest r s).port0
        port1 := (requestTaken p rest r s).port1 } := by
  unfold requestTaken
  rw [deliver_frame]
  cases p <;> rfl

theorem requestTaken_one (u : LockUnit) (a : LockAnswer) : requestTaken p rest (u, [(p, a)]) s = answered p rest u a s :=
  deliver_one p rest u a s

/-- An answer to the other port, and one to the port of the request. -/
theorem requestTaken_other (u : LockUnit) (a b : LockAnswer) :
    (requestTaken p rest (u, [(p.other, a), (p, b)]) s).port p = takeLockAnswer b { s.port p with lockMail := rest } ∧
      (requestTaken p rest (u, [(p.other, a), (p, b)]) s).port p.other = takeLockAnswer a (s.port p.other) := by
  cases p <;> exact ⟨rfl, rfl⟩

/-- Two answers to the port of the request. -/
theorem requestTaken_same (u : LockUnit) (a b : LockAnswer) :
    (requestTaken p rest (u, [(p, a), (p, b)]) s).port p =
        takeLockAnswer b (takeLockAnswer a { s.port p with lockMail := rest }) ∧
      (requestTaken p rest (u, [(p, a), (p, b)]) s).port p.other = s.port p.other := by
  cases p <;> exact ⟨rfl, rfl⟩

end

/-- Settles O28: the holder's RELEASE is the giving up of the lock, whose waiter's completion comes before its own. -/
theorem releasePassesTheLockOn : Obligations.ReleasePassesTheLockOn := by
  intro p s c k o rest hmail hview r h other
  have htakes := (s.locks.takes_iff p).mpr hview
  refine ⟨requestTaken p rest (takeRelease p c k o s.locks) s, exec_release hmail, requestTaken_frame _,
    fun hholder => ?_, fun hholder hnone => ?_, fun pre post w hholder hpool hpre hw => ?_⟩
  · rw [takeRelease_of_not_holder htakes hholder, requestTaken_one]
    exact ⟨rfl, answered_completion p rest _ s c .notHolder false r.holder, answered_port_other p rest _ _ s⟩
  · rw [takeRelease_of_holder htakes hholder, passLock_of_none false hnone, List.nil_append, requestTaken_one]
    exact ⟨rfl, answered_completion p rest _ s c .ok false none, answered_port_other p rest _ _ s⟩
  · rw [takeRelease_of_holder htakes hholder, passLock_of_oldest false hpool hpre hw, requestTaken_locks]
    refine ⟨rfl, fun hother => ?_, fun hsame => ?_⟩
    · obtain ⟨hport, hport'⟩ := requestTaken_other (p := p) (rest := rest) (s := s)
        (setLock k ⟨some w.party, false⟩ { s.locks with pool := pre ++ post })
        (.completion w.ctx .ok false (some w.party)) (.completion c .ok false none)
      rw [hother, List.singleton_append, hport, hport']
      exact ⟨handCompletion_taken c .ok (.lock false none) h,
        handCompletion_taken w.ctx .ok (.lock false (some w.party)) other⟩
    · obtain ⟨hport, hport'⟩ := requestTaken_same (p := p) (rest := rest) (s := s)
        (setLock k ⟨some w.party, false⟩ { s.locks with pool := pre ++ post })
        (.completion w.ctx .ok false (some w.party)) (.completion c .ok false none)
      rw [hsame, List.singleton_append, hport, hport']
      exact ⟨handCompletions_taken [(w.ctx, .ok, .lock false (some w.party)), (c, .ok, .lock false none)] h, rfl⟩

end Sys2Proof.Machine
end

section
/-! O29. The answer to a guard check: the transfer goes on to its list or its data, or ends (R101, R128, R134). -/

namespace Sys2Proof.Machine

/-! ## The first piece of a WRITE with one entry (R130, R131, R134) -/

section
variable {a n : Nat} (ha : a % 8 = 0) (hn : n % 8 = 0)
include ha hn

/-- The covered words of the first line run from the word of the start to the end of the range or of the line. -/
theorem coveredWords_first : coveredWords a n 0 = List.range' (a / 8 % 8) (min (8 - a / 8 % 8) (n / 8)) := by
  generalize hm : min (8 - a / 8 % 8) (n / 8) = m
  have hsplit : List.range' 0 8 =
      List.range' 0 (a / 8 % 8) ++ (List.range' (a / 8 % 8) m ++ List.range' (a / 8 % 8 + m) (8 - (a / 8 % 8 + m))) := by
    have hlength : 8 = a / 8 % 8 + (m + (8 - (a / 8 % 8 + m))) := by omega
    conv_lhs => rw [hlength, ← List.range'_append_1, Nat.zero_add, ← List.range'_append_1]
  have hcovered (w : Nat) : covered a n 0 w = true ↔ a / 8 % 8 ≤ w ∧ 8 * w + 64 * (a / 64) < a + n := by
    rw [covered_iff, wordAddress]
    omega
  have hbefore : (List.range' 0 (a / 8 % 8)).filter (covered a n 0) = [] := by
    rw [List.filter_eq_nil_iff]
    intro w hw
    rw [hcovered]
    have := List.mem_range'_1.mp hw
    omega
  have hinside : (List.range' (a / 8 % 8) m).filter (covered a n 0) = List.range' (a / 8 % 8) m := by
    rw [List.filter_eq_self]
    intro w hw
    rw [hcovered]
    have := List.mem_range'_1.mp hw
    omega
  have hbehind : (List.range' (a / 8 % 8 + m) (8 - (a / 8 % 8 + m))).filter (covered a n 0) = [] := by
    rw [List.filter_eq_nil_iff]
    intro w hw
    rw [hcovered]
    have := List.mem_range'_1.mp hw
    omega
  rw [coveredWords, hsplit, List.filter_append, List.filter_append, hbefore, hinside, hbehind]
  simp

variable (h8 : 8 ≤ n)
include h8

/-- With one entry the first line is one piece, at the entry's host address. -/
theorem piecesOf_first (addr : Nat) :
    ∃ q, piecesOf [(addr, n)] a n 0 = [q] ∧ q.addr = addr ∧ q.words.length = min (8 - a / 8 % 8) (n / 8) := by
  obtain ⟨hwords, hentries, hpieces⟩ := piecesOf_are [(addr, n)] a n 0 (by simp)
  rw [wordsOfLine_val, coveredWords_first ha hn] at hwords
  obtain ⟨m, hm⟩ : ∃ m, min (8 - a / 8 % 8) (n / 8) = m + 1 := ⟨min (8 - a / 8 % 8) (n / 8) - 1, by omega⟩
  have hzero : ∀ q ∈ piecesOf [(addr, n)] a n 0, q.entry = 0 := by
    intro q hq
    obtain ⟨first, more, e, -, hentry, -⟩ := hpieces q hq
    obtain ⟨hlt, -⟩ := List.getElem?_eq_some_iff.mp hentry
    simpa using hlt
  match hlist : piecesOf [(addr, n)] a n 0 with
  | [] => simp [hlist, hm, List.range'_succ] at hwords
  | q :: r :: more =>
    rw [hlist] at hentries hzero
    have hlt := List.rel_of_pairwise_cons hentries (List.mem_cons_self ..)
    simp [hzero] at hlt
  | [q] =>
    rw [hlist] at hwords
    have hq : q.words = List.range' (a / 8 % 8) (min (8 - a / 8 % 8) (n / 8)) := by simpa using hwords
    have hmem : q ∈ piecesOf [(addr, n)] a n 0 := hlist ▸ List.mem_singleton_self q
    obtain ⟨first, more, e, hfirst, hentry, haddr, -⟩ := hpieces q hmem
    rw [hzero q hmem] at hentry haddr
    obtain rfl : (addr, n) = e := by simpa using hentry
    have hhead : a / 8 % 8 = first := by
      rw [hq, hm, List.range'_succ] at hfirst
      exact (List.cons.inj hfirst).1
    have hstart : wordAddress a 0 first = a := by
      unfold wordAddress
      omega
    refine ⟨q, rfl, ?_, by rw [hq, List.length_range']⟩
    rw [haddr, hstart]
    simp [entryOffset]

end

/-! ## Steps 2 and 3 of an activation (R128) -/

/-- Slot `i` of a port has become `y`, with `read` as its outstanding host read. -/
def slotGoesOn (i : SlotId) (y : Transfer) (read : Option SlotRead) (h : HostPort) : HostPort :=
  { h with slots := h.slots.set i (some y), slotReads := h.slotReads.set i read }

theorem pieceRead_of_not_write {x : Transfer} (hwrite : x.cmd.isWrite = false) : x.pieceRead = none := by
  unfold Transfer.pieceRead
  split
  · rename_i hcmd
    rw [hcmd] at hwrite
    cases hwrite
  · rfl

section
variable {x : Transfer} (i : SlotId) (h : HostPort)

theorem enterAfterGuard_of_scatter {count addr : Nat} (hside : hostOf x.cmd = some (.scatter count addr)) :
    enterAfterGuard i x h = slotGoesOn i { x with phase := .listing } (some (.list addr count)) h := by
  simp only [enterAfterGuard, hside]
  rfl

theorem enterAfterGuard_of_direct {addr n : Nat} (hside : hostOf x.cmd = some (.direct addr)) (hlen : (rangeOf x.cmd).2 = n) :
    let y : Transfer := { x with phase := .moving, entries := [(addr, n)] }
    enterAfterGuard i x h = slotGoesOn i y y.pieceRead h := by
  simp only [enterAfterGuard, hside, hlen]
  rfl

theorem enterAfterGuard_of_no_host (hside : hostOf x.cmd = none) (hwrite : x.cmd.isWrite = false) :
    enterAfterGuard i x h = slotGoesOn i { x with phase := .moving } none h := by
  have hread : ({ x with phase := .moving } : Transfer).pieceRead = none := pieceRead_of_not_write hwrite
  simp only [enterAfterGuard, hside, enterMoving, hread]
  rfl

end

/-- What slot record `x`, of a transfer of command `cmd`, becomes past its guard, and the host read it begins (R128, R134). -/
def PastGuard (cmd : Command) (x y : Transfer) (read : Option SlotRead) : Prop :=
  match cmd with
  | .read _ _ (.scatter count addr) => y = { x with phase := .listing } ∧ read = some (.list addr count)
  | .write _ _ (.scatter count addr) => y = { x with phase := .listing } ∧ read = some (.list addr count)
  | .read _ n (.direct addr) => y = { x with phase := .moving, entries := [(addr, n)] } ∧ read = none
  | .write a n (.direct addr) =>
    y = { x with phase := .moving, entries := [(addr, n)] } ∧
      (x.piece = 0 → a % 8 = 0 → n % 8 = 0 → 8 ≤ n → read = some (.data addr (min (8 - a / 8 % 8) (n / 8))))
  | _ => y = { x with phase := .moving } ∧ read = none

/-- The first host-data read of a WRITE with one entry: the covered words of its first line (R134). -/
theorem pieceRead_of_direct_write {y : Transfer} {a n addr : Nat} {side : HostSide} (hcmd : y.cmd = .write a n side)
    (hphase : y.phase = .moving) (hentries : y.entries = [(addr, n)]) (hnext : y.next = 0) (hpiece : y.piece = 0)
    (ha : a % 8 = 0) (hn : n % 8 = 0) (h8 : 8 ≤ n) :
    y.pieceRead = some (.data addr (min (8 - a / 8 % 8) (n / 8))) := by
  obtain ⟨q, hpieces, haddr, hlength⟩ := piecesOf_first ha hn h8 addr
  have hmore : y.next < y.lineCount := by
    rw [hnext, Transfer.lineCount, hcmd]
    exact Nat.succ_pos _
  rw [pieceRead_of_first_piece hcmd hphase hmore hpiece (by rw [hentries, hnext, hpieces]), haddr, hlength]

theorem enterAfterGuard_goes_on (i : SlotId) {x : Transfer} {cmd : Command} (h : HostPort) (hcmd : x.cmd = cmd)
    (hnext : x.next = 0) : ∃ y read, enterAfterGuard i x h = slotGoesOn i y read h ∧ PastGuard cmd x y read := by
  have hno_host (hside : hostOf cmd = none) (hwrite : cmd.isWrite = false) :
      enterAfterGuard i x h = slotGoesOn i { x with phase := .moving } none h :=
    enterAfterGuard_of_no_host i h (hcmd ▸ hside) (hcmd ▸ hwrite)
  match cmd with
  | .read a n (.scatter count addr) => exact ⟨_, _, enterAfterGuard_of_scatter i h (by rw [hcmd]; rfl), rfl, rfl⟩
  | .write a n (.scatter count addr) => exact ⟨_, _, enterAfterGuard_of_scatter i h (by rw [hcmd]; rfl), rfl, rfl⟩
  | .read a n (.direct addr) =>
    exact ⟨_, _, enterAfterGuard_of_direct i h (by rw [hcmd]; rfl) (by rw [hcmd]; rfl), rfl,
      pieceRead_of_not_write (by rw [hcmd]; rfl)⟩
  | .write a n (.direct addr) =>
    exact ⟨_, _, enterAfterGuard_of_direct i h (by rw [hcmd]; rfl) (by rw [hcmd]; rfl), rfl,
      pieceRead_of_direct_write (y := { x with phase := .moving, entries := [(addr, n)] }) hcmd rfl rfl hnext⟩
  | .rejected | .nop | .fill .. | .copy .. | .scan .. | .acquire .. | .release .. | .mapQuery .. | .incidents .. | .tune ..
  | .relocate .. => exact ⟨_, _, hno_host rfl rfl, rfl, rfl⟩

/-! ## The answer (R101, R128) -/

section
variable {c : CtxId} {h : HostPort} {i : SlotId} {x : Transfer} (hslot : slotOf h c = some (i, x)) (hphase : x.phase = .checking)
include hslot hphase

theorem takeGuardAnswer_of_held : takeGuardAnswer c true h = enterAfterGuard i x h := by
  simp [takeGuardAnswer, hslot, hphase]

/-- A transfer that has issued nothing ends at once, with nothing done. -/
theorem takeGuardAnswer_of_not_held (hctx : x.ctx = c) (hread : h.slotReads[i] = none) (houtstanding : x.outstanding = 0)
    (hnext : x.next = 0) (hcorrected : x.corrected = 0) (hbad : x.bad = 0) (hfirst : x.firstBad = none)
    (hdecision : x.decision = none) :
    takeGuardAnswer c false h =
      handCompletion c .notHolder (.transfer ⟨0, 0, 0, none, none⟩) { h with slots := h.slots.set i none } := by
  let y : Transfer := { x with phase := .finishing, ending := some .notHolder }
  have hresults : y.results = .transfer ⟨0, 0, 0, none, none⟩ := by
    simp [Transfer.results, Transfer.bytesDone, Transfer.found, coveredBytes, y, hnext, hcorrected, hbad, hfirst, hdecision]
  have hstatus : y.status = .notHolder := rfl
  have hset : setSlot i none (setSlot i (some y) h) = { h with slots := h.slots.set i none } := by
    simp [setSlot]
  have hgot : (setSlot i (some y) h).slots[i] = some y := by
    simp [setSlot]
  have hends : y.phase = .finishing ∧ y.outstanding = 0 ∧ (setSlot i (some y) h).slotReads[i] = none :=
    ⟨rfl, houtstanding, hread⟩
  have hanswer : takeGuardAnswer c false h = endIfDone i (setSlot i (some y) h) := by
    simp [takeGuardAnswer, hslot, hphase, y]
  rw [hanswer, endIfDone, hgot]
  dsimp only
  rw [if_pos hends, hresults, hstatus, hset, ← hctx]

end

/-- Settles O29: HELD is steps 2 and 3 of R128, NOT_HELD the end of a transfer that has issued nothing. -/
theorem guardCheckAnswersByTheHolder : Obligations.GuardCheckAnswersByTheHolder := by
  intro p s c k o rest i x hmail hview hx hctx hunique hphase houtstanding hnext hcorrected hbad hfirst hdecision hread h
  have htakes := (s.locks.takes_iff p).mpr hview
  have hslot : slotOf h c = some (i, x) := slotOf_some hx hctx hunique
  refine ⟨_, exec_guardCheck hmail (takeGuardCheck_of_takes htakes), answered_locks_same _, fun hheld => ?_,
    fun hheld => ?_⟩
  · rw [decide_eq_true hheld, answered_port]
    obtain ⟨y, read, hgoes, hpast⟩ := enterAfterGuard_goes_on i h rfl hnext
    exact ⟨y, read, (takeGuardAnswer_of_held hslot hphase).trans hgoes, hpast⟩
  · rw [decide_eq_false hheld, answered_port]
    have hend : takeLockAnswer (.guardAnswer c false) h = _ :=
      takeGuardAnswer_of_not_held hslot hphase hctx hread houtstanding hnext hcorrected hbad hfirst hdecision
    rw [hend]
    exact handCompletion_taken c .notHolder (.transfer ⟨0, 0, 0, none, none⟩) { h with slots := h.slots.set i none }

end Sys2Proof.Machine
end

section
/-! O30. The expiry of a waiter, once its deadline was reached (R93). -/

namespace Sys2Proof.Machine

section
variable {p : PortId} {c : CtxId} {u : LockUnit} {pre post : List Waiter} {w : Waiter} (hpool : u.pool = pre ++ w :: post)
  (hpre : ∀ x ∈ pre, ¬ (x.party.port = p ∧ x.ctx = c)) (hport : w.party.port = p) (hctx : w.ctx = c)
include hpool hpre hport hctx

theorem takeExpiry_of_waiter :
    takeExpiry p c u =
      if w.due then
        ({ u with pool := pre ++ post }, [(p, .completion c .timeout false (u.table[w.lock]).holder)])
      else (u, []) := by
  have hpre' : ∀ x ∈ pre, ¬ isWaiterOf p c x = true := by simpa [isWaiterOf] using hpre
  have hw : isWaiterOf p c w = true := by simp [isWaiterOf, hport, hctx]
  simp only [takeExpiry, hpool, find?_of_first hpre' hw, eraseP_of_first hpre' hw]

end

/-- Settles O30: the waiter of the context is the first of it in the pool, and its mark decides. -/
theorem dueWaiterExpiresWithTimeout : Obligations.DueWaiterExpiresWithTimeout := by
  intro p c s pre post w hpool hpre hport hctx
  have hexec : exec (.waiterDeadlineExpiry p c) s =
      .next (deliver (takeExpiry p c s.locks).2 { s with locks := (takeExpiry p c s.locks).1 }) := rfl
  rw [takeExpiry_of_waiter hpool hpre hport hctx] at hexec
  refine ⟨fun hdue => ?_, fun hdue => ?_⟩
  · rw [hexec, hdue]
    rfl
  · rw [hdue, if_pos rfl] at hexec
    have hanswer : deliver [(p, .completion c .timeout false (s.locks.table[w.lock]).holder)]
          { s with locks := { s.locks with pool := pre ++ post } } =
        s.setPortLocks p (handCompletion c .timeout (.lock false (s.locks.table[w.lock]).holder) (s.port p))
          { s.locks with pool := pre ++ post } := by
      cases p <;> rfl
    refine ⟨_, hexec.trans (congrArg Host.Outcome.next hanswer), ?_⟩
    rw [setPortLocks_port]
    exact ⟨rfl, handCompletion_taken ..⟩

end Sys2Proof.Machine
end

section
/-! O31. The notices of entry to RUNNING, DRAINING and FAULTED (R88, R97, R98). -/

namespace Sys2Proof.Machine

/-! ## The first notice of a port's mail (R96) -/

section
variable {pre post : List LockMail} {v : LockView} (hpre : ∀ m ∈ pre, ∀ u, m ≠ .notice u)
include hpre

theorem nextNotice_of_first : nextNotice (pre ++ .notice v :: post) = some v := by
  have hnone : nextNotice pre = none := by
    unfold nextNotice
    rw [List.findSome?_eq_none_iff]
    intro m hm
    split
    · exact absurd rfl (hpre _ hm _)
    · rfl
  unfold nextNotice at hnone ⊢
  rw [List.findSome?_append, hnone]
  rfl

theorem dropNotice_of_first : dropNotice (pre ++ .notice v :: post) = pre ++ post := by
  refine eraseP_of_first (fun m hm => ?_) rfl
  split
  · exact absurd rfl (hpre _ hm _)
  · exact Bool.false_ne_true

/-- The first notice of a port's mail is taken, before or behind its requests. -/
theorem takeNotice_of_first {p : PortId} {s : State} (hmail : (s.port p).lockMail = pre ++ .notice v :: post)
    (f : LockUnit → LockUnit × Answers) : takeNotice v p f s = requestTaken p (pre ++ post) (f s.locks) s := by
  rw [takeNotice, hmail, if_pos (nextNotice_of_first hpre)]
  dsimp only
  rw [requestTaken, modPort_eq, modPort_eq, hmail, dropNotice_of_first hpre]

end

/-! ## Answers to the notice's own port -/

theorem requestTaken_own {α : Type} (p : PortId) (rest : List LockMail) (u : LockUnit) (l : List α) (answer : α → LockAnswer)
    (s : State) :
    requestTaken p rest (u, l.map fun w => (p, answer w)) s =
      s.setPortLocks p (l.foldl (fun h w => takeLockAnswer (answer w) h) { s.port p with lockMail := rest }) u := by
  have hanswers : (l.map fun w => (p, answer w)) = (l.map answer).map fun a => (p, a) := by
    rw [List.map_map]
    rfl
  rw [requestTaken, hanswers, deliver_port_eq, List.foldl_map]
  cases p <;> rfl

theorem endNotices_ignored (l : List CtxId) {h : HostPort} (hstate : h.state ≠ .faulted) :
    l.foldl (fun k c => endNotice c k) h = h := by
  induction l with
  | nil => rfl
  | cons c l ih =>
    have hsame : endNotice c h = h := if_neg hstate
    rw [List.foldl_cons, hsame, ih]

theorem waitersOf_eq (p : PortId) (u : LockUnit) :
    waitersOf p u = (List.range 256).flatMap fun k => u.pool.filter fun w => w.lock.val = k && w.party.port = p := by
  rw [waitersOf, List.range_eq_range']

/-! ## The three rows -/

section
variable {p : PortId} {s : State} {pre post : List LockMail} (hpre : ∀ m ∈ pre, ∀ u, m ≠ .notice u)
include hpre

theorem exec_lockRunningNotice (hmail : (s.port p).lockMail = pre ++ .notice .running :: post) :
    exec (.lockRunningNotice p) s =
      .next (s.setPortLocks p { s.port p with lockMail := pre ++ post } (s.locks.setView p .running)) := by
  show Host.Outcome.next (takeNotice .running p _ s) = _
  rw [takeNotice_of_first hpre hmail]
  cases p <;> rfl

theorem exec_lockDrainNotice (hmail : (s.port p).lockMail = pre ++ .notice .draining :: post) :
    exec (.lockDrainNotice p) s =
      .next
        (s.setPortLocks p
          ((waitersOf p s.locks).foldl
            (fun h w => handCompletion w.ctx .cancelled (.lock false (s.locks.table[w.lock]).holder) h)
            { s.port p with lockMail := pre ++ post })
          ((dropWaiters p s.locks).setView p .draining)) := by
  show Host.Outcome.next (takeNotice .draining p _ s) = _
  rw [takeNotice_of_first hpre hmail]
  exact congrArg Host.Outcome.next (requestTaken_own p _ _ (waitersOf p s.locks)
    (fun w => .completion w.ctx .cancelled false (s.locks.table[w.lock]).holder) s)

theorem exec_lockFaultNotice (hmail : (s.port p).lockMail = pre ++ .notice .faulted :: post) :
    exec (.lockFaultNotice p) s =
      .next
        (s.setPortLocks p
          (((waitersOf p s.locks).map Waiter.ctx).foldl (fun h c => endNotice c h)
            { s.port p with lockMail := pre ++ post })
          ((dropWaiters p s.locks).setView p .faulted)) := by
  show Host.Outcome.next (takeNotice .faulted p _ s) = _
  rw [takeNotice_of_first hpre hmail, List.foldl_map]
  exact congrArg Host.Outcome.next
    (requestTaken_own p _ _ (waitersOf p s.locks) (fun w => .endNotice w.ctx) s)

end

/-- Settles O31: the notice is the first of its port, and every answer goes to that port, in the order of the waiters. -/
theorem portNoticesRemoveThePortsWaiters : Obligations.PortNoticesRemoveThePortsWaiters := by
  intro p s pre post v hmail hpre h left removed
  have hremoved : waitersOf p s.locks = removed := waitersOf_eq p s.locks
  refine ⟨?_, ?_, ?_⟩
  · rintro rfl
    exact exec_lockRunningNotice hpre hmail
  · rintro rfl
    refine ⟨_, exec_lockDrainNotice hpre hmail, ?_⟩
    rw [setPortLocks_port, hremoved]
    refine ⟨rfl, ?_⟩
    have htaken := handCompletions_taken
      (removed.map fun w => (w.ctx, .cancelled, .lock false (s.locks.table[w.lock]).holder)) h
    rwa [List.foldl_map] at htaken
  · rintro rfl
    refine ⟨_, exec_lockFaultNotice hpre hmail, ?_⟩
    rw [setPortLocks_port, hremoved]
    exact ⟨rfl, endNotices_freed (removed.map Waiter.ctx) h, endNotices_ignored (removed.map Waiter.ctx)⟩

end Sys2Proof.Machine
end

section
/-! O32. The port reset notice: one lock after another is released with abandonment, each by itself (R99, R100). -/

namespace Sys2Proof.Machine

/-! ## One lock of the table -/

/-- A lock's record and its waiters, oldest first. -/
def atLock (u : LockUnit) (k : LockId) : LockRecord × List Waiter := (u.table[k], lockQueue u k)

/-- The answer to a waiter that takes over an abandoned lock (R100). -/
def grantAnswer (w : Waiter) : PortId × LockAnswer := (w.party.port, .completion w.ctx .ok true (some w.party))

theorem setLock_atLock (k j : LockId) (r : LockRecord) (u : LockUnit) :
    atLock (setLock k r u) j = (if j = k then r else u.table[j], lockQueue u j) := by
  rw [atLock, setLock_table]
  rfl

/-- A lock released with abandonment passes to its oldest waiter, or is free with the mark set; no other lock is touched. -/
theorem passLock_atLock (k j : LockId) (u : LockUnit) :
    atLock (passLock true k u).1 j =
      if j = k then (⟨(lockQueue u k).head?.map Waiter.party, (lockQueue u k).isEmpty⟩, (lockQueue u k).tail)
      else atLock u j := by
  rcases no_waiter_or_oldest k u.pool with hnone | ⟨pre, w, post, hpool, hpre, hw⟩
  · have hqueue : lockQueue u k = [] := List.filter_eq_nil_iff.mpr (by simpa using hnone)
    rw [passLock_of_none true hnone, setLock_atLock]
    split
    · rename_i hj
      rw [hj, hqueue]
      rfl
    · rfl
  · have hfirst : pre.filter (fun x => x.lock = k) = [] := List.filter_eq_nil_iff.mpr (by simpa using hpre)
    rw [passLock_of_oldest true hpool hpre hw, setLock_atLock]
    split
    · rename_i hj
      simp [hj, lockQueue, hpool, hfirst, hw]
    · rename_i hj
      have hj' : w.lock ≠ j := fun h => hj (h.symm.trans hw)
      simp [atLock, lockQueue, hpool, hj']

theorem passLock_answers (k : LockId) (u : LockUnit) : (passLock true k u).2 = (lockQueue u k).head?.toList.map grantAnswer := by
  have hhead : (lockQueue u k).head? = u.pool.find? fun w => w.lock = k := List.head?_filter ..
  rw [hhead, passLock]
  split
  · rename_i h
    rw [h]
    rfl
  · rename_i h
    rw [h]
    rfl

/-! ## The locks of the port, in order (R99) -/

/-- A lock after the reset notice of port `p`: as it was, or released with abandonment if the port held it. -/
def afterReset (p : PortId) (x : LockRecord × List Waiter) : LockRecord × List Waiter :=
  if x.1.holder.map Party.port = some p then (⟨x.2.head?.map Waiter.party, x.2.isEmpty⟩, x.2.tail) else x

/-- The waiter that a reset notice of port `p` grants a lock to. -/
def grantedAt (p : PortId) (x : LockRecord × List Waiter) : Option Waiter :=
  if x.1.holder.map Party.port = some p then x.2.head? else none

section
variable (p : PortId)

theorem abandonLock_eq (x : LockUnit × Answers) (k : LockId) :
    abandonLock p x k =
      if (atLock x.1 k).1.holder.map Party.port = some p then
        ((passLock true k x.1).1, x.2 ++ (passLock true k x.1).2)
      else x :=
  rfl

theorem abandonLock_atLock (x : LockUnit × Answers) (k j : LockId) :
    atLock (abandonLock p x k).1 j = if j = k then afterReset p (atLock x.1 k) else atLock x.1 j := by
  rw [abandonLock_eq, afterReset]
  split
  · exact passLock_atLock k j x.1
  · split
    · rename_i hj
      rw [hj]
    · rfl

theorem abandonLock_answers (x : LockUnit × Answers) (k : LockId) :
    (abandonLock p x k).2 = x.2 ++ (grantedAt p (atLock x.1 k)).toList.map grantAnswer := by
  rw [abandonLock_eq, grantedAt]
  split
  · exact congrArg (x.2 ++ ·) (passLock_answers k x.1)
  · exact (List.append_nil x.2).symm

/-- Locks taken one after another, each once: every one of them is dealt with as it stood at first. -/
theorem abandonLocks_spec (ks : List LockId) (hks : ks.Nodup) (x : LockUnit × Answers) :
    (∀ j, atLock (ks.foldl (abandonLock p) x).1 j = if j ∈ ks then afterReset p (atLock x.1 j) else atLock x.1 j) ∧
      (ks.foldl (abandonLock p) x).2 = x.2 ++ (ks.filterMap fun k => grantedAt p (atLock x.1 k)).map grantAnswer := by
  induction ks generalizing x with
  | nil => exact ⟨fun j => rfl, by simp⟩
  | cons k ks ih =>
    obtain ⟨hk, hks⟩ := List.nodup_cons.mp hks
    obtain ⟨hat, hanswers⟩ := ih hks (abandonLock p x k)
    rw [List.foldl_cons]
    refine ⟨fun j => ?_, ?_⟩
    · rw [hat, abandonLock_atLock]
      by_cases hj : j = k
      · subst hj
        simp [hk]
      · simp [hj]
    · have hsame : ks.filterMap (fun j => grantedAt p (atLock (abandonLock p x k).1 j)) =
          ks.filterMap fun j => grantedAt p (atLock x.1 j) := by
        refine List.filterMap_congr fun j hj => ?_
        rw [abandonLock_atLock, if_neg (ne_of_mem_of_not_mem hj hk)]
      rw [hanswers, hsame, abandonLock_answers, List.append_assoc, ← List.map_append]
      congr 2
      cases hg : grantedAt p (atLock x.1 k) <;> simp [hg]

end

theorem passLock_view (abandoned : Bool) (k : LockId) (u : LockUnit) (q : PortId) :
    (passLock abandoned k u).1.view q = u.view q := by
  unfold passLock
  split <;> cases q <;> rfl

theorem passLock_pool_subset (abandoned : Bool) (k : LockId) (u : LockUnit) : (passLock abandoned k u).1.pool ⊆ u.pool := by
  unfold passLock
  split
  · exact List.eraseP_subset
  · exact List.Subset.refl _

/-- Locks released one after another keep the port states held, and no waiter joins. -/
theorem abandonLocks_kept (p : PortId) (ks : List LockId) (x : LockUnit × Answers) :
    (∀ q, (ks.foldl (abandonLock p) x).1.view q = x.1.view q) ∧ (ks.foldl (abandonLock p) x).1.pool ⊆ x.1.pool := by
  induction ks generalizing x with
  | nil => exact ⟨fun q => rfl, List.Subset.refl _⟩
  | cons k ks ih =>
    have hstep : (∀ q, (abandonLock p x k).1.view q = x.1.view q) ∧ (abandonLock p x k).1.pool ⊆ x.1.pool := by
      rw [abandonLock_eq]
      split
      · exact ⟨passLock_view true k x.1, passLock_pool_subset true k x.1⟩
      · exact ⟨fun q => rfl, List.Subset.refl _⟩
    obtain ⟨hview, hpool⟩ := ih (abandonLock p x k)
    exact ⟨fun q => (hview q).trans (hstep.1 q), List.Subset.trans hpool hstep.2⟩

/-! ## The notice whole (R99) -/

theorem allLocks_eq : (List.range' 0 256).map (Fin.ofNat 256) = List.finRange 256 := by decide +kernel

section
variable (p : PortId) (u : LockUnit)

/-- The waiters of the other port for a lock, oldest first. -/
def othersAt (k : LockId) : List Waiter := u.pool.filter fun w => w.lock = k && w.party.port != p

theorem eq_other_of_ne : ∀ {p q : PortId}, q ≠ p → q = p.other := by
  rintro (_ | _) (_ | _) hne
  · exact absurd rfl hne
  · rfl
  · rfl
  · exact absurd rfl hne

theorem mem_othersAt {k : LockId} {w : Waiter} (hw : w ∈ othersAt p u k) : w.party.port = p.other := by
  obtain ⟨-, htest⟩ := List.mem_filter.mp hw
  obtain ⟨-, hport⟩ := Bool.and_eq_true_iff.mp htest
  exact eq_other_of_ne (bne_iff_ne.mp hport)

theorem dropped_atLock (k : LockId) : atLock ((dropWaiters p u).setView p .resetting) k = (u.table[k], othersAt p u k) := by
  have hqueue : lockQueue ((dropWaiters p u).setView p .resetting) k = othersAt p u k := by
    rw [lockQueue, setView_pool, dropWaiters, List.filter_filter, othersAt]
    refine List.filter_congr fun w _ => ?_
    rw [decide_not]
    rfl
  rw [atLock, hqueue, setView_table]
  rfl

theorem takeReset_atLock (k : LockId) : atLock (takeReset p u).1 k = afterReset p (u.table[k], othersAt p u k) := by
  obtain ⟨hat, -⟩ :=
    abandonLocks_spec p (List.finRange 256) (List.nodup_finRange 256) ((dropWaiters p u).setView p .resetting, [])
  rw [takeReset, allLocks_eq, hat, if_pos (List.mem_finRange k), dropped_atLock]

/-- The waiters granted an abandoned lock, by lock number. -/
def resetGrants : List Waiter := (List.finRange 256).filterMap fun k => grantedAt p (u.table[k], othersAt p u k)

theorem takeReset_answers :
    (takeReset p u).2 = (resetGrants p u).map fun w => (p.other, .completion w.ctx .ok true (some w.party)) := by
  obtain ⟨-, hanswers⟩ :=
    abandonLocks_spec p (List.finRange 256) (List.nodup_finRange 256) ((dropWaiters p u).setView p .resetting, [])
  simp only [dropped_atLock] at hanswers
  rw [takeReset, allLocks_eq, hanswers, List.nil_append]
  refine List.map_congr_left fun w hw => ?_
  obtain ⟨k, -, hk⟩ := List.mem_filterMap.mp hw
  have hmem : w ∈ othersAt p u k := by
    unfold grantedAt at hk
    split at hk
    · exact List.mem_of_mem_head? hk
    · cases hk
  rw [grantAnswer, mem_othersAt p u hmem]

theorem takeReset_kept :
    (takeReset p u).1.view p = .resetting ∧ (takeReset p u).1.view p.other = u.view p.other ∧
      ∀ w ∈ (takeReset p u).1.pool, w ∈ u.pool ∧ w.party.port ≠ p := by
  obtain ⟨hview, hpool⟩ := abandonLocks_kept p (List.finRange 256) ((dropWaiters p u).setView p .resetting, [])
  rw [takeReset, allLocks_eq]
  refine ⟨(hview p).trans (view_setView_same ..), (hview p.other).trans (view_setView_other ..), fun w hw => ?_⟩
  have hdropped : w ∈ (dropWaiters p u).pool := setView_pool (dropWaiters p u) p .resetting ▸ hpool hw
  simpa using List.mem_filter.mp hdropped

end

/-- Answers to the other port alone. -/
theorem requestTaken_elsewhere {α : Type} (p : PortId) (rest : List LockMail) (u : LockUnit) (l : List α)
    (answer : α → LockAnswer) (s : State) :
    (requestTaken p rest (u, l.map fun w => (p.other, answer w)) s).port p = { s.port p with lockMail := rest } ∧
      (requestTaken p rest (u, l.map fun w => (p.other, answer w)) s).port p.other =
        l.foldl (fun h w => takeLockAnswer (answer w) h) (s.port p.other) := by
  have hanswers : (l.map fun w => (p.other, answer w)) = (l.map answer).map fun a => (p.other, a) := by
    rw [List.map_map]
    rfl
  rw [requestTaken, hanswers, deliver_port_eq, List.foldl_map]
  cases p <;> exact ⟨rfl, rfl⟩

/-- Settles O32: every lock stands as the notice leaves it by itself, and the grants go to the other port, by lock number. -/
theorem resetNoticeAbandonsThePortsLocks : Obligations.ResetNoticeAbandonsThePortsLocks := by
  intro p s pre post hmail hpre others held granted other
  have hexec : exec (.lockResetNotice p) s = .next (requestTaken p (pre ++ post) (takeReset p s.locks) s) := by
    show Host.Outcome.next (takeNotice .resetting p _ s) = _
    rw [takeNotice_of_first hpre hmail]
  obtain ⟨hview, hviewOther, hpool⟩ := takeReset_kept p s.locks
  have hgranted : resetGrants p s.locks = granted := List.filterMap_congr fun k _ => rfl
  have hanswers : takeReset p s.locks =
      ((takeReset p s.locks).1, granted.map fun w => (p.other, .completion w.ctx .ok true (some w.party))) := by
    rw [← hgranted, ← takeReset_answers]
  obtain ⟨hport, hportOther⟩ := requestTaken_elsewhere p (pre ++ post) (takeReset p s.locks).1 granted
    (fun w => .completion w.ctx .ok true (some w.party)) s
  rw [← hanswers] at hport hportOther
  have hlocks := requestTaken_locks (p := p) (rest := pre ++ post) (s := s) (takeReset p s.locks)
  refine ⟨_, hexec, requestTaken_frame _, ?_⟩
  rw [hlocks, hport, hportOther]
  refine ⟨hview, hviewOther, hpool, rfl, ?_, fun k => ?_⟩
  · have htaken := handCompletions_taken (granted.map fun w => (w.ctx, .ok, .lock true (some w.party))) other
    rwa [List.foldl_map] at htaken
  · have hk : ((takeReset p s.locks).1.table[k], lockQueue (takeReset p s.locks).1 k) =
        afterReset p (s.locks.table[k], others k) := takeReset_atLock p s.locks k
    refine ⟨fun hnot => ?_, fun hheld => ?_⟩
    · rw [afterReset, if_neg hnot] at hk
      exact Prod.mk.inj hk
    · rw [afterReset, if_pos hheld] at hk
      obtain ⟨htable, hleft⟩ := Prod.mk.inj hk
      split
      · rename_i w ws hothers
        rw [hothers] at htable hleft
        exact ⟨htable, hleft⟩
      · rename_i hothers
        rw [hothers] at htable hleft
        exact ⟨htable, hleft⟩

end Sys2Proof.Machine
end

section
/-! O38. The end of the setup read: the fields in range, the entry to RUNNING, and the two faults (R108). -/

namespace Sys2Proof.Machine

/-! ## The fields of a setup block (R108) -/

theorem ringSizeOk_iff (n : Nat) : ringSizeOk n = true ↔ ∃ m, 4 ≤ m ∧ m ≤ 12 ∧ n = 2 ^ m := by
  constructor
  · intro h
    have hmem : n ∈ (List.range' 4 9).map (2 ^ ·) := List.contains_iff_mem.mp h
    obtain ⟨m, hm, rfl⟩ := List.mem_map.mp hmem
    have := List.mem_range'_1.mp hm
    exact ⟨m, by omega, by omega, rfl⟩
  · rintro ⟨m, hlow, hhigh, rfl⟩
    interval_cases m <;> rfl

theorem reservedZero_iff (b : BitVec 512) (first last : Nat) :
    reservedZero b first last = true ↔ b.extractLsb' (8 * first) (8 * (last - first)) = 0 := by
  rw [reservedZero, beq_iff_eq, fieldNat, field, BitVec.toNat_eq]
  rfl

/-- Every field of a setup block is in range (the tables of R108 and section 11.2). -/
def SetupFieldsFit (b : BitVec 512) : Prop :=
  let entries (byte : Nat) : Prop := ∃ n, 4 ≤ n ∧ n ≤ 12 ∧ (b.extractLsb' (8 * byte) 16).toNat = 2 ^ n
  let enable := (b.extractLsb' (8 * 32) 8).toNat
  (b.extractLsb' 0 64).toNat % 64 = 0 ∧ (b.extractLsb' (8 * 8) 64).toNat % 32 = 0 ∧ entries 16 ∧ entries 18 ∧
    enable ≤ 1 ∧ (enable = 1 → (b.extractLsb' (8 * 20) 64).toNat % 4 = 0) ∧ 1 ≤ (b.extractLsb' (8 * 33) 8).toNat ∧
    (b.extractLsb' (8 * 36) 8).toNat ≤ 3 ∧ b.extractLsb' (8 * 37) (8 * 27) = 0#(8 * 27)

/-- The values of a setup block, field by field. -/
def setupValuesAt (b : BitVec 512) : SetupValues where
  sqBase := (b.extractLsb' 0 64).toNat
  sqEntries := (b.extractLsb' (8 * 16) 16).toNat
  cqBase := (b.extractLsb' (8 * 8) 64).toNat
  cqEntries := (b.extractLsb' (8 * 18) 16).toNat
  msgAddr := b.extractLsb' (8 * 20) 64
  msgData := b.extractLsb' (8 * 28) 32
  msgEnable := (b.extractLsb' (8 * 32) 8).toNat == 1
  coalesce := (b.extractLsb' (8 * 33) 8).toNat
  quiet := (b.extractLsb' (8 * 34) 16).toNat
  selector := Fin.ofNat 4 (b.extractLsb' (8 * 36) 8).toNat

section
variable {b : BitVec 512}

theorem setupFieldsFit_iff :
    SetupFieldsFit b ↔
      fieldNat b 0 8 % 64 = 0 ∧ fieldNat b 8 8 % 32 = 0 ∧ ringSizeOk (fieldNat b 16 2) = true ∧
        ringSizeOk (fieldNat b 18 2) = true ∧ fieldNat b 32 1 ≤ 1 ∧
        (fieldNat b 32 1 = 1 → (field b 20 64).toNat % 4 = 0) ∧ 1 ≤ fieldNat b 33 1 ∧ fieldNat b 36 1 ≤ 3 ∧
        reservedZero b 37 64 = true := by
  rw [ringSizeOk_iff, ringSizeOk_iff, reservedZero_iff]
  rfl

theorem setupValuesOf_of_fit (h : SetupFieldsFit b) : setupValuesOf b = some (setupValuesAt b) :=
  if_pos (setupFieldsFit_iff.mp h)

theorem setupValuesOf_of_not_fit (h : ¬ SetupFieldsFit b) : setupValuesOf b = none :=
  if_neg (mt setupFieldsFit_iff.mpr h)

end

/-! ## The row (R88, R108, R157) -/

theorem enterRunning_eq (v : SetupValues) (h : HostPort) :
    enterRunning v h =
      { h with
        values := some v, state := .running, lockMail := h.lockMail ++ [.notice .running],
        sent := h.sent ++ if h.alertCause then messageOf { h with values := some v } else [] } := by
  unfold enterRunning
  dsimp only
  rw [sendMessage_eq]
  cases h.alertCause <;> simp [mailLock, messageOf]

section
variable {p : PortId} {s : State} (hread : (s.port p).setupRead.isSome = true)
include hread

theorem exec_setupFetchDone_of_not_setup (block : Option (BitVec 512)) (hstate : (s.port p).state ≠ .setup) :
    exec (.setupFetchDone p block) s = .next (s.setPort p { s.port p with setupRead := none }) := by
  show execSetupFetchDone p block s = _
  rw [execSetupFetchDone, if_pos hread, if_neg hstate, modPort_eq]

variable (hstate : (s.port p).state = .setup)
include hstate

theorem exec_setupFetchDone_of_failed :
    exec (.setupFetchDone p none) s =
      .next (faultPort p .setupFetchError (s.setPort p { s.port p with setupRead := none })) := by
  show execSetupFetchDone p none s = _
  rw [execSetupFetchDone, if_pos hread, if_pos hstate, modPort_eq]

theorem exec_setupFetchDone_of_bad {b : BitVec 512} (hfit : ¬ SetupFieldsFit b) :
    exec (.setupFetchDone p (some b)) s =
      .next (faultPort p .setupInvalid (s.setPort p { s.port p with setupRead := none })) := by
  show execSetupFetchDone p (some b) s = _
  rw [execSetupFetchDone, if_pos hread, if_pos hstate, modPort_eq]
  simp only [setupValuesOf_of_not_fit hfit]

theorem exec_setupFetchDone_of_good {b : BitVec 512} (hfit : SetupFieldsFit b) :
    exec (.setupFetchDone p (some b)) s =
      .next (s.setPort p (enterRunning (setupValuesAt b) { s.port p with setupRead := none })) := by
  show execSetupFetchDone p (some b) s = _
  rw [execSetupFetchDone, if_pos hread, if_pos hstate, modPort_eq]
  simp only [setupValuesOf_of_fit hfit, modPort_eq, port_setPort_same, setPort_setPort]

end

/-- Settles O38: the block's fields decide between the fault and the entry to RUNNING with their values. -/
theorem setupReadEndsInRunningOrFaulted : Obligations.SetupReadEndsInRunningOrFaulted := by
  intro p s block hread h s1
  refine ⟨exec_setupFetchDone_of_not_setup hread block, fun hstate => ⟨?_, ?_⟩⟩
  · rintro rfl
    exact ⟨_, exec_setupFetchDone_of_failed hread hstate, faultPort_entered p _ s1⟩
  · rintro b rfl entries enable good
    refine ⟨fun hbad => ⟨_, exec_setupFetchDone_of_bad hread hstate hbad, faultPort_entered p _ s1⟩, fun hgood => ?_⟩
    obtain ⟨-, -, -, -, -, -, -, hselector, -⟩ := id hgood
    refine ⟨setupValuesAt b,
      ⟨rfl, rfl, rfl, rfl, rfl, rfl, beq_iff_eq, rfl, rfl, Nat.mod_eq_of_lt (Nat.lt_succ_of_le hselector)⟩, ?_⟩
    rw [exec_setupFetchDone_of_good hread hstate hgood, enterRunning_eq]

end Sys2Proof.Machine
end

section
/-! O58. The event causes of a port follow their conditions: what keeps them at one port, the notices of the Incident List, and
every row (R106, R155, R156, R172). -/

namespace Sys2Proof.Machine

/-! ## One port -/

section
variable {records : List IncidentRecord} {h k : HostPort}

/-- Work on a port's commands leaves its causes and what they follow. -/
theorem PortOk.same (hok : PortOk records h) (hsame : SameControl h k) : PortOk records k := by
  unfold PortOk at hok ⊢
  rwa [hsame.doneCause, hsame.announced, hsame.unconsumed, hsame.faultCause, hsame.state, hsame.alertCause, hsame.notices,
    hsame.linkUp]

/-- A port in a state that uses its link has it (R106). -/
theorem PortOk.link (hok : PortOk records h) (hstate : h.state ≠ .off ∧ h.state ≠ .resetting) : h.linkUp = true := by
  obtain ⟨-, -, -, -, hlink⟩ := hok
  by_contra hdown
  exact (hlink (by simpa using hdown)).elim hstate.1 hstate.2

/-- FAULT is not pending in any state but FAULTED (R156). -/
theorem PortOk.no_fault (hok : PortOk records h) (hstate : h.state ≠ .faulted) : h.faultCause = false := by
  obtain ⟨-, -, hfault, -, -⟩ := hok
  simpa using mt hfault.mp hstate

/-- ALERT and the notices that wait rest on whether the list has a record alone. -/
theorem PortOk.of_records {records' : List IncidentRecord} (hok : PortOk records h) (hempty : records'.isEmpty = records.isEmpty) :
    PortOk records' h := by
  unfold PortOk
  rw [hempty]
  exact hok

/-- A notice given to a port tells of the change that made it: the list's first record, or its last one gone (R172). -/
theorem PortOk.notified {records' : List IncidentRecord} {n : AlertNotice} (hok : PortOk records h) (hk : Notified n h k)
    (hn : n = if records.isEmpty then .nonEmpty else .empty) (hempty : records'.isEmpty = !records.isEmpty) :
    PortOk records' k := by
  obtain ⟨hdone, hcount, hfault, halert, hlink⟩ := hok
  have hfollows := hk.follows halert (by rw [hn]; cases records.isEmpty <;> rfl)
  rw [← hempty] at hfollows
  rcases hk with rfl | rfl <;> exact ⟨hdone, hcount, hfault, hfollows, hlink⟩

/-- A port that takes the oldest notice that waits at it. -/
theorem PortOk.takeAlert (hok : PortOk records h) : PortOk records (takeAlert h) := by
  cases hn : h.notices with
  | nil => simpa [Machine.takeAlert, hn] using hok
  | cons n rest =>
    rw [takeAlert_eq hn]
    obtain ⟨hdone, hcount, hfault, halert, hlink⟩ := hok
    rw [hn] at halert
    exact ⟨hdone, hcount, hfault, AlertFollows.take (ns := [n]) halert, hlink⟩

/-- An announce: DONE is pending if a record is unconsumed, and every unconsumed record is then announced (R154, R155). -/
theorem PortOk.announce (hok : PortOk records h) : PortOk records (announce h) := by
  obtain ⟨hdone, hcount, hfault, halert, hlink⟩ := hok
  unfold Machine.announce
  dsimp only
  split
  · rename_i hzero
    refine ⟨hdone.trans ?_, Nat.le_refl _, hfault, halert, hlink⟩
    rw [hzero] at hcount
    simp [hzero, Nat.le_zero.mp hcount]
  · rename_i hsome
    rw [sendMessage_eq]
    exact ⟨by simpa using hsome, Nat.le_refl _, hfault, halert, hlink⟩

theorem PortOk.announceTests (now : Time) (notify : Bool) (hok : PortOk records h) :
    PortOk records (announceTests now notify h) := by
  unfold Machine.announceTests
  split
  · exact hok
  · split
    · exact hok.announce
    · split
      · exact hok
      · exact hok

/-- One more record is unconsumed, and none more is announced (R150). -/
theorem PortOk.recordInRing (c : CtxId) (hok : PortOk records h) : PortOk records (recordInRing c h) := by
  unfold Machine.recordInRing
  split
  · exact hok
  · refine PortOk.same ?_ (freeContext_same c _)
    obtain ⟨hdone, hcount, hfault, halert, hlink⟩ := hok
    exact ⟨hdone, Nat.le_succ_of_le hcount, hfault, halert, hlink⟩

theorem PortOk.recordAccepted (now : Time) (r : RecordWrite) (hok : PortOk records h) : PortOk records (recordAccepted now r h) := by
  unfold Machine.recordAccepted
  refine PortOk.same (PortOk.announceTests _ _ ?_) (issueRecord_same _)
  have hring : PortOk records
      (Machine.recordInRing r.completion.ctx (confirmSent r.mark { h with recordWrite := none, writeList := h.writeList.tail })) :=
    PortOk.recordInRing r.completion.ctx hok
  exact hring

/-- A CONSUME of records that are unconsumed leaves announced records among them (R110, R155). -/
theorem PortOk.takeConsume (v n : Nat) (hok : PortOk records h) : PortOk records (takeConsume v n h) := by
  obtain ⟨hdone, hcount, hfault, halert, hlink⟩ := hok
  refine ⟨?_, Nat.sub_le_sub_right hcount n, hfault, halert, hlink⟩
  show (if h.announced - n = 0 then false else h.doneCause) = true ↔ h.announced - n ≠ 0
  split
  · simp [*]
  · rw [hdone]; omega

/-- A record taken (R112). -/
theorem PortOk.takeRecord (v : SetupValues) (c : CtxId) (r : BitVec 512) (hok : PortOk records h) :
    PortOk records (takeRecord v c r h) := by
  have hoccupied : PortOk records (occupyContext v c r h) := hok
  unfold Machine.takeRecord
  dsimp only
  split
  · exact hoccupied.same (handCompletion_same _ _ _ _)
  · refine PortOk.same ?_ (advance_same _)
    exact hoccupied

/-- Entry to FAULTED sets FAULT, at a port that has its link (R123, R156). -/
theorem PortOk.enterFaulted (code : FaultCode) (hok : PortOk records h) (hlinkUp : h.linkUp = true) :
    PortOk records (enterFaulted code h) := by
  obtain ⟨hdone, hcount, -, halert, -⟩ := hok
  rw [enterFaulted_frame]
  exact ⟨hdone, hcount, by simp, halert, fun hdown => by simp [hlinkUp] at hdown⟩

/-- Entry to RESETTING clears DONE and FAULT with what they stand for (R124, R160). -/
theorem PortOk.enterResetting (hok : PortOk records h) : PortOk records (enterResetting h) := by
  obtain ⟨-, -, -, halert, -⟩ := hok
  exact ⟨by simp [Machine.enterResetting], Nat.zero_le _, by simp [Machine.enterResetting], halert, fun _ => .inr rfl⟩

theorem PortOk.enterSetup (hok : PortOk records h) (hlinkUp : h.linkUp = true) : PortOk records (enterSetup h) := by
  obtain ⟨-, -, -, halert, -⟩ := hok
  exact ⟨by simp [Machine.enterSetup], Nat.le_refl _, by simp [Machine.enterSetup], halert,
    fun hdown => by simp [Machine.enterSetup, hlinkUp] at hdown⟩

/-- A port that comes to OFF, or to another state with its link up, from a state that was not FAULTED. -/
theorem PortOk.setState {st : PortState} (hok : PortOk records h) (hfaulted : h.state ≠ .faulted) (hst : st ≠ .faulted)
    (hlinkUp : st = .off ∨ h.linkUp = true) : PortOk records { h with state := st } := by
  have hclear := hok.no_fault hfaulted
  obtain ⟨hdone, hcount, -, halert, -⟩ := hok
  refine ⟨hdone, hcount, by simp [hclear, hst], halert, fun hdown => ?_⟩
  rcases hlinkUp with hoff | hup
  · exact .inl hoff
  · simp [hup] at hdown

end

/-- A port in service is neither OFF nor RESETTING. -/
theorem outside_of_service {h : HostPort} (hservice : h.inService = true) : h.state ≠ .off ∧ h.state ≠ .resetting := by
  simp only [HostPort.inService, Bool.or_eq_true, beq_iff_eq] at hservice
  rcases hservice with hs | hs <;> simp [hs]

theorem announce_state (h : HostPort) : (announce h).state = h.state := by
  unfold announce
  dsimp only
  split
  · rfl
  · rw [sendMessage_eq]

theorem migratedNotice_same (l : LogSeg) (h : HostPort) : SameControl h (migratedNotice l h) := by
  have key (cs : List CtxId) (k : HostPort) : SameControl k (cs.foldl (fun k c => handCompletion c .ok .none k) k) := by
    induction cs generalizing k with
    | nil => exact .refl k
    | cons c cs ih => exact (handCompletion_same c _ _ k).trans (ih _)
  exact key _ h

/-! ## Both ports -/

theorem portsOk_iff {s : State} : PortsOk s ↔ ∀ p, PortOk s.incidents.records (s.port p) :=
  ⟨fun h p => by cases p <;> [exact h.1; exact h.2], fun h => ⟨h .p0, h .p1⟩⟩

/-- Between `s` and `t` no port's control state changed, and the records of the Incident List stay. -/
structure CausesKept (s t : State) : Prop where
  records : t.incidents.records = s.incidents.records
  ports : ∀ p, SameControl (s.port p) (t.port p)

namespace CausesKept

theorem refl (s : State) : CausesKept s s := ⟨rfl, fun _ => .refl _⟩

theorem trans {s t u : State} (h : CausesKept s t) (k : CausesKept t u) : CausesKept s u :=
  ⟨k.records.trans h.records, fun p => (h.ports p).trans (k.ports p)⟩

theorem portsOk {s t : State} (h : CausesKept s t) (hok : PortsOk s) : PortsOk t :=
  portsOk_iff.mpr fun p => by
    rw [h.records]
    exact (portsOk_iff.mp hok p).same (h.ports p)

theorem modPort (s : State) (p : PortId) {f : HostPort → HostPort} (hf : SameControl (s.port p) (f (s.port p))) :
    CausesKept s (s.modPort p f) := by
  refine ⟨by simp, fun q => ?_⟩
  by_cases hq : q = p
  · subst hq
    rwa [port_modPort_same]
  · rw [port_modPort_ne s f hq]
    exact .refl _

theorem deliver (as : Answers) (s : State) : CausesKept s (deliver as s) :=
  ⟨by rw [deliver_frame], deliver_port as s⟩

theorem setLocks (u : LockUnit) (s : State) : CausesKept s { s with locks := u } :=
  ⟨rfl, fun p => by cases p <;> exact .refl _⟩

theorem setMaint (m : MaintUnit) (s : State) : CausesKept s { s with maint := m } :=
  ⟨rfl, fun p => by cases p <;> exact .refl _⟩

theorem setMail (p : PortId) (rest : List LockMail) (s : State) :
    CausesKept s (s.modPort p fun h => { h with lockMail := rest }) :=
  modPort s p (f := fun h => { h with lockMail := rest }) rfl

/-- A request or notice taken by the Lock Unit: the mail goes on, and the answers reach the ports. -/
theorem taken (p : PortId) (rest : List LockMail) (u : LockUnit) (as : Answers) (s : State) :
    CausesKept s (Machine.deliver as { s.modPort p fun h => { h with lockMail := rest } with locks := u }) :=
  ((setMail p rest s).trans (setLocks u _)).trans (deliver as _)

theorem takeNotice (v : LockView) (p : PortId) (f : LockUnit → LockUnit × Answers) (s : State) :
    CausesKept s (takeNotice v p f s) := by
  unfold Machine.takeNotice
  split
  · exact taken p (dropNotice (s.port p).lockMail) _ _ s
  · exact refl s

theorem stopRunning (p : PortId) (why : Stop) (s : State) : CausesKept s (stopRunning p why s) := by
  rcases stopRunning_port p why s with ⟨h, -⟩ | ⟨r, -, -, -, h⟩
  · rw [h]
    exact setMaint _ s
  · rw [h]
    exact (modPort s p (endNotice_same r.ctx _)).trans (setMaint _ _)

theorem startCommand (p : PortId) (s : State) : CausesKept s (startCommand p s) :=
  (modPort s p (f := fun h => { h with maintQueue := h.maintQueue.tail }) rfl).trans (setMaint _ _)

end CausesKept

section
variable {s t : State}

theorem PortsOk.of_frame (hok : PortsOk s) (hrecords : t.incidents.records = s.incidents.records)
    (hports : ∀ p, t.port p = s.port p) : PortsOk t :=
  CausesKept.portsOk ⟨hrecords, fun p => by rw [hports p]; exact .refl _⟩ hok

theorem PortsOk.modPort (hok : PortsOk s) (p : PortId) {f : HostPort → HostPort}
    (hf : PortOk s.incidents.records (s.port p) → PortOk s.incidents.records (f (s.port p))) : PortsOk (s.modPort p f) := by
  refine portsOk_iff.mpr fun q => ?_
  rw [modPort_incidents]
  by_cases hq : q = p
  · subst hq
    rw [port_modPort_same]
    exact hf (portsOk_iff.mp hok q)
  · rw [port_modPort_ne s f hq]
    exact portsOk_iff.mp hok q

theorem PortsOk.faultPort (hok : PortsOk s) (p : PortId) (code : FaultCode) (hlink : (s.port p).linkUp = true) :
    PortsOk (faultPort p code s) :=
  (CausesKept.stopRunning p .fault _).portsOk (hok.modPort p fun h => h.enterFaulted code hlink)

theorem PortsOk.resetPort (hok : PortsOk s) (p : PortId) : PortsOk (resetPort p s) := by
  refine (CausesKept.stopRunning p .reset _).portsOk ?_
  exact (hok.modPort p (f := enterResetting) PortOk.enterResetting).of_frame rfl fun q => by cases q <;> rfl

/-- A notice given to both ports as the list's first record comes or its last one goes. -/
theorem PortsOk.notifyPorts {l : IncidentList} {n : AlertNotice} (atOnce : PortId → Bool) (hok : PortsOk s)
    (hn : n = if s.incidents.records.isEmpty then .nonEmpty else .empty)
    (hempty : l.records.isEmpty = !s.incidents.records.isEmpty) : PortsOk (notifyPorts atOnce n { s with incidents := l }) := by
  rw [notifyPorts_eq]
  exact ⟨hok.1.notified (giveAlert_notified _ n _) hn hempty, hok.2.notified (giveAlert_notified _ n _) hn hempty⟩

/-- An append gives *non-empty* exactly as the list gets its first record (R170, R172). -/
theorem PortsOk.appendTelling (hok : PortsOk s) (atOnce : PortId → Bool) (i : Incident) : PortsOk (appendTelling atOnce i s) := by
  unfold Machine.appendTelling
  dsimp only
  split
  · split
    · rename_i hnil
      exact hok.notifyPorts atOnce (by simp [hnil]) (by simp [hnil])
    · rename_i hsome
      have hempty : s.incidents.records.isEmpty = false := by simpa using hsome
      exact ⟨hok.1.of_records (by simp [hempty]), hok.2.of_records (by simp [hempty])⟩
  · exact ⟨hok.1, hok.2⟩

theorem PortsOk.appendIncidents (hok : PortsOk s) (is : List Incident) : PortsOk (appendIncidents is s) := by
  unfold Machine.appendIncidents
  induction is generalizing s with
  | nil => exact hok
  | cons i is ih => exact ih (hok.appendTelling _ i)

/-- A record's removal gives *empty* exactly as the list loses its last record (R172, R173). -/
theorem PortsOk.removeIncident (hok : PortsOk s) (hsome : s.incidents.records ≠ []) : PortsOk (removeIncident s) := by
  have hempty : s.incidents.records.isEmpty = false := by simpa using hsome
  unfold Machine.removeIncident
  dsimp only
  split
  · rename_i hnil
    exact hok.notifyPorts _ (by simp [hempty]) (by simp [hempty, hnil])
  · rename_i hleft
    have hleft' : s.incidents.records.tail.isEmpty = false := by simpa using hleft
    exact ⟨hok.1.of_records (by simp [hempty, hleft']), hok.2.of_records (by simp [hempty, hleft'])⟩

theorem PortsOk.takeWaitingAlert (hok : PortsOk s) : PortsOk (takeWaitingAlert s) := by
  unfold Machine.takeWaitingAlert
  split
  · exact hok
  · exact hok.modPort .p0 PortOk.takeAlert
  · exact hok.modPort .p1 PortOk.takeAlert
  · split
    · exact hok.modPort .p0 PortOk.takeAlert
    · exact hok.modPort .p1 PortOk.takeAlert

end


theorem takeCopyResult_portsOk {s : State} (hok : PortsOk s) (k : Nat) (step : CopyStep) (r : Option LineResult) :
    PortsOk (takeCopyResult k step r s) := by
  have hissued (j : Job) (n : Nat) (x : LineResult) : PortsOk (issueCopyLine j n x s) := by
    unfold issueCopyLine
    dsimp only
    split <;> exact hok
  unfold takeCopyResult
  split
  · split
    · unfold copyReadDone
      split
      · exact hissued _ _ _
      · exact hok
    · exact hok
    · split
      · unfold endChunk
        dsimp only
        split
        · exact hok
        · unfold switchOver
          exact PortsOk.appendIncidents (by exact hok) _
      · unfold copyWriteDone
        split
        · exact hissued _ _ _
        · exact hok
  · exact hok

/-! ## The rows -/

section
variable {s : State} (hok : PortsOk s)
include hok

theorem unchanged_portsOk : Ends (.next s) PortsOk := ends_next.mpr hok

theorem modPort_portsOk (p : PortId) {f : HostPort → HostPort}
    (hf : PortOk s.incidents.records (s.port p) → PortOk s.incidents.records (f (s.port p))) :
    Ends (.next (s.modPort p f)) PortsOk :=
  ends_next.mpr (hok.modPort p hf)

/-- A row that works on commands alone. -/
theorem CausesKept.ends {t : State} (h : CausesKept s t) : Ends (.next t) PortsOk := ends_next.mpr (h.portsOk hok)

/-- A row that leaves the ports and the Incident List. -/
theorem frame_portsOk {t : State} (hrecords : t.incidents.records = s.incidents.records)
    (hports : ∀ p, t.port p = s.port p) : Ends (.next t) PortsOk :=
  ends_next.mpr (hok.of_frame hrecords hports)

/-- A port that uses its link has it, and so may enter FAULTED. -/
theorem faultPort_portsOk (p : PortId) (code : FaultCode) (hstate : (s.port p).state ≠ .off ∧ (s.port p).state ≠ .resetting) :
    Ends (.next (faultPort p code s)) PortsOk :=
  ends_next.mpr (hok.faultPort p code ((portsOk_iff.mp hok p).link hstate))

theorem execEnable_portsOk (p : PortId) : Ends (execEnable p s) PortsOk := by
  unfold execEnable
  dsimp only
  split
  · rename_i henable
    have hlink : (s.port p).linkUp = true := (Bool.and_eq_true_iff.mp henable).1
    split
    · exact modPort_portsOk hok p fun h => h.enterSetup hlink
    · exact ends_next.mpr ((hok.modPort p fun h => h.enterSetup hlink).faultPort p _ (by rwa [port_modPort_same]))
  · exact unchanged_portsOk hok

theorem execDisable_portsOk (p : PortId) : Ends (execDisable p s) PortsOk := by
  unfold execDisable
  split
  · rename_i hrunning
    refine modPort_portsOk hok p fun h => PortOk.same ?_ (advance_same _)
    refine PortOk.same (h.setState (st := .draining) (by simp [hrunning]) (by simp) (.inr ?_)) (mailLock_same _ _)
    exact h.link (by simp [hrunning])
  · exact unchanged_portsOk hok

theorem execReset_portsOk (p : PortId) : Ends (execReset p s) PortsOk := by
  unfold execReset
  split
  · exact unchanged_portsOk hok
  · exact ends_next.mpr (hok.resetPort p)

theorem execSubmit_portsOk (p : PortId) (v : BitVec 32) : Ends (execSubmit p v s) PortsOk := by
  unfold execSubmit
  dsimp only
  split
  · rename_i hservice
    split
    · split
      · exact modPort_portsOk hok p id
      · exact faultPort_portsOk hok p _ (outside_of_service hservice)
    · exact unchanged_portsOk hok
  · exact unchanged_portsOk hok

theorem execConsume_portsOk (p : PortId) (v : BitVec 32) : Ends (execConsume p v s) PortsOk := by
  unfold execConsume
  dsimp only
  split
  · rename_i hservice
    split
    · split
      · exact modPort_portsOk hok p fun h => h.takeConsume _ _
      · exact faultPort_portsOk hok p _ (outside_of_service hservice)
    · exact unchanged_portsOk hok
  · exact unchanged_portsOk hok

theorem execLinkDown_portsOk (p : PortId) (delivered : Nat) : Ends (execLinkDown p delivered s) PortsOk := by
  have key (u : State) (hu : PortsOk u) (hstate : (u.port p).state = .resetting) :
      PortsOk ((failCheckRead p u).modPort p fun h => { loseWrites delivered (failReads h) with linkUp := false }) := by
    have hfailed : CausesKept u (failCheckRead p u) := by
      unfold failCheckRead
      split
      · exact .setMaint _ u
      · exact .refl u
    refine (hfailed.portsOk hu).modPort p fun ⟨hdone, hcount, hfault, halert, _⟩ => ⟨hdone, hcount, hfault, halert, fun _ => .inr ?_⟩
    exact (hfailed.ports p).state.trans hstate
  unfold execLinkDown
  split
  · refine ends_next.mpr ?_
    dsimp only
    split
    · exact key s hok ‹_›
    · refine key _ (hok.resetPort p) ?_
      rw [(resetPort_entered p s).2]
      cases p <;> rfl
  · exact unchanged_portsOk hok

theorem execSetupFetchDone_portsOk (p : PortId) (block : Option (BitVec 512)) :
    Ends (execSetupFetchDone p block s) PortsOk := by
  have hread : PortsOk (s.modPort p fun h => { h with setupRead := none }) := hok.modPort p id
  unfold execSetupFetchDone
  dsimp only
  split
  · split
    · rename_i hsetup
      have hfault (code : FaultCode) : Ends (.next (faultPort p code (s.modPort p fun h => { h with setupRead := none }))) PortsOk :=
        faultPort_portsOk hread p code (by simp [hsetup])
      split
      · exact hfault _
      · split
        · exact hfault _
        · refine modPort_portsOk hread p fun h => ?_
          rw [enterRunning_eq]
          have hlink := h.link (by simp [hsetup])
          exact h.setState (st := .running) (by simp [hsetup]) (by simp) (.inr hlink)
    · exact ends_next.mpr hread
  · exact unchanged_portsOk hok

theorem execRecordFetch_portsOk (p : PortId) : Ends (execRecordFetch p s) PortsOk := by
  unfold execRecordFetch
  split
  · split
    · exact modPort_portsOk hok p id
    · exact unchanged_portsOk hok
  · exact unchanged_portsOk hok

theorem execRecordFetchDone_portsOk (p : PortId) (record : Option (BitVec 512)) :
    Ends (execRecordFetchDone p record s) PortsOk := by
  have hfetch : PortsOk (s.modPort p fun h => { h with fetch := none }) := hok.modPort p id
  unfold execRecordFetchDone
  dsimp only
  split
  · split
    · rename_i hrunning
      split
      · exact faultPort_portsOk hfetch p _ (by simp [hrunning])
      · split
        · refine modPort_portsOk hfetch p fun h => ?_
          exact h.takeRecord _ _ _
        · exact ends_next.mpr hfetch
    · exact ends_next.mpr hfetch
  · exact unchanged_portsOk hok

theorem execGuardCheck_portsOk (p : PortId) : Ends (execGuardCheck p s) PortsOk := by
  unfold execGuardCheck
  split
  · exact CausesKept.ends hok ((CausesKept.setMail p _ s).trans (.deliver _ _))
  · exact unchanged_portsOk hok

theorem execAcquire_portsOk (p : PortId) : Ends (execAcquire p s) PortsOk := by
  unfold execAcquire
  split
  · exact CausesKept.ends hok (.taken p _ _ _ s)
  · exact unchanged_portsOk hok

theorem execRelease_portsOk (p : PortId) : Ends (execRelease p s) PortsOk := by
  unfold execRelease
  split
  · exact CausesKept.ends hok (.taken p _ _ _ s)
  · exact unchanged_portsOk hok

theorem execScatterListReadDone_portsOk (p : PortId) (i : SlotId) (l : Option (List (BitVec 128))) :
    Ends (execScatterListReadDone p i l s) PortsOk := by
  unfold execScatterListReadDone
  split
  · exact modPort_portsOk hok p (PortOk.same · (takeList_same i _ l _))
  · exact unchanged_portsOk hok

theorem execHostDataReadDone_portsOk (p : PortId) (i : SlotId) (ws : Option (List Word)) :
    Ends (execHostDataReadDone p i ws s) PortsOk := by
  unfold execHostDataReadDone
  split
  · exact modPort_portsOk hok p (PortOk.same · (takeData_same i _ ws _))
  · exact unchanged_portsOk hok

theorem execReferenceIssue_portsOk (p : PortId) : Ends (execReferenceIssue p s) PortsOk := by
  unfold execReferenceIssue
  split
  · split
    · rename_i i t _
      refine frame_portsOk (hok.modPort p (PortOk.same · (issueFrom_same i t _))) rfl fun q => ?_
      cases q <;> rfl
    · exact unchanged_portsOk hok
  · exact unchanged_portsOk hok

theorem execCompletionWriteAccepted_portsOk (p : PortId) (stale : Bool) :
    Ends (execCompletionWriteAccepted p stale s) PortsOk := by
  unfold execCompletionWriteAccepted
  dsimp only
  split
  · exact modPort_portsOk hok p id
  · split
    · exact unchanged_portsOk hok
    · rename_i r _
      split
      · exact modPort_portsOk hok p fun h => h.recordAccepted _ r
      · split
        · refine modPort_portsOk hok p fun h => ?_
          have hwritten : PortOk s.incidents.records (confirmSent r.mark { s.port p with recordWrite := none }) := h
          exact hwritten.recordInRing _
        · exact unchanged_portsOk hok

theorem execCompletionWriteRefused_portsOk (p : PortId) (stale : Bool) :
    Ends (execCompletionWriteRefused p stale s) PortsOk := by
  have hwrite : PortsOk (s.modPort p fun h => { h with recordWrite := none }) := hok.modPort p id
  unfold execCompletionWriteRefused
  dsimp only
  split
  · exact modPort_portsOk hok p id
  · split
    · exact unchanged_portsOk hok
    · split
      · rename_i hservice
        refine faultPort_portsOk hwrite p _ ?_
        rw [port_modPort_same]
        exact outside_of_service hservice
      · split
        · exact modPort_portsOk hwrite p (PortOk.same · (freeContext_same _ _))
        · exact unchanged_portsOk hok

theorem execQuietTimerExpiry_portsOk (p : PortId) : Ends (execQuietTimerExpiry p s) PortsOk :=
  ends_ite (modPort_portsOk hok p PortOk.announce) (unchanged_portsOk hok)

theorem execDrainEnd_portsOk (p : PortId) : Ends (execDrainEnd p s) PortsOk := by
  unfold execDrainEnd
  dsimp only
  split
  · rename_i hend
    simp only [Bool.and_eq_true, beq_iff_eq] at hend
    obtain ⟨⟨hstate, -⟩, -⟩ := hend
    refine modPort_portsOk hok p fun h => ?_
    unfold endDrain
    dsimp only
    split
    · exact h.setState (by simp [hstate]) (by simp) (.inl rfl)
    · refine h.announce.setState ?_ (by simp) (.inl rfl)
      rw [announce_state, hstate]
      simp
  · exact unchanged_portsOk hok

theorem execResetComplete_portsOk (p : PortId) : Ends (execResetComplete p s) PortsOk := by
  unfold execResetComplete resetDone
  split
  · rename_i hend
    simp only [Bool.and_eq_true, beq_iff_eq] at hend
    obtain ⟨⟨⟨⟨hstate, -⟩, -⟩, -⟩, -⟩ := hend
    exact modPort_portsOk hok p fun h => h.setState (by simp [hstate]) (by simp) (.inl rfl)
  · exact unchanged_portsOk hok

omit hok in
theorem execPowerOnReset_portsOk (left : SlotRemnant) : Ends (execPowerOnReset left s) PortsOk :=
  ends_next.mpr ⟨⟨by simp [HostPort.powerOn], Nat.le_refl _, by simp [HostPort.powerOn], rfl, fun _ => .inl rfl⟩,
    by simp [HostPort.powerOn], Nat.le_refl _, by simp [HostPort.powerOn], rfl, fun _ => .inl rfl⟩

theorem PortsOk.scrubIssue (u : ScrubUnit) : PortsOk (scrubIssue { s with scrub := u }) := by
  rw [scrubIssue_frame]
  exact hok

theorem execRetirementReadDone_portsOk (answered : Bool) : Ends (execRetirementReadDone answered s) PortsOk := by
  unfold execRetirementReadDone
  split
  · dsimp only
    have hread (x : PowerOnRead) : PortsOk { s with ret := s.ret.afterRead x.current, seg := mapBuild x.retired } := hok
    split
    · exact ends_next.mpr (((hread _).appendTelling _ _).scrubIssue _)
    · exact ends_next.mpr ((hread _).scrubIssue _)
  · exact unchanged_portsOk hok

theorem execOperationDone_portsOk (b : Bank) (arbiterFirst : Bool) : Ends (execOperationDone b arbiterFirst s) PortsOk := by
  cases hb : s.sched.banks[b] with
  | none =>
    simp only [execOperationDone, hb]
    exact unchanged_portsOk hok
  | some o =>
    show Ends (exec (.operationDone b arbiterFirst) s) _
    rw [exec_operationDone arbiterFirst hb]
    have hended : PortsOk (operationEnded b arbiterFirst o s) := by
      rw [operationEnded_frame]
      exact hok
    refine ends_next.mpr ?_
    generalize operationEnded b arbiterFirst o s = u at hended ⊢
    unfold giveResult
    split
    · exact hended.modPort _ (PortOk.same · (takeTransferResult_same _ _ _ _))
    · exact takeCopyResult_portsOk hended _ _ _
    · rename_i pass _ _
      cases pass
      · exact hended.scrubIssue _
      · exact hended.scrubIssue u.scrub
    · exact hended

theorem execHealthReport_portsOk (b : Bank) : Ends (execHealthReport b s) PortsOk := by
  unfold execHealthReport
  split
  · exact unchanged_portsOk hok
  · unfold absorbReport
    exact ends_next.mpr (PortsOk.appendIncidents (by exact hok) _)

theorem execMigrationStart_portsOk : Ends (execMigrationStart s) PortsOk := by
  unfold execMigrationStart
  split
  · split
    · exact ends_next.mpr hok
    · exact unchanged_portsOk hok
  · exact unchanged_portsOk hok

theorem execChunkLockHeld_portsOk : Ends (execChunkLockHeld s) PortsOk := by
  unfold execChunkLockHeld
  split
  · exact unchanged_portsOk hok
  · split
    · exact ends_next.mpr hok
    · exact unchanged_portsOk hok

theorem execRetirementWriteDone_portsOk (outcome : WriteOutcome) : Ends (execRetirementWriteDone outcome s) PortsOk := by
  unfold execRetirementWriteDone
  split
  · split
    · rename_i j i _ _ _
      have happended := PortsOk.appendIncidents (s := { s with ret := s.ret.endWrite outcome i }) hok (migratedIncidents j outcome)
      have hnoticed (u : State) (p : PortId) : CausesKept u (u.modPort p (migratedNotice j.seg)) :=
        .modPort u p (migratedNotice_same _ _)
      exact ends_next.mpr (((hnoticed _ .p0).trans (hnoticed _ .p1)).portsOk happended)
    · exact unchanged_portsOk hok
  · exact unchanged_portsOk hok

theorem execPacingTick_portsOk : Ends (execPacingTick s) PortsOk := by
  refine ends_next.mpr ?_
  have hticked : PortsOk (advanceTime s) := hok
  unfold patrolIssue
  split
  · exact hticked.scrubIssue _
  · exact hticked

theorem execMapQuery_portsOk : Ends (execMapQuery s) PortsOk := by
  unfold execMapQuery
  split
  · exact CausesKept.ends hok ((CausesKept.startCommand _ s).trans (.setMaint _ _))
  · exact unchanged_portsOk hok

/-- The end of an INCIDENTS: the dropped count is no record (R173). -/
theorem PortsOk.completeIncidents (p : PortId) (c : CtxId) (st : Status) (n : Nat) : PortsOk (completeIncidents p c st n s) :=
  PortsOk.modPort (s := { s with incidents := { s.incidents with dropped := 0 } }) hok p
    (PortOk.same · (handCompletion_same _ _ _ _))

theorem execIncidents_portsOk : Ends (execIncidents s) PortsOk := by
  have hstarted (p : PortId) : PortsOk (startCommand p s) := (CausesKept.startCommand p s).portsOk hok
  unfold execIncidents
  split
  · split
    · exact ends_next.mpr ((hstarted _).completeIncidents _ _ _ _)
    · exact CausesKept.ends (hstarted _) (.setMaint _ _)
  · exact unchanged_portsOk hok

theorem execTune_portsOk : Ends (execTune s) PortsOk := by
  unfold execTune
  split
  · rename_i p c threshold rate _
    refine modPort_portsOk ?_ p (PortOk.same · (handCompletion_same _ _ _ _))
    have hstarted := (CausesKept.startCommand p s).portsOk hok
    cases threshold <;> cases rate <;> exact hstarted
  · exact unchanged_portsOk hok

theorem execRelocate_portsOk : Ends (execRelocate s) PortsOk := by
  unfold execRelocate
  split
  · rename_i p c l _
    have hoffered : PortsOk { startCommand p s with seg := (relocateOffer l s.seg).1 } := (CausesKept.startCommand p s).portsOk hok
    dsimp only
    split
    · exact modPort_portsOk hoffered p (PortOk.same · (handCompletion_same _ _ _ _))
    · exact modPort_portsOk hoffered p (PortOk.same · (handCompletion_same _ _ _ _))
    · exact modPort_portsOk hoffered p (PortOk.same · (setContext_same _ _ _))
  · exact unchanged_portsOk hok

theorem PortsOk.issueBufferWrite (r : Running) : PortsOk (issueBufferWrite r s) := by
  have hsent (w : LinkWrite) : PortsOk (s.modPort r.port (send w)) := hok.modPort _ (PortOk.same · (send_same _ _))
  have hwrote (w : LinkWrite) (job : MaintJob) (last : Bool) : PortsOk (wroteBuffer r job last (s.modPort r.port (send w))) :=
    (CausesKept.setMaint _ _).portsOk (hsent w)
  unfold Machine.issueBufferWrite
  split
  · exact hwrote _ _ _
  · split
    · rename_i x rest hrecords
      split
      · refine (hwrote _ _ _).removeIncident ?_
        show (s.modPort r.port (send _)).incidents.records ≠ []
        rw [modPort_incidents, hrecords]
        exact List.cons_ne_nil x rest
      · exact hok
    · exact hok
  · exact hok

theorem execBufferWrite_portsOk : Ends (execBufferWrite s) PortsOk := by
  unfold execBufferWrite
  split
  · split
    · exact unchanged_portsOk hok
    · exact ends_next.mpr (hok.issueBufferWrite _)
  · exact unchanged_portsOk hok

theorem PortsOk.endCheckRead (r : Running) (mark : Nat) (returned : Bool) : PortsOk (endCheckRead r mark returned s) := by
  have hended : PortsOk (endRunning (if returned then s.modPort r.port (confirmSent mark) else s)) := by
    cases returned
    · exact (CausesKept.setMaint _ s).portsOk hok
    · exact (CausesKept.setMaint _ _).portsOk (hok.modPort r.port id)
  unfold Machine.endCheckRead
  dsimp only
  split
  · unfold completeMaint
    split
    · exact hended.modPort _ (PortOk.same · (handCompletion_same _ _ _ _))
    · exact hended.completeIncidents _ _ _ _
  · exact hended.modPort _ (PortOk.same · (endNotice_same _ _))
  · exact hended

theorem execMaintCheckReadDone_portsOk (returned : Bool) : Ends (execMaintCheckReadDone returned s) PortsOk := by
  unfold execMaintCheckReadDone
  split
  · split
    · exact ends_next.mpr (hok.endCheckRead _ _ _)
    · exact unchanged_portsOk hok
  · exact unchanged_portsOk hok

/-- Every row keeps the event causes at their conditions. -/
theorem exec_portsOk (i : Instr) : Ends (exec i s) PortsOk := by
  cases i with
  | powerOnReset left => exact execPowerOnReset_portsOk left
  | retirementReadDone answered => exact execRetirementReadDone_portsOk hok answered
  | setupWrite p part => exact modPort_portsOk hok p id
  | enable p => exact execEnable_portsOk hok p
  | disable p => exact execDisable_portsOk hok p
  | reset p => exact execReset_portsOk hok p
  | submit p v => exact execSubmit_portsOk hok p v
  | consume p v => exact execConsume_portsOk hok p v
  | registerWriteDiscarded p w => exact unchanged_portsOk hok
  | linkDown p delivered => exact execLinkDown_portsOk hok p delivered
  | linkUp p => exact modPort_portsOk hok p fun ⟨hdone, hcount, hfault, halert, _⟩ => ⟨hdone, hcount, hfault, halert, nofun⟩
  | setupFetchDone p block => exact execSetupFetchDone_portsOk hok p block
  | recordFetch p => exact execRecordFetch_portsOk hok p
  | recordFetchDone p record => exact execRecordFetchDone_portsOk hok p record
  | read p => exact modPort_portsOk hok p (PortOk.same · (activateTransfer_same isRead _))
  | write p => exact modPort_portsOk hok p (PortOk.same · (activateTransfer_same Command.isWrite _))
  | fill p => exact modPort_portsOk hok p (PortOk.same · (activateTransfer_same isFill _))
  | copy p => exact modPort_portsOk hok p (PortOk.same · (activateTransfer_same isCopy _))
  | scan p => exact modPort_portsOk hok p (PortOk.same · (activateTransfer_same isScan _))
  | guardCheck p => exact execGuardCheck_portsOk hok p
  | scatterListReadDone p slot l => exact execScatterListReadDone_portsOk hok p slot l
  | hostDataReadDone p slot ws => exact execHostDataReadDone_portsOk hok p slot ws
  | referenceIssue p => exact execReferenceIssue_portsOk hok p
  | grant b =>
    rw [exec_grant, arbiterAct_frame]
    exact ends_next.mpr hok
  | operationDone b arbiterFirst => exact execOperationDone_portsOk hok b arbiterFirst
  | healthReport b => exact execHealthReport_portsOk hok b
  | migrationStart => exact execMigrationStart_portsOk hok
  | chunkLockHeld => exact execChunkLockHeld_portsOk hok
  | retirementWriteDone outcome => exact execRetirementWriteDone_portsOk hok outcome
  | pacingTick => exact execPacingTick_portsOk hok
  | acquire p => exact execAcquire_portsOk hok p
  | release p => exact execRelease_portsOk hok p
  | waiterDeadlineExpiry p c => exact CausesKept.ends hok ((CausesKept.setLocks _ s).trans (.deliver _ _))
  | lockRunningNotice p => exact CausesKept.ends hok (.takeNotice _ p _ s)
  | lockDrainNotice p => exact CausesKept.ends hok (.takeNotice _ p _ s)
  | lockFaultNotice p => exact CausesKept.ends hok (.takeNotice _ p _ s)
  | lockResetNotice p => exact CausesKept.ends hok (.takeNotice _ p _ s)
  | mapQuery => exact execMapQuery_portsOk hok
  | incidents => exact execIncidents_portsOk hok
  | tune => exact execTune_portsOk hok
  | relocate => exact execRelocate_portsOk hok
  | maintCheckReadDone returned => exact execMaintCheckReadDone_portsOk hok returned
  | completionWriteAccepted p stale => exact execCompletionWriteAccepted_portsOk hok p stale
  | completionWriteRefused p stale => exact execCompletionWriteRefused_portsOk hok p stale
  | quietTimerExpiry p => exact execQuietTimerExpiry_portsOk hok p
  | drainEnd p => exact execDrainEnd_portsOk hok p
  | resetComplete p => exact execResetComplete_portsOk hok p
  | bufferWrite => exact execBufferWrite_portsOk hok
  | bitInError line word bit => exact ends_next.mpr hok

end

/-- Settles O58: an idle step takes one notice, and every row keeps the causes at their conditions. -/
theorem eventCausesFollowTheirConditions : Obligations.EventCausesFollowTheirConditions := by
  intro s t hok hstep
  unfold step at hstep
  split at hstep
  · exact Host.Outcome.next.inj hstep ▸ hok.takeWaitingAlert
  · rename_i i rest _
    exact exec_portsOk (s := s.withPending rest) hok i t hstep

end Sys2Proof.Machine
end

section
/-! What a port names of its contexts, and what freeing contexts, the work list, the completion writer and the handing of a
completion leave of the room in the completion ring, of the intake and of the ownership of contexts (R111 to R114, R117, R118,
R149, R150). -/

namespace Sys2Proof.Machine

/-! ## Contexts in use (R117) -/

section
variable {h k : HostPort}

theorem inUse_eq_countP (h : HostPort) : h.inUse = (List.finRange 64).countP fun c => (h.contexts[c]).state != .free := by
  have hlist : h.contexts.toList = (List.finRange 64).map fun c => h.contexts[c] :=
    List.ext_getElem (by simp) fun i _ _ => by simp
  unfold HostPort.inUse
  rw [hlist, List.countP_map]
  rfl

theorem inUse_le (hfree : ∀ c : CtxId, (h.contexts[c]).state = .free → (k.contexts[c]).state = .free) : k.inUse ≤ h.inUse := by
  rw [inUse_eq_countP, inUse_eq_countP]
  exact List.countP_mono_left fun c _ hc => by simpa using mt (hfree c) (by simpa using hc)

theorem inUse_eq_zero : h.inUse = 0 ↔ ∀ c : CtxId, (h.contexts[c]).state = .free := by
  rw [inUse_eq_countP, List.countP_eq_zero]
  simp

/-! ## Ports that use no more contexts -/

/-- From `h` to `k` no context came into use, the intake hold state followed the freeings, and the control state stays. -/
structure LessUsed (h k : HostPort) : Prop where
  same : SameControl h k
  resumes : ResumesAtItsMark h k
  free : ∀ c : CtxId, (h.contexts[c]).state = .free → (k.contexts[c]).state = .free

theorem LessUsed.used (hless : LessUsed h k) : contextsUsed k ≤ contextsUsed h := by
  rw [contextsUsed_eq, contextsUsed_eq]
  exact inUse_le hless.free

/-- With the same contexts in use the hold state stays. -/
theorem LessUsed.of_same_use (hsame : SameControl h k) (hhold : k.hold = h.hold)
    (huse : ∀ c : CtxId, (h.contexts[c]).state = .free ↔ (k.contexts[c]).state = .free) : LessUsed h k := by
  refine ⟨hsame, ⟨fun _ => hhold, fun v _ => ?_⟩, fun c => (huse c).mp⟩
  have hused : contextsUsed k = contextsUsed h := by
    rw [contextsUsed_eq, contextsUsed_eq]
    exact Nat.le_antisymm (inUse_le fun c => (huse c).mp) (inUse_le fun c => (huse c).mpr)
  dsimp only
  rw [hused, if_neg (by omega), hhold]

theorem RingRoomOk.less (hring : RingRoomOk h) (hless : LessUsed h k) : RingRoomOk k := by
  obtain ⟨hroom, hfree, hsetup⟩ := hring
  have hused := inUse_le hless.free
  unfold RingRoomOk
  rw [hless.same.values, hless.same.unconsumed, hless.same.state, hless.same.fetch]
  refine ⟨fun v hv => ?_, fun hs c => hless.free c (hfree hs c), hsetup⟩
  obtain ⟨hle, hlt⟩ := hroom v hv
  exact ⟨by omega, fun hs hf => by have := hlt hs hf; omega⟩

theorem IntakeOk.less (hintake : IntakeOk h) (hless : LessUsed h k) : IntakeOk k := by
  obtain ⟨hvalues, hagrees, hsetup, hfetch⟩ := hintake
  have hclear (hc : h.hold = .clear) : k.hold = .clear := by
    cases hv : h.values with
    | none => exact (hless.resumes.1 hv).trans hc
    | some v => simpa [hc] using hless.resumes.2 v hv
  refine ⟨?_, hagrees.resumes hless.resumes hless.same.values hless.used, ?_, ?_⟩
  · rw [hless.same.inService, hless.same.values]
    exact hvalues
  · rw [hless.same.state]
    exact fun hs => hclear (hsetup hs)
  · rw [hless.same.state, hless.same.fetch]
    intro hs hf
    obtain ⟨hc, c, hfree⟩ := hfetch hs hf
    exact ⟨hclear hc, c, hless.free c hfree⟩

end

/-! ## The contexts a port names -/

/-- The contexts of the completions the writer holds, the one being written first (R150). -/
def writing (write : Option RecordWrite) (list : List Completion) : List CtxId :=
  (write.map fun r => r.completion.ctx).toList ++ (if write.isSome then list.tail else list).map Completion.ctx

/-- The contexts of the transfers in the slots. -/
def slotContexts (slots : Vector (Option Transfer) 4) : List CtxId := slots.toList.filterMap fun x => x.map Transfer.ctx

/-- The contexts that port `h` itself names as its own: the part of `owners` that is held at the port. -/
def named (h : HostPort) : List CtxId :=
  h.workList ++ slotContexts h.slots ++ writing h.recordWrite h.writeList ++ h.maintQueue ++ requestContexts h.lockMail

theorem named_count (h : HostPort) (c : CtxId) :
    (named h).count c =
      h.workList.count c + (slotContexts h.slots).count c + (writing h.recordWrite h.writeList).count c +
        h.maintQueue.count c + (requestContexts h.lockMail).count c := by
  simp [named, List.count_append, Nat.add_assoc]

theorem count_cons_singleton (c d : CtxId) (l : List CtxId) : (c :: l).count d = [c].count d + l.count d :=
  List.count_append (l₁ := [c])

/-- In service the writer holds the contexts of its write list (R150). -/
theorem writing_inService {h : HostPort} (hwriter : WriterOk h) (hservice : h.inService = true) :
    writing h.recordWrite h.writeList = h.writeList.map Completion.ctx := by
  unfold writing
  cases hr : h.recordWrite with
  | none => rfl
  | some r =>
    have hhead := hwriter.1 r hr hservice
    cases hw : h.writeList with
    | nil => simp [hw] at hhead
    | cons x rest =>
      rw [hw] at hhead
      obtain rfl := Option.some.inj hhead
      rfl

/-- A slot's record replaced: the context it held no longer counts, and the new one does. -/
theorem slotContexts_set (i : SlotId) (x : Option Transfer) (slots : Vector (Option Transfer) 4) (d : CtxId) :
    (slotContexts (slots.set i x)).count d + ((slots[i]).map Transfer.ctx).toList.count d =
      (slotContexts slots).count d + (x.map Transfer.ctx).toList.count d := by
  have hi : i.val < slots.toList.length := by simp
  have hget : slots.toList[i.val] = slots[i] := rfl
  have hone (y : Option Transfer) : (y.map Transfer.ctx).toList.count d = if y.map Transfer.ctx == some d then 1 else 0 := by
    cases y <;> simp [List.count_singleton]
  unfold slotContexts
  rw [Vector.toList_set, List.count_filterMap, List.count_filterMap, List.countP_set hi, hget, hone, hone]
  have hpos : (slots[i]).map Transfer.ctx == some d → 0 < slots.toList.countP fun y => y.map Transfer.ctx == some d := fun hd =>
    List.countP_pos_iff.mpr ⟨slots[i], by simp, hd⟩
  split
  · have := hpos ‹_›
    omega
  · omega

/-! ## Owned contexts (R117, R118) -/

/-- No context is named twice by port `h`, in `out`, which the shared units name, and in `loose`, which are on their way to the
port; all of these are in use, and but for the loose ones not in RELOCATE_WAIT. -/
def Owned (loose out : List CtxId) (h : HostPort) : Prop :=
  ∀ c : CtxId,
    loose.count c + (named h).count c + out.count c ≤ 1 ∧
      (0 < (named h).count c + out.count c → (h.contexts[c]).state ≠ .free ∧ (h.contexts[c]).state ≠ .relocateWait) ∧
      (0 < loose.count c → (h.contexts[c]).state ≠ .free)

/-- The rules of `CompletionRoomOk` at a port that is not in RESETTING. -/
def AtWork (loose out : List CtxId) (h : HostPort) : Prop :=
  h.state ≠ .resetting ∧ RingRoomOk h ∧ IntakeOk h ∧ WriterOk h ∧ Owned loose out h

/-- Only lists, slots, the writer and posted writes differ. -/
def Rewired (h k : HostPort) : Prop :=
  k = { h with
    workList := k.workList, slots := k.slots, slotReads := k.slotReads, lastIssuer := k.lastIssuer, writeList := k.writeList
    recordWrite := k.recordWrite, sent := k.sent, lockMail := k.lockMail, maintQueue := k.maintQueue }

section
variable {loose loose' out out' : List CtxId} {h k : HostPort} {c : CtxId}

theorem AtWork.owned (hw : AtWork loose out h) : Owned loose out h := by
  obtain ⟨-, -, -, -, howned⟩ := hw
  exact howned

theorem AtWork.writer (hw : AtWork loose out h) : WriterOk h := by
  obtain ⟨-, -, -, hwriter, -⟩ := hw
  exact hwriter

theorem AtWork.less (hw : AtWork loose out h) (hless : LessUsed h k) (hwriter : WriterOk k) (howned : Owned loose' out' k) :
    AtWork loose' out' k := by
  obtain ⟨hstate, hring, hintake, -, -⟩ := hw
  exact ⟨by rwa [hless.same.state], hring.less hless, hintake.less hless, hwriter, howned⟩

/-- Names that go, and names that pass from the shared units to the port's loose ones. -/
theorem AtWork.weaken (hw : AtWork loose out h) (hout : ∀ d, out'.count d ≤ out.count d)
    (hall : ∀ d, loose'.count d + out'.count d ≤ loose.count d + out.count d) : AtWork loose' out' h := by
  obtain ⟨hstate, hring, hintake, hwriter, howned⟩ := hw
  refine ⟨hstate, hring, hintake, hwriter, fun d => ?_⟩
  obtain ⟨hone, hnamed, hloose⟩ := howned d
  have := hout d
  have := hall d
  refine ⟨by omega, fun hd => hnamed (by omega), fun hd => ?_⟩
  by_cases hl : 0 < loose.count d
  · exact hloose hl
  · exact (hnamed (by omega)).1

theorem AtWork.drop (hw : AtWork (c :: loose) out h) : AtWork loose out h :=
  hw.weaken (fun _ => Nat.le_refl _) fun d => by rw [List.count_cons]; omega

/-- Names that change hands at the port; a loose one that the port comes to name is not in RELOCATE_WAIT. -/
theorem AtWork.rewired (hw : AtWork loose out h) (hframe : Rewired h k) (hwriter : WriterOk k)
    (hnames : ∀ d, loose'.count d + (named k).count d ≤ loose.count d + (named h).count d)
    (hloose : ∀ d, 0 < loose.count d → 0 < (named k).count d → (h.contexts[d]).state ≠ .relocateWait) :
    AtWork loose' out k := by
  have hcontexts : k.contexts = h.contexts := by rw [hframe]
  refine hw.less (.of_same_use (by unfold SameControl; rw [hframe]) (by rw [hframe]) fun d => by rw [hcontexts]) hwriter fun d => ?_
  obtain ⟨hone, hnamed, hfree⟩ := hw.owned d
  have hd := hnames d
  rw [hcontexts]
  refine ⟨by omega, fun hpos => ?_, fun hpos => ?_⟩
  · by_cases hold : 0 < (named h).count d + out.count d
    · exact hnamed hold
    · exact ⟨hfree (by omega), hloose d (by omega) (by omega)⟩
  · by_cases hold : 0 < loose.count d
    · exact hfree hold
    · exact (hnamed (by omega)).1

/-- The port comes to name a loose context. -/
theorem AtWork.adopt (hw : AtWork (c :: loose) out h) (hc : (h.contexts[c]).state ≠ .relocateWait) (hframe : Rewired h k)
    (hwriter : WriterOk k) (hnames : ∀ d, (named k).count d = (named h).count d + [c].count d) : AtWork loose out k := by
  refine hw.rewired hframe hwriter (fun d => ?_) fun d hloose hnamed => ?_
  · rw [hnames, count_cons_singleton c d loose]
    omega
  · obtain ⟨hone, -, -⟩ := hw.owned d
    have hd := hnames d
    rw [List.count_cons] at hone hloose
    rw [List.count_singleton] at hd
    by_cases hcd : (c == d) = true
    · obtain rfl := eq_of_beq hcd
      exact hc
    · rw [if_neg hcd] at hone hloose hd
      omega

/-- The port gives up a name. -/
theorem AtWork.release (hw : AtWork loose out h) (hframe : Rewired h k) (hwriter : WriterOk k)
    (hnames : ∀ d, (named h).count d = (named k).count d + [c].count d) : AtWork (c :: loose) out k := by
  refine hw.rewired hframe hwriter (fun d => ?_) fun d hloose hnamed => ?_
  · rw [hnames, count_cons_singleton c d loose]
    omega
  · obtain ⟨hone, -, -⟩ := hw.owned d
    have := hnames d
    omega

/-- A loose context is in use, and nothing else names it. -/
theorem AtWork.loose_used (hw : AtWork (c :: loose) out h) :
    (h.contexts[c]).state ≠ .free ∧ loose.count c = 0 ∧ (named h).count c = 0 ∧ out.count c = 0 := by
  obtain ⟨hone, -, hfree⟩ := hw.owned c
  rw [List.count_cons_self] at hone hfree
  exact ⟨hfree (by omega), by omega, by omega, by omega⟩

/-! ## States of contexts -/

theorem setCtxState_at (c d : CtxId) (st : CtxState) (h : HostPort) :
    (setCtxState c st h).contexts[d] = if d = c then { h.contexts[c] with state := st } else h.contexts[d] :=
  setContext_at c d _ h

/-- A context in use that enters another state of use. -/
theorem AtWork.setCtxState {st : CtxState} (hw : AtWork loose out h) (hc : (h.contexts[c]).state ≠ .free) (hst : st ≠ .free)
    (hreloc : st ≠ .relocateWait) : AtWork loose out (setCtxState c st h) := by
  refine hw.less (.of_same_use (setContext_same c _ h) rfl fun d => ?_) hw.writer fun d => ?_
  · rw [setCtxState_at]
    split
    · rename_i hd
      rw [hd]
      exact iff_of_false hc hst
    · exact Iff.rfl
  · rw [setCtxState_at]
    obtain ⟨hone, hnamed, hfree⟩ := hw.owned d
    refine ⟨hone, ?_⟩
    split
    · exact ⟨fun _ => ⟨hst, hreloc⟩, fun _ => hst⟩
    · exact ⟨hnamed, hfree⟩

/-- A loose context is freed (R118). -/
theorem AtWork.freeContext (hw : AtWork (c :: loose) out h) : AtWork loose out (freeContext c h) := by
  have hframe := freeContext_frame c h
  obtain ⟨-, hl, hn, ho⟩ := hw.loose_used
  have hwriter : WriterOk (Machine.freeContext c h) := by
    rw [hframe]
    exact hw.writer
  refine hw.less ⟨freeContext_same c h, (freeContext_resumes c h).1, fun d hd => ?_⟩ hwriter fun d => ?_
  · by_cases hdc : d = c
    · subst hdc
      exact (freeContext_at d d h).1
    · rw [(freeContext_at c d h).2 hdc]
      exact hd
  · have hnames : (named (Machine.freeContext c h)).count d = (named h).count d := by
      rw [hframe]
      rfl
    rw [hnames]
    obtain ⟨hone, hnamed, hfree⟩ := hw.owned d
    by_cases hdc : d = c
    · subst hdc
      rw [hl, hn, ho]
      exact ⟨by omega, fun h0 => absurd h0 (by omega), fun h0 => absurd h0 (by omega)⟩
    · rw [(freeContext_at c d h).2 hdc]
      rw [List.count_cons_of_ne (Ne.symm hdc)] at hone hfree
      exact ⟨hone, hnamed, hfree⟩

theorem AtWork.freeContexts {cs : List CtxId} (hw : AtWork (cs ++ loose) out h) : AtWork loose out (freeContexts cs h) := by
  unfold Machine.freeContexts
  induction cs generalizing h with
  | nil => exact hw
  | cons c cs ih => exact ih (AtWork.freeContext hw)

/-- An end notice (R88, R98, R164). -/
theorem AtWork.endNotice (hw : AtWork (c :: loose) out h) : AtWork loose out (endNotice c h) := by
  unfold Machine.endNotice
  split
  · exact hw.freeContext
  · exact hw.drop

/-! ## The work list (R119 to R121) -/

theorem requestContexts_append (l m : List LockMail) : requestContexts (l ++ m) = requestContexts l ++ requestContexts m :=
  List.filterMap_append

/-- The head of the work list leaves it, ACTIVE. -/
theorem AtWork.activateHead {rest : List CtxId} (hw : AtWork loose out h) (hlist : h.workList = c :: rest) :
    AtWork (c :: loose) out (activateHead c h) ∧ ((activateHead c h).contexts[c]).state = .active := by
  have hpopped : AtWork (c :: loose) out { h with workList := h.workList.tail } := by
    refine hw.release rfl hw.writer fun d => ?_
    rw [named_count, named_count]
    dsimp only
    rw [hlist, List.tail_cons, count_cons_singleton]
    omega
  refine ⟨hpopped.setCtxState hpopped.loose_used.1 (by simp) (by simp), ?_⟩
  unfold Machine.activateHead
  rw [setCtxState_at, if_pos rfl]

/-- A request joins the mail to the Lock Unit, and its context is no longer loose. -/
theorem AtWork.mailRequest {m : LockMail} (hw : AtWork (c :: loose) out h) (hc : (h.contexts[c]).state ≠ .relocateWait)
    (hm : requestContexts [m] = [c]) : AtWork loose out (mailLock m h) := by
  refine hw.adopt hc rfl hw.writer fun d => ?_
  have hmail : requestContexts (mailLock m h).lockMail = requestContexts h.lockMail ++ [c] := by
    rw [← hm]
    exact requestContexts_append ..
  rw [named_count, named_count, hmail, List.count_append]
  dsimp only [mailLock]
  omega

/-- A notice or a guard check joins the mail: neither is the request of a context. -/
theorem AtWork.mailOther {m : LockMail} (hw : AtWork loose out h) (hm : requestContexts [m] = []) :
    AtWork loose out (mailLock m h) := by
  have hnames (d : CtxId) : (named (mailLock m h)).count d = (named h).count d := by
    have hmail : requestContexts (mailLock m h).lockMail = requestContexts h.lockMail := by
      rw [show (mailLock m h).lockMail = h.lockMail ++ [m] from rfl, requestContexts_append, hm, List.append_nil]
    rw [named_count, named_count, hmail]
    rfl
  refine hw.rewired rfl hw.writer (fun d => by rw [hnames]) fun d hloose hnamed => ?_
  rw [hnames] at hnamed
  obtain ⟨hone, -, -⟩ := hw.owned d
  omega

/-- A command joins the Maintenance Unit's queue. -/
theorem AtWork.queueMaint (hw : AtWork (c :: loose) out h) (hc : (h.contexts[c]).state ≠ .relocateWait) :
    AtWork loose out { h with maintQueue := h.maintQueue ++ [c] } := by
  refine hw.adopt hc rfl hw.writer fun d => ?_
  rw [named_count, named_count]
  dsimp only
  rw [List.count_append]
  omega

/-- The test of the work list: the heads that leave it go to their owners. -/
theorem AtWork.advance (hw : AtWork loose out h) : AtWork loose out (advance h) := by
  unfold Machine.advance
  generalize h.workList.length = n
  induction n generalizing h with
  | zero => exact hw
  | succ n ih =>
    unfold advanceBy
    split
    · exact hw
    · rename_i c rest hlist
      obtain ⟨hactive, hstate⟩ := hw.activateHead hlist
      have hreloc : ((Machine.activateHead c h).contexts[c]).state ≠ .relocateWait := hstate ▸ nofun
      split
      · split
        · exact ih (hactive.mailRequest hreloc rfl)
        · exact ih (hactive.mailRequest hreloc rfl)
        · exact ih (hactive.queueMaint hreloc)
        · exact ih (hactive.queueMaint hreloc)
        · exact ih (hactive.queueMaint hreloc)
        · exact ih (hactive.queueMaint hreloc)
        · exact hw
      · exact hw

/-! ## The completion writer (R149, R150) -/

/-- The record at the front of the write list is written: its context stays the writer's. -/
theorem AtWork.issueRecord (hw : AtWork loose out h) : AtWork loose out (issueRecord h) := by
  by_cases hissue : (h.inService && h.recordWrite.isNone) = true
  · obtain ⟨hservice, hnone⟩ := Bool.and_eq_true_iff.mp hissue
    rw [Option.isNone_iff_eq_none] at hnone
    have hframe : Rewired h (Machine.issueRecord h) := by
      rw [issueRecord_frame]
      rfl
    have hwriter : WriterOk (Machine.issueRecord h) := by
      unfold Machine.issueRecord
      rw [if_pos hissue]
      split
      · rename_i x rest v hlist hv
        exact ⟨fun r hr _ => by obtain rfl := Option.some.inj hr; exact congrArg List.head? hlist, hw.writer.2⟩
      · exact hw.writer
    have hnames : named (Machine.issueRecord h) = named h := by
      have hwriting := writing_inService hwriter (by rwa [(issueRecord_same h).inService])
      unfold named
      rw [hwriting, writing_inService hw.writer hservice, issueRecord_frame]
    refine hw.rewired hframe hwriter (fun d => by rw [hnames]) fun d hloose hnamed => ?_
    rw [hnames] at hnamed
    obtain ⟨hone, -, -⟩ := hw.owned d
    omega
  · unfold Machine.issueRecord
    rwa [if_neg hissue]

/-- A completion handed: its loose context becomes the writer's, or is freed, or is left (R149). -/
theorem AtWork.handCompletion (hw : AtWork (c :: loose) out h) (st : Status) (r : Results) :
    AtWork loose out (handCompletion c st r h) := by
  unfold Machine.handCompletion
  split
  · rename_i hservice
    refine AtWork.advance (AtWork.issueRecord ?_)
    have hdone : AtWork (c :: loose) out (Machine.setCtxState c .done h) :=
      hw.setCtxState hw.loose_used.1 (by simp) (by simp)
    have hwriter : WriterOk
        (Machine.setCtxState c .done { h with writeList := h.writeList ++ [completionOf h c st r] }) := by
      refine ⟨fun x hx _ => ?_, fun hs => ?_⟩
      · have hhead := hw.writer.1 x hx hservice
        show (h.writeList ++ [completionOf h c st r]).head? = _
        rw [List.head?_append, hhead]
        rfl
      · replace hs : h.state = .faulted := hs
        simp [HostPort.inService, hs] at hservice
    refine hdone.adopt ?_ rfl hwriter fun d => ?_
    · rw [setCtxState_at, if_pos rfl]
      exact nofun
    · rw [named_count, named_count, writing_inService hwriter hservice, writing_inService hdone.writer hservice]
      have hmap : (h.writeList ++ [completionOf h c st r]).map Completion.ctx = h.writeList.map Completion.ctx ++ [c] :=
        List.map_append
      dsimp only [Machine.setCtxState, setContext]
      rw [hmap, List.count_append]
      omega
  · split
    · exact hw.freeContext
    · exact hw.drop

end

/-! ## Ports in RESETTING (R124) -/

/-- Port `k` is port `h` but for what the room in the ring, the intake's conditions and the ownership of contexts do not rest on. -/
def RoomSame (h k : HostPort) : Prop :=
  k = { h with
    linkUp := k.linkUp, setupReg := k.setupReg, faultCode := k.faultCode, setupRead := k.setupRead, sqHead := k.sqHead
    sqTail := k.sqTail, cqHead := k.cqHead, taken := k.taken, slotReads := k.slotReads, lastIssuer := k.lastIssuer
    cqTail := k.cqTail, phase := k.phase, unannounced := k.unannounced, announced := k.announced, quietTimer := k.quietTimer
    staleWrites := k.staleWrites, faultCause := k.faultCause, alertCause := k.alertCause, doneCause := k.doneCause
    notices := k.notices, noticesTaken := k.noticesTaken, sent := k.sent, sentSure := k.sentSure }

/-- The same, but for an outstanding fetch, which counts in RUNNING alone. -/
def QuietSame (h k : HostPort) : Prop := RoomSame { h with fetch := k.fetch } k

/-- A port in RESETTING that has been cleared. -/
def Quiet (h : HostPort) : Prop :=
  h.state = .resetting ∧ (∀ c : CtxId, (h.contexts[c]).state = .free) ∧ h.workList = [] ∧ ∀ i : SlotId, h.slots[i] = none

/-- What keeps the rules at port `h`, which becomes `k`, with the loose names that come and stay: outside RESETTING the rules go
over, and in RESETTING nothing changes that they rest on. -/
structure PortWork (loose loose' : List CtxId) (h k : HostPort) : Prop where
  work : ∀ out, AtWork loose out h → AtWork loose' out k
  quiet : Quiet h → QuietSame h k

section
variable {loose loose' loose'' : List CtxId} {h k m : HostPort} {c : CtxId}

theorem AtWork.roomSame {out : List CtxId} (hw : AtWork loose out h) (hsame : RoomSame h k) : AtWork loose out k := by
  rw [hsame]
  exact hw

theorem QuietSame.refl (h : HostPort) : QuietSame h h := rfl

theorem QuietSame.trans (hk : QuietSame h k) (hm : QuietSame k m) : QuietSame h m := by
  unfold QuietSame RoomSame at hk hm ⊢
  rw [hm, hk]

theorem Quiet.same (hq : Quiet h) (hk : QuietSame h k) : Quiet k := by
  unfold QuietSame RoomSame at hk
  rw [hk]
  exact hq

theorem Quiet.no_slot (hq : Quiet h) (c : CtxId) : slotOf h c = none := by
  obtain ⟨-, -, -, hslots⟩ := hq
  exact slotOf_none fun i x hx => by simp [hslots i] at hx

theorem Quiet.not_inService (hq : Quiet h) : h.inService = false := by simp [HostPort.inService, hq.1]

theorem PortWork.of_roomSame (hsame : RoomSame h k) : PortWork loose loose h k := by
  refine ⟨fun out hw => hw.roomSame hsame, fun _ => ?_⟩
  unfold QuietSame
  rw [hsame]
  rfl

theorem PortWork.refl (h : HostPort) : PortWork loose loose h h := .of_roomSame rfl

theorem PortWork.trans (hk : PortWork loose loose' h k) (hm : PortWork loose' loose'' k m) : PortWork loose loose'' h m :=
  ⟨fun out hw => hm.work out (hk.work out hw), fun hq => (hk.quiet hq).trans (hm.quiet (hq.same (hk.quiet hq)))⟩

/-- A change that a port in RESETTING does not make. -/
theorem PortWork.of_work (hwork : ∀ out, AtWork loose out h → AtWork loose' out k) (hquiet : Quiet h → k = h) :
    PortWork loose loose' h k :=
  ⟨hwork, fun hq => by rw [hquiet hq]; exact .refl h⟩

/-! ## Completions and end notices at any port -/

theorem handCompletion_work (c : CtxId) (st : Status) (r : Results) (h : HostPort) :
    PortWork (c :: loose) loose h (handCompletion c st r h) := by
  refine .of_work (fun out hw => hw.handCompletion st r) fun hq => ?_
  unfold handCompletion
  rw [if_neg (by simp [hq.not_inService]), if_neg (by simp [hq.1])]

theorem endNotice_work (c : CtxId) (h : HostPort) : PortWork (c :: loose) loose h (endNotice c h) := by
  refine .of_work (fun out hw => hw.endNotice) fun hq => ?_
  unfold endNotice
  rw [if_neg (by simp [hq.1])]

/-- The migrated notice: the contexts in RELOCATE_WAIT for the segment have no owner, and each gets its completion (R57). -/
theorem migratedNotice_work (l : LogSeg) (h : HostPort) : PortWork [] [] h (migratedNotice l h) := by
  have hhanded (cs : List CtxId) (k : HostPort) :
      PortWork cs [] k (cs.foldl (fun k c => handCompletion c .ok .none k) k) := by
    induction cs generalizing k with
    | nil => exact .refl k
    | cons c cs ih => exact (handCompletion_work c _ _ k).trans (ih _)
  refine ⟨fun out hw => (hhanded (awaiting l h) h).work out ?_, (hhanded (awaiting l h) h).quiet⟩
  obtain ⟨hstate, hring, hintake, hwriter, howned⟩ := hw
  refine ⟨hstate, hring, hintake, hwriter, fun d => ?_⟩
  obtain ⟨hone, hnamed, -⟩ := howned d
  have hwaits (hd : 0 < (awaiting l h).count d) : (h.contexts[d]).state = .relocateWait :=
    (mem_awaiting.mp (List.count_pos_iff.mp hd)).1
  have hle := List.nodup_iff_count_le_one.mp (nodup_awaiting l h) d
  rw [List.count_nil] at hone
  refine ⟨?_, hnamed, fun hd => by rw [hwaits hd]; exact nofun⟩
  by_cases hd : 0 < (awaiting l h).count d
  · have : ¬ 0 < (named h).count d + out.count d := fun h0 => (hnamed h0).2 (hwaits hd)
    omega
  · omega

end

/-! ## Slots (R121, R128, R141) -/

section
variable {loose out : List CtxId} {h : HostPort} {i : SlotId} {x y : Transfer}

theorem named_setSlot (i : SlotId) (z : Option Transfer) (h : HostPort) (d : CtxId) :
    (named (setSlot i z h)).count d + ((h.slots[i]).map Transfer.ctx).toList.count d =
      (named h).count d + (z.map Transfer.ctx).toList.count d := by
  have := slotContexts_set i z h.slots d
  rw [named_count, named_count]
  dsimp only [setSlot]
  omega

/-- A slot goes on with its transfer. -/
theorem AtWork.setSlot (hw : AtWork loose out h) (hx : h.slots[i] = some x) (hctx : y.ctx = x.ctx) :
    AtWork loose out (setSlot i (some y) h) := by
  have hnames (d : CtxId) : (named (Machine.setSlot i (some y) h)).count d = (named h).count d := by
    have := named_setSlot i (some y) h d
    rw [hx, Option.map_some, Option.map_some, hctx] at this
    omega
  refine hw.rewired rfl hw.writer (fun d => by rw [hnames]) fun d hloose hnamed => ?_
  rw [hnames] at hnamed
  obtain ⟨hone, -, -⟩ := hw.owned d
  omega

/-- A FREE slot takes the transfer of a loose context. -/
theorem AtWork.takeSlot (hw : AtWork (x.ctx :: loose) out h) (hc : (h.contexts[x.ctx]).state ≠ .relocateWait)
    (hfree : h.slots[i] = none) : AtWork loose out (Machine.setSlot i (some x) h) := by
  refine hw.adopt hc rfl hw.writer fun d => ?_
  have := named_setSlot i (some x) h d
  rw [hfree] at this
  simpa using this

/-- A slot that becomes FREE leaves its context loose. -/
theorem AtWork.leaveSlot (hw : AtWork loose out h) (hx : h.slots[i] = some x) :
    AtWork (x.ctx :: loose) out (Machine.setSlot i none h) := by
  refine hw.release rfl hw.writer fun d => ?_
  have := named_setSlot i none h d
  rw [hx] at this
  simpa using this.symm

theorem slotOf_spec {c : CtxId} (hslot : slotOf h c = some (i, x)) : h.slots[i] = some x ∧ x.ctx = c := by
  obtain ⟨j, -, hj⟩ := List.exists_of_findSome?_eq_some hslot
  split at hj
  · rename_i t ht
    split at hj
    · obtain ⟨rfl, rfl⟩ := Prod.mk.inj (Option.some.inj hj)
      exact ⟨ht, ‹_›⟩
    · cases hj
  · cases hj

theorem freeSlot_spec (hfree : freeSlot h = some i) : h.slots[i] = none := by
  simpa using List.find?_some hfree

/-- The end of a transfer: its slot is FREE and its completion handed (R141). -/
theorem AtWork.endIfDone (hw : AtWork loose out h) (i : SlotId) : AtWork loose out (endIfDone i h) := by
  unfold Machine.endIfDone
  split
  · exact hw
  · rename_i t ht
    split
    · exact (hw.leaveSlot ht).handCompletion _ _
    · exact hw

/-- Steps 2 and 3 of an activation set the slot, for the same context, and its host read (R128). -/
theorem enterAfterGuard_slot (i : SlotId) (x : Transfer) (h : HostPort) :
    ∃ (y : Transfer) (r : Option SlotRead), y.ctx = x.ctx ∧
      enterAfterGuard i x h = setSlotRead i r (Machine.setSlot i (some y) h) := by
  unfold enterAfterGuard
  split
  · exact ⟨{ x with phase := .listing }, _, rfl, rfl⟩
  · exact ⟨{ x with entries := _, phase := .moving }, _, rfl, rfl⟩
  · exact ⟨{ x with phase := .moving }, _, rfl, rfl⟩

theorem AtWork.enterAfterGuard (hw : AtWork loose out h) (hx : h.slots[i] = some x) :
    AtWork loose out (enterAfterGuard i x h) := by
  obtain ⟨y, r, hctx, heq⟩ := enterAfterGuard_slot i x h
  rw [heq]
  exact hw.setSlot hx hctx

/-- A transfer that takes its slot at its activation (R128). -/
theorem AtWork.startTransfer {c : CtxId} {rest : List CtxId} (hw : AtWork loose out h) (hlist : h.workList = c :: rest)
    (hfree : h.slots[i] = none) : AtWork loose out (startTransfer c i h) := by
  obtain ⟨hactive, hstate⟩ := hw.activateHead hlist
  have hreloc : ((Machine.activateHead c h).contexts[c]).state ≠ .relocateWait := hstate ▸ nofun
  have htaken (y : Transfer) (hctx : y.ctx = c) : AtWork loose out (Machine.setSlot i (some y) (Machine.activateHead c h)) := by
    subst hctx
    exact hactive.takeSlot hreloc hfree
  unfold Machine.startTransfer
  dsimp only
  split
  · refine AtWork.mailOther (htaken _ ?_) rfl
    rfl
  · obtain ⟨y, r, hctx, heq⟩ := enterAfterGuard_slot i (Transfer.fresh c (h.contexts[c]).cmd) (Machine.activateHead c h)
    rw [heq]
    exact htaken y hctx

end

section
variable {loose : List CtxId}

theorem activateTransfer_work (kind : Command → Bool) (h : HostPort) : PortWork loose loose h (activateTransfer kind h) := by
  refine .of_work (fun out hw => ?_) fun ⟨_, _, hlist, _⟩ => ?_
  · unfold activateTransfer
    split
    · rename_i hlist hfree
      split
      · exact (hw.startTransfer hlist (freeSlot_spec hfree)).advance
      · exact hw
    · exact hw
  · simp [activateTransfer, hlist]

theorem takeTransferResult_work (c : CtxId) (line : Nat) (r : Option LineResult) (h : HostPort) :
    PortWork loose loose h (takeTransferResult c line r h) := by
  refine .of_work (fun out hw => ?_) fun hq => ?_
  · unfold takeTransferResult
    split
    · exact hw
    · rename_i i t hslot
      refine AtWork.endIfDone ?_ i
      exact hw.setSlot (slotOf_spec hslot).1 (takeResult_ctx line r t)
  · simp [takeTransferResult, hq.no_slot c]

theorem AtWork.endEarly {out : List CtxId} {h : HostPort} {i : SlotId} {x : Transfer} (hw : AtWork loose out h)
    (hx : h.slots[i] = some x) (e : Ending) : AtWork loose out (endEarly i e x h) := by
  unfold Machine.endEarly
  refine AtWork.endIfDone (hw.setSlot hx ?_) i
  rfl

theorem takeList_work (i : SlotId) (count : Nat) (l : Option (List (BitVec 128))) (h : HostPort) :
    PortWork loose loose h (takeList i count l h) := by
  refine ⟨fun out hw => ?_, fun ⟨_, _, _, hslots⟩ => ?_⟩
  · have hread : AtWork loose out (setSlotRead i none h) := hw
    unfold takeList
    dsimp only
    split
    · exact hread
    · rename_i t ht
      split
      · exact hread.endEarly ht _
      · split
        · exact hread.endEarly ht _
        · exact hread.setSlot ht rfl
  · simp only [takeList, hslots i]
    rfl

theorem takeData_work (i : SlotId) (count : Nat) (ws : Option (List Word)) (h : HostPort) :
    PortWork loose loose h (takeData i count ws h) := by
  refine ⟨fun out hw => ?_, fun ⟨_, _, _, hslots⟩ => ?_⟩
  · have hread : AtWork loose out (setSlotRead i none h) := hw
    unfold takeData
    dsimp only
    split
    · exact hread
    · rename_i t ht
      split
      · exact hread.endEarly ht _
      · split
        · exact hread.setSlot ht rfl
        · exact hread.setSlot ht rfl
  · simp only [takeData, hslots i]
    rfl

theorem Transfer.issue_ctx (x : Transfer) : x.issue.2.ctx = x.ctx := by
  unfold Transfer.issue
  dsimp only
  split
  · rfl
  · rfl
  · split <;> rfl
  · rfl

theorem AtWork.issueFrom {out : List CtxId} {h : HostPort} {i : SlotId} {x : Transfer} (hw : AtWork loose out h)
    (hx : h.slots[i] = some x) : AtWork loose out (issueFrom i x h) := by
  rw [issueFrom_frame]
  exact hw.setSlot hx x.issue_ctx

/-! ## Answers of the Lock Unit (R90, R92, R101) -/

/-- The context an answer ends the request of. -/
def answerContexts : LockAnswer → List CtxId
  | .completion c .. => [c]
  | .endNotice c => [c]
  | _ => []

theorem takeGuardAnswer_work (c : CtxId) (held : Bool) (h : HostPort) : PortWork loose loose h (takeGuardAnswer c held h) := by
  refine .of_work (fun out hw => ?_) fun hq => ?_
  · unfold takeGuardAnswer
    split
    · exact hw
    · rename_i i t hslot
      have ht := (slotOf_spec hslot).1
      split
      · exact hw
      · split
        · exact hw.enterAfterGuard ht
        · refine AtWork.endIfDone (hw.setSlot ht ?_) i
          rfl
  · simp [takeGuardAnswer, hq.no_slot c]

theorem takeGuardEnd_work (c : CtxId) (h : HostPort) : PortWork loose loose h (takeGuardEnd c h) := by
  refine .of_work (fun out hw => ?_) fun hq => ?_
  · unfold takeGuardEnd
    split
    · exact hw
    · rename_i i t hslot
      obtain ⟨ht, rfl⟩ := slotOf_spec hslot
      split
      · exact (hw.leaveSlot ht).freeContext
      · exact hw
  · simp [takeGuardEnd, hq.no_slot c]

theorem takeLockAnswer_work (a : LockAnswer) (h : HostPort) :
    PortWork (answerContexts a ++ loose) loose h (takeLockAnswer a h) := by
  cases a with
  | completion c st ab holder => exact handCompletion_work c st _ h
  | endNotice c => exact endNotice_work c h
  | guardAnswer c held => exact takeGuardAnswer_work c held h
  | guardEnd c => exact takeGuardEnd_work c h
  | waiting c =>
    refine .of_work (fun out hw => ?_) fun ⟨_, hfree, _⟩ => if_neg ?_
    · show AtWork loose out (if (h.contexts[c]).state = .active then setCtxState c .lockWait h else h)
      split
      · rename_i hactive
        exact AtWork.setCtxState hw (hactive ▸ nofun) nofun nofun
      · exact hw
    · rw [hfree c]
      exact nofun

end

end Sys2Proof.Machine
end

section
/-! What the control of a port leaves of the rules of `CompletionRoomOk`: entries to its states, fetches and takings of records, the
reports of record writes, the doorbells (R105 to R113, R122 to R124, R150, R151, R159). -/

namespace Sys2Proof.Machine

section
variable {loose loose' out out' : List CtxId} {h k : HostPort} {c : CtxId}

/-- Names that go or come loose while the contexts stay. -/
theorem Owned.of_counts (howned : Owned loose out h) (hcontexts : k.contexts = h.contexts)
    (hall : ∀ d, loose'.count d + (named k).count d + out'.count d ≤ loose.count d + (named h).count d + out.count d)
    (hnames : ∀ d, (named k).count d + out'.count d ≤ (named h).count d + out.count d) : Owned loose' out' k := by
  intro d
  obtain ⟨hone, hnamed, hfree⟩ := howned d
  have := hall d
  have := hnames d
  rw [hcontexts]
  refine ⟨by omega, fun hd => hnamed (by omega), fun hd => ?_⟩
  by_cases hl : 0 < loose.count d
  · exact hfree hl
  · exact (hnamed (by omega)).1

theorem Owned.same_names (howned : Owned loose out h) (hcontexts : k.contexts = h.contexts) (hnames : named k = named h) :
    Owned loose out k :=
  howned.of_counts hcontexts (fun d => by rw [hnames]) fun d => by rw [hnames]

theorem AtWork.ring (hw : AtWork loose out h) : RingRoomOk h := by
  obtain ⟨-, hring, -, -, -⟩ := hw
  exact hring

theorem AtWork.intake (hw : AtWork loose out h) : IntakeOk h := by
  obtain ⟨-, -, hintake, -, -⟩ := hw
  exact hintake

theorem AtWork.agrees (hw : AtWork loose out h) : HoldAgrees h := by
  obtain ⟨-, hagrees, -, -⟩ := hw.intake
  exact hagrees

/-- In OFF and SETUP no context is in use (R107). -/
theorem AtWork.idle (hw : AtWork loose out h) (hstate : h.state = .off ∨ h.state = .setup) (c : CtxId) :
    (h.contexts[c]).state = .free := by
  obtain ⟨-, hfree, -⟩ := hw.ring
  exact hfree (hstate.imp_right .inl) c

theorem holdAgrees_of_clear (hclear : h.hold = .clear) (hused : h.inUse = 0) : HoldAgrees h := by
  intro v _
  have hmark : 0 < #v[16, 32, 48, 64][v.selector] := Nat.zero_lt_of_lt (marks_ordered v.selector).1
  exact ⟨fun _ => by rwa [hused], fun hpaused => by rw [hclear] at hpaused; cases hpaused⟩

/-! ## Entry to FAULTED (R123, R159) -/

theorem writing_unissued (h : HostPort) :
    writing h.recordWrite h.writeList = writing h.recordWrite [] ++ (unissued h).map Completion.ctx := by
  unfold writing unissued
  cases h.recordWrite <;> rfl

/-- The port as it enters FAULTED, before its contexts are freed. -/
theorem AtWork.faulted (hw : AtWork loose out h) (code : FaultCode) :
    AtWork ((h.workList ++ (unissued h).map Completion.ctx ++ h.maintQueue) ++ loose) out
      { h with
        state := .faulted, faultCode := code, faultCause := true, quietTimer := none, workList := [], writeList := []
        maintQueue := [], lockMail := h.lockMail ++ [.notice .faulted] } := by
  obtain ⟨hroom, -, -⟩ := hw.ring
  refine ⟨nofun, ⟨fun v hv => ⟨(hroom v hv).1, nofun⟩, nofun, nofun⟩, ⟨nofun, hw.agrees, nofun, nofun⟩,
    ⟨fun _ _ hs => (nomatch hs), fun _ => rfl⟩, ?_⟩
  have hnames (d : CtxId) (k : HostPort) (hk : k = { h with
        state := .faulted, faultCode := code, faultCause := true, quietTimer := none, workList := [], writeList := []
        maintQueue := [], lockMail := h.lockMail ++ [.notice .faulted] }) :
      (h.workList ++ (unissued h).map Completion.ctx ++ h.maintQueue).count d + (named k).count d = (named h).count d := by
    subst hk
    rw [named_count, named_count, writing_unissued h, requestContexts_append]
    simp only [List.count_append, List.count_nil, requestContexts, List.filterMap_cons_none, List.filterMap_nil, Nat.zero_add,
      Nat.add_zero]
    omega
  refine hw.owned.of_counts rfl (fun d => ?_) fun d => ?_
  · have := hnames d _ rfl
    rw [List.count_append]
    omega
  · have := hnames d _ rfl
    omega

theorem AtWork.enterFaulted (hw : AtWork loose out h) (code : FaultCode) : AtWork loose out (enterFaulted code h) := by
  have hfreed := (hw.faulted code).freeContexts
  unfold Machine.enterFaulted
  dsimp only
  split
  · rw [sendMessage_eq]
    exact hfreed
  · exact hfreed

/-! ## OFF, SETUP and RUNNING (R107, R108) -/

theorem AtWork.enterSetup (hw : AtWork loose out h) (hoff : h.state = .off) : AtWork loose out (enterSetup h) := by
  have hfree := hw.idle (.inl hoff)
  have hused : h.inUse = 0 := inUse_eq_zero.mpr hfree
  have hused' : (Machine.enterSetup h).inUse = 0 := hused
  refine ⟨nofun, ⟨fun v _ => ⟨?_, nofun⟩, fun _ => hfree, fun _ => rfl⟩,
    ⟨nofun, holdAgrees_of_clear rfl hused, fun _ => rfl, nofun⟩, ⟨nofun, nofun⟩, ?_⟩
  · rw [hused']
    exact Nat.zero_le _
  · have hnames (d : CtxId) : (named (Machine.enterSetup h)).count d ≤ (named h).count d := by
      rw [named_count, named_count]
      have hnone : (writing none []).count d = 0 := rfl
      dsimp only [Machine.enterSetup]
      rw [hnone]
      omega
    refine hw.owned.of_counts rfl (fun d => ?_) fun d => ?_
    · have := hnames d
      omega
    · have := hnames d
      omega

theorem AtWork.enterRunning (hw : AtWork loose out h) (hsetup : h.state = .setup) {v : SetupValues} (hsize : 0 < v.cqEntries) :
    AtWork loose out (enterRunning v h) := by
  have hfree := hw.idle (.inr hsetup)
  have hused : h.inUse = 0 := inUse_eq_zero.mpr hfree
  obtain ⟨-, -, hunconsumed⟩ := hw.ring
  obtain ⟨-, -, hclear, -⟩ := hw.intake
  have hnone : h.unconsumed = 0 := hunconsumed hsetup
  rw [enterRunning_eq]
  refine ⟨nofun, ⟨fun w hw' => ?_, nofun, nofun⟩, ⟨fun _ => rfl, holdAgrees_of_clear (hclear hsetup) hused, nofun,
    fun _ _ => ⟨hclear hsetup, 0, hfree 0⟩⟩, ⟨fun r hr _ => ?_, nofun⟩, ?_⟩
  · obtain rfl := Option.some.inj hw'
    show h.inUse + h.unconsumed ≤ _ ∧ (_ → _ → h.inUse + h.unconsumed < _)
    rw [hused, hnone]
    exact ⟨Nat.zero_le _, fun _ _ => hsize⟩
  · have hr' : h.recordWrite = some r := hr
    have hmem : 0 < (writing h.recordWrite h.writeList).count r.completion.ctx := by
      rw [hr']
      exact List.count_pos_iff.mpr (List.mem_append_left _ (by simp))
    obtain ⟨-, hnamed, -⟩ := hw.owned r.completion.ctx
    rw [named_count] at hnamed
    exact absurd (hfree _) (hnamed (by omega)).1
  · refine hw.owned.same_names rfl ?_
    unfold named
    dsimp only
    rw [requestContexts_append]
    show _ ++ (requestContexts h.lockMail ++ []) = _
    rw [List.append_nil]

theorem AtWork.enterDraining (hw : AtWork loose out h) (hrunning : h.state = .running) :
    AtWork loose out (enterDraining h) := by
  obtain ⟨hroom, -, -⟩ := hw.ring
  obtain ⟨hvalues, hagrees, -, -⟩ := hw.intake
  have hservice : h.inService = true := by simp [HostPort.inService, hrunning]
  refine AtWork.advance (AtWork.mailOther ?_ rfl)
  exact ⟨nofun, ⟨fun v hv => ⟨(hroom v hv).1, nofun⟩, nofun, nofun⟩, ⟨fun _ => hvalues hservice, hagrees, nofun, nofun⟩,
    ⟨fun r hr _ => hw.writer.1 r hr hservice, nofun⟩, hw.owned⟩

/-- The end of a drain: no context is in use (R122). -/
theorem AtWork.off (hw : AtWork loose out h) (hused : h.inUse = 0) : AtWork loose out { h with state := .off } := by
  obtain ⟨hroom, -, -⟩ := hw.ring
  exact ⟨nofun, ⟨fun v hv => ⟨(hroom v hv).1, nofun⟩, fun _ => inUse_eq_zero.mp hused, nofun⟩, ⟨nofun, hw.agrees, nofun, nofun⟩,
    ⟨fun _ _ hs => (nomatch hs), nofun⟩, hw.owned⟩

/-! ## Intake (R111, R112) -/

/-- A fetch that ends, or is dropped. -/
theorem AtWork.endFetch (hw : AtWork loose out h) : AtWork loose out { h with fetch := none } := by
  obtain ⟨hroom, hfree, hunconsumed⟩ := hw.ring
  obtain ⟨hvalues, hagrees, hclear, -⟩ := hw.intake
  obtain ⟨hstate, -, -, hwriter, howned⟩ := hw
  exact ⟨hstate, ⟨fun v hv => ⟨(hroom v hv).1, fun _ hf => nomatch hf⟩, hfree, hunconsumed⟩,
    ⟨hvalues, hagrees, hclear, fun _ hf => nomatch hf⟩, hwriter, howned⟩

theorem AtWork.fetch (hw : AtWork loose out h) {st : StoreState} {v : SetupValues} (hv : h.values = some v)
    (hmay : mayFetch st h = true) (a : Nat) : AtWork loose out { h with fetch := some a } := by
  simp only [mayFetch, HostPort.hasRoom, hv, Bool.and_eq_true, beq_iff_eq, decide_eq_true_eq] at hmay
  obtain ⟨⟨⟨⟨⟨-, -⟩, -⟩, hclear⟩, hroom⟩, -⟩ := hmay
  obtain ⟨hring, hfree, hunconsumed⟩ := hw.ring
  obtain ⟨hvalues, hagrees, hsetup, -⟩ := hw.intake
  refine ⟨hw.1, ⟨fun w hw' => ⟨(hring w hw').1, fun _ _ => ?_⟩, hfree, hunconsumed⟩,
    ⟨hvalues, hagrees, hsetup, fun _ _ => ⟨hclear, hagrees.free v hv hclear⟩⟩, hw.writer, hw.owned⟩
  obtain rfl := Option.some.inj (hv.symm.trans hw')
  exact hroom

/-- A record taken into a FREE context, there being room for its completion (R112, R114). -/
theorem AtWork.takeRecord (hw : AtWork loose out h) {v : SetupValues} (hv : h.values = some v) (hnone : h.fetch = none)
    (hrunning : h.state = .running) (hclear : h.hold = .clear) (hroom : h.inUse + h.unconsumed < v.cqEntries)
    (hfree : (h.contexts[c]).state = .free) (r : BitVec 512) : AtWork loose out (takeRecord v c r h) := by
  have hused : (occupyContext v c r h).inUse = h.inUse + 1 := inUse_set_used c _ h hfree (takenContext_used r h.taken)
  have hreloc : (takenContext r h.taken).state ≠ .relocateWait := by
    unfold takenContext
    split <;> exact nofun
  have hat (d : CtxId) : (occupyContext v c r h).contexts[d] = if d = c then takenContext r h.taken else h.contexts[d] :=
    getElem_set_fin h.contexts c d _
  obtain ⟨hvalues, hagrees, -, -⟩ := hw.intake
  have hservice : h.inService = true := by simp [HostPort.inService, hrunning]
  have hoccupied : AtWork (c :: loose) out (occupyContext v c r h) := by
    refine ⟨by rw [show (occupyContext v c r h).state = h.state from rfl, hrunning]; exact nofun, ⟨fun w hw' => ?_, ?_, ?_⟩,
      ⟨hvalues, hagrees.taking v c r hv hfree hclear, ?_, ?_⟩, hw.writer, fun d => ?_⟩
    · obtain rfl := Option.some.inj (hv.symm.trans hw')
      rw [hused, show (occupyContext v c r h).unconsumed = h.unconsumed from rfl,
        show (occupyContext v c r h).fetch = h.fetch from rfl, hnone]
      exact ⟨by omega, fun _ hf => nomatch hf⟩
    · rw [show (occupyContext v c r h).state = h.state from rfl, hrunning]
      exact nofun
    · rw [show (occupyContext v c r h).state = h.state from rfl, hrunning]
      exact nofun
    · rw [show (occupyContext v c r h).state = h.state from rfl, hrunning]
      exact nofun
    · rw [show (occupyContext v c r h).fetch = h.fetch from rfl, hnone]
      exact fun _ hf => nomatch hf
    · have hnames : named (occupyContext v c r h) = named h := rfl
      obtain ⟨hone, hnamed, hloose⟩ := hw.owned d
      rw [hat, hnames]
      by_cases hd : d = c
      · subst hd
        have hn : ¬ 0 < (named h).count d + out.count d := fun h0 => (hnamed h0).1 hfree
        have hl : ¬ 0 < loose.count d := fun h0 => hloose h0 hfree
        rw [if_pos rfl, List.count_cons_self]
        exact ⟨by omega, fun h0 => absurd h0 hn, fun _ => takenContext_used r h.taken⟩
      · rw [if_neg hd, List.count_cons_of_ne (Ne.symm hd)]
        exact ⟨hone, hnamed, hloose⟩
  unfold Machine.takeRecord
  dsimp only
  split
  · exact hoccupied.handCompletion _ _
  · refine AtWork.advance (hoccupied.adopt ?_ rfl hoccupied.writer fun d => ?_)
    · rw [hat, if_pos rfl]
      exact hreloc
    · rw [named_count, named_count]
      dsimp only
      rw [List.count_append]
      omega

/-! ## The doorbells and the reports of record writes (R110, R150, R151, R159) -/

theorem AtWork.takeConsume (hw : AtWork loose out h) (v n : Nat) : AtWork loose out (takeConsume v n h) := by
  obtain ⟨hroom, hfree, hunconsumed⟩ := hw.ring
  refine ⟨hw.1, ⟨fun w hw' => ?_, hfree, fun hs => ?_⟩, hw.intake, hw.writer, hw.owned⟩
  · obtain ⟨hle, hlt⟩ := hroom w hw'
    show h.inUse + (h.unconsumed - n) ≤ _ ∧ (_ → _ → h.inUse + (h.unconsumed - n) < _)
    exact ⟨by omega, fun hs hf => by have := hlt hs hf; omega⟩
  · show h.unconsumed - n = 0
    rw [hunconsumed hs, Nat.zero_sub]

theorem announce_roomSame (h : HostPort) : RoomSame h (announce h) := by
  unfold announce
  dsimp only
  split
  · rfl
  · rw [sendMessage_eq]
    rfl

theorem announceTests_roomSame (now : Time) (notify : Bool) (h : HostPort) : RoomSame h (announceTests now notify h) := by
  unfold announceTests
  split
  · rfl
  · split
    · exact announce_roomSame h
    · split <;> rfl

theorem recordInRing_eq {v : SetupValues} (hv : h.values = some v) :
    recordInRing c h =
      { freeContext c h with
        cqTail := if h.cqTail + 1 == v.cqEntries then 0 else h.cqTail + 1
        phase := if h.cqTail + 1 == v.cqEntries then !h.phase else h.phase
        unconsumed := h.unconsumed + 1 } := by
  unfold recordInRing
  rw [hv]
  dsimp only
  unfold freeContext
  dsimp only
  split
  · rw [← hv]
  · rw [← hv]
    rfl

theorem freeContext_inUse (hc : (h.contexts[c]).state ≠ .free) : (freeContext c h).inUse + 1 = h.inUse := by
  have hset := inUse_set_free c h hc
  unfold freeContext
  rw [if_neg hc]
  exact hset

/-- A record in the ring: one more record is unconsumed, and one context less in use (R114, R150). -/
theorem AtWork.recordInRing (hw : AtWork (c :: loose) out h) : AtWork loose out (recordInRing c h) := by
  cases hv : h.values with
  | none =>
    unfold Machine.recordInRing
    rw [hv]
    exact hw.drop
  | some v =>
    have hcount := freeContext_inUse hw.loose_used.1
    have hframe := freeContext_frame c h
    have hfreed := hw.freeContext
    obtain ⟨hroom, hidle, hunconsumed⟩ := hw.ring
    obtain ⟨hstate, ⟨-, hfree', -⟩, hintake, hwriter, howned⟩ := hfreed
    have hstate_same : (Machine.freeContext c h).state = h.state := by rw [hframe]
    have hfetch_same : (Machine.freeContext c h).fetch = h.fetch := by rw [hframe]
    have hvalues_same : (Machine.freeContext c h).values = h.values := by rw [hframe]
    rw [recordInRing_eq hv]
    refine ⟨hstate, ⟨fun w hw' => ?_, hfree', fun hs => ?_⟩, hintake, hwriter, howned⟩
    · obtain ⟨hle, hlt⟩ := hroom w (hvalues_same ▸ hw')
      show (Machine.freeContext c h).inUse + (h.unconsumed + 1) ≤ _ ∧
        ((Machine.freeContext c h).state = _ → (Machine.freeContext c h).fetch.isSome = _ →
          (Machine.freeContext c h).inUse + (h.unconsumed + 1) < _)
      rw [hstate_same, hfetch_same]
      exact ⟨by omega, fun hs hf => by have := hlt hs hf; omega⟩
    · have hsetup : h.state = .setup := hstate_same ▸ hs
      exact absurd (hidle (.inr (.inl hsetup)) c) hw.loose_used.1

/-- The record write outstanding ends in service: its completion leaves the write list, and its context is loose (R150). -/
theorem AtWork.endWrite (hw : AtWork loose out h) {r : RecordWrite} (hr : h.recordWrite = some r) (hservice : h.inService = true) :
    AtWork (r.completion.ctx :: loose) out { h with recordWrite := none, writeList := h.writeList.tail } := by
  refine hw.release rfl ⟨nofun, fun hs => ?_⟩ fun d => ?_
  · replace hs : h.state = .faulted := hs
    simp [HostPort.inService, hs] at hservice
  · have hwriting := writing_inService hw.writer hservice
    have hhead := hw.writer.1 r hr hservice
    rw [named_count, named_count]
    dsimp only
    rw [hwriting]
    cases hlist : h.writeList with
    | nil => simp [hlist] at hhead
    | cons x rest =>
      rw [hlist] at hhead
      obtain rfl := Option.some.inj hhead
      rw [List.map_cons, count_cons_singleton]
      show _ + _ + (_ + (rest.map Completion.ctx).count d) + _ + _ = _ + _ + (rest.map Completion.ctx).count d + _ + _ + _
      omega

theorem AtWork.recordAccepted (hw : AtWork loose out h) {r : RecordWrite} (hr : h.recordWrite = some r)
    (hservice : h.inService = true) (now : Time) : AtWork loose out (recordAccepted now r h) := by
  have hended : AtWork (r.completion.ctx :: loose) out
      (confirmSent r.mark { h with recordWrite := none, writeList := h.writeList.tail }) := hw.endWrite hr hservice
  unfold Machine.recordAccepted
  refine AtWork.issueRecord (AtWork.roomSame ?_ (announceTests_roomSame _ _ _))
  exact hended.recordInRing

/-- The record write outstanding ends in FAULTED, where no completion waits behind it (R159). -/
theorem AtWork.endLastWrite (hw : AtWork loose out h) {r : RecordWrite} (hr : h.recordWrite = some r)
    (hfaulted : h.state = .faulted) : AtWork (r.completion.ctx :: loose) out { h with recordWrite := none } := by
  have hlist := hw.writer.2 hfaulted
  refine hw.release rfl ⟨nofun, hw.writer.2⟩ fun d => ?_
  rw [named_count, named_count]
  dsimp only
  rw [hr, hlist]
  show _ + _ + [r.completion.ctx].count d + _ + _ = _ + _ + 0 + _ + _ + _
  omega

/-- A record write refused in service: the whole write list is then unissued (R151). -/
theorem AtWork.refuseWrite (hw : AtWork loose out h) (hservice : h.inService = true) :
    AtWork loose out { h with recordWrite := none } := by
  obtain ⟨hstate, hring, hintake, hwriter, howned⟩ := hw
  refine ⟨hstate, hring, hintake, ⟨nofun, hwriter.2⟩, howned.same_names rfl ?_⟩
  unfold named
  dsimp only
  rw [writing_inService hwriter hservice]
  rfl

end

end Sys2Proof.Machine
end

section
/-! O59, the whole state. The contexts of a port that the shared units name, and what the Lock Unit, the Maintenance Unit and every row
leave of the rules of `CompletionRoomOk` (R88, R92, R113, R114, R117, R118, R124, R150, R162 to R164). -/

namespace Sys2Proof.Machine

/-! ## The contexts the shared units name -/

/-- The running command of port `p` (R161). -/
def runningOf (p : PortId) (m : MaintUnit) : Option Running := m.running.filter fun r => r.port = p

/-- The contexts of the waiters of port `p` (R87). -/
def waiting (p : PortId) (u : LockUnit) : List CtxId := (u.pool.filter fun w => w.party.port = p).map Waiter.ctx

/-- The contexts of port `p` that the shared units name: the part of `owners` that is held outside the port. -/
def elsewhere (p : PortId) (s : State) : List CtxId :=
  ((runningOf p s.maint).map Running.ctx).toList ++ waiting p s.locks

/-- The rules of `CompletionRoomOk`, with contexts that are on their way: `loose` ones to port `p`, and `extra` ones to a shared
unit. -/
def Room (loose extra : List CtxId) (p : PortId) (s : State) : Prop :=
  RingRoomOk (s.port p) ∧ IntakeOk (s.port p) ∧ WriterOk (s.port p) ∧
    if (s.port p).state = .resetting then ResettingOk p s else Owned loose (extra ++ elsewhere p s) (s.port p)

/-- The rules hold at both ports, with nothing on its way. -/
def Rooms (s : State) : Prop := ∀ p, Room [] [] p s

theorem owners_count (p : PortId) (s : State) (c : CtxId) :
    (owners p s).count c = (named (s.port p)).count c + (elsewhere p s).count c := by
  have hrunning : (s.maint.running.toList.filter fun r => decide (r.port = p)).map Running.ctx =
      ((runningOf p s.maint).map Running.ctx).toList := by
    unfold runningOf
    cases s.maint.running with
    | none => rfl
    | some r => by_cases hr : r.port = p <;> simp [Option.filter_some, hr]
  rw [named_count]
  unfold owners
  dsimp only
  rw [hrunning]
  simp only [List.count_append, elsewhere, waiting, writing, slotContexts, unissued]
  omega

theorem contextsOwned_iff {p : PortId} {s : State} : ContextsOwned p s ↔ Owned [] (elsewhere p s) (s.port p) := by
  unfold ContextsOwned Owned
  rw [List.nodup_iff_count_le_one]
  constructor
  · rintro ⟨hone, howned⟩ c
    have hc := owners_count p s c
    have := hone c
    exact ⟨by rw [List.count_nil]; omega, fun h0 => howned c (List.count_pos_iff.mp (by omega)), fun h0 => absurd h0 (by simp)⟩
  · intro h
    refine ⟨fun c => ?_, fun c hc => ?_⟩
    · obtain ⟨hone, -, -⟩ := h c
      rw [owners_count]
      rw [List.count_nil] at hone
      omega
    · obtain ⟨-, howned, -⟩ := h c
      have := List.count_pos_iff.mpr hc
      rw [owners_count] at this
      exact howned this

theorem completionRoomOk_iff {p : PortId} {s : State} : CompletionRoomOk p s ↔ Room [] [] p s := by
  unfold CompletionRoomOk Room
  rw [contextsOwned_iff]
  rfl

theorem rooms_iff {s : State} : (∀ p, CompletionRoomOk p s) ↔ Rooms s := forall_congr' fun _ => completionRoomOk_iff

section
variable {loose loose' extra extra' : List CtxId} {p q : PortId} {s t : State}

theorem room_of_atWork (h : AtWork loose (extra ++ elsewhere p s) (s.port p)) : Room loose extra p s := by
  obtain ⟨hstate, hring, hintake, hwriter, howned⟩ := h
  refine ⟨hring, hintake, hwriter, ?_⟩
  rwa [if_neg hstate]

theorem Room.atWork (h : Room loose extra p s) (hstate : (s.port p).state ≠ .resetting) :
    AtWork loose (extra ++ elsewhere p s) (s.port p) := by
  obtain ⟨hring, hintake, hwriter, howned⟩ := h
  rw [if_neg hstate] at howned
  exact ⟨hstate, hring, hintake, hwriter, howned⟩

theorem Room.resetting (h : Room loose extra p s) (hstate : (s.port p).state = .resetting) : ResettingOk p s := by
  obtain ⟨-, -, -, hresetting⟩ := h
  rwa [if_pos hstate] at hresetting

theorem Room.quiet (h : Room loose extra p s) (hstate : (s.port p).state = .resetting) : Quiet (s.port p) := by
  obtain ⟨hlist, hslots, -⟩ := h.resetting hstate
  obtain ⟨⟨-, hfree, -⟩, -⟩ := h
  exact ⟨hstate, hfree (.inr (.inr hstate)), hlist, hslots⟩

/-- At a port in RESETTING the rules rest on what its mail leaves, and on `ResettingOk`. -/
theorem Room.of_calm (h : Room loose extra p s) (hstate : (s.port p).state = .resetting)
    (hport : QuietSame { s.port p with lockMail := (t.port p).lockMail } (t.port p)) (hresetting : ResettingOk p t) :
    Room loose' extra' p t := by
  obtain ⟨⟨hroom, hfree, hunconsumed⟩, ⟨-, hagrees, -, -⟩, ⟨-, hlist⟩, -⟩ := h
  unfold QuietSame RoomSame at hport
  unfold Room
  rw [if_pos (show (t.port p).state = .resetting by rw [hport]; exact hstate)]
  refine ⟨?_, ?_, ?_, hresetting⟩
  · rw [hport]
    exact ⟨fun v hv => ⟨(hroom v hv).1, fun hs => nomatch hstate.symm.trans hs⟩, hfree, hunconsumed⟩
  · rw [hport]
    exact ⟨fun hs => by simp [HostPort.inService, hstate] at hs, hagrees, fun hs => (nomatch hstate.symm.trans hs),
      fun hs => nomatch hstate.symm.trans hs⟩
  · rw [hport]
    exact ⟨fun _ _ hs => by simp [HostPort.inService, hstate] at hs, hlist⟩

theorem Room.of_quiet (h : Room loose extra p s) (hstate : (s.port p).state = .resetting)
    (hport : QuietSame (s.port p) (t.port p)) (hresetting : ResettingOk p t) : Room loose' extra' p t := by
  refine h.of_calm hstate ?_ hresetting
  unfold QuietSame RoomSame at hport ⊢
  rw [hport]

theorem ResettingOk.quietSame (h : ResettingOk p s) (hport : QuietSame (s.port p) (t.port p)) (hmaint : t.maint = s.maint)
    (hlocks : t.locks = s.locks) : ResettingOk p t := by
  unfold QuietSame RoomSame at hport
  unfold ResettingOk at h ⊢
  rw [hport, hmaint, hlocks]
  exact h

/-- Work at port `p` by its own means. -/
theorem Room.work (h : Room loose extra p s) (hwork : PortWork loose loose' (s.port p) (t.port p)) (hmaint : t.maint = s.maint)
    (hlocks : t.locks = s.locks) : Room loose' extra p t := by
  by_cases hstate : (s.port p).state = .resetting
  · have hport := hwork.quiet (h.quiet hstate)
    exact h.of_quiet hstate hport ((h.resetting hstate).quietSame hport hmaint hlocks)
  · refine room_of_atWork ?_
    have helse : elsewhere p t = elsewhere p s := by unfold elsewhere; rw [hmaint, hlocks]
    rw [helse]
    exact hwork.work _ (h.atWork hstate)

theorem Room.congr (h : Room loose extra p s) (hport : t.port p = s.port p) (hmaint : t.maint = s.maint)
    (hlocks : t.locks = s.locks) : Room loose extra p t :=
  h.work (by rw [hport]; exact .refl _) hmaint hlocks

/-- A context on its way to a shared unit turns to its port. -/
theorem Room.loosen (h : Room loose (extra ++ extra') p s) : Room (extra ++ loose) extra' p s := by
  by_cases hstate : (s.port p).state = .resetting
  · exact h.of_quiet hstate (.refl _) (h.resetting hstate)
  · refine room_of_atWork ((h.atWork hstate).weaken (fun d => ?_) fun d => ?_)
    · simp only [List.count_append]
      omega
    · simp only [List.count_append]
      omega

theorem Rooms.work (h : Rooms s) (hwork : ∀ p, PortWork [] [] (s.port p) (t.port p)) (hmaint : t.maint = s.maint)
    (hlocks : t.locks = s.locks) : Rooms t :=
  fun p => (h p).work (hwork p) hmaint hlocks

theorem Rooms.same (h : Rooms s) (hports : ∀ p, RoomSame (s.port p) (t.port p)) (hmaint : t.maint = s.maint)
    (hlocks : t.locks = s.locks) : Rooms t :=
  h.work (fun p => .of_roomSame (hports p)) hmaint hlocks

theorem Room.modPort_ne (h : Room loose extra q s) (hq : q ≠ p) (f : HostPort → HostPort) :
    Room loose extra q (s.modPort p f) :=
  h.congr (port_modPort_ne s f hq) (modPort_maint s p f) (modPort_locks s p f)

theorem Room.modPort {f : HostPort → HostPort} (h : Room loose extra p s) (hwork : PortWork loose loose' (s.port p) (f (s.port p))) :
    Room loose' extra p (s.modPort p f) :=
  h.work (by rwa [port_modPort_same]) (modPort_maint s p f) (modPort_locks s p f)

theorem Rooms.modPort {f : HostPort → HostPort} (h : Rooms s) (hwork : PortWork [] [] (s.port p) (f (s.port p))) :
    Rooms (s.modPort p f) := by
  intro q
  by_cases hq : q = p
  · subst hq
    exact (h q).modPort hwork
  · exact (h q).modPort_ne hq f

/-- Work of a port that is not in RESETTING. -/
theorem Rooms.atWork {f : HostPort → HostPort} (h : Rooms s) (hstate : (s.port p).state ≠ .resetting)
    (hwork : ∀ out, AtWork [] out (s.port p) → AtWork [] out (f (s.port p))) : Rooms (s.modPort p f) :=
  h.modPort ⟨hwork, fun hq => absurd hq.1 hstate⟩

end

/-! ## Answers on their way (R92) -/

/-- The contexts that answers to port `p` end the requests of. -/
def looseOf (p : PortId) (as : Answers) : List CtxId := (as.filter fun a => a.1 = p).flatMap fun a => answerContexts a.2

@[simp] theorem looseOf_nil (p : PortId) : looseOf p [] = [] := rfl

theorem looseOf_cons_same (p : PortId) (a : LockAnswer) (as : Answers) : looseOf p ((p, a) :: as) = answerContexts a ++ looseOf p as := by
  simp [looseOf]

theorem looseOf_cons_ne {p q : PortId} (hq : q ≠ p) (a : LockAnswer) (as : Answers) : looseOf q ((p, a) :: as) = looseOf q as := by
  simp [looseOf, Ne.symm hq]

theorem looseOf_append (p : PortId) (as bs : Answers) : looseOf p (as ++ bs) = looseOf p as ++ looseOf p bs := by
  simp [looseOf]

/-- The answers delivered: each port takes those that are its own. -/
theorem rooms_deliver (as : Answers) {s : State} (h : ∀ p, Room (looseOf p as) [] p s) : Rooms (deliver as s) := by
  unfold deliver
  induction as generalizing s with
  | nil => exact h
  | cons a as ih =>
    obtain ⟨p, a⟩ := a
    refine ih fun q => ?_
    have hq := h q
    by_cases hqp : q = p
    · subst hqp
      rw [looseOf_cons_same] at hq
      exact hq.modPort (takeLockAnswer_work a _)
    · rw [looseOf_cons_ne hqp] at hq
      exact hq.modPort_ne hqp _

/-! ## What the Lock Unit takes -/

/-- Of port `p`, what the answers of `r` end and who waits in its pool were given with the request or waited before. -/
def LockMove (p : PortId) (given : List CtxId) (u : LockUnit) (r : LockUnit × Answers) : Prop :=
  ∀ d, (looseOf p r.2).count d + (waiting p r.1).count d ≤ given.count d + (waiting p u).count d

/-- A port held as RESETTING, with no waiter, stays so. -/
def LockCalm (p : PortId) (u u' : LockUnit) : Prop :=
  u.view p = .resetting → (∀ w ∈ u.pool, w.party.port ≠ p) → u'.view p = .resetting ∧ ∀ w ∈ u'.pool, w.party.port ≠ p

section
variable {p q : PortId} {u : LockUnit}

theorem LockCalm.of_subset {u' : LockUnit} (hview : u'.view p = u.view p) (hpool : u'.pool ⊆ u.pool) : LockCalm p u u' :=
  fun hv hw => ⟨hview.trans hv, fun w h => hw w (hpool h)⟩

theorem waiting_append (p : PortId) (u : LockUnit) (pool more : List Waiter) :
    waiting p { u with pool := pool ++ more } = waiting p { u with pool := pool } ++ waiting p { u with pool := more } := by
  simp [waiting]

theorem waiting_pool {u u' : LockUnit} (h : u'.pool = u.pool) : waiting p u' = waiting p u := by
  unfold waiting
  rw [h]

/-- A lock given up: the waiter that gets it leaves the pool with its completion (R91, R94, R100). -/
theorem passLock_move (abandoned : Bool) (k : LockId) (u : LockUnit) : LockMove p [] u (passLock abandoned k u) := by
  intro d
  rcases no_waiter_or_oldest k u.pool with hnone | ⟨pre, w, post, hpool, hpre, hw⟩
  · rw [passLock_of_none abandoned hnone]
    exact Nat.le_refl _
  · rw [passLock_of_oldest abandoned hpool hpre hw]
    have hbefore : waiting p u = ((pre ++ w :: post).filter fun w => w.party.port = p).map Waiter.ctx := by
      unfold waiting
      rw [hpool]
    have hafter : waiting p (setLock k ⟨some w.party, false⟩ { u with pool := pre ++ post }) =
        ((pre ++ post).filter fun w => w.party.port = p).map Waiter.ctx := rfl
    rw [hbefore]
    dsimp only
    rw [hafter]
    by_cases hp : p = w.party.port
    · subst hp
      rw [looseOf_cons_same]
      simp only [answerContexts, looseOf_nil, List.append_nil, List.filter_append, List.map_append, List.count_append,
        List.filter_cons, decide_true, if_true, List.map_cons, List.count_cons, List.count_nil]
      omega
    · rw [looseOf_cons_ne hp]
      simp [Ne.symm hp]

theorem passLock_calm (abandoned : Bool) (k : LockId) (u : LockUnit) : LockCalm p u (passLock abandoned k u).1 :=
  .of_subset (passLock_view abandoned k u p) (passLock_pool_subset abandoned k u)

/-- A request answered without a change of the pool. -/
theorem lockMove_answered {u' : LockUnit} {c : CtxId} {a : LockAnswer} (hpool : u'.pool = u.pool) (ha : answerContexts a = [c]) :
    LockMove p [c] u (u', [(p, a)]) ∧ (q ≠ p → LockMove q [] u (u', [(p, a)])) := by
  refine ⟨fun d => ?_, fun hq d => ?_⟩
  · rw [looseOf_cons_same, ha, waiting_pool hpool]
    exact Nat.le_refl _
  · rw [looseOf_cons_ne hq, waiting_pool hpool]
    exact Nat.le_refl _

/-- An ACQUIRE is answered, or its context waits (R89, R90). -/
theorem takeAcquire_cases (now : Time) (p : PortId) (c : CtxId) (k : LockId) (o : Owner) (timeout : Nat) (u : LockUnit) :
    (∃ u' a, takeAcquire now p c k o timeout u = (u', [(p, a)]) ∧ u'.pool = u.pool ∧ answerContexts a = [c] ∧
        ∀ q, u'.view q = u.view q) ∨
      u.takes p = true ∧ takeAcquire now p c k o timeout u =
        ({ u with pool := u.pool ++ [⟨k, ⟨p, o⟩, c, waiterDeadline now timeout, false⟩] }, [(p, .waiting c)]) := by
  unfold takeAcquire
  dsimp only
  split
  · exact .inl ⟨_, _, rfl, rfl, rfl, fun _ => rfl⟩
  · rename_i htakes
    split
    · exact .inl ⟨_, _, rfl, rfl, rfl, fun q => by cases q <;> rfl⟩
    · split
      · exact .inl ⟨_, _, rfl, rfl, rfl, fun _ => rfl⟩
      · split
        · exact .inl ⟨_, _, rfl, rfl, rfl, fun _ => rfl⟩
        · split
          · exact .inl ⟨_, _, rfl, rfl, rfl, fun _ => rfl⟩
          · split
            · exact .inl ⟨_, _, rfl, rfl, rfl, fun _ => rfl⟩
            · split
              · exact .inl ⟨_, _, rfl, rfl, rfl, fun _ => rfl⟩
              · exact .inr ⟨by simpa using htakes, rfl⟩

theorem takeAcquire_move (now : Time) (c : CtxId) (k : LockId) (o : Owner) (timeout : Nat) :
    LockMove p [c] u (takeAcquire now p c k o timeout u) ∧
      (q ≠ p → LockMove q [] u (takeAcquire now p c k o timeout u)) := by
  rcases takeAcquire_cases now p c k o timeout u with ⟨u', a, heq, hpool, ha, -⟩ | ⟨-, heq⟩
  · rw [heq]
    exact lockMove_answered hpool ha
  · rw [heq]
    refine ⟨fun d => ?_, fun hq d => ?_⟩
    · rw [looseOf_cons_same, waiting_append]
      simp [waiting, answerContexts, List.count_append, Nat.add_comm]
    · rw [looseOf_cons_ne hq, waiting_append]
      simp [waiting, Ne.symm hq]

theorem takeAcquire_calm (now : Time) (c : CtxId) (k : LockId) (o : Owner) (timeout : Nat) :
    LockCalm q u (takeAcquire now p c k o timeout u).1 := by
  rcases takeAcquire_cases now p c k o timeout u with ⟨u', a, heq, hpool, -, hview⟩ | ⟨htakes, heq⟩
  · rw [heq]
    exact .of_subset (hview q) (by rw [hpool]; exact List.Subset.refl _)
  · rw [heq]
    intro hv hw
    have hqp : p ≠ q := by
      rintro rfl
      simp [LockUnit.takes, hv] at htakes
    refine ⟨by cases q <;> exact hv, fun w h => ?_⟩
    rcases List.mem_append.mp h with h | h
    · exact hw w h
    · obtain rfl := List.mem_singleton.mp h
      exact hqp

theorem takeRelease_move (c : CtxId) (k : LockId) (o : Owner) :
    LockMove p [c] u (takeRelease p c k o u) ∧ (q ≠ p → LockMove q [] u (takeRelease p c k o u)) := by
  unfold takeRelease
  dsimp only
  split
  · exact lockMove_answered rfl rfl
  · split
    · refine ⟨fun d => ?_, fun hq d => ?_⟩
      · have := passLock_move (p := p) false k u d
        rw [looseOf_append, looseOf_cons_same]
        simp only [answerContexts, looseOf_nil, List.append_nil, List.count_append, List.count_nil] at this ⊢
        omega
      · rw [looseOf_append, looseOf_cons_ne hq, looseOf_nil, List.append_nil]
        exact passLock_move false k u d
    · exact lockMove_answered rfl rfl

theorem takeRelease_calm (c : CtxId) (k : LockId) (o : Owner) : LockCalm q u (takeRelease p c k o u).1 := by
  unfold takeRelease
  dsimp only
  split
  · exact .of_subset rfl (List.Subset.refl _)
  · split
    · exact passLock_calm false k u
    · exact .of_subset rfl (List.Subset.refl _)

/-- The expiry of a waiter is its port's (R93). -/
theorem takeExpiry_move (p : PortId) (c : CtxId) (u : LockUnit) : LockMove q [] u (takeExpiry p c u) := by
  unfold takeExpiry
  split
  · rename_i w hfind
    split
    · obtain ⟨hw, pre, post, hpool, hpre⟩ := List.find?_eq_some_iff_append.mp hfind
      have herase : u.pool.eraseP (isWaiterOf p c) = pre ++ post := by
        rw [hpool]
        exact eraseP_of_first (by simpa using hpre) hw
      obtain ⟨hport, hctx⟩ : w.party.port = p ∧ w.ctx = c := by simpa [isWaiterOf] using hw
      intro d
      have hbefore : waiting q u = ((pre ++ w :: post).filter fun w => w.party.port = q).map Waiter.ctx := by
        unfold waiting
        rw [hpool]
      rw [hbefore]
      dsimp only [waiting]
      rw [herase]
      by_cases hq : q = p
      · subst hq
        rw [looseOf_cons_same]
        simp only [answerContexts, looseOf_nil, List.append_nil, List.filter_append, List.map_append, List.count_append,
          List.filter_cons, hport, hctx, decide_true, if_true, List.map_cons, List.count_cons, List.count_nil]
        omega
      · rw [looseOf_cons_ne hq]
        simp [hport, Ne.symm hq]
    · exact fun d => Nat.le_refl _
  · exact fun d => Nat.le_refl _

theorem takeExpiry_calm (p : PortId) (c : CtxId) (u : LockUnit) : LockCalm q u (takeExpiry p c u).1 := by
  unfold takeExpiry
  split
  · split
    · exact .of_subset rfl List.eraseP_subset
    · exact .of_subset rfl (List.Subset.refl _)
  · exact .of_subset rfl (List.Subset.refl _)

end


/-! ## Requests and notices the Lock Unit takes (R88, R96) -/

/-- What R124 asks of a port's mail and of the Lock Unit in RESETTING: the reset notice is the last one under way, or it has been
taken and no waiter of the port is left. -/
def NoticeCalm (p : PortId) (mail : List LockMail) (u : LockUnit) : Prop :=
  (noticesOf mail).getLast? = some .resetting ∨ noticesOf mail = [] ∧ u.view p = .resetting ∧ ∀ w ∈ u.pool, w.party.port ≠ p

section
variable {loose out given : List CtxId} {h : HostPort} {mail : List LockMail} {p q : PortId} {s : State} {u u' : LockUnit}

/-- Requests that leave the mail are on their way to the Lock Unit. -/
theorem AtWork.takeMail (hw : AtWork loose out h)
    (hmail : ∀ d, given.count d + (requestContexts mail).count d = (requestContexts h.lockMail).count d) :
    AtWork loose (given ++ out) { h with lockMail := mail } := by
  obtain ⟨hstate, hring, hintake, hwriter, howned⟩ := hw
  have hnames (d : CtxId) : (named { h with lockMail := mail }).count d + given.count d = (named h).count d := by
    have := hmail d
    rw [named_count, named_count]
    dsimp only
    omega
  refine ⟨hstate, hring, hintake, hwriter, howned.of_counts rfl (fun d => ?_) fun d => ?_⟩
  · have := hnames d
    rw [List.count_append]
    omega
  · have := hnames d
    rw [List.count_append]
    omega

/-- What the Lock Unit makes of the requests given to it goes loose, or waits in its pool. -/
theorem AtWork.locksTaken {t : State} {r : LockUnit × Answers} (hw : AtWork [] (given ++ elsewhere q s) h)
    (hmove : LockMove q given s.locks r) (hmaint : t.maint = s.maint) (hlocks : t.locks = r.1) :
    AtWork (looseOf q r.2) (elsewhere q t) h := by
  have helse (d : CtxId) : (elsewhere q t).count d + (waiting q s.locks).count d =
      (elsewhere q s).count d + (waiting q r.1).count d := by
    unfold elsewhere
    rw [hmaint, hlocks, List.count_append, List.count_append]
    omega
  refine hw.weaken (fun d => ?_) fun d => ?_
  · have := helse d
    have := hmove d
    rw [List.count_append]
    omega
  · have := helse d
    have := hmove d
    rw [List.count_append, List.count_nil]
    omega

/-- What the Lock Unit takes of port `q`'s mail, and what it does then, as far as it is port `q`'s. -/
theorem Room.locksTaken {t : State} {r : LockUnit × Answers} (h : Room [] [] q s)
    (hmail : ∀ d, given.count d + (requestContexts mail).count d = (requestContexts (s.port q).lockMail).count d)
    (hport : t.port q = { s.port q with lockMail := mail }) (hmaint : t.maint = s.maint) (hlocks : t.locks = r.1)
    (hmove : LockMove q given s.locks r) (hcalm : NoticeCalm q (s.port q).lockMail s.locks → NoticeCalm q mail r.1) :
    Room (looseOf q r.2) [] q t := by
  by_cases hstate : (s.port q).state = .resetting
  · refine h.of_calm hstate ?_ ?_
    · rw [hport]
      rfl
    · obtain ⟨hlist, hslots, hwrite, hwrites, hqueue, hread, hnotices⟩ := h.resetting hstate
      unfold ResettingOk
      rw [hport, hmaint, hlocks]
      exact ⟨hlist, hslots, hwrite, hwrites, hqueue, hread, hcalm hnotices⟩
  · refine room_of_atWork ?_
    rw [hport]
    exact ((h.atWork hstate).takeMail hmail).locksTaken hmove hmaint hlocks

/-- A request or a notice of port `p` taken: the Lock Unit answers it, and the answers reach their ports. -/
theorem Rooms.requestTaken {r : LockUnit × Answers} (h : Rooms s)
    (hmail : ∀ d, given.count d + (requestContexts mail).count d = (requestContexts (s.port p).lockMail).count d)
    (hown : LockMove p given s.locks r) (hother : ∀ q, q ≠ p → LockMove q [] s.locks r ∧ LockCalm q s.locks r.1)
    (hcalm : NoticeCalm p (s.port p).lockMail s.locks → NoticeCalm p mail r.1) : Rooms (requestTaken p mail r s) := by
  refine rooms_deliver r.2 fun q => ?_
  by_cases hq : q = p
  · subst hq
    exact (h q).locksTaken hmail (port_modPort_same s q fun h => { h with lockMail := mail }) (modPort_maint ..) rfl hown hcalm
  · obtain ⟨hmove, hcalmOther⟩ := hother q hq
    refine (h q).locksTaken (given := []) (mail := (s.port q).lockMail) (fun d => by rw [List.count_nil, Nat.zero_add])
      (port_modPort_ne s (fun h => { h with lockMail := mail }) hq) (modPort_maint ..) rfl hmove ?_
    exact Or.imp_right fun ⟨hnone, hview, hpool⟩ => ⟨hnone, hcalmOther hview hpool⟩

/-- With its notices still under way, a port's mail is taken calmly. -/
theorem NoticeCalm.request (hnotices : noticesOf mail = noticesOf h.lockMail) (hcalm : LockCalm p u u') :
    NoticeCalm p h.lockMail u → NoticeCalm p mail u' := by
  unfold NoticeCalm
  rw [hnotices]
  exact Or.imp_right fun ⟨hnone, hview, hpool⟩ => ⟨hnone, hcalm hview hpool⟩

end

/-! ## The notices (R96 to R99) -/

section
variable {p q : PortId} {u : LockUnit} {pre post : List LockMail} {v : LockView}

theorem noticesOf_append (l m : List LockMail) : noticesOf (l ++ m) = noticesOf l ++ noticesOf m := List.filterMap_append

theorem noticesOf_of_none (hpre : ∀ m ∈ pre, ∀ u, m ≠ .notice u) : noticesOf pre = [] := by
  unfold noticesOf
  rw [List.filterMap_eq_nil_iff]
  intro m hm
  split
  · exact absurd rfl (hpre _ hm _)
  · rfl

/-- The first notice under way. -/
theorem nextNotice_split {mail : List LockMail} (hnext : nextNotice mail = some v) :
    ∃ pre post, mail = pre ++ .notice v :: post ∧ ∀ m ∈ pre, ∀ u, m ≠ .notice u := by
  unfold nextNotice at hnext
  obtain ⟨pre, m, post, rfl, hm, hpre⟩ := List.findSome?_eq_some_iff.mp hnext
  split at hm
  · obtain rfl := Option.some.inj hm
    refine ⟨pre, post, rfl, fun m hm u hu => ?_⟩
    have := hpre m hm
    rw [hu] at this
    cases this
  · cases hm

/-- A notice taken at a port in RESETTING: the reset notice leaves none behind it and no waiter, and behind another one it is
still the last. -/
theorem NoticeCalm.notice {u' : LockUnit} (hpre : ∀ m ∈ pre, ∀ u, m ≠ .notice u)
    (hreset : v = .resetting → u'.view p = .resetting ∧ ∀ w ∈ u'.pool, w.party.port ≠ p) :
    NoticeCalm p (pre ++ .notice v :: post) u → NoticeCalm p (pre ++ post) u' := by
  have hmail : noticesOf (pre ++ .notice v :: post) = v :: noticesOf post := by
    rw [noticesOf_append, noticesOf_of_none hpre]
    rfl
  have hrest : noticesOf (pre ++ post) = noticesOf post := by
    rw [noticesOf_append, noticesOf_of_none hpre, List.nil_append]
  unfold NoticeCalm
  rw [hmail, hrest]
  rintro (hlast | ⟨hnone, -⟩)
  · cases hpost : noticesOf post with
    | nil =>
      rw [hpost] at hlast
      exact .inr ⟨rfl, hreset (Option.some.inj hlast)⟩
    | cons x rest =>
      rw [hpost, List.getLast?_cons_cons] at hlast
      exact .inl hlast
  · cases hnone

theorem looseOf_map {α : Type} (p : PortId) (l : List α) (answer : α → LockAnswer) (ctx : α → CtxId)
    (hctx : ∀ w, answerContexts (answer w) = [ctx w]) :
    looseOf p (l.map fun w => (p, answer w)) = l.map ctx ∧ (q ≠ p → looseOf q (l.map fun w => (p, answer w)) = []) := by
  induction l with
  | nil => exact ⟨rfl, fun _ => rfl⟩
  | cons w l ih =>
    refine ⟨?_, fun hq => ?_⟩
    · rw [List.map_cons, looseOf_cons_same, ih.1, hctx]
      rfl
    · rw [List.map_cons, looseOf_cons_ne hq, ih.2 hq]

/-- The waiters removed are those that waited, in another order. -/
theorem waitersOf_perm (p : PortId) (u : LockUnit) : (waitersOf p u).Perm (u.pool.filter fun w => w.party.port = p) := by
  have hbelow (n : Nat) : ((List.range n).flatMap fun k => u.pool.filter fun w => w.lock.val = k && w.party.port = p).Perm
      (u.pool.filter fun w => w.lock.val < n && w.party.port = p) := by
    induction n with
    | zero => simp
    | succ n ih =>
      rw [List.range_succ, List.flatMap_append, List.flatMap_singleton]
      refine .trans (ih.append_right _) (.trans (.of_eq ?_)
        (List.filter_append_perm (fun w => decide (w.lock.val < n)) (u.pool.filter fun w => w.lock.val < n + 1 && w.party.port = p)))
      rw [List.filter_filter, List.filter_filter]
      congr 1
      · refine List.filter_congr fun w _ => ?_
        grind
      · refine List.filter_congr fun w _ => ?_
        grind
  rw [waitersOf_eq]
  refine (hbelow 256).trans (.of_eq (List.filter_congr fun w _ => ?_))
  simp

theorem waitersOf_count (p : PortId) (u : LockUnit) (d : CtxId) :
    ((waitersOf p u).map Waiter.ctx).count d = (waiting p u).count d :=
  ((waitersOf_perm p u).map _).count_eq d

theorem waiting_dropped_same (p : PortId) (u : LockUnit) (v : LockView) : waiting p ((dropWaiters p u).setView p v) = [] := by
  unfold waiting
  rw [setView_pool, dropWaiters, List.filter_filter]
  simp

theorem waiting_dropped_ne (hq : q ≠ p) (u : LockUnit) (v : LockView) :
    waiting q ((dropWaiters p u).setView p v) = waiting q u := by
  unfold waiting
  rw [setView_pool, dropWaiters, List.filter_filter]
  refine congrArg (List.map Waiter.ctx) (List.filter_congr fun w _ => ?_)
  by_cases hw : w.party.port = q
  · simp [hw, hq]
  · simp [hw]

theorem view_setView_ne (hq : q ≠ p) (u : LockUnit) (v : LockView) : (u.setView p v).view q = u.view q := by
  rw [eq_other_of_ne hq]
  exact view_setView_other ..

/-- Waiters removed, each with an answer to it (R97, R98). -/
theorem dropped_move (p : PortId) (u : LockUnit) (v : LockView) (answer : Waiter → LockAnswer)
    (hctx : ∀ w, answerContexts (answer w) = [w.ctx]) :
    LockMove q [] u ((dropWaiters p u).setView p v, (waitersOf p u).map fun w => (p, answer w)) := by
  intro d
  by_cases hq : q = p
  · subst hq
    rw [(looseOf_map (q := q) q _ answer _ hctx).1, waitersOf_count, waiting_dropped_same, List.count_nil, Nat.zero_add]
    exact Nat.le_refl _
  · rw [(looseOf_map p _ answer _ hctx).2 hq, waiting_dropped_ne hq]

theorem dropped_calm (hq : q ≠ p) (u : LockUnit) (v : LockView) : LockCalm q u ((dropWaiters p u).setView p v) := by
  refine .of_subset (view_setView_ne hq _ v) ?_
  rw [setView_pool]
  exact fun w hw => (List.mem_filter.mp hw).1

/-- Locks released with abandonment (R99, R100). -/
theorem abandonLocks_move (p : PortId) (ks : List LockId) {x : LockUnit × Answers} (h : LockMove q [] u x) :
    LockMove q [] u (ks.foldl (abandonLock p) x) := by
  induction ks generalizing x with
  | nil => exact h
  | cons k ks ih =>
    refine ih fun d => ?_
    rw [abandonLock_eq]
    split
    · have := passLock_move (p := q) true k x.1 d
      have := h d
      rw [looseOf_append]
      simp only [List.count_append, List.count_nil] at *
      omega
    · exact h d

theorem takeReset_move (p : PortId) (u : LockUnit) : LockMove q [] u (takeReset p u) := by
  refine abandonLocks_move p _ fun d => ?_
  by_cases hq : q = p
  · subst hq
    rw [waiting_dropped_same]
    exact Nat.zero_le _
  · rw [waiting_dropped_ne hq]
    rfl

theorem takeReset_calm (hq : q ≠ p) (u : LockUnit) : LockCalm q u (takeReset p u).1 := by
  obtain ⟨-, hview, hpool⟩ := takeReset_kept p u
  refine .of_subset ?_ fun w hw => (hpool w hw).1
  rw [eq_other_of_ne hq]
  exact hview

/-- A notice of port `p` taken, whatever the Lock Unit does at it. -/
theorem Rooms.takeNotice {s : State} (h : Rooms s) (v : LockView) (p : PortId) (f : LockUnit → LockUnit × Answers)
    (hmove : ∀ q, LockMove q [] s.locks (f s.locks)) (hcalm : ∀ q, q ≠ p → LockCalm q s.locks (f s.locks).1)
    (hreset : v = .resetting → (f s.locks).1.view p = .resetting ∧ ∀ w ∈ (f s.locks).1.pool, w.party.port ≠ p) :
    Rooms (takeNotice v p f s) := by
  by_cases hnext : nextNotice (s.port p).lockMail = some v
  · obtain ⟨pre, post, hmail, hpre⟩ := nextNotice_split hnext
    rw [takeNotice_of_first hpre hmail]
    refine h.requestTaken (given := []) (fun d => ?_) (hmove p) (fun q hq => ⟨hmove q, hcalm q hq⟩) ?_
    · rw [hmail, requestContexts_append, requestContexts_append]
      simp [requestContexts]
    · rw [hmail]
      exact .notice hpre hreset
  · unfold Machine.takeNotice
    rwa [if_neg hnext]

end

/-! ## The Lock Unit's rows -/

section
variable {s : State} (h : Rooms s)
include h

theorem execAcquire_rooms (p : PortId) : Ends (execAcquire p s) Rooms := by
  unfold execAcquire
  split
  · rename_i c k o timeout rest hmail
    refine ends_next.mpr (h.requestTaken (given := [c]) (fun d => ?_) (takeAcquire_move (q := p) _ c k o timeout).1
      (fun q hq => ⟨(takeAcquire_move _ c k o timeout).2 hq, takeAcquire_calm _ c k o timeout⟩) ?_)
    · rw [hmail]
      exact List.count_append.symm
    · refine .request ?_ (takeAcquire_calm _ c k o timeout)
      rw [hmail]
      rfl
  · exact ends_next.mpr h

theorem execRelease_rooms (p : PortId) : Ends (execRelease p s) Rooms := by
  unfold execRelease
  split
  · rename_i c k o rest hmail
    refine ends_next.mpr (h.requestTaken (given := [c]) (fun d => ?_) (takeRelease_move (q := p) c k o).1
      (fun q hq => ⟨(takeRelease_move c k o).2 hq, takeRelease_calm c k o⟩) ?_)
    · rw [hmail]
      exact List.count_append.symm
    · refine .request ?_ (takeRelease_calm c k o)
      rw [hmail]
      rfl
  · exact ends_next.mpr h

theorem execGuardCheck_rooms (p : PortId) : Ends (execGuardCheck p s) Rooms := by
  unfold execGuardCheck
  split
  · rename_i c k o rest hmail
    have hnone (q : PortId) : looseOf q (takeGuardCheck p c k o s.locks) = [] := by
      unfold takeGuardCheck looseOf
      split
      · by_cases hq : p = q <;> simp [hq, answerContexts]
      · by_cases hq : p = q <;> simp [hq, answerContexts]
    have hmove (q : PortId) : LockMove q [] s.locks (s.locks, takeGuardCheck p c k o s.locks) := by
      intro d
      rw [hnone]
    have hcalm (q : PortId) : LockCalm q s.locks s.locks := .of_subset rfl (List.Subset.refl _)
    refine ends_next.mpr ?_
    have htaken := h.requestTaken (p := p) (mail := rest) (given := []) (r := (s.locks, takeGuardCheck p c k o s.locks))
      (fun d => by rw [hmail]; exact Nat.zero_add _) (hmove p) (fun q _ => ⟨hmove q, hcalm q⟩)
      (.request (by rw [hmail]; rfl) (hcalm p))
    cases p <;> exact htaken
  · exact ends_next.mpr h

theorem execWaiterDeadlineExpiry_rooms (p : PortId) (c : CtxId) : Ends (execWaiterDeadlineExpiry p c s) Rooms := by
  refine ends_next.mpr ?_
  have htaken := h.requestTaken (p := p) (mail := (s.port p).lockMail) (given := []) (r := takeExpiry p c s.locks)
      (fun d => Nat.zero_add _) (takeExpiry_move p c _) (fun q _ => ⟨takeExpiry_move p c _, takeExpiry_calm p c _⟩)
      (.request rfl (takeExpiry_calm p c _))
  have hsame : (s.modPort p fun h => { h with lockMail := (s.port p).lockMail }) = s := by cases p <;> rfl
  unfold Machine.requestTaken at htaken
  rwa [hsame] at htaken

theorem execLockRunningNotice_rooms (p : PortId) : Ends (execLockRunningNotice p s) Rooms := by
  refine ends_next.mpr (h.takeNotice .running p _ (fun q d => ?_) (fun q hq => ?_) nofun)
  · rw [waiting_pool (setView_pool ..)]
    exact Nat.le_refl _
  · exact .of_subset (view_setView_ne hq _ _) (by rw [setView_pool]; exact List.Subset.refl _)

theorem execLockDrainNotice_rooms (p : PortId) : Ends (execLockDrainNotice p s) Rooms :=
  ends_next.mpr (h.takeNotice .draining p _ (fun _ => dropped_move p _ _ _ fun _ => rfl) (fun _ hq => dropped_calm hq _ _) nofun)

theorem execLockFaultNotice_rooms (p : PortId) : Ends (execLockFaultNotice p s) Rooms :=
  ends_next.mpr (h.takeNotice .faulted p _ (fun _ => dropped_move p _ _ _ fun _ => rfl) (fun _ hq => dropped_calm hq _ _) nofun)

theorem execLockResetNotice_rooms (p : PortId) : Ends (execLockResetNotice p s) Rooms := by
  refine ends_next.mpr (h.takeNotice .resetting p _ (fun _ => takeReset_move p _) (fun _ hq => takeReset_calm hq _) fun _ => ?_)
  obtain ⟨hview, -, hpool⟩ := takeReset_kept p s.locks
  exact ⟨hview, fun w hw => (hpool w hw).2⟩

end

end Sys2Proof.Machine
end

section
/-! O59, the Maintenance Unit, and the entries of a port to FAULTED and RESETTING (R123, R124, R162 to R164, R173). -/

namespace Sys2Proof.Machine

/-! ## The running command (R161) -/

section
variable {loose extra extra' out : List CtxId} {h : HostPort} {c : CtxId} {cs : List CtxId} {p q : PortId} {s t : State}

/-- The context of the running command of port `p`. -/
def runningCtx (p : PortId) (m : MaintUnit) : List CtxId := ((runningOf p m).map Running.ctx).toList

theorem runningCtx_none {m : MaintUnit} (hnone : m.running = none) : runningCtx p m = [] := by
  unfold runningCtx runningOf
  rw [hnone]
  rfl

theorem runningCtx_same {m : MaintUnit} {r : Running} (hr : m.running = some r) : runningCtx r.port m = [r.ctx] := by
  unfold runningCtx runningOf
  rw [hr, Option.filter_some, if_pos (decide_eq_true rfl)]
  rfl

theorem runningCtx_ne {m : MaintUnit} {r : Running} (hr : m.running = some r) (hp : r.port ≠ p) : runningCtx p m = [] := by
  unfold runningCtx runningOf
  rw [hr, Option.filter_some, if_neg (by simpa using hp)]
  rfl

/-- The context `c` at port `p`, and none at the other. -/
def onlyAt (p : PortId) (c : CtxId) (q : PortId) : List CtxId := if q = p then [c] else []

@[simp] theorem onlyAt_same (p : PortId) (c : CtxId) : onlyAt p c p = [c] := if_pos rfl

theorem onlyAt_ne (hq : q ≠ p) (c : CtxId) : onlyAt p c q = [] := if_neg hq

/-- A change of the running command: its context comes from those on their way, or joins them; in RESETTING a command of the port
runs with its check read outstanding alone. -/
theorem Room.setMaint (h : Room loose extra p s) (m : MaintUnit)
    (hnames : ∀ d, extra'.count d + (runningCtx p m).count d ≤ extra.count d + (runningCtx p s.maint).count d)
    (hread : (s.port p).state = .resetting → (∀ r, s.maint.running = some r → r.port = p → r.checkRead.isSome = true) →
      ∀ r, m.running = some r → r.port = p → r.checkRead.isSome = true) : Room loose extra' p { s with maint := m } := by
  have hport : ({ s with maint := m } : State).port p = s.port p := by cases p <;> rfl
  by_cases hstate : (s.port p).state = .resetting
  · refine h.of_quiet hstate (by rw [hport]; exact .refl _) ?_
    obtain ⟨hlist, hslots, hwrite, hwrites, hqueue, hchecked, hnotices⟩ := h.resetting hstate
    unfold ResettingOk
    rw [hport]
    exact ⟨hlist, hslots, hwrite, hwrites, hqueue, hread hstate hchecked, hnotices⟩
  · refine room_of_atWork ?_
    rw [hport]
    have hout (d : CtxId) : (extra' ++ elsewhere p { s with maint := m }).count d ≤ (extra ++ elsewhere p s).count d := by
      have := hnames d
      unfold elsewhere
      simp only [List.count_append]
      unfold runningCtx at this
      omega
    exact (h.atWork hstate).weaken hout fun d => Nat.add_le_add_left (hout d) _

/-- No command runs any more, and the context of the one that ran is on its way. -/
theorem Rooms.endRunning (h : Rooms s) {r : Running} (hr : s.maint.running = some r) :
    ∀ q, Room (onlyAt r.port r.ctx q) [] q (endRunning s) := by
  intro q
  have hnames (d : CtxId) : (onlyAt r.port r.ctx q).count d + (runningCtx q { s.maint with running := none }).count d ≤
      ([] : List CtxId).count d + (runningCtx q s.maint).count d := by
    rw [runningCtx_none rfl]
    by_cases hq : q = r.port
    · subst hq
      rw [onlyAt_same, runningCtx_same hr]
      simp
    · rw [onlyAt_ne hq]
      simp
  have hended : Room [] (onlyAt r.port r.ctx q ++ []) q (Machine.endRunning s) := by
    rw [List.append_nil]
    exact (h q).setMaint _ hnames fun _ _ r hr => nomatch hr
  have := hended.loosen
  rwa [List.append_nil] at this

/-- A context on its way to its port reaches it. -/
theorem rooms_of_handed {f : HostPort → HostPort} (h : ∀ q, Room (onlyAt p c q) [] q s) (hwork : PortWork [c] [] (s.port p) (f (s.port p))) :
    Rooms (s.modPort p f) := by
  intro q
  have hq := h q
  by_cases hqp : q = p
  · subst hqp
    rw [onlyAt_same] at hq
    exact hq.modPort hwork
  · rw [onlyAt_ne hqp] at hq
    exact hq.modPort_ne hqp f

/-! ## Starts (R162) -/

/-- The oldest command leaves its port's queue. -/
theorem AtWork.startMaint {rest : List CtxId} (hw : AtWork loose out h) (hqueue : h.maintQueue = c :: rest) :
    AtWork loose (c :: out) { h with maintQueue := h.maintQueue.tail } := by
  obtain ⟨hstate, hring, hintake, hwriter, howned⟩ := hw
  have hnames (d : CtxId) : (named { h with maintQueue := h.maintQueue.tail }).count d + [c].count d = (named h).count d := by
    rw [named_count, named_count]
    dsimp only
    rw [hqueue, List.tail_cons, count_cons_singleton c d rest]
    omega
  refine ⟨hstate, hring, hintake, hwriter, howned.of_counts rfl (fun d => ?_) fun d => ?_⟩
  · have := hnames d
    rw [count_cons_singleton c d out]
    omega
  · have := hnames d
    rw [count_cons_singleton c d out]
    omega

/-- A command starts: its context is on its way, and its port is not in RESETTING. -/
theorem Rooms.startCommand (h : Rooms s) (hnext : nextCommand s = some (p, c)) :
    s.maint.running = none ∧ ((startCommand p s).port p).state ≠ .resetting ∧ ∀ q, Room [] (onlyAt p c q) q (startCommand p s) := by
  obtain ⟨hnone, hhead⟩ := nextCommand_head s p c hnext
  obtain ⟨rest, hqueue⟩ : ∃ rest, (s.port p).maintQueue = c :: rest := by
    cases hq : (s.port p).maintQueue with
    | nil => rw [hq] at hhead; cases hhead
    | cons d rest =>
      rw [hq] at hhead
      obtain rfl := Option.some.inj hhead
      exact ⟨rest, rfl⟩
  have hstate : (s.port p).state ≠ .resetting := by
    intro hr
    obtain ⟨-, -, -, -, hempty, -⟩ := (h p).resetting hr
    rw [hqueue] at hempty
    cases hempty
  have hport : (Machine.startCommand p s).port p = { s.port p with maintQueue := (s.port p).maintQueue.tail } := by cases p <;> rfl
  have hmaint : (Machine.startCommand p s).maint.running = s.maint.running := by cases p <;> rfl
  refine ⟨hnone, by rw [hport]; exact hstate, fun q => ?_⟩
  have helse : elsewhere q (Machine.startCommand p s) = elsewhere q s := by
    unfold elsewhere runningOf
    rw [hmaint, startCommand_locks]
  by_cases hq : q = p
  · subst hq
    refine room_of_atWork ?_
    rw [hport, helse, onlyAt_same]
    exact ((h q).atWork hstate).startMaint hqueue
  · rw [onlyAt_ne hq]
    have hturn := (h q).setMaint (extra' := []) { s.maint with turn := p.other } (fun d => Nat.le_refl _) fun _ => id
    refine Room.congr (t := Machine.startCommand p s) hturn ?_ ?_ ?_
    · obtain rfl := eq_other_of_ne hq
      cases p <;> rfl
    · cases p <;> rfl
    · cases p <;> rfl

theorem nextMaint_next {cmd : Command} (h : nextMaint s = some (p, c, cmd)) : nextCommand s = some (p, c) := by
  unfold nextMaint at h
  obtain ⟨⟨p', c'⟩, hnext, heq⟩ := Option.map_eq_some_iff.mp h
  obtain ⟨rfl, hrest⟩ := Prod.mk.inj heq
  obtain ⟨rfl, -⟩ := Prod.mk.inj hrest
  exact hnext

/-- A started command runs. -/
theorem rooms_setRunning (h : ∀ q, Room [] (onlyAt p c q) q s) (hstate : (s.port p).state ≠ .resetting) (job : MaintJob) :
    Rooms (setRunning p c job s) := by
  intro q
  have hrunning : ({ s.maint with running := some ⟨p, c, job, none, none⟩ } : MaintUnit).running =
    some ⟨p, c, job, none, none⟩ := rfl
  by_cases hq : q = p
  · subst hq
    refine (h q).setMaint _ (fun d => ?_) fun hr => absurd hr hstate
    have hctx := runningCtx_same hrunning
    dsimp only at hctx
    rw [onlyAt_same, hctx, List.count_nil]
    omega
  · refine (h q).setMaint _ (fun d => ?_) fun _ _ r hr hp => ?_
    · rw [runningCtx_ne hrunning (Ne.symm hq), List.count_nil]
      exact Nat.zero_le _
    · obtain rfl := Option.some.inj hr
      exact absurd hp.symm hq

/-- A started command answered at once. -/
theorem Room.loosenOnly (h : Room [] (onlyAt p c q) q s) : Room (onlyAt p c q) [] q s := by
  have := Room.loosen (extra := onlyAt p c q) (extra' := []) (by rwa [List.append_nil])
  rwa [List.append_nil] at this

/-- A RELOCATE that waits for its segment (R168). -/
theorem AtWork.waitRelocate (hw : AtWork (c :: loose) out h) : AtWork loose out (Machine.setCtxState c .relocateWait h) := by
  obtain ⟨hused, hl, hn, ho⟩ := hw.loose_used
  refine hw.less (.of_same_use (setContext_same c _ h) rfl fun d => ?_) hw.writer fun d => ?_
  · rw [setCtxState_at]
    split
    · rename_i hd
      rw [hd]
      exact iff_of_false hused nofun
    · exact Iff.rfl
  · obtain ⟨hone, hnamed, hfree⟩ := hw.owned d
    have hnames : named (Machine.setCtxState c .relocateWait h) = named h := rfl
    rw [hnames, setCtxState_at]
    by_cases hd : d = c
    · subst hd
      rw [hl, hn, ho]
      exact ⟨by omega, fun h0 => absurd h0 (by omega), fun h0 => absurd h0 (by omega)⟩
    · rw [if_neg hd]
      rw [List.count_cons_of_ne (Ne.symm hd)] at hone hfree
      exact ⟨hone, hnamed, hfree⟩

end

/-! ## The Incident List's notices -/

section
variable {s t : State}

theorem Rooms.alerts (h : Rooms s) (hports : ∀ p, AlertsOnly (s.port p) (t.port p)) (hmaint : t.maint = s.maint)
    (hlocks : t.locks = s.locks) : Rooms t := by
  refine h.same (fun p => ?_) hmaint hlocks
  have hp := hports p
  unfold AlertsOnly at hp
  rw [hp]
  rfl

theorem Rooms.appendIncidents (h : Rooms s) (is : List Incident) : Rooms (appendIncidents is s) := by
  refine h.alerts (appendIncidents_port is s) ?_ (appendIncidents_locks is s)
  rw [appendIncidents_frame]

theorem Rooms.appendTelling (h : Rooms s) (atOnce : PortId → Bool) (i : Incident) : Rooms (appendTelling atOnce i s) := by
  refine h.alerts (appendTelling_port atOnce i s) ?_ (appendTelling_locks atOnce i s)
  rw [appendTelling_frame]

theorem Rooms.notifyPorts (h : Rooms s) (atOnce : PortId → Bool) (n : AlertNotice) : Rooms (notifyPorts atOnce n s) := by
  refine h.alerts (fun p => ?_) rfl rfl
  cases p <;> rfl

theorem Rooms.removeIncident (h : Rooms s) : Rooms (removeIncident s) := by
  have hremoved : Rooms { s with incidents := { s.incidents with records := s.incidents.records.tail } } := h
  unfold Machine.removeIncident
  dsimp only
  split
  · exact hremoved.notifyPorts _ _
  · exact hremoved

end

/-! ## Fault and reset notices (R123, R124, R164) -/

section
variable {s : State} {p : PortId}

/-- A notice of port `p` to the Maintenance Unit leaves no other command running, and in place of the port's a stopped one, with
its check read outstanding (R164). -/
theorem maintAfterStop_running {m : MaintUnit} {why : Stop} {r' : Running} (hr : (maintAfterStop p why m).running = some r') :
    ∃ r, m.running = some r ∧ r'.port = r.port ∧ r'.ctx = r.ctx ∧ r'.checkRead = r.checkRead ∧
      (r.port = p → r.checkRead.isSome = true) := by
  obtain ⟨r, hm, hafter⟩ := Option.bind_eq_some_iff.mp hr
  refine ⟨r, hm, ?_⟩
  split at hafter
  · split at hafter
    · obtain rfl := Option.some.inj hafter
      exact ⟨rfl, rfl, rfl, fun _ => ‹_›⟩
    · cases hafter
  · obtain rfl := Option.some.inj hafter
    exact ⟨rfl, rfl, rfl, fun hp => absurd hp ‹_›⟩

theorem maintAfterStop_ctx (q p : PortId) (why : Stop) (m : MaintUnit) (d : CtxId) :
    (runningCtx q (maintAfterStop p why m)).count d ≤ (runningCtx q m).count d := by
  cases hr : (maintAfterStop p why m).running with
  | none =>
    rw [runningCtx_none hr]
    exact Nat.zero_le _
  | some r' =>
    obtain ⟨r, hm, hport, hctx, -⟩ := maintAfterStop_running hr
    by_cases hq : r'.port = q
    · subst hq
      rw [runningCtx_same hr, hctx, hport, runningCtx_same hm]
    · rw [runningCtx_ne hr hq]
      exact Nat.zero_le _

theorem Rooms.maintAfterStop (h : Rooms s) (p : PortId) (why : Stop) : Rooms { s with maint := maintAfterStop p why s.maint } := by
  refine fun q => (h q).setMaint _ (fun d => Nat.add_le_add_left (maintAfterStop_ctx ..) _) fun _ hread r' hr hp => ?_
  obtain ⟨r, hm, hport, -, hcheck, -⟩ := maintAfterStop_running hr
  rw [hcheck]
  exact hread r hm (hport ▸ hp)

/-- A fault of a port (R123, R164). -/
theorem Rooms.faultPort (h : Rooms s) (hstate : (s.port p).state ≠ .resetting) (code : FaultCode) : Rooms (faultPort p code s) := by
  have hentered : Rooms (s.modPort p (enterFaulted code)) := h.atWork hstate fun out hw => hw.enterFaulted code
  unfold Machine.faultPort
  generalize s.modPort p (enterFaulted code) = u at hentered ⊢
  rcases stopRunning_port p .fault u with ⟨heq, -⟩ | ⟨r, hr, hp, hcheck, heq⟩
  · rw [heq]
    exact hentered.maintAfterStop p .fault
  · subst hp
    have hnone : Machine.maintAfterStop r.port .fault u.maint = { u.maint with running := none } := by
      simp [Machine.maintAfterStop, hr, hcheck]
    have hswap : ({ u.modPort r.port (endNotice r.ctx) with maint := { u.maint with running := none } } : State) =
        (Machine.endRunning u).modPort r.port (endNotice r.ctx) := by
      cases r.port <;> rfl
    rw [heq, hnone, hswap]
    exact rooms_of_handed (hentered.endRunning hr) (endNotice_work _ _)

/-- The port as it enters RESETTING, and what R124 asks there. -/
theorem Rooms.resetPort (h : Rooms s) (p : PortId) : Rooms (resetPort p s) := by
  intro q
  have hstopped := h.maintAfterStop p .reset q
  have heq := (resetPort_entered p s).2
  have hmaint : (Machine.resetPort p s).maint = Machine.maintAfterStop p .reset s.maint := by rw [heq]
  by_cases hq : q = p
  · subst hq
    have hport : (Machine.resetPort q s).port q =
        portReset ((s.port q).staleWrites + if (s.port q).recordWrite = none then 0 else 1) (s.port q) := by
      rw [heq]
      cases q <;> rfl
    have hfree (c : CtxId) : ((Vector.replicate 64 Context.free)[c]).state = .free := by simp [Context.free]
    obtain ⟨⟨hroom, -, -⟩, -⟩ := h q
    have hused : ((Machine.resetPort q s).port q).inUse = 0 := by
      rw [inUse_eq_zero, hport]
      exact hfree
    unfold Room
    refine ⟨⟨fun v hv => ⟨?_, ?_⟩, ?_, ?_⟩, ⟨?_, holdAgrees_of_clear ?_ hused, ?_, ?_⟩, ⟨?_, ?_⟩, ?_⟩
    · rw [hport] at hv
      have := (hroom v hv).1
      rw [hused, hport, Nat.zero_add]
      exact Nat.le_trans (Nat.le_add_left _ _) this
    · rw [hport]; nofun
    · rw [hport]; exact fun _ => hfree
    · rw [hport]; nofun
    · rw [hport]; nofun
    · rw [hport]; rfl
    · rw [hport]; nofun
    · rw [hport]; nofun
    · rw [hport]; nofun
    · rw [hport]; nofun
    · rw [if_pos (by rw [hport]; rfl)]
      unfold ResettingOk
      rw [hport, hmaint]
      refine ⟨rfl, fun i => ?_, rfl, rfl, rfl, fun r' hr hp => ?_, .inl ?_⟩
      · simp [portReset]
      · obtain ⟨r, -, hrport, -, hcheck, hsome⟩ := maintAfterStop_running hr
        rw [hcheck]
        exact hsome (hrport ▸ hp)
      · dsimp only [portReset]
        rw [noticesOf_append]
        simp [noticesOf]
  · refine hstopped.congr ?_ hmaint (resetPort_locks p s)
    obtain rfl := eq_other_of_ne hq
    rw [heq]
    cases p <;> rfl

end

end Sys2Proof.Machine
end

section
/-! O59, the rows of the shared units and of the transfers. -/

namespace Sys2Proof.Machine

section
variable {s t : State} {p : PortId}

theorem unchanged_rooms (h : Rooms s) : Ends (.next s) Rooms := ends_next.mpr h

theorem modPort_rooms {f : HostPort → HostPort} (h : Rooms s) (hwork : PortWork [] [] (s.port p) (f (s.port p))) :
    Ends (.next (s.modPort p f)) Rooms := ends_next.mpr (h.modPort hwork)

theorem Rooms.scrubIssue (h : Rooms s) (u : ScrubUnit) : Rooms (scrubIssue { s with scrub := u }) := by
  rw [scrubIssue_frame]
  exact h

/-! ## The Bank Scheduler, the Scrub Unit and the Segment Map Unit -/

theorem Rooms.takeCopyResult (h : Rooms s) (k : Nat) (step : CopyStep) (r : Option LineResult) : Rooms (takeCopyResult k step r s) := by
  have hissued (j : Job) (n : Nat) (x : LineResult) : Rooms (issueCopyLine j n x s) := by
    unfold issueCopyLine
    dsimp only
    split <;> exact h
  unfold Machine.takeCopyResult
  split
  · split
    · unfold copyReadDone
      split
      · exact hissued _ _ _
      · exact h
    · exact h
    · split
      · unfold endChunk
        dsimp only
        split
        · exact h
        · unfold switchOver
          exact Rooms.appendIncidents (by exact h) _
      · unfold copyWriteDone
        split
        · exact hissued _ _ _
        · exact h
  · exact h

variable (h : Rooms s)
include h

theorem execOperationDone_rooms (b : Bank) (arbiterFirst : Bool) : Ends (execOperationDone b arbiterFirst s) Rooms := by
  cases hb : s.sched.banks[b] with
  | none =>
    simp only [execOperationDone, hb]
    exact unchanged_rooms h
  | some o =>
    show Ends (exec (.operationDone b arbiterFirst) s) _
    rw [exec_operationDone arbiterFirst hb]
    have hended : Rooms (operationEnded b arbiterFirst o s) := by
      rw [operationEnded_frame]
      exact h
    refine ends_next.mpr ?_
    generalize operationEnded b arbiterFirst o s = u at hended ⊢
    unfold giveResult
    split
    · exact hended.modPort (takeTransferResult_work _ _ _ _)
    · exact hended.takeCopyResult _ _ _
    · rename_i pass _ _
      cases pass
      · exact hended.scrubIssue _
      · exact hended.scrubIssue u.scrub
    · exact hended

theorem execHealthReport_rooms (b : Bank) : Ends (execHealthReport b s) Rooms := by
  unfold execHealthReport
  split
  · exact unchanged_rooms h
  · unfold absorbReport
    exact ends_next.mpr (Rooms.appendIncidents (by exact h) _)

theorem execMigrationStart_rooms : Ends (execMigrationStart s) Rooms := by
  unfold execMigrationStart
  split
  · split
    · exact ends_next.mpr h
    · exact unchanged_rooms h
  · exact unchanged_rooms h

theorem execChunkLockHeld_rooms : Ends (execChunkLockHeld s) Rooms := by
  unfold execChunkLockHeld
  split
  · exact unchanged_rooms h
  · split
    · exact ends_next.mpr h
    · exact unchanged_rooms h

theorem execRetirementWriteDone_rooms (outcome : WriteOutcome) : Ends (execRetirementWriteDone outcome s) Rooms := by
  unfold execRetirementWriteDone
  split
  · split
    · rename_i j i _ _ _
      have happended := Rooms.appendIncidents (s := { s with ret := s.ret.endWrite outcome i }) h (migratedIncidents j outcome)
      exact ends_next.mpr ((happended.modPort (migratedNotice_work _ _)).modPort (migratedNotice_work _ _))
    · exact unchanged_rooms h
  · exact unchanged_rooms h

theorem execRetirementReadDone_rooms (answered : Bool) : Ends (execRetirementReadDone answered s) Rooms := by
  unfold execRetirementReadDone
  split
  · dsimp only
    have hread (x : PowerOnRead) : Rooms { s with ret := s.ret.afterRead x.current, seg := mapBuild x.retired } := h
    split
    · exact ends_next.mpr (((hread _).appendTelling _ _).scrubIssue _)
    · exact ends_next.mpr ((hread _).scrubIssue _)
  · exact unchanged_rooms h

omit h in
theorem waiting_markWaiters (p : PortId) (now : Time) (u : LockUnit) : waiting p (markWaiters now u) = waiting p u := by
  unfold waiting markWaiters
  dsimp only
  induction u.pool with
  | nil => rfl
  | cons w pool ih =>
    have hport : (if w.deadline = some now then { w with due := true } else w).party = w.party := by split <;> rfl
    have hctx : (if w.deadline = some now then { w with due := true } else w).ctx = w.ctx := by split <;> rfl
    rw [List.map_cons, List.filter_cons, List.filter_cons, hport]
    split
    · rw [List.map_cons, List.map_cons, hctx, ih]
    · exact ih

omit h in
theorem markWaiters_calm (p : PortId) (now : Time) (u : LockUnit) : LockCalm p u (markWaiters now u) := by
  refine fun hview hpool => ⟨by cases p <;> exact hview, fun w hw => ?_⟩
  obtain ⟨x, hx, rfl⟩ := List.mem_map.mp hw
  have := hpool x hx
  split <;> exact this

/-- The waiters that become due are the same waiters. -/
theorem Rooms.advanceTime : Rooms (advanceTime s) := by
  have hmarked (p : PortId) : Room [] [] p { s with locks := markWaiters (s.timeBase + 1) s.locks } := by
    refine (h p).locksTaken (t := { s with locks := markWaiters (s.timeBase + 1) s.locks }) (given := []) (mail := (s.port p).lockMail)
      (r := (markWaiters (s.timeBase + 1) s.locks, [])) (fun d => by rw [List.count_nil, Nat.zero_add]) (by cases p <;> rfl) rfl rfl
      (fun d => ?_) (.request rfl (markWaiters_calm p _ _))
    rw [waiting_markWaiters]
    exact Nat.le_refl _
  refine Rooms.same (s := { s with locks := markWaiters (s.timeBase + 1) s.locks }) hmarked (fun p => ?_) rfl rfl
  cases p <;> rfl

theorem execPacingTick_rooms : Ends (execPacingTick s) Rooms := by
  refine ends_next.mpr ?_
  have hticked := Rooms.advanceTime h
  unfold patrolIssue
  split
  · exact hticked.scrubIssue _
  · exact hticked

/-! ## The Maintenance Unit -/

theorem execMapQuery_rooms : Ends (execMapQuery s) Rooms := by
  unfold execMapQuery
  split
  · rename_i p c first count buffer hnext
    obtain ⟨-, hstate, hstarted⟩ := h.startCommand (nextMaint_next hnext)
    exact ends_next.mpr (rooms_setRunning hstarted hstate _)
  · exact unchanged_rooms h

omit h in
/-- Contexts on their way that no one takes. -/
theorem rooms_of_dropped {loose : PortId → List CtxId} (h : ∀ q, Room (loose q) [] q s) : Rooms s := by
  refine fun q => (h q).work ⟨fun out hw => hw.weaken (fun _ => Nat.le_refl _) fun d => ?_, fun _ => .refl _⟩ rfl rfl
  rw [List.count_nil]
  exact Nat.add_le_add_right (Nat.zero_le _) _

omit h in
/-- The end of an INCIDENTS: its completion, with the dropped count, which is then 0 (R173). -/
theorem rooms_completeIncidents {c : CtxId} (h : ∀ q, Room (onlyAt p c q) [] q s) (st : Status) (n : Nat) :
    Rooms (completeIncidents p c st n s) := by
  have hdropped : ∀ q, Room (onlyAt p c q) [] q { s with incidents := { s.incidents with dropped := 0 } } := h
  exact rooms_of_handed hdropped (handCompletion_work _ _ _ _)

theorem execIncidents_rooms : Ends (execIncidents s) Rooms := by
  unfold execIncidents
  split
  · rename_i p c maximum buffer hnext
    obtain ⟨-, hstate, hstarted⟩ := h.startCommand (nextMaint_next hnext)
    split
    · exact ends_next.mpr (rooms_completeIncidents (fun q => (hstarted q).loosenOnly) _ _)
    · exact ends_next.mpr (rooms_setRunning hstarted hstate _)
  · exact unchanged_rooms h

theorem execTune_rooms : Ends (execTune s) Rooms := by
  unfold execTune
  split
  · rename_i p c threshold rate hnext
    obtain ⟨-, -, hstarted⟩ := h.startCommand (nextMaint_next hnext)
    have htuned : ∀ q, Room (onlyAt p c q) [] q (tuneRate rate (tuneThreshold threshold (startCommand p s))) := fun q => by
      have hq := (hstarted q).loosenOnly
      cases threshold <;> cases rate <;> exact hq
    exact ends_next.mpr (rooms_of_handed htuned (handCompletion_work _ _ _ _))
  · exact unchanged_rooms h

theorem execRelocate_rooms : Ends (execRelocate s) Rooms := by
  unfold execRelocate
  split
  · rename_i p c l hnext
    obtain ⟨-, hstate, hstarted⟩ := h.startCommand (nextMaint_next hnext)
    have hoffered : ∀ q, Room (onlyAt p c q) [] q { startCommand p s with seg := (relocateOffer l s.seg).1 } := fun q =>
      (hstarted q).loosenOnly
    dsimp only
    split
    · exact ends_next.mpr (rooms_of_handed hoffered (handCompletion_work _ _ _ _))
    · exact ends_next.mpr (rooms_of_handed hoffered (handCompletion_work _ _ _ _))
    · refine ends_next.mpr (rooms_of_handed hoffered ⟨fun out hw => hw.waitRelocate, fun hq => absurd hq.1 ?_⟩)
      have hport : ({ startCommand p s with seg := (relocateOffer l s.seg).1 } : State).port p = (startCommand p s).port p := by
        cases p <;> rfl
      rwa [hport]
  · exact unchanged_rooms h

/-- A buffer write: the command runs on, and its last write is followed by its check read (R163). -/
theorem Rooms.wroteBuffer {r : Running} (hr : s.maint.running = some r) (hcheck : r.checkRead = none) (w : LinkWrite) (job : MaintJob)
    (last : Bool) : Rooms (wroteBuffer r job last (s.modPort r.port (send w))) := by
  have hsent : Rooms (s.modPort r.port (send w)) := h.modPort (.of_roomSame rfl)
  have hrunning : (s.modPort r.port (send w)).maint.running = some r := by rw [modPort_maint, hr]
  intro q
  refine (hsent q).setMaint _ (fun d => Nat.add_le_add_left (Nat.le_of_eq ?_) _) fun _ hread r' hr' hp => ?_
  · by_cases hq : r.port = q
    · subst hq
      rw [runningCtx_same hrunning]
      exact congrArg _ (runningCtx_same (r := { r with job := job, checkRead := _ }) rfl)
    · rw [runningCtx_ne hrunning hq]
      exact congrArg _ (runningCtx_ne (r := { r with job := job, checkRead := _ }) rfl hq)
  · obtain rfl := Option.some.inj hr'
    have hnone := hread r hrunning hp
    rw [hcheck] at hnone
    cases hnone

theorem Rooms.issueBufferWrite {r : Running} (hr : s.maint.running = some r) (hcheck : r.checkRead = none) :
    Rooms (issueBufferWrite r s) := by
  unfold Machine.issueBufferWrite
  split
  · exact h.wroteBuffer hr hcheck _ _ _
  · split
    · split
      · exact (h.wroteBuffer hr hcheck _ _ _).removeIncident
      · exact h
    · exact h
  · exact h

theorem execBufferWrite_rooms : Ends (execBufferWrite s) Rooms := by
  unfold execBufferWrite
  split
  · rename_i r hr
    split
    · exact unchanged_rooms h
    · rename_i hcheck
      exact ends_next.mpr (h.issueBufferWrite hr (by simpa using hcheck))
  · exact unchanged_rooms h

theorem Rooms.endCheckRead {r : Running} (hr : s.maint.running = some r) (mark : Nat) (returned : Bool) :
    Rooms (endCheckRead r mark returned s) := by
  have hconfirmed : Rooms (if returned then s.modPort r.port (confirmSent mark) else s) ∧
      (if returned then s.modPort r.port (confirmSent mark) else s).maint.running = some r := by
    cases returned
    · exact ⟨h, hr⟩
    · exact ⟨h.modPort (.of_roomSame rfl), by rw [if_pos rfl, modPort_maint, hr]⟩
  have hended := hconfirmed.1.endRunning hconfirmed.2
  unfold Machine.endCheckRead
  dsimp only
  split
  · unfold completeMaint
    split
    · exact rooms_of_handed hended (handCompletion_work _ _ _ _)
    · exact rooms_completeIncidents hended _ _
  · exact rooms_of_handed hended (endNotice_work _ _)
  · exact rooms_of_dropped hended

theorem execMaintCheckReadDone_rooms (returned : Bool) : Ends (execMaintCheckReadDone returned s) Rooms := by
  unfold execMaintCheckReadDone
  split
  · rename_i r hr
    split
    · exact ends_next.mpr (h.endCheckRead hr _ _)
    · exact unchanged_rooms h
  · exact unchanged_rooms h

/-! ## Transfers -/

theorem execScatterListReadDone_rooms (p : PortId) (i : SlotId) (l : Option (List (BitVec 128))) :
    Ends (execScatterListReadDone p i l s) Rooms := by
  unfold execScatterListReadDone
  split
  · exact modPort_rooms h (takeList_work i _ l _)
  · exact unchanged_rooms h

theorem execHostDataReadDone_rooms (p : PortId) (i : SlotId) (ws : Option (List Word)) :
    Ends (execHostDataReadDone p i ws s) Rooms := by
  unfold execHostDataReadDone
  split
  · exact modPort_rooms h (takeData_work i _ ws _)
  · exact unchanged_rooms h

omit h in
theorem issuingSlot_spec {k : HostPort} {i : SlotId} {x : Transfer} (hissue : issuingSlot k = some (i, x)) : k.slots[i] = some x := by
  obtain ⟨j, -, hj⟩ := List.exists_of_findSome?_eq_some hissue
  split at hj
  · rename_i y hy
    split at hj
    · obtain ⟨rfl, rfl⟩ := Prod.mk.inj (Option.some.inj hj)
      exact hy
    · cases hj
  · cases hj

theorem execReferenceIssue_rooms (p : PortId) : Ends (execReferenceIssue p s) Rooms := by
  unfold execReferenceIssue
  split
  · rename_i hmay
    have hstate : (s.port p).state ≠ .resetting := by
      obtain ⟨hne, -⟩ := Bool.and_eq_true_iff.mp hmay
      simpa using hne
    split
    · rename_i i t hissue
      have hissued : Rooms (s.modPort p (issueFrom i t)) :=
        h.atWork hstate fun out hw => hw.issueFrom (issuingSlot_spec hissue)
      exact ends_next.mpr hissued
    · exact unchanged_rooms h
  · exact unchanged_rooms h

end

end Sys2Proof.Machine
end

section
/-! O59, the rows of a port's control, its intake and its completion writer, and the step (R105 to R112, R122, R124, R150, R151). -/

namespace Sys2Proof.Machine

section
variable {s : State} (h : Rooms s)
include h

/-- Work of a port outside RESETTING. -/
theorem atWork_rooms {p : PortId} {f : HostPort → HostPort} (hstate : (s.port p).state ≠ .resetting)
    (hwork : ∀ out, AtWork [] out (s.port p) → AtWork [] out (f (s.port p))) : Ends (.next (s.modPort p f)) Rooms :=
  ends_next.mpr (h.atWork hstate hwork)

theorem faultPort_rooms {p : PortId} (hstate : (s.port p).state ≠ .resetting) (code : FaultCode) :
    Ends (.next (faultPort p code s)) Rooms := ends_next.mpr (h.faultPort hstate code)

omit h in
theorem inService_not_resetting {k : HostPort} (hservice : k.inService = true) : k.state ≠ .resetting := by
  intro hstate
  simp [HostPort.inService, hstate] at hservice

theorem execEnable_rooms (p : PortId) : Ends (execEnable p s) Rooms := by
  unfold execEnable
  dsimp only
  split
  · rename_i henable
    obtain ⟨-, hoff⟩ := Bool.and_eq_true_iff.mp henable
    have hoff : (s.port p).state = .off := by simpa using hoff
    have hstate : (s.port p).state ≠ .resetting := hoff ▸ nofun
    split
    · exact atWork_rooms h hstate fun out hw => (hw.enterSetup hoff).roomSame rfl
    · refine faultPort_rooms (h.atWork hstate fun out hw => hw.enterSetup hoff) ?_ _
      rw [port_modPort_same]
      exact nofun
  · exact unchanged_rooms h

theorem execDisable_rooms (p : PortId) : Ends (execDisable p s) Rooms := by
  unfold execDisable
  split
  · rename_i hrunning
    exact atWork_rooms h (hrunning ▸ nofun) fun out hw => hw.enterDraining hrunning
  · exact unchanged_rooms h

theorem execReset_rooms (p : PortId) : Ends (execReset p s) Rooms := by
  unfold execReset
  split
  · exact unchanged_rooms h
  · exact ends_next.mpr (h.resetPort p)

theorem execSubmit_rooms (p : PortId) (v : BitVec 32) : Ends (execSubmit p v s) Rooms := by
  unfold execSubmit
  dsimp only
  split
  · rename_i hservice
    split
    · split
      · exact modPort_rooms h (.of_roomSame rfl)
      · exact faultPort_rooms h (inService_not_resetting hservice) _
    · exact unchanged_rooms h
  · exact unchanged_rooms h

theorem execConsume_rooms (p : PortId) (v : BitVec 32) : Ends (execConsume p v s) Rooms := by
  unfold execConsume
  dsimp only
  split
  · rename_i hservice
    split
    · split
      · exact atWork_rooms h (inService_not_resetting hservice) fun out hw => hw.takeConsume _ _
      · exact faultPort_rooms h (inService_not_resetting hservice) _
    · exact unchanged_rooms h
  · exact unchanged_rooms h

omit h in
/-- A port in RESETTING whose link goes down: its reads end, and its undelivered writes are lost (R106). -/
theorem Rooms.linkLost {u : State} (h : Rooms u) {p : PortId} (hstate : (u.port p).state = .resetting) (delivered : Nat) :
    Rooms ((failCheckRead p u).modPort p fun h => { loseWrites delivered (failReads h) with linkUp := false }) := by
  have hfailed : Rooms (failCheckRead p u) := by
    unfold failCheckRead
    cases hr : u.maint.running with
    | none => simpa [checkReadOf, hr] using h
    | some r =>
      split
      · exact rooms_of_dropped (h.endRunning hr)
      · exact h
  have hport : (failCheckRead p u).port p = u.port p := by
    unfold failCheckRead
    split
    · cases p <;> rfl
    · rfl
  exact hfailed.modPort ⟨fun out hw => absurd (hport ▸ hstate) hw.1, fun _ => rfl⟩

theorem execLinkDown_rooms (p : PortId) (delivered : Nat) : Ends (execLinkDown p delivered s) Rooms := by
  unfold execLinkDown
  split
  · refine ends_next.mpr ?_
    dsimp only
    split
    · exact h.linkLost ‹_› delivered
    · refine (h.resetPort p).linkLost ?_ delivered
      rw [(resetPort_entered p s).2]
      cases p <;> rfl
  · exact unchanged_rooms h

/-! ## Setup and intake -/

omit h in
/-- Adopted setup values have a completion ring with room (R108). -/
theorem setupValuesOf_cqEntries {b : BitVec 512} {v : SetupValues} (hv : setupValuesOf b = some v) : 0 < v.cqEntries := by
  by_cases hfit : SetupFieldsFit b
  · rw [setupValuesOf_of_fit hfit] at hv
    obtain rfl := Option.some.inj hv
    obtain ⟨-, -, -, ⟨n, -, -, hn⟩, -⟩ := hfit
    show 0 < (b.extractLsb' (8 * 18) 16).toNat
    rw [hn]
    exact Nat.two_pow_pos n
  · rw [setupValuesOf_of_not_fit hfit] at hv
    cases hv

theorem execSetupFetchDone_rooms (p : PortId) (block : Option (BitVec 512)) : Ends (execSetupFetchDone p block s) Rooms := by
  have hread : Rooms (s.modPort p fun h => { h with setupRead := none }) := h.modPort (.of_roomSame rfl)
  unfold execSetupFetchDone
  dsimp only
  split
  · split
    · rename_i hsetup
      have hport : ((s.modPort p fun h => { h with setupRead := none }).port p).state = .setup := by
        rw [port_modPort_same]
        exact hsetup
      have hstate : ((s.modPort p fun h => { h with setupRead := none }).port p).state ≠ .resetting := hport ▸ nofun
      split
      · exact faultPort_rooms hread hstate _
      · split
        · exact faultPort_rooms hread hstate _
        · rename_i v hv
          exact atWork_rooms hread hstate fun out hw => hw.enterRunning hport (setupValuesOf_cqEntries hv)
    · exact ends_next.mpr hread
  · exact unchanged_rooms h

theorem execRecordFetch_rooms (p : PortId) : Ends (execRecordFetch p s) Rooms := by
  unfold execRecordFetch
  split
  · rename_i v hv
    split
    · rename_i hmay
      have hstate : (s.port p).state = .running := by
        simp only [mayFetch, Bool.and_eq_true, beq_iff_eq] at hmay
        exact hmay.1.1.1.1.1
      exact atWork_rooms h (hstate ▸ nofun) fun out hw => hw.fetch hv hmay _
    · exact unchanged_rooms h
  · exact unchanged_rooms h

omit h in
theorem lowestFree_spec {k : HostPort} {c : CtxId} (hfree : lowestFree k = some c) : (k.contexts[c]).state = .free := by
  simpa using List.find?_some hfree

theorem execRecordFetchDone_rooms (p : PortId) (record : Option (BitVec 512)) : Ends (execRecordFetchDone p record s) Rooms := by
  have hended : Rooms (s.modPort p fun h => { h with fetch := none }) := h.modPort ⟨fun out hw => hw.endFetch, fun _ => rfl⟩
  unfold execRecordFetchDone
  dsimp only
  split
  · rename_i hfetch
    split
    · rename_i hrunning
      have hstate : ((s.modPort p fun h => { h with fetch := none }).port p).state ≠ .resetting := by
        rw [port_modPort_same]
        exact hrunning ▸ nofun
      split
      · exact faultPort_rooms hended hstate _
      · split
        · rename_i v c hv hfree
          obtain ⟨⟨hroom, -, -⟩, ⟨-, -, -, hclear⟩, -⟩ := h p
          refine atWork_rooms hended hstate fun out hw => ?_
          rw [port_modPort_same] at hw ⊢
          exact hw.takeRecord hv rfl hrunning (hclear hrunning hfetch).1 ((hroom v hv).2 hrunning hfetch) (lowestFree_spec hfree) _
        · exact ends_next.mpr hended
    · exact ends_next.mpr hended
  · exact unchanged_rooms h

/-! ## The completion writer -/

theorem execCompletionWriteAccepted_rooms (p : PortId) (stale : Bool) : Ends (execCompletionWriteAccepted p stale s) Rooms := by
  unfold execCompletionWriteAccepted
  dsimp only
  split
  · exact modPort_rooms h (.of_roomSame rfl)
  · split
    · exact unchanged_rooms h
    · rename_i r hr
      split
      · rename_i hservice
        exact atWork_rooms h (inService_not_resetting hservice) fun out hw => hw.recordAccepted hr hservice _
      · split
        · rename_i hfaulted
          refine atWork_rooms h (hfaulted ▸ nofun) fun out hw => ?_
          have hwritten : AtWork (r.completion.ctx :: []) out (confirmSent r.mark { s.port p with recordWrite := none }) :=
            hw.endLastWrite hr hfaulted
          exact hwritten.recordInRing
        · exact unchanged_rooms h

theorem execCompletionWriteRefused_rooms (p : PortId) (stale : Bool) : Ends (execCompletionWriteRefused p stale s) Rooms := by
  unfold execCompletionWriteRefused
  dsimp only
  split
  · exact modPort_rooms h (.of_roomSame rfl)
  · split
    · exact unchanged_rooms h
    · rename_i r hr
      split
      · rename_i hservice
        have hstate := inService_not_resetting hservice
        refine faultPort_rooms (h.atWork hstate fun out hw => hw.refuseWrite hservice) ?_ _
        rw [port_modPort_same]
        exact hstate
      · split
        · rename_i hfaulted
          have hfreed : Rooms (s.modPort p fun h => freeContext r.completion.ctx { h with recordWrite := none }) :=
            h.atWork (hfaulted ▸ nofun) fun out hw => (hw.endLastWrite hr hfaulted).freeContext
          refine ends_next.mpr ?_
          rw [modPort_eq, modPort_eq, port_setPort_same, setPort_setPort]
          rwa [modPort_eq] at hfreed
        · exact unchanged_rooms h

theorem execQuietTimerExpiry_rooms (p : PortId) : Ends (execQuietTimerExpiry p s) Rooms :=
  ends_ite (modPort_rooms h (.of_roomSame (announce_roomSame _))) (unchanged_rooms h)

/-! ## The ends of drain and reset -/

theorem execDrainEnd_rooms (p : PortId) : Ends (execDrainEnd p s) Rooms := by
  unfold execDrainEnd
  dsimp only
  split
  · rename_i hend
    simp only [Bool.and_eq_true, beq_iff_eq] at hend
    obtain ⟨⟨hstate, hused⟩, -⟩ := hend
    refine atWork_rooms h (hstate ▸ nofun) fun out hw => ?_
    unfold endDrain
    dsimp only
    split
    · exact hw.off hused
    · refine (hw.roomSame (announce_roomSame _)).off ?_
      have hsame := announce_roomSame (s.port p)
      unfold RoomSame at hsame
      rw [hsame]
      exact hused
  · exact unchanged_rooms h

omit h in
theorem slotContexts_none {slots : Vector (Option Transfer) 4} (hslots : ∀ i : SlotId, slots[i] = none) : slotContexts slots = [] := by
  unfold slotContexts
  rw [List.filterMap_eq_nil_iff]
  intro x hx
  obtain ⟨i, hi, rfl⟩ := Vector.getElem_of_mem (Vector.mem_toList_iff.mp hx)
  have hnone : slots[i] = none := hslots ⟨i, hi⟩
  rw [hnone]
  rfl

/-- RESETTING ends: nothing of the port is left anywhere (R124). -/
theorem execResetComplete_rooms (p : PortId) : Ends (execResetComplete p s) Rooms := by
  unfold execResetComplete
  split
  · rename_i hdone
    simp only [resetDone, Bool.and_eq_true, beq_iff_eq, List.isEmpty_iff, Bool.not_eq_true'] at hdone
    obtain ⟨⟨⟨⟨hstate, -⟩, -⟩, hcheck⟩, hmail⟩ := hdone
    refine ends_next.mpr fun q => ?_
    by_cases hq : q = p
    · subst hq
      obtain ⟨hlist, hslots, hwrite, hwrites, hqueue, hread, hnotices⟩ := (h q).resetting hstate
      obtain ⟨⟨hroom, hfree, -⟩, ⟨-, hagrees, -, -⟩, -⟩ := h q
      have hrunning : runningCtx q s.maint = [] := by
        cases hr : s.maint.running with
        | none => exact runningCtx_none hr
        | some r =>
          refine runningCtx_ne hr fun hp => ?_
          have := hread r hr hp
          simp [checkReadOf, hr, hp, this] at hcheck
      have hwaiting : waiting q s.locks = [] := by
        rw [hmail] at hnotices
        obtain ⟨-, -, hpool⟩ := hnotices.resolve_left nofun
        simpa [waiting] using hpool
      have hnamed : named { s.port q with state := .off } = [] := by
        have hslotless : slotContexts (s.port q).slots = [] := slotContexts_none hslots
        simp [named, hlist, hslotless, hwrite, hwrites, hqueue, hmail, writing, requestContexts]
      refine room_of_atWork ?_
      have helse : elsewhere q (s.modPort q fun h => { h with state := .off }) = [] := by
        unfold elsewhere
        rw [modPort_maint, modPort_locks, hwaiting]
        exact congrArg (· ++ []) hrunning
      rw [port_modPort_same, helse]
      refine ⟨nofun, ⟨fun v hv => ⟨(hroom v hv).1, nofun⟩, fun _ => hfree (.inr (.inr hstate)), nofun⟩,
        ⟨nofun, hagrees, nofun, nofun⟩, ⟨fun _ _ hs => (nomatch hs), nofun⟩, fun d => ?_⟩
      rw [hnamed]
      simp
    · exact (h q).modPort_ne hq _
  · exact unchanged_rooms h

/-! ## Power-on, and every row -/

omit h in
/-- Whatever the links, a port at its power-on values names nothing. -/
theorem execPowerOnReset_rooms (left : SlotRemnant) : Ends (execPowerOnReset left s) Rooms := by
  have hreset : Rooms State.reset := rooms_iff.mp completionRoomOk_reset
  refine ends_next.mpr (Rooms.same hreset (fun p => ?_) rfl rfl)
  cases p <;> rfl

/-- Every row keeps the rules of `CompletionRoomOk` at both ports. -/
theorem exec_rooms (i : Instr) : Ends (exec i s) Rooms := by
  cases i with
  | powerOnReset left => exact execPowerOnReset_rooms left
  | retirementReadDone answered => exact execRetirementReadDone_rooms h answered
  | setupWrite p part => exact modPort_rooms h (.of_roomSame rfl)
  | enable p => exact execEnable_rooms h p
  | disable p => exact execDisable_rooms h p
  | reset p => exact execReset_rooms h p
  | submit p v => exact execSubmit_rooms h p v
  | consume p v => exact execConsume_rooms h p v
  | registerWriteDiscarded p w => exact unchanged_rooms h
  | linkDown p delivered => exact execLinkDown_rooms h p delivered
  | linkUp p => exact modPort_rooms h (.of_roomSame rfl)
  | setupFetchDone p block => exact execSetupFetchDone_rooms h p block
  | recordFetch p => exact execRecordFetch_rooms h p
  | recordFetchDone p record => exact execRecordFetchDone_rooms h p record
  | read p => exact modPort_rooms h (activateTransfer_work isRead _)
  | write p => exact modPort_rooms h (activateTransfer_work Command.isWrite _)
  | fill p => exact modPort_rooms h (activateTransfer_work isFill _)
  | copy p => exact modPort_rooms h (activateTransfer_work isCopy _)
  | scan p => exact modPort_rooms h (activateTransfer_work isScan _)
  | guardCheck p => exact execGuardCheck_rooms h p
  | scatterListReadDone p slot l => exact execScatterListReadDone_rooms h p slot l
  | hostDataReadDone p slot ws => exact execHostDataReadDone_rooms h p slot ws
  | referenceIssue p => exact execReferenceIssue_rooms h p
  | grant b =>
    rw [exec_grant, arbiterAct_frame]
    exact ends_next.mpr h
  | operationDone b arbiterFirst => exact execOperationDone_rooms h b arbiterFirst
  | healthReport b => exact execHealthReport_rooms h b
  | migrationStart => exact execMigrationStart_rooms h
  | chunkLockHeld => exact execChunkLockHeld_rooms h
  | retirementWriteDone outcome => exact execRetirementWriteDone_rooms h outcome
  | pacingTick => exact execPacingTick_rooms h
  | acquire p => exact execAcquire_rooms h p
  | release p => exact execRelease_rooms h p
  | waiterDeadlineExpiry p c => exact execWaiterDeadlineExpiry_rooms h p c
  | lockRunningNotice p => exact execLockRunningNotice_rooms h p
  | lockDrainNotice p => exact execLockDrainNotice_rooms h p
  | lockFaultNotice p => exact execLockFaultNotice_rooms h p
  | lockResetNotice p => exact execLockResetNotice_rooms h p
  | mapQuery => exact execMapQuery_rooms h
  | incidents => exact execIncidents_rooms h
  | tune => exact execTune_rooms h
  | relocate => exact execRelocate_rooms h
  | maintCheckReadDone returned => exact execMaintCheckReadDone_rooms h returned
  | completionWriteAccepted p stale => exact execCompletionWriteAccepted_rooms h p stale
  | completionWriteRefused p stale => exact execCompletionWriteRefused_rooms h p stale
  | quietTimerExpiry p => exact execQuietTimerExpiry_rooms h p
  | drainEnd p => exact execDrainEnd_rooms h p
  | resetComplete p => exact execResetComplete_rooms h p
  | bufferWrite => exact execBufferWrite_rooms h
  | bitInError line word bit => exact ends_next.mpr h

omit h in
theorem takeAlert_roomSame (k : HostPort) : RoomSame k (takeAlert k) := by
  unfold takeAlert
  split
  · rfl
  · dsimp only
    split
    · unfold alertNonEmpty
      dsimp only
      split
      · rw [sendMessage_eq]
        rfl
      · rfl
    · rfl

/-- While the block idles a port takes an ALERT notice, which none of the rules rests on. -/
theorem Rooms.takeWaitingAlert : Rooms (takeWaitingAlert s) := by
  have htaken (p : PortId) : Rooms (s.modPort p takeAlert) := h.modPort (.of_roomSame (takeAlert_roomSame _))
  unfold Machine.takeWaitingAlert
  split
  · exact h
  · exact htaken .p0
  · exact htaken .p1
  · split
    · exact htaken .p0
    · exact htaken .p1

end

/-- Settles O59: an idle step takes one notice, and every row keeps the rules at both ports. -/
theorem completionRoomIsKept : Obligations.CompletionRoomIsKept := by
  intro s t hok hstep
  replace hok : Rooms s := rooms_iff.mp hok
  refine rooms_iff.mpr ?_
  unfold step at hstep
  split at hstep
  · exact Host.Outcome.next.inj hstep ▸ hok.takeWaitingAlert
  · rename_i i rest _
    exact exec_rooms (s := s.withPending rest) hok i t hstep
end Sys2Proof.Machine
end

section
/-! O33. The writes to SETUP, the discarded writes and ENABLE (R105, R107, R174). -/

namespace Sys2Proof.Machine

section
variable {p : PortId} {s : State} {h : HostPort}

/-- A write to one half of SETUP leaves the other (R174). -/
theorem setupAfter_halves (old : BitVec 64) (x : BitVec 32) :
    ((setupAfter (.low x) old).extractLsb' 0 32 = x ∧ (setupAfter (.low x) old).extractLsb' 32 32 = old.extractLsb' 32 32) ∧
      (setupAfter (.high x) old).extractLsb' 32 32 = x ∧ (setupAfter (.high x) old).extractLsb' 0 32 = old.extractLsb' 0 32 :=
  ⟨⟨BitVec.extractLsb'_append_eq_right, BitVec.extractLsb'_append_eq_left⟩, BitVec.extractLsb'_append_eq_left,
    BitVec.extractLsb'_append_eq_right⟩

/-- A port with no work that enters FAULTED out of service frees nothing and writes no message. -/
theorem enterFaulted_idle (code : FaultCode) (hservice : h.inService = false) (hlist : h.workList = []) (hwrites : h.writeList = [])
    (hqueue : h.maintQueue = []) :
    enterFaulted code h =
      { h with
        state := .faulted, faultCode := code, faultCause := true, quietTimer := none
        lockMail := h.lockMail ++ [.notice .faulted] } := by
  have hunissued : unissued h = [] := by
    unfold unissued
    rw [hwrites]
    split <;> rfl
  unfold enterFaulted
  dsimp only
  rw [hservice, hunissued, hlist, hqueue, hwrites]
  rfl

theorem exec_enable (hlink : (s.port p).linkUp = true) (hoff : (s.port p).state = .off) :
    exec (.enable p) s =
      if (s.port p).setupReg.toNat % 64 = 0 then
        .next (s.setPort p { enterSetup (s.port p) with setupRead := some (s.port p).setupReg.toNat })
      else .next (faultPort p .setupInvalid (s.setPort p (enterSetup (s.port p)))) := by
  show execEnable p s = _
  unfold execEnable
  rw [if_pos (by simp [hlink, hoff])]
  simp only [setupAligned, beq_iff_eq, modPort_eq]

end

/-- Settles O33: SETUP is written by halves, and an aligned ENABLE begins the setup read while a misaligned one faults. -/
theorem setupAndEnableBeginAPort : Obligations.SetupAndEnableBeginAPort := by
  intro p s h fresh
  refine ⟨fun part => ⟨setupAfter part h.setupReg, rfl, ?_⟩, fun w => rfl, fun hstate => ?_, fun hlink hoff => ?_⟩
  · cases part with
    | whole x => rfl
    | low x => exact (setupAfter_halves h.setupReg x).1
    | high x => exact (setupAfter_halves h.setupReg x).2
  · exact if_neg (by simp [h, hstate])
  · rw [exec_enable hlink hoff]
    refine ⟨fun haligned => if_pos haligned, fun hmisaligned hlist hqueue hrunning => ?_⟩
    rw [if_neg hmisaligned]
    have hstopped : (s.modPort p fun _ => enterFaulted .setupInvalid fresh).maint.running.all fun r => r.port ≠ p := by
      rw [modPort_maint]
      cases hr : s.maint.running with
      | none => rfl
      | some r => simpa using hrunning r hr
    unfold faultPort
    rw [modPort_eq, port_setPort_same, setPort_setPort]
    rw [modPort_eq] at hstopped
    refine congrArg Host.Outcome.next ((stopRunning_none p .fault _ hstopped).trans ?_)
    rw [enterFaulted_idle (h := fresh) .setupInvalid rfl hlist rfl hqueue]

end Sys2Proof.Machine
end

section
/-! O34. DISABLE, and the end of RESETTING (R105, R119, R122, R124). -/

namespace Sys2Proof.Machine

section
variable {p : PortId} {s : State}

theorem onlyPort_setPort (p : PortId) (s : State) (h : HostPort) : OnlyPort p s (s.setPort p h) := by
  unfold OnlyPort
  rw [port_setPort_same]

/-- An empty work list leaves nothing to test. -/
theorem advance_of_empty {h : HostPort} (hlist : h.workList = []) : advance h = h := by
  unfold advance
  rw [hlist]
  rfl

theorem exec_disable (hrunning : (s.port p).state = .running) :
    exec (.disable p) s =
      .next (s.setPort p
        (advance { s.port p with state := .draining, lockMail := (s.port p).lockMail ++ [.notice .draining] })) :=
  if_pos hrunning

/-- No host read of a port's own is outstanding. -/
theorem readsEnded_iff (h : HostPort) :
    h.readsEnded = true ↔ h.setupRead = none ∧ h.fetch = none ∧ ∀ i : SlotId, h.slotReads[i] = none := by
  have hslots : h.slotReads.toList.all Option.isNone = true ↔ ∀ i : SlotId, h.slotReads[i] = none := by
    rw [List.all_eq_true]
    refine ⟨fun hall i => by simpa using hall h.slotReads[i] (by simp), fun hnone x hx => ?_⟩
    obtain ⟨i, hi, rfl⟩ := Vector.getElem_of_mem (Vector.mem_toList_iff.mp hx)
    exact Option.isNone_iff_eq_none.mpr (hnone ⟨i, hi⟩)
  unfold HostPort.readsEnded
  rw [Bool.and_eq_true, Bool.and_eq_true, hslots, Option.isNone_iff_eq_none, Option.isNone_iff_eq_none, and_assoc]

theorem checkReadOf_eq_false_iff (p : PortId) (s : State) :
    checkReadOf p s = false ↔ ∀ r, s.maint.running = some r → r.port = p → r.checkRead = none := by
  unfold checkReadOf
  cases s.maint.running with
  | none => simp
  | some r => simp

theorem resetDone_iff (p : PortId) (s : State) :
    resetDone p s = true ↔
      (s.port p).state = .resetting ∧ s.sched.queue (.host p) = [] ∧ (s.port p).setupRead = none ∧ (s.port p).fetch = none ∧
        (∀ i : SlotId, (s.port p).slotReads[i] = none) ∧
        (∀ r, s.maint.running = some r → r.port = p → r.checkRead = none) ∧ (s.port p).lockMail = [] := by
  unfold resetDone
  rw [Bool.and_eq_true, Bool.and_eq_true, Bool.and_eq_true, Bool.and_eq_true, beq_iff_eq, List.isEmpty_iff, readsEnded_iff,
    Bool.not_eq_true', checkReadOf_eq_false_iff, List.isEmpty_iff]
  tauto

end

/-- Settles O34: DISABLE is the notice and the test of the work list, and RESETTING ends by the conditions of `resetDone`. -/
theorem disableDrainsAndResetEndsInOff : Obligations.DisableDrainsAndResetEndsInOff := by
  intro p s h quiet
  refine ⟨fun hstate => if_neg hstate, fun hrunning => ?_, fun hquiet => if_pos ((resetDone_iff p s).mpr hquiet),
    fun hquiet => if_neg (mt (resetDone_iff p s).mp hquiet)⟩
  refine ⟨_, exec_disable hrunning, onlyPort_setPort .., ?_⟩
  rw [port_setPort_same]
  obtain ⟨gone, hheads⟩ := advance_run { h with state := .draining, lockMail := h.lockMail ++ [.notice .draining] }
  refine ⟨advance_frame _, ?_, ⟨gone, hheads⟩, fun hlist => ?_⟩
  · obtain ⟨-, -, -, hmail, -⟩ := hheads
    exact ⟨_, hmail.trans (List.append_assoc _ [_] _)⟩
  · have hsame : advance { h with state := .draining, lockMail := h.lockMail ++ [.notice .draining] } = _ :=
      advance_of_empty hlist
    exact ⟨(congrArg HostPort.contexts hsame).trans rfl, (congrArg HostPort.workList hsame).trans hlist⟩

end Sys2Proof.Machine
end

section
/-! O37. The doorbells (R109, R110, R155). -/

namespace Sys2Proof.Machine

section
variable {p : PortId} {s : State} {x : SetupValues}

/-- A new head `k` records on from the old one tells of `k` records consumed (R110). -/
theorem consumedBy_of_step {v head k n : Nat} (hhead : head < n) (hk : k < n) (hstep : (head + k) % n = v) :
    consumedBy v head n = k := by
  unfold consumedBy
  rcases Nat.lt_or_ge (head + k) n with hlt | hge
  · rw [Nat.mod_eq_of_lt hlt] at hstep
    rw [show v + n - head = k + n by omega, Nat.add_mod_right, Nat.mod_eq_of_lt hk]
  · rw [Nat.mod_eq_sub_mod hge, Nat.mod_eq_of_lt (by omega)] at hstep
    rw [show v + n - head = k by omega, Nat.mod_eq_of_lt hk]

theorem exec_submit (hservice : (s.port p).inService = true) (hv : (s.port p).values = some x) (v : BitVec 32) :
    exec (.submit p v) s =
      if v.toNat < x.sqEntries then .next (s.setPort p { s.port p with sqTail := v.toNat })
      else .next (faultPort p .tailInvalid s) := by
  show execSubmit p v s = _
  unfold execSubmit
  simp only [hservice, hv, if_true, modPort_eq]

theorem exec_consume (hservice : (s.port p).inService = true) (hv : (s.port p).values = some x) (v : BitVec 32) :
    exec (.consume p v) s =
      if v.toNat < x.cqEntries ∧ consumedBy v.toNat (s.port p).cqHead x.cqEntries ≤ (s.port p).unconsumed then
        .next (s.setPort p (takeConsume v.toNat (consumedBy v.toNat (s.port p).cqHead x.cqEntries) (s.port p)))
      else .next (faultPort p .headOverrun s) := by
  show execConsume p v s = _
  unfold execConsume
  simp only [hservice, hv, if_true, modPort_eq]

theorem takeConsume_eq (v k : Nat) (h : HostPort) :
    takeConsume v k h =
      { h with
        cqHead := v, unconsumed := h.unconsumed - k, announced := h.announced - k
        doneCause := if h.announced ≤ k then false else h.doneCause } := by
  unfold takeConsume
  simp only [Nat.sub_eq_zero_iff_le]

end

/-- Settles O37: a doorbell value in range moves its ring, and any other faults the port. -/
theorem doorbellsMoveTheRingsOrFault : Obligations.DoorbellsMoveTheRingsOrFault := by
  intro p v s h
  refine ⟨fun hservice => ⟨if_neg (by simp [h, hservice]), if_neg (by simp [h, hservice])⟩, fun x hservice hv => ?_⟩
  rw [exec_submit hservice hv, exec_consume hservice hv]
  refine ⟨fun hlt => if_pos hlt, fun hge => ⟨_, if_neg (by omega), faultPort_entered ..⟩,
    fun hge => ⟨_, if_neg (by omega), faultPort_entered ..⟩, fun k hlt hhead hk hstep => ?_⟩
  rw [consumedBy_of_step hhead hk hstep]
  refine ⟨fun hle => ?_, fun hgt => ⟨_, if_neg (by simpa [hlt] using hgt), faultPort_entered ..⟩⟩
  rw [if_pos ⟨hlt, hle⟩, takeConsume_eq]

end Sys2Proof.Machine
end

section
/-! O39. The fetch of a record (R111). -/

namespace Sys2Proof.Machine

theorem hasRoom_iff {h : HostPort} {v : SetupValues} (hv : h.values = some v) :
    h.hasRoom = true ↔ (h.contexts.toList.filter fun c => c.state != .free).length + h.unconsumed < v.cqEntries := by
  have hused : (h.contexts.toList.filter fun c => c.state != .free).length = h.inUse := contextsUsed_eq h
  unfold HostPort.hasRoom
  rw [hused]
  simp only [hv, decide_eq_true_eq]

theorem mayFetch_iff (st : StoreState) {h : HostPort} {v : SetupValues} (hv : h.values = some v) :
    mayFetch st h = true ↔
      h.state = .running ∧ h.sqHead ≠ h.sqTail ∧ st = .ready ∧ h.hold = .clear ∧
        (h.contexts.toList.filter fun c => c.state != .free).length + h.unconsumed < v.cqEntries ∧ h.fetch = none := by
  unfold mayFetch
  simp only [Bool.and_eq_true, beq_iff_eq, bne_iff_ne, hasRoom_iff hv, Option.isNone_iff_eq_none, and_assoc]

theorem exec_recordFetch {p : PortId} {s : State} {v : SetupValues} (hv : (s.port p).values = some v) :
    exec (.recordFetch p) s =
      if mayFetch s.scrub.store (s.port p) then
        .next (s.setPort p { s.port p with fetch := some (v.sqBase + (s.port p).sqHead * 64) })
      else .next s := by
  show execRecordFetch p s = _
  unfold execRecordFetch
  simp only [hv, modPort_eq]

/-- Settles O39: the row reads the record when `mayFetch` holds. -/
theorem recordIsFetchedWhenTheConditionsHold : Obligations.RecordIsFetchedWhenTheConditionsHold := by
  intro p s v hv h may
  rw [exec_recordFetch hv]
  exact ⟨fun hmay => if_pos ((mayFetch_iff _ hv).mpr hmay), fun hmay => if_neg (mt (mayFetch_iff _ hv).mp hmay)⟩

end Sys2Proof.Machine
end

section
/-! O42. The announces of the quiet timer and of the end of a drain (R122, R153, R154). -/

namespace Sys2Proof.Machine

theorem announce_eq (h : HostPort) : announce h = announcedPort h := by
  unfold announce announcedPort
  dsimp only
  by_cases hnone : h.unconsumed = 0
  · simp [hnone]
  · rw [if_neg hnone, sendMessage_eq]
    simp [hnone, messageOf]

theorem timerDue_iff (h : HostPort) : timerDue h = true ↔ ∃ x, h.quietTimer = some x ∧ x.due = true := by
  unfold timerDue
  cases h.quietTimer with
  | none => simp
  | some x => simp

theorem exec_drainEnd (p : PortId) (s : State) :
    exec (.drainEnd p) s =
      if (s.port p).state = .draining ∧ (∀ c : CtxId, ((s.port p).contexts[c]).state = .free) ∧ (s.port p).fetch = none then
        .next (s.setPort p (endDrain (s.port p)))
      else .next s := by
  show execDrainEnd p s = _
  unfold execDrainEnd
  simp only [Bool.and_eq_true, beq_iff_eq, inUse_eq_zero, Option.isNone_iff_eq_none, and_assoc, modPort_eq]

/-- Settles O42: both rows announce by `announce`, the drain only with a record unannounced. -/
theorem expiryAndDrainEndAnnounce : Obligations.ExpiryAndDrainEndAnnounce := by
  intro p s h drained
  rw [exec_drainEnd]
  refine ⟨fun hservice hdue => ?_, fun hdue => ?_, fun hdrained hleft => ?_, fun hdrained hnone => ?_, fun hdrained => if_neg hdrained⟩
  · rw [← announce_eq]
    exact if_pos (Bool.and_eq_true_iff.mpr ⟨hservice, (timerDue_iff h).mpr hdue⟩)
  · refine if_neg fun hboth => ?_
    obtain ⟨x, hx, hxdue⟩ := (timerDue_iff h).mp (Bool.and_eq_true_iff.mp hboth).2
    rw [hdue x hx] at hxdue
    cases hxdue
  · rw [if_pos hdrained, ← announce_eq, endDrain, if_neg hleft]
  · rw [if_pos hdrained, endDrain, if_pos hnone]

end Sys2Proof.Machine
end

section
/-! O4. The fields of EVENTS and STATUS, and the reads of a register window (R174, R176). -/

namespace Sys2Proof.Machine

/-! ## Fields of a word put together from its fields -/

section
variable (revision : BitVec 4) (head : BitVec 12) (used : BitVec 7) (ready : BitVec 1) (reason : BitVec 2) (code state : BitVec 3)

theorem status_fields :
    let word := revision ++ head ++ used ++ ready ++ reason ++ code ++ state
    word.extractLsb' 0 3 = state ∧ word.extractLsb' 3 3 = code ∧ word.extractLsb' 6 2 = reason ∧ word.extractLsb' 8 1 = ready ∧
      word.extractLsb' 9 7 = used ∧ word.extractLsb' 16 12 = head ∧ word.extractLsb' 28 4 = revision := by
  refine ⟨BitVec.extractLsb'_append_eq_right, ?_, ?_, ?_, ?_, ?_, ?_⟩
  · rw [BitVec.extractLsb'_append_eq_of_le (by decide)]
    exact BitVec.extractLsb'_append_eq_right
  · rw [BitVec.extractLsb'_append_eq_of_le (by decide), BitVec.extractLsb'_append_eq_of_le (by decide)]
    exact BitVec.extractLsb'_append_eq_right
  · rw [BitVec.extractLsb'_append_eq_of_le (by decide), BitVec.extractLsb'_append_eq_of_le (by decide),
      BitVec.extractLsb'_append_eq_of_le (by decide)]
    exact BitVec.extractLsb'_append_eq_right
  · rw [BitVec.extractLsb'_append_eq_of_le (by decide), BitVec.extractLsb'_append_eq_of_le (by decide),
      BitVec.extractLsb'_append_eq_of_le (by decide), BitVec.extractLsb'_append_eq_of_le (by decide)]
    exact BitVec.extractLsb'_append_eq_right
  · rw [BitVec.extractLsb'_append_eq_of_le (by decide), BitVec.extractLsb'_append_eq_of_le (by decide),
      BitVec.extractLsb'_append_eq_of_le (by decide), BitVec.extractLsb'_append_eq_of_le (by decide),
      BitVec.extractLsb'_append_eq_of_le (by decide)]
    exact BitVec.extractLsb'_append_eq_right
  · rw [BitVec.extractLsb'_append_eq_of_le (by decide), BitVec.extractLsb'_append_eq_of_le (by decide),
      BitVec.extractLsb'_append_eq_of_le (by decide), BitVec.extractLsb'_append_eq_of_le (by decide),
      BitVec.extractLsb'_append_eq_of_le (by decide)]
    exact BitVec.extractLsb'_append_eq_left

end

theorem event_fields (rest : BitVec 26) (highest : BitVec 2) (zero : BitVec 1) (done alert fault : Bool) :
    let word := rest ++ highest ++ zero ++ BitVec.ofBool done ++ BitVec.ofBool alert ++ BitVec.ofBool fault
    word.getLsbD 0 = fault ∧ word.getLsbD 1 = alert ∧ word.getLsbD 2 = done ∧ word.getLsbD 3 = zero.getLsbD 0 ∧
      word.extractLsb' 4 2 = highest ∧ word.extractLsb' 6 26 = rest := by
  refine ⟨?_, ?_, ?_, ?_, ?_, ?_⟩
  · simp only [BitVec.getLsbD_append]
    simp
  · simp only [BitVec.getLsbD_append]
    simp
  · simp only [BitVec.getLsbD_append]
    simp
  · simp only [BitVec.getLsbD_append]
    simp
  · rw [BitVec.extractLsb'_append_eq_of_le (by decide), BitVec.extractLsb'_append_eq_of_le (by decide),
      BitVec.extractLsb'_append_eq_of_le (by decide), BitVec.extractLsb'_append_eq_of_le (by decide)]
    exact BitVec.extractLsb'_append_eq_right
  · rw [BitVec.extractLsb'_append_eq_of_le (by decide), BitVec.extractLsb'_append_eq_of_le (by decide),
      BitVec.extractLsb'_append_eq_of_le (by decide), BitVec.extractLsb'_append_eq_of_le (by decide)]
    exact BitVec.extractLsb'_append_eq_left

/-! ## EVENTS and STATUS -/

section
variable (st : StoreState) (h : HostPort)

/-- EVENTS, field by field (R158, R176). -/
theorem eventsWord_fields :
    (eventsWord h).getLsbD 0 = h.faultCause ∧ (eventsWord h).getLsbD 1 = h.alertCause ∧ (eventsWord h).getLsbD 2 = h.doneCause ∧
      (eventsWord h).getLsbD 3 = false ∧ (eventsWord h).extractLsb' 4 2 = BitVec.ofNat 2 (highestCause h) ∧
      (eventsWord h).extractLsb' 6 26 = 0#26 :=
  event_fields 0#26 (BitVec.ofNat 2 (highestCause h)) 0#1 h.doneCause h.alertCause h.faultCause

/-- STATUS, field by field (R125, R176). -/
theorem statusWord_fields :
    (statusWord st h).extractLsb' 0 3 = BitVec.ofNat 3 h.state.code ∧
      (statusWord st h).extractLsb' 3 3 = BitVec.ofNat 3 h.faultCode.code ∧
      (statusWord st h).extractLsb' 6 2 = BitVec.ofNat 2 (holdReason st h) ∧
      (statusWord st h).extractLsb' 8 1 = BitVec.ofNat 1 st.code ∧ (statusWord st h).extractLsb' 9 7 = BitVec.ofNat 7 h.inUse ∧
      (statusWord st h).extractLsb' 16 12 = BitVec.ofNat 12 h.sqHead ∧ (statusWord st h).extractLsb' 28 4 = 1#4 :=
  status_fields 1#4 (BitVec.ofNat 12 h.sqHead) (BitVec.ofNat 7 h.inUse) (BitVec.ofNat 1 st.code) (BitVec.ofNat 2 (holdReason st h))
    (BitVec.ofNat 3 h.faultCode.code) (BitVec.ofNat 3 h.state.code)

theorem inUse_le_64 : h.inUse ≤ 64 := by
  have hsize : h.contexts.toList.length = 64 := Vector.length_toList
  have hle : h.inUse ≤ h.contexts.toList.length := List.countP_le_length
  omega

/-- The hold reason is the first condition of R111 that fails, and NONE outside RUNNING. -/
theorem holdReason_cases :
    holdReason st h < 4 ∧ (h.state ≠ .running → holdReason st h = 0) ∧ (h.state = .running → st ≠ .ready → holdReason st h = 1) ∧
      (h.state = .running → st = .ready → h.hold = .paused → holdReason st h = 2) ∧
      ∀ v, h.state = .running → st = .ready → h.hold = .clear → h.values = some v →
        holdReason st h = if (h.contexts.toList.filter fun c => c.state != .free).length + h.unconsumed < v.cqEntries then 0 else 3 := by
  refine ⟨?_, fun hstate => if_pos hstate, fun hstate hst => ?_, fun hstate hst hhold => ?_, fun v hstate hst hhold hv => ?_⟩
  · unfold holdReason
    split
    · decide
    · split
      · decide
      · split
        · decide
        · split <;> decide
  · simp [holdReason, hstate, hst]
  · simp [holdReason, hstate, hst, hhold]
  · simp only [holdReason, hstate, hst, hhold, ne_eq, not_true, if_false]
    exact if_congr (hasRoom_iff hv) rfl rfl

end

/-- Settles O4: the reads by the table of `readWindow`, and the two words by their fields. -/
theorem eventsAndStatusReadAsEncoded : Obligations.EventsAndStatusReadAsEncoded := by
  refine ⟨fun st h offset width => ⟨?_, ?_, ?_, ?_, ?_, fun hwhole hhalf => ?_⟩, fun st h hhead => ?_⟩
  · rintro rfl rfl
    rfl
  · rintro rfl rfl
    rfl
  · rintro rfl rfl
    rfl
  · rintro rfl rfl
    rfl
  · rintro rfl rfl
    rfl
  · simp only [List.mem_cons, List.not_mem_nil, or_false] at hhalf
    unfold readWindow
    rw [if_neg hwhole, if_neg fun hc => hhalf ⟨hc.1, .inl hc.2⟩, if_neg fun hc => hhalf ⟨hc.1, .inr (.inl hc.2)⟩,
      if_neg fun hc => hhalf ⟨hc.1, .inr (.inr (.inl hc.2))⟩, if_neg fun hc => hhalf ⟨hc.1, .inr (.inr (.inr hc.2))⟩]
  · obtain ⟨hfault, halert, hdone, hzero, hhighest, hrest⟩ := eventsWord_fields h
    obtain ⟨hstate, hcode, hreason, hready, hused, hsq, hrevision⟩ := statusWord_fields st h
    obtain ⟨hsmall, hreasons⟩ := holdReason_cases st h
    have hreasonNat : ((statusWord st h).extractLsb' 6 2).toNat = holdReason st h := by
      rw [hreason, BitVec.toNat_ofNat, Nat.mod_eq_of_lt hsmall]
    have husedNat : ((statusWord st h).extractLsb' 9 7).toNat = (h.contexts.toList.filter fun c => c.state != .free).length := by
      have := inUse_le_64 h
      rw [hused, BitVec.toNat_ofNat, Nat.mod_eq_of_lt (by omega)]
      exact (contextsUsed_eq h).symm
    dsimp only
    rw [hreasonNat]
    obtain ⟨hnone, hinit, hmark, hroom⟩ := hreasons
    refine ⟨hfault, halert, hdone, hzero, ?_, hrest, ?_, ?_, hnone, hinit, hmark, hroom, ?_, husedNat, ?_, hrevision⟩
    · rw [hhighest]
      unfold highestCause
      cases h.faultCause <;> cases h.alertCause <;> cases h.doneCause <;> rfl
    · rw [hstate]
      cases h.state <;> rfl
    · rw [hcode]
      cases h.faultCode <;> rfl
    · have hbit : (statusWord st h).getLsbD 8 = ((statusWord st h).extractLsb' 8 1).getLsbD 0 := by simp
      rw [hbit, hready]
      cases st <;> decide
    · rw [hsq, BitVec.toNat_ofNat, Nat.mod_eq_of_lt (by omega)]

end Sys2Proof.Machine
end

section
/-! O53. The end of the running command's check read (R163, R164, R173). -/

namespace Sys2Proof.Machine

/-- No command runs, and the port of the one that ran is left as `k`. -/
def runEnded (p : PortId) (k : HostPort) (s : State) : State := { s.setPort p k with maint := { s.maint with running := none } }

section
variable {p : PortId} {k : HostPort} {s : State}

theorem runEnded_modPort (f : HostPort → HostPort) : (runEnded p k s).modPort p f = runEnded p (f k) s := by cases p <;> rfl

theorem runEnded_completeIncidents (c : CtxId) (st : Status) (n : Nat) :
    completeIncidents p c st n (runEnded p k s) =
      runEnded p (handCompletion c st (.incidents n s.incidents.dropped) k)
        { s with incidents := { s.incidents with dropped := 0 } } := by
  cases p <;> rfl

/-- But for the port and the dropped count the state is as it was, with no command running. -/
theorem runEnded_frame {t : State} {dropped : Nat}
    (ht : t = runEnded p k { s with incidents := { s.incidents with dropped := dropped } }) :
    t = { s.setPort p (t.port p) with
          maint := { s.maint with running := none }, incidents := { s.incidents with dropped := t.incidents.dropped } } ∧
      t.port p = k ∧ t.incidents = { s.incidents with dropped := dropped } := by
  subst ht
  cases p <;> exact ⟨rfl, rfl, rfl⟩

/-- What a check read that ended shows of the port's writes (notes/assumptions/13.md). -/
theorem endRunning_eq (p : PortId) (mark : Nat) (returned : Bool) (s : State) :
    endRunning (if returned then s.modPort p (confirmSent mark) else s) =
      runEnded p { s.port p with sentSure := if returned then max (s.port p).sentSure mark else (s.port p).sentSure } s := by
  cases returned <;> cases p <;> rfl

end

theorem exec_maintCheckReadDone {s : State} {r : Running} {x : CheckRead} (hr : s.maint.running = some r)
    (hx : r.checkRead = some x) (returned : Bool) :
    exec (.maintCheckReadDone returned) s = .next (endCheckRead r x.mark returned s) := by
  show execMaintCheckReadDone returned s = _
  unfold execMaintCheckReadDone
  simp only [hr, hx]

/-- Settles O53: the completion by the command's job, the end notice of a fault, or the end alone. -/
theorem checkReadEndsTheRunningCommand : Obligations.CheckReadEndsTheRunningCommand := by
  intro s r x returned hr hx h sure k status
  rw [exec_maintCheckReadDone hr hx]
  have hended : endRunning (if returned then s.modPort r.port (confirmSent x.mark) else s) = runEnded r.port k s := endRunning_eq ..
  obtain ⟨t, ht⟩ : ∃ t, endCheckRead r x.mark returned s = t := ⟨_, rfl⟩
  refine ⟨t, congrArg _ ht, ?_⟩
  unfold endCheckRead at ht
  dsimp only at ht
  rw [hended] at ht
  cases hstop : r.stop with
  | none =>
    rw [hstop] at ht
    dsimp only [completeMaint] at ht
    cases hjob : r.job with
    | mapQuery count next rest =>
      rw [hjob] at ht
      dsimp only at ht
      rw [runEnded_modPort] at ht
      obtain ⟨hframe, hport, hincidents⟩ := runEnded_frame (dropped := s.incidents.dropped) ht.symm
      refine ⟨hframe, fun _ => ⟨fun count' next' rest' hsame => ?_, nofun⟩, nofun, nofun⟩
      obtain ⟨rfl, rfl, rfl⟩ := MaintJob.mapQuery.inj hsame
      exact ⟨hport ▸ handCompletion_taken .., hincidents⟩
    | incidents n done buffer =>
      rw [hjob] at ht
      dsimp only at ht
      rw [runEnded_completeIncidents] at ht
      obtain ⟨hframe, hport, hincidents⟩ := runEnded_frame ht.symm
      refine ⟨hframe, fun _ => ⟨nofun, fun n' done' buffer' hsame => ?_⟩, nofun, nofun⟩
      obtain ⟨rfl, rfl, rfl⟩ := MaintJob.incidents.inj hsame
      exact ⟨hport ▸ handCompletion_taken .., by rw [hincidents]⟩
  | some why =>
    rw [hstop] at ht
    cases why with
    | fault =>
      dsimp only at ht
      rw [runEnded_modPort] at ht
      obtain ⟨hframe, hport, hincidents⟩ := runEnded_frame (dropped := s.incidents.dropped) ht.symm
      exact ⟨hframe, nofun, fun _ hstate => ⟨hincidents, hport ▸ endNotices_freed [r.ctx] k hstate⟩, nofun⟩
    | reset =>
      obtain ⟨hframe, hport, hincidents⟩ := runEnded_frame (dropped := s.incidents.dropped) ht.symm
      exact ⟨hframe, nofun, nofun, fun _ => ⟨hincidents, hport⟩⟩

end Sys2Proof.Machine
end

section
/-! O50. The reports of record writes (R150 to R152, R154, R159, R160). -/

namespace Sys2Proof.Machine

section
variable {c : CtxId} {h : HostPort} {v : SetupValues}

/-- A record in the ring: the tail, the phase and the count move on, and its context is freed (R150). -/
theorem recordInRing_written (hv : h.values = some v) :
    ((recordInRing c h).contexts[c]).state = .free ∧ ResumesAtItsMark h (recordInRing c h) ∧
      (∀ d, d ≠ c → (recordInRing c h).contexts[d] = h.contexts[d]) ∧
      recordInRing c h =
        { h with
          contexts := (recordInRing c h).contexts, hold := (recordInRing c h).hold
          cqTail := if h.cqTail + 1 = v.cqEntries then 0 else h.cqTail + 1
          phase := if h.cqTail + 1 = v.cqEntries then !h.phase else h.phase
          unconsumed := h.unconsumed + 1 } := by
  have hframe := freeContext_frame c h
  rw [recordInRing_eq hv]
  refine ⟨(freeContext_at c c h).1, (freeContext_resumes c h).1, fun d hd => (freeContext_at c d h).2 hd, ?_⟩
  simp only [beq_iff_eq]
  rw [hframe]

theorem announceTests_of_values (now : Time) (notify : Bool) (hv : h.values = some v) :
    announceTests now notify h =
      if notify || h.unannounced == v.coalesce then announce h
      else if h.unannounced = 1 ∧ v.quiet ≠ 0 then { h with quietTimer := some ⟨now + BitVec.ofNat 48 v.quiet, false⟩ }
      else h := by
  unfold announceTests
  rw [hv]

/-- The tests made for a record just written, which leaves a record unconsumed (R152, R154). -/
theorem announceTests_written (now : Time) (notify : Bool) (hv : h.values = some v) (hleft : h.unconsumed ≠ 0) :
    announceTests now notify h =
      { h with
        unannounced := if notify = true ∨ h.unannounced = v.coalesce then 0 else h.unannounced
        announced := if notify = true ∨ h.unannounced = v.coalesce then h.unconsumed else h.announced
        doneCause := if notify = true ∨ h.unannounced = v.coalesce then true else h.doneCause
        quietTimer :=
          if notify = true ∨ h.unannounced = v.coalesce then none
          else if h.unannounced = 1 ∧ v.quiet ≠ 0 then some ⟨now + BitVec.ofNat 48 v.quiet, false⟩
          else h.quietTimer
        sent := h.sent ++ if notify = true ∨ h.unannounced = v.coalesce then messageOf h else [] } := by
  rw [announceTests_of_values now notify hv]
  by_cases htells : notify = true ∨ h.unannounced = v.coalesce
  · rw [if_pos (by simpa using htells), announce_eq]
    simp only [htells, if_true]
    simp [announcedPort, hleft]
  · rw [if_neg (by simpa using htells)]
    simp only [htells, if_false, List.append_nil]
    split <;> rfl

/-- The writer with no record write outstanding writes the front of its list, if there is one (R150). -/
theorem issueRecord_next (hservice : h.inService = true) (hnone : h.recordWrite = none) (hv : h.values = some v) :
    issueRecord h =
      { h with
        recordWrite := h.writeList.head?.map fun x => ⟨x, h.sent.length + 1⟩
        sent := h.sent ++
          match h.writeList with
          | x :: _ => [.record (v.cqBase + h.cqTail * 32) (recordBytes x h.phase h.sqHead)]
          | [] => [] } := by
  cases hlist : h.writeList with
  | nil =>
    unfold issueRecord
    rw [if_pos (by simp [hservice, hnone]), hlist]
    dsimp only
    rw [List.append_nil, List.head?_nil, Option.map_none, ← hnone, ← hlist]
  | cons x rest =>
    obtain ⟨-, hwrites⟩ := issueRecord_writes h hservice
    rw [hwrites v x hnone hv (by rw [hlist]; rfl), ← hlist]
    simp [hlist]

/-- The record write of `r` ended: what the port keeps of it before the record is counted (R150). -/
def writeEnded (r : RecordWrite) (h : HostPort) : HostPort :=
  confirmSent r.mark { h with recordWrite := none, writeList := h.writeList.tail }

/-- The report *accepted* in service, in one update: the record in the ring, the announce tests and the next record (R150, R152). -/
theorem recordAccepted_eq (now : Time) (r : RecordWrite) (hservice : h.inService = true) (hv : h.values = some v) :
    let wraps := h.cqTail + 1 = v.cqEntries
    let tail := if wraps then 0 else h.cqTail + 1
    let phase := if wraps then !h.phase else h.phase
    let count := h.unannounced + 1
    let tells := r.completion.notify = true ∨ count = v.coalesce
    let freed := recordInRing r.completion.ctx (writeEnded r h)
    ∃ mark, recordAccepted now r h =
      { h with
        contexts := freed.contexts, hold := freed.hold, writeList := h.writeList.tail, cqTail := tail, phase := phase
        unconsumed := h.unconsumed + 1
        unannounced := if tells then 0 else count
        announced := if tells then h.unconsumed + 1 else h.announced
        doneCause := if tells then true else h.doneCause
        quietTimer :=
          if tells then none
          else if count = 1 ∧ v.quiet ≠ 0 then some ⟨now + BitVec.ofNat 48 v.quiet, false⟩
          else h.quietTimer
        recordWrite := h.writeList.tail.head?.map fun x => ⟨x, mark⟩
        sentSure := max h.sentSure r.mark
        sent :=
          h.sent ++ (if tells then messageOf h else []) ++
            match h.writeList.tail with
            | x :: _ => [.record (v.cqBase + tail * 32) (recordBytes x phase h.sqHead)]
            | [] => [] } := by
  intro wraps tail phase count tells freed
  obtain ⟨-, -, -, hfreed⟩ := recordInRing_written (c := r.completion.ctx) (h := writeEnded r h) hv
  let counted : HostPort :=
    { writeEnded r h with
      contexts := freed.contexts, hold := freed.hold, cqTail := tail, phase := phase, unconsumed := h.unconsumed + 1
      unannounced := count }
  have hcounted : ({ freed with unannounced := freed.unannounced + 1 } : HostPort) = counted := by
    rw [show freed = _ from hfreed]
    rfl
  have htests := announceTests_written (h := counted) now r.completion.notify hv (Nat.succ_ne_zero _)
  unfold recordAccepted
  rw [show recordInRing r.completion.ctx (confirmSent r.mark { h with recordWrite := none, writeList := h.writeList.tail }) = freed from rfl]
  dsimp only
  rw [hcounted]
  rw [htests]
  exact ⟨_, issueRecord_next (v := v) (by exact hservice) (by rfl) (by exact hv)⟩

end

section
variable {p : PortId} {s : State} {r : RecordWrite}

theorem exec_completionWriteAccepted (hr : (s.port p).recordWrite = some r) :
    ((s.port p).inService = true →
        exec (.completionWriteAccepted p false) s = .next (s.setPort p (recordAccepted s.timeBase r (s.port p)))) ∧
      ((s.port p).state = .faulted →
        exec (.completionWriteAccepted p false) s =
          .next (s.setPort p (recordInRing r.completion.ctx (confirmSent r.mark { s.port p with recordWrite := none })))) := by
  have hexec : exec (.completionWriteAccepted p false) s = execCompletionWriteAccepted p false s := rfl
  unfold execCompletionWriteAccepted at hexec
  simp only [hr, Bool.false_eq_true, if_false, modPort_eq] at hexec
  rw [hexec]
  refine ⟨fun hservice => if_pos hservice, fun hfaulted => ?_⟩
  rw [if_neg (by simp [HostPort.inService, hfaulted]), if_pos hfaulted]

theorem exec_completionWriteRefused (hr : (s.port p).recordWrite = some r) :
    ((s.port p).inService = true →
        exec (.completionWriteRefused p false) s = .next (faultPort p .postError (s.setPort p { s.port p with recordWrite := none }))) ∧
      ((s.port p).state = .faulted →
        exec (.completionWriteRefused p false) s =
          .next (s.setPort p (freeContext r.completion.ctx { s.port p with recordWrite := none }))) := by
  have hexec : exec (.completionWriteRefused p false) s = execCompletionWriteRefused p false s := rfl
  unfold execCompletionWriteRefused at hexec
  simp only [hr, Bool.false_eq_true, if_false, modPort_eq, port_setPort_same, setPort_setPort] at hexec
  rw [hexec]
  refine ⟨fun hservice => if_pos hservice, fun hfaulted => ?_⟩
  rw [if_neg (by simp [HostPort.inService, hfaulted]), if_pos hfaulted]

end

/-- Settles O50: the two reports, in service, in FAULTED and of before a reset. -/
theorem recordReportsEndTheirRecordWrite : Obligations.RecordReportsEndTheirRecordWrite := by
  intro p s r v h wraps tail phase count tells
  refine ⟨rfl, fun hr hv hservice => ?_, fun hr hv hfaulted => ?_, rfl, fun hr hservice => ?_, fun hr hfaulted => ?_⟩
  · refine ⟨_, (exec_completionWriteAccepted hr).1 hservice, onlyPort_setPort .., ?_⟩
    rw [port_setPort_same]
    obtain ⟨hfree, hresumes, hothers, -⟩ := recordInRing_written (c := r.completion.ctx) (h := writeEnded r h) hv
    obtain ⟨mark, heq⟩ := recordAccepted_eq s.timeBase r hservice hv
    rw [heq]
    refine ⟨hfree, hresumes, hothers, rfl, ?_⟩
    cases h.writeList.tail <;> rfl
  · refine ⟨_, (exec_completionWriteAccepted hr).2 hfaulted, onlyPort_setPort .., ?_⟩
    rw [port_setPort_same]
    exact recordInRing_written (h := confirmSent r.mark { h with recordWrite := none }) hv
  · exact ⟨_, (exec_completionWriteRefused hr).1 hservice, faultPort_entered ..⟩
  · refine ⟨_, (exec_completionWriteRefused hr).2 hfaulted, onlyPort_setPort .., ?_⟩
    rw [port_setPort_same]
    exact ⟨freeContext_frame _ _, (freeContext_at _ r.completion.ctx _).1,
      (freeContext_resumes r.completion.ctx { h with recordWrite := none }).1,
      fun c hc => (freeContext_at _ c _).2 hc⟩

end Sys2Proof.Machine
end

section
/-! O49. The end of a transfer: its slot, its status and its results (R136, R141, R143 to R146). -/

namespace Sys2Proof.Machine

section
variable {c : CtxId} {i : SlotId} {h : HostPort} {x : Transfer}

/-- The first status of R143 that applies. -/
theorem transfer_status_eq (y : Transfer) :
    y.status =
      if y.ending = some .notHolder then .notHolder
      else if y.ending = some .malformed then .malformed
      else if y.ending = some .hostFault then .hostFault
      else if y.bad ≠ 0 then .dataError
      else if y.decision = some .notFound then .notFound
      else if y.corrected ≠ 0 then .corrected
      else .ok := by
  unfold Transfer.status
  cases y.ending with
  | none => rfl
  | some e => cases e <;> rfl

/-- The found offset is the decision's, where it has one (R140, R144). -/
theorem transfer_found_cases (y : Transfer) :
    (∀ o, y.decision = some (.matched o) ∨ y.decision = some (.bad o) → y.found = some o) ∧
      (y.decision = none ∨ y.decision = some .notFound → y.found = none) := by
  unfold Transfer.found
  refine ⟨fun o hd => ?_, fun hd => ?_⟩
  · rcases hd with hd | hd <;> rw [hd]
  · rcases hd with hd | hd <;> rw [hd]

/-- Bytes done of a transfer that ended without an ending of its own (R140, R144). -/
theorem transfer_bytesDone_cases {y : Transfer} (hending : y.ending = none) :
    (∀ o, y.decision = some (.matched o) ∨ y.decision = some (.bad o) → y.bytesDone = o + 8) ∧
      (y.decision = none ∨ y.decision = some .notFound → y.bytesDone = (rangeOf y.cmd).2) := by
  unfold Transfer.bytesDone
  rw [hending]
  refine ⟨fun o hd => ?_, fun hd => ?_⟩
  · rcases hd with hd | hd <;> rw [hd]
  · rcases hd with hd | hd <;> rw [hd]

theorem endIfDone_of_slot (hslot : h.slots[i] = some x) :
    endIfDone i h =
      if x.phase = .finishing ∧ x.outstanding = 0 ∧ h.slotReads[i] = none then
        handCompletion x.ctx x.status x.results (setSlot i none h)
      else h := by
  unfold endIfDone
  rw [hslot]

theorem takeTransferResult_of_slot (hslot : slotOf h c = some (i, x)) (line : Nat) (r : Option LineResult) :
    takeTransferResult c line r h =
      if (x.takeResult line r).1.phase = .finishing ∧ (x.takeResult line r).1.outstanding = 0 ∧ h.slotReads[i] = none then
        handCompletion (x.takeResult line r).1.ctx (x.takeResult line r).1.status (x.takeResult line r).1.results
          { h with slots := h.slots.set i none, sent := h.sent ++ (x.takeResult line r).2 }
      else { h with slots := h.slots.set i (some (x.takeResult line r).1), sent := h.sent ++ (x.takeResult line r).2 } := by
  have htaken : takeTransferResult c line r h =
      endIfDone i { setSlot i (some (x.takeResult line r).1) h with sent := h.sent ++ (x.takeResult line r).2 } := by
    unfold takeTransferResult
    rw [hslot]
    rfl
  rw [htaken]
  generalize (x.takeResult line r).1 = y
  generalize (x.takeResult line r).2 = writes
  have hset : ({ setSlot i (some y) h with sent := h.sent ++ writes } : HostPort).slots[i] = some y := by
    show (h.slots.set i (some y))[i] = some y
    simp
  refine (endIfDone_of_slot hset).trans ?_
  have hfreed : setSlot i none { setSlot i (some y) h with sent := h.sent ++ writes } =
      { h with slots := h.slots.set i none, sent := h.sent ++ writes } := by
    unfold setSlot
    simp
  rw [hfreed]
  rfl

end

/-- Settles O49: a result ends its transfer in FINISHING with nothing outstanding, and else sets its slot. -/
theorem transferEndsWithItsStatusAndResults : Obligations.TransferEndsWithItsStatusAndResults := by
  intro c line r h
  refine ⟨fun hnone => ?_, ?_⟩
  · unfold takeTransferResult
    rw [slotOf_none hnone]
  · intro i x hx hctx hothers y writes k ended
    have hk : k = _ := takeTransferResult_of_slot (slotOf_some hx hctx hothers) line r
    refine ⟨fun hgoes => hk.trans (if_neg hgoes), fun hended => ⟨y.status, y.bytesDone, y.found, ?_, transfer_status_eq y,
      (transfer_found_cases y).1, (transfer_found_cases y).2, transfer_bytesDone_cases, fun a n side hending hwrite => ?_⟩⟩
    · rw [hk, if_pos hended, takeResult_ctx, hctx]
      exact handCompletion_taken ..
    · unfold Transfer.bytesDone
      cases hcase : y.ending with
      | none => exact absurd hcase hending
      | some e =>
        rw [hwrite]
        rfl

end Sys2Proof.Machine
end

section
/-! O43. The activation of a transfer (R119 to R121, R128, R134). -/

namespace Sys2Proof.Machine

/-! ## The lowest number with a property -/

theorem find?_finRange_of_lowest {n : Nat} {q : Fin n → Bool} {i : Fin n} (hi : q i = true) (hlower : ∀ j, j < i → q j = false) :
    (List.finRange n).find? q = some i := by
  rw [List.find?_eq_some_iff_getElem]
  refine ⟨hi, i.val, by simp, by simp, fun j hj => ?_⟩
  have hlt : j < n := Nat.lt_trans hj i.isLt
  simpa using hlower ⟨j, hlt⟩ hj

section
variable {c : CtxId} {i : SlotId} {h : HostPort} {rest : List CtxId}

theorem freeSlot_of_lowest (hi : h.slots[i] = none) (hlower : ∀ j : SlotId, j < i → h.slots[j] ≠ none) : freeSlot h = some i :=
  find?_finRange_of_lowest (by rw [hi]; rfl) fun j hj => by simpa [← Option.isSome_iff_ne_none] using hlower j hj

theorem freeSlot_of_all_held (hheld : ∀ i : SlotId, h.slots[i] ≠ none) : freeSlot h = none := by
  unfold freeSlot
  rw [List.find?_eq_none]
  exact fun i _ => by simpa using hheld i

theorem canRun_iff (h : HostPort) (c : CtxId) : h.canRun c = true ↔ h.inService = true ∧ ¬ FenceWaits h [] c := by
  unfold HostPort.canRun
  rw [Bool.and_eq_true, fenceOk_iff]

/-! ## What the row does -/

/-- A transfer that cannot run, or finds no slot, stays with all behind it. -/
theorem activateTransfer_stays (kind : Command → Bool) (hlist : h.workList = c :: rest)
    (hwaits : h.inService = false ∨ FenceWaits h [] c ∨ ∀ i : SlotId, h.slots[i] ≠ none) : activateTransfer kind h = h := by
  have hblocked : h.canRun c = false ∨ freeSlot h = none := by
    rcases hwaits with hservice | hfence | hheld
    · exact .inl (by simp [HostPort.canRun, hservice])
    · exact .inl (Bool.eq_false_iff.mpr fun hrun => ((canRun_iff h c).mp hrun).2 hfence)
    · exact .inr (freeSlot_of_all_held hheld)
  unfold activateTransfer
  rw [hlist]
  split
  · rename_i d more i heq hfree
    obtain ⟨rfl, -⟩ := List.cons.inj heq
    rcases hblocked with hrun | hnone
    · rw [hrun, Bool.false_and, if_neg Bool.false_ne_true]
    · rw [hnone] at hfree
      cases hfree
  · rfl

theorem activateTransfer_starts {kind : Command → Bool} (hlist : h.workList = c :: rest) (hkind : kind (h.contexts[c]).cmd = true)
    (hrun : h.canRun c = true) (hfree : freeSlot h = some i) : activateTransfer kind h = advance (startTransfer c i h) := by
  unfold activateTransfer
  rw [hlist, hfree]
  dsimp only
  rw [hrun, hkind]
  rfl

/-- Port `h` with the head `c` of its work list ACTIVE, `rest` behind it. -/
def headActive (c : CtxId) (rest : List CtxId) (h : HostPort) : HostPort :=
  { h with contexts := h.contexts.set c { h.contexts[c] with state := .active }, workList := rest }

theorem activateHead_eq (hlist : h.workList = c :: rest) : activateHead c h = headActive c rest h := by
  unfold activateHead
  rw [hlist]
  rfl

/-- The activated transfer has its slot: past its guard, or with its guard check handed (R128). -/
theorem startTransfer_eq (i : SlotId) (hlist : h.workList = c :: rest) :
    let x := h.contexts[c]
    ∃ y reads,
      startTransfer c i h =
          { headActive c rest h with
            slots := h.slots.set i (some y), slotReads := reads
            lockMail := h.lockMail ++ (x.guard.map fun g => LockMail.guardCheck c g.1 g.2).toList } ∧
        (x.guard ≠ none → y = { Transfer.fresh c x.cmd with phase := .checking } ∧ reads = h.slotReads) ∧
        (x.guard = none → ∃ read, reads = h.slotReads.set i read ∧ PastGuard x.cmd (Transfer.fresh c x.cmd) y read) := by
  intro x
  unfold startTransfer
  rw [activateHead_eq hlist]
  cases hguard : x.guard with
  | some g =>
    refine ⟨_, h.slotReads, ?_, fun _ => ⟨rfl, rfl⟩, nofun⟩
    dsimp only
    rw [show (h.contexts[c]).guard = some g from hguard]
    rfl
  | none =>
    obtain ⟨y, read, hgoes, hpast⟩ := enterAfterGuard_goes_on i (x := Transfer.fresh c x.cmd) (headActive c rest h) rfl rfl
    refine ⟨y, _, ?_, fun hsome => absurd rfl hsome, fun _ => ⟨read, rfl, hpast⟩⟩
    dsimp only
    rw [show (h.contexts[c]).guard = none from hguard]
    refine hgoes.trans ?_
    rw [Option.map_none, Option.toList_none, List.append_nil]
    rfl

end

/-- The row of a transfer's kind, and the test of the kind it makes. -/
theorem exec_transferRow {p : PortId} {row : Instr} {cmd : Command}
    (hrow : match cmd with
      | .read .. => row = .read p
      | .write .. => row = .write p
      | .fill .. => row = .fill p
      | .copy .. => row = .copy p
      | .scan .. => row = .scan p
      | _ => False) (s : State) :
    ∃ kind, kind cmd = true ∧ exec row s = .next (s.setPort p (activateTransfer kind (s.port p))) := by
  cases cmd with
  | read => exact ⟨isRead, rfl, hrow ▸ rfl⟩
  | write => exact ⟨Command.isWrite, rfl, hrow ▸ rfl⟩
  | fill => exact ⟨isFill, rfl, hrow ▸ rfl⟩
  | copy => exact ⟨isCopy, rfl, hrow ▸ rfl⟩
  | scan => exact ⟨isScan, rfl, hrow ▸ rfl⟩
  | _ => exact hrow.elim

/-- Settles O43: the head stays, or takes the slot by `startTransfer`, and the list is tested behind it. -/
theorem transferHeadTakesTheLowestFreeSlot : Obligations.TransferHeadTakesTheLowestFreeSlot := by
  intro p s row c rest h x hrow hlist
  obtain ⟨kind, hkind, hexec⟩ := exec_transferRow hrow s
  rw [hexec]
  refine ⟨fun hwaits => ?_, fun i hbehind hservice hfence hfree hlower => ?_⟩
  · rw [activateTransfer_stays kind hlist hwaits, setPort_port]
  · have hrun : h.canRun c = true := by
      refine (canRun_iff h c).mpr ⟨hservice, fun ⟨hflag, d, hplace, hbusy⟩ => ?_⟩
      obtain ⟨hused, hopen⟩ := hbusy.resolve_left List.not_mem_nil
      exact (hfence hflag d hplace).elim hused hopen
    rw [activateTransfer_starts hlist hkind hrun (freeSlot_of_lowest hfree hlower)]
    refine ⟨_, rfl, onlyPort_setPort .., ?_⟩
    rw [port_setPort_same]
    obtain ⟨y, reads, hstarted, hguarded, hunguarded⟩ := startTransfer_eq i hlist
    rw [hstarted]
    generalize hm : ({ headActive c rest h with
      slots := h.slots.set i (some y), slotReads := reads
      lockMail := h.lockMail ++ (x.guard.map fun g => LockMail.guardCheck c g.1 g.2).toList } : HostPort) = m
    obtain ⟨gone, hheads⟩ := advance_run m
    have hframe := advance_frame m
    generalize advance m = k at hheads hframe ⊢
    obtain ⟨hgone, -, hcontexts, hmail, -⟩ := id hheads
    have hslots : k.slots = h.slots.set i (some y) := by rw [hframe, ← hm]
    have hreads : k.slotReads = reads := by rw [hframe, ← hm]
    have hrest : rest = gone ++ k.workList := by rw [← hgone, ← hm]; rfl
    have hmailed : k.lockMail = h.lockMail ++ ((x.guard.map fun g => LockMail.guardCheck c g.1 g.2).toList ++
        gone.filterMap fun d => requestAt d (m.contexts[d]).cmd) := by
      rw [hmail, ← List.append_assoc, ← hm]
    have hslot : k.slots[i] = some y := by
      rw [hslots, getElem_set_fin, if_pos rfl]
    refine ⟨?_, ?_, fun j hj => ?_, ⟨gone, ?_, hrest, fun d hd => ?_⟩, fun l o hguard => ?_, fun hguard => ⟨?_, ?_⟩⟩
    · rw [hframe, ← hm]
      rfl
    · have hc : c ∉ gone := fun hc => hbehind (hrest ▸ List.mem_append_left _ hc)
      rw [hcontexts, if_neg hc, ← hm]
      exact (getElem_set_fin h.contexts c c _).trans (if_pos rfl)
    · rw [hslots, getElem_set_fin, if_neg hj]
    · rw [← hm] at hheads
      exact hheads
    · rw [hcontexts, if_pos hd]
    · obtain ⟨hy, hsame⟩ := hguarded (hguard ▸ nofun)
      rw [hguard] at hmailed
      exact ⟨hslot.trans (congrArg some hy), hreads.trans hsame, _, hmailed⟩
    · exact ⟨_, hmailed⟩
    · obtain ⟨read, hset, hpast⟩ := hunguarded hguard
      rw [hreads, hset, hslot]
      change PastGuard x.cmd (Transfer.fresh c x.cmd) y read at hpast
      revert hpast
      generalize x.cmd = cmd
      cases cmd with
      | read a n side =>
        cases side with
        | direct addr =>
          rintro ⟨rfl, rfl⟩
          exact ⟨rfl, rfl⟩
        | scatter count addr =>
          rintro ⟨rfl, rfl⟩
          exact ⟨rfl, rfl⟩
      | write a n side =>
        cases side with
        | direct addr =>
          rintro ⟨rfl, hread⟩
          exact ⟨rfl, fun ha hn h8 => by rw [hread rfl ha hn h8]⟩
        | scatter count addr =>
          rintro ⟨rfl, rfl⟩
          exact ⟨rfl, rfl⟩
      | _ =>
        rintro ⟨rfl, rfl⟩
        exact ⟨rfl, rfl⟩

end Sys2Proof.Machine
end

section
/-! O40. What the form of a record decides (R115, R116, R177, R178). -/

namespace Sys2Proof.Machine

/-! ## Fields by their bits -/

section
variable {r : BitVec 512}

theorem bitsClear_iff (x : BitVec 512) (first n : Nat) : x.extractLsb' first n = 0 ↔ BitsClear x first (first + n) := by
  constructor
  · intro hzero b hfirst hlast
    have hbit := congrArg (fun y => y.getLsbD (b - first)) hzero
    simpa [show b - first < n by omega, show first + (b - first) = b by omega] using hbit
  · intro hclear
    refine BitVec.eq_of_getLsbD_eq fun i hi => ?_
    simpa [hi] using hclear (first + i) (by omega) (by omega)

theorem reservedZero_iff_bytesZero {first last : Nat} (hle : first ≤ last) : reservedZero r first last = true ↔ BytesZero r first last := by
  rw [reservedZero_iff, bitsClear_iff, BytesZero, show 8 * first + 8 * (last - first) = 8 * last by omega]

theorem flagGuard_eq (r : BitVec 512) : flagGuard (recordFlags r) = r.getLsbD 10 := by
  simp [flagGuard, recordFlags, field]

theorem flagScatter_eq (r : BitVec 512) : flagScatter (recordFlags r) = r.getLsbD 11 := by
  simp [flagScatter, recordFlags, field]

theorem undefinedFlags_iff (r : BitVec 512) : (recordFlags r).extractLsb' 4 4 = 0#4 ↔ BitsClear r 12 16 := by
  rw [← bitsClear_iff r 12 4]
  refine Eq.congr_left (BitVec.eq_of_getLsbD_eq fun i hi => ?_)
  have h8 : 4 + i < 8 := by omega
  simp [recordFlags, field, hi, h8, ← Nat.add_assoc]

theorem opcode_eq_iff (r : BitVec 512) (n : Byte) : recordOpcode r = n ↔ recordNum r 0 1 = n.toNat := BitVec.toNat_inj.symm

theorem isTransferOpcode_iff (r : BitVec 512) :
    isTransferOpcode (recordOpcode r) = true ↔ 1 ≤ recordNum r 0 1 ∧ recordNum r 0 1 ≤ 5 := by
  unfold isTransferOpcode
  rw [Bool.and_eq_true, decide_eq_true_eq, decide_eq_true_eq]
  rfl

/-! ## The checks of every record (R115) -/

theorem commonFieldsOk_iff (r : BitVec 512) : commonFieldsOk r = true ↔ CommonFieldsFit r := by
  have hnum : fieldNat r 4 2 = recordNum r 4 2 := rfl
  unfold commonFieldsOk CommonFieldsFit
  simp only [Bool.and_eq_true, Bool.or_eq_true, beq_iff_eq, undefinedFlags_iff, flagGuard_eq, flagScatter_eq,
    isTransferOpcode_iff, reservedZero_iff_bytesZero (show 4 ≤ 8 by decide), opcode_eq_iff, decide_eq_true_eq, hnum, and_assoc]
  cases r.getLsbD 10 <;> cases r.getLsbD 11 <;> simp

/-! ## The checks by opcode (R115, R178) -/

/-- The host side of a READ or WRITE as its record lays it down (section 11.2). -/
def hostAt (r : BitVec 512) : HostSide :=
  if r.getLsbD 11 then .scatter (recordNum r 20 2) (recordNum r 24 8) else .direct (recordNum r 24 8)

/-- A host address is a multiple of 8, and the count of scatter entries is 1 to 64 with SCATTER and 0 without. -/
def HostFits (r : BitVec 512) : Prop :=
  recordNum r 24 8 % 8 = 0 ∧ (r.getLsbD 11 = true → 1 ≤ recordNum r 20 2 ∧ recordNum r 20 2 ≤ 64) ∧
    (r.getLsbD 11 = false → recordNum r 20 2 = 0)

theorem hostSideOf_of_fit (hfit : HostFits r) : hostSideOf r = some (hostAt r) := by
  obtain ⟨haddr, hscatter, hdirect⟩ := hfit
  unfold hostSideOf hostAt
  dsimp only
  rw [flagScatter_eq, if_pos (show fieldNat r 24 8 % 8 = 0 from haddr)]
  cases hbit : r.getLsbD 11 with
  | true => exact if_pos (hscatter hbit)
  | false => exact if_pos (hdirect hbit)

theorem hostSideOf_of_not_fit (hfit : ¬ HostFits r) : hostSideOf r = none := by
  unfold hostSideOf
  dsimp only
  rw [flagScatter_eq]
  by_cases haddr : recordNum r 24 8 % 8 = 0
  · rw [if_pos (show fieldNat r 24 8 % 8 = 0 from haddr)]
    cases hbit : r.getLsbD 11 with
    | true => exact if_neg fun hcount => hfit ⟨haddr, fun _ => hcount, fun hclear => by rw [hbit] at hclear; cases hclear⟩
    | false => exact if_neg fun hcount => hfit ⟨haddr, fun hset => (by rw [hbit] at hset; cases hset), fun _ => hcount⟩
  · exact if_neg haddr

theorem rangeFits_iff (r : BitVec 512) :
    RangeFits r ↔ (fieldNat r 8 8 % 8 == 0 && lengthOk (fieldNat r 16 4)) = true := by
  unfold RangeFits lengthOk
  simp only [Bool.and_eq_true, beq_iff_eq, decide_eq_true_eq, and_assoc]
  rfl

/-- The command a record that fits lays down (section 11.2). -/
def commandAt (r : BitVec 512) : Command :=
  let num := recordNum r
  match num 0 1 with
  | 0x00 => .nop
  | 0x01 => .read (num 8 8) (num 16 4) (hostAt r)
  | 0x02 => .write (num 8 8) (num 16 4) (hostAt r)
  | 0x03 => .fill (num 8 8) (num 16 4) (r.extractLsb' 192 64)
  | 0x04 => .copy (num 8 8) (num 16 4) (num 24 8)
  | 0x05 => .scan (num 8 8) (num 16 4) (r.extractLsb' 192 64) (r.extractLsb' 256 64)
  | 0x10 => .acquire (Fin.ofNat 256 (num 8 2)) (r.extractLsb' 80 16) (num 12 2)
  | 0x11 => .release (Fin.ofNat 256 (num 8 2)) (r.extractLsb' 80 16)
  | 0x20 => .mapQuery (num 8 2) (num 10 2) (num 16 8)
  | 0x21 => .incidents (num 8 2) (num 16 8)
  | 0x22 => .tune (if r.getLsbD 64 then some (num 10 2) else none) (if r.getLsbD 65 then some (num 12 2) else none)
  | 0x23 => .relocate (Fin.ofNat 512 (num 8 2))
  | _ => .rejected

/-- A record is judged by its opcode's row: `fits` is that row, and `cmd` what the row lays down. -/
def JudgedBy (r : BitVec 512) (fits : Prop) (cmd : Command) : Prop :=
  (OpcodeFieldsFit r ↔ fits) ∧ commandAt r = cmd ∧ (fits → fieldsOf r = some cmd) ∧ (¬ fits → fieldsOf r = none)

theorem checked_cases {ok : Bool} {fits : Prop} (cmd : Command) (hok : ok = true ↔ fits) :
    (fits → checked ok cmd = some cmd) ∧ (¬ fits → checked ok cmd = none) :=
  ⟨fun hfits => if_pos (hok.mpr hfits), fun hfits => if_neg (mt hok.mp hfits)⟩

theorem judged_nop (hop : recordNum r 0 1 = 0x00) : JudgedBy r (BytesZero r 4 64) .nop := by
  have hop' : (recordOpcode r).toNat = 0x00 := hop
  unfold JudgedBy OpcodeFieldsFit commandAt fieldsOf
  simp only [hop, hop']
  exact ⟨by simp, trivial, checked_cases _ (reservedZero_iff_bytesZero (by decide))⟩

/-- The row of READ and WRITE (section 11.2). -/
def HostRowFits (r : BitVec 512) : Prop :=
  RangeFits r ∧ recordNum r 24 8 % 8 = 0 ∧ BytesZero r 22 24 ∧ BytesZero r 32 64 ∧
    (r.getLsbD 11 = true → 1 ≤ recordNum r 20 2 ∧ recordNum r 20 2 ≤ 64) ∧ (r.getLsbD 11 = false → recordNum r 20 2 = 0)

theorem hostRow_cases (cmd : HostSide → Command) :
    let fields := match hostSideOf r with
      | some h => checked (fieldNat r 8 8 % 8 == 0 && lengthOk (fieldNat r 16 4) && reservedZero r 22 24 && reservedZero r 32 64) (cmd h)
      | none => none
    (HostRowFits r → fields = some (cmd (hostAt r))) ∧ (¬ HostRowFits r → fields = none) := by
  have hok : (fieldNat r 8 8 % 8 == 0 && lengthOk (fieldNat r 16 4) && reservedZero r 22 24 && reservedZero r 32 64) = true ↔
      RangeFits r ∧ BytesZero r 22 24 ∧ BytesZero r 32 64 := by
    rw [Bool.and_eq_true, Bool.and_eq_true, ← rangeFits_iff, reservedZero_iff_bytesZero (by decide),
      reservedZero_iff_bytesZero (by decide), and_assoc]
  obtain ⟨hgood, hbad⟩ := checked_cases (cmd (hostAt r)) hok
  have hrow : HostRowFits r ↔ HostFits r ∧ RangeFits r ∧ BytesZero r 22 24 ∧ BytesZero r 32 64 := by
    unfold HostRowFits HostFits
    tauto
  rw [hrow]
  by_cases hhost : HostFits r
  · rw [hostSideOf_of_fit hhost]
    exact ⟨fun ⟨_, hfits⟩ => hgood hfits, fun hfits => hbad fun hrest => hfits ⟨hhost, hrest⟩⟩
  · rw [hostSideOf_of_not_fit hhost]
    exact ⟨fun ⟨hfits, _⟩ => absurd hfits hhost, fun _ => rfl⟩

theorem judged_read (hop : recordNum r 0 1 = 0x01) :
    JudgedBy r (HostRowFits r) (.read (recordNum r 8 8) (recordNum r 16 4) (hostAt r)) := by
  have hop' : (recordOpcode r).toNat = 0x01 := hop
  unfold JudgedBy OpcodeFieldsFit commandAt fieldsOf
  simp only [hop, hop']
  exact ⟨by simp [HostRowFits], trivial, hostRow_cases (.read (recordNum r 8 8) (recordNum r 16 4))⟩

theorem judged_write (hop : recordNum r 0 1 = 0x02) :
    JudgedBy r (HostRowFits r) (.write (recordNum r 8 8) (recordNum r 16 4) (hostAt r)) := by
  have hop' : (recordOpcode r).toNat = 0x02 := hop
  unfold JudgedBy OpcodeFieldsFit commandAt fieldsOf
  simp only [hop, hop']
  exact ⟨by simp [HostRowFits], trivial, hostRow_cases (.write (recordNum r 8 8) (recordNum r 16 4))⟩

theorem judged_fill (hop : recordNum r 0 1 = 0x03) :
    JudgedBy r (RangeFits r ∧ BytesZero r 20 24 ∧ BytesZero r 32 64)
      (.fill (recordNum r 8 8) (recordNum r 16 4) (r.extractLsb' 192 64)) := by
  have hop' : (recordOpcode r).toNat = 0x03 := hop
  unfold JudgedBy OpcodeFieldsFit commandAt fieldsOf
  simp only [hop, hop']
  refine ⟨by simp, trivial, checked_cases _ ?_⟩
  rw [Bool.and_eq_true, Bool.and_eq_true, ← rangeFits_iff, reservedZero_iff_bytesZero (by decide),
    reservedZero_iff_bytesZero (by decide), and_assoc]

theorem disjointRanges_iff (a b len : Nat) : disjointRanges a b len = true ↔ a + len ≤ b ∨ b + len ≤ a := by
  unfold disjointRanges
  rw [Bool.or_eq_true, decide_eq_true_eq, decide_eq_true_eq]

theorem judged_copy (hop : recordNum r 0 1 = 0x04) :
    JudgedBy r
      (RangeFits r ∧ recordNum r 24 8 % 8 = 0 ∧
        (recordNum r 8 8 + recordNum r 16 4 ≤ recordNum r 24 8 ∨ recordNum r 24 8 + recordNum r 16 4 ≤ recordNum r 8 8) ∧
        BytesZero r 20 24 ∧ BytesZero r 32 64)
      (.copy (recordNum r 8 8) (recordNum r 16 4) (recordNum r 24 8)) := by
  have hop' : (recordOpcode r).toNat = 0x04 := hop
  unfold JudgedBy OpcodeFieldsFit commandAt fieldsOf
  simp only [hop, hop']
  refine ⟨by simp, trivial, checked_cases _ ?_⟩
  rw [rangeFits_iff]
  simp only [Bool.and_eq_true, reservedZero_iff_bytesZero (show 20 ≤ 24 by decide), reservedZero_iff_bytesZero (show 32 ≤ 64 by decide),
    disjointRanges_iff, beq_iff_eq]
  show ((((_ ∧ recordNum r 24 8 % 8 = 0) ∧ _) ∧
    (recordNum r 8 8 + recordNum r 16 4 ≤ recordNum r 24 8 ∨ recordNum r 24 8 + recordNum r 16 4 ≤ recordNum r 8 8)) ∧ _) ∧ _ ↔ _
  tauto

theorem judged_scan (hop : recordNum r 0 1 = 0x05) :
    JudgedBy r (RangeFits r ∧ BytesZero r 20 24 ∧ BytesZero r 40 64)
      (.scan (recordNum r 8 8) (recordNum r 16 4) (r.extractLsb' 192 64) (r.extractLsb' 256 64)) := by
  have hop' : (recordOpcode r).toNat = 0x05 := hop
  unfold JudgedBy OpcodeFieldsFit commandAt fieldsOf
  simp only [hop, hop']
  refine ⟨by simp, trivial, checked_cases _ ?_⟩
  rw [Bool.and_eq_true, Bool.and_eq_true, ← rangeFits_iff, reservedZero_iff_bytesZero (by decide),
    reservedZero_iff_bytesZero (by decide), and_assoc]

theorem judged_acquire (hop : recordNum r 0 1 = 0x10) :
    JudgedBy r (recordNum r 8 2 ≤ 255 ∧ BytesZero r 14 64)
      (.acquire (Fin.ofNat 256 (recordNum r 8 2)) (r.extractLsb' 80 16) (recordNum r 12 2)) := by
  have hop' : (recordOpcode r).toNat = 0x10 := hop
  unfold JudgedBy OpcodeFieldsFit commandAt fieldsOf
  simp only [hop, hop']
  refine ⟨by simp, trivial, checked_cases _ ?_⟩
  rw [Bool.and_eq_true, decide_eq_true_eq, reservedZero_iff_bytesZero (by decide)]
  rfl

theorem judged_release (hop : recordNum r 0 1 = 0x11) :
    JudgedBy r (recordNum r 8 2 ≤ 255 ∧ BytesZero r 12 64)
      (.release (Fin.ofNat 256 (recordNum r 8 2)) (r.extractLsb' 80 16)) := by
  have hop' : (recordOpcode r).toNat = 0x11 := hop
  unfold JudgedBy OpcodeFieldsFit commandAt fieldsOf
  simp only [hop, hop']
  refine ⟨by simp, trivial, checked_cases _ ?_⟩
  rw [Bool.and_eq_true, decide_eq_true_eq, reservedZero_iff_bytesZero (by decide)]
  rfl

theorem judged_mapQuery (hop : recordNum r 0 1 = 0x20) :
    JudgedBy r
      (recordNum r 8 2 ≤ 511 ∧ 1 ≤ recordNum r 10 2 ∧ recordNum r 10 2 ≤ 512 ∧ recordNum r 8 2 + recordNum r 10 2 ≤ 512 ∧
        recordNum r 16 8 % 8 = 0 ∧ 16 * recordNum r 10 2 + 64 ≤ recordNum r 12 4 ∧ BytesZero r 24 64)
      (.mapQuery (recordNum r 8 2) (recordNum r 10 2) (recordNum r 16 8)) := by
  have hop' : (recordOpcode r).toNat = 0x20 := hop
  unfold JudgedBy OpcodeFieldsFit commandAt fieldsOf
  simp only [hop, hop']
  refine ⟨by simp, trivial, checked_cases _ ?_⟩
  simp only [Bool.and_eq_true, decide_eq_true_eq, beq_iff_eq, reservedZero_iff_bytesZero (show 24 ≤ 64 by decide), and_assoc,
    Nat.mul_comm _ 16]
  rfl

theorem judged_incidents (hop : recordNum r 0 1 = 0x21) :
    JudgedBy r
      (1 ≤ recordNum r 8 2 ∧ recordNum r 8 2 ≤ 16 ∧ recordNum r 16 8 % 8 = 0 ∧ BytesZero r 10 16 ∧ BytesZero r 24 64)
      (.incidents (recordNum r 8 2) (recordNum r 16 8)) := by
  have hop' : (recordOpcode r).toNat = 0x21 := hop
  unfold JudgedBy OpcodeFieldsFit commandAt fieldsOf
  simp only [hop, hop']
  refine ⟨by simp, trivial, checked_cases _ ?_⟩
  simp only [Bool.and_eq_true, decide_eq_true_eq, beq_iff_eq, reservedZero_iff_bytesZero (show 24 ≤ 64 by decide),
    reservedZero_iff_bytesZero (show 10 ≤ 16 by decide), and_assoc]
  rfl

/-- The mark of a TUNE names the threshold, the rate or both, and nothing else. -/
theorem tuneMark_iff (r : BitVec 512) :
    ((field r 8 16).extractLsb' 2 14 = 0#14 ∧ field r 8 16 ≠ 0#16) ↔
      BitsClear r 66 80 ∧ (r.getLsbD 64 = true ∨ r.getLsbD 65 = true) := by
  have hrest : (field r 8 16).extractLsb' 2 14 = 0#14 ↔ BitsClear r 66 80 := by
    rw [← bitsClear_iff r 66 14]
    refine Eq.congr_left (BitVec.eq_of_getLsbD_eq fun i hi => ?_)
    have h16 : 2 + i < 16 := by omega
    simp [field, hi, h16, ← Nat.add_assoc]
  rw [hrest]
  refine and_congr_right fun hclear => ?_
  have hzero : field r 8 16 = 0#16 ↔ BitsClear r 64 80 := bitsClear_iff r 64 16
  rw [ne_eq, hzero]
  constructor
  · intro hset
    by_contra hboth
    simp only [not_or, Bool.not_eq_true] at hboth
    refine hset fun b hfirst hlast => ?_
    rcases Nat.lt_or_ge b 66 with hlow | hhigh
    · obtain rfl | rfl : b = 64 ∨ b = 65 := by omega
      · exact hboth.1
      · exact hboth.2
    · exact hclear b hhigh hlast
  · rintro (hset | hset) hnone
    · rw [hnone 64 (by decide) (by decide)] at hset
      cases hset
    · rw [hnone 65 (by decide) (by decide)] at hset
      cases hset

theorem judged_tune (hop : recordNum r 0 1 = 0x22) :
    JudgedBy r
      ((r.getLsbD 64 = true ∨ r.getLsbD 65 = true) ∧ BitsClear r 66 80 ∧ (r.getLsbD 64 = true → 1 ≤ recordNum r 10 2) ∧
        (r.getLsbD 65 = true → recordNum r 12 2 ≤ 4096) ∧ BytesZero r 14 64)
      (.tune (if r.getLsbD 64 then some (recordNum r 10 2) else none) (if r.getLsbD 65 then some (recordNum r 12 2) else none)) := by
  have hop' : (recordOpcode r).toNat = 0x22 := hop
  have hlow : (field r 8 16).getLsbD 0 = r.getLsbD 64 := by simp [field]
  have hhigh : (field r 8 16).getLsbD 1 = r.getLsbD 65 := by simp [field]
  unfold JudgedBy OpcodeFieldsFit commandAt fieldsOf
  simp only [hop, hop', hlow, hhigh]
  refine ⟨by simp, trivial, checked_cases _ ?_⟩
  simp only [Bool.and_eq_true, bne_iff_ne, beq_iff_eq, tuneMark_iff, reservedZero_iff_bytesZero (show 14 ≤ 64 by decide)]
  have hthreshold : (if r.getLsbD 64 = true then some (fieldNat r 10 2) else none) ≠ some 0 ↔
      (r.getLsbD 64 = true → 1 ≤ recordNum r 10 2) := by
    show (if r.getLsbD 64 = true then some (recordNum r 10 2) else none) ≠ some 0 ↔ _
    cases r.getLsbD 64 <;> simp [Nat.one_le_iff_ne_zero]
  have hrate : (if r.getLsbD 65 = true then some (fieldNat r 12 2) else none).all (fun x => decide (x ≤ 4096)) = true ↔
      (r.getLsbD 65 = true → recordNum r 12 2 ≤ 4096) := by
    show (if r.getLsbD 65 = true then some (recordNum r 12 2) else none).all (fun x => decide (x ≤ 4096)) = true ↔ _
    cases r.getLsbD 65 <;> simp
  rw [hthreshold, hrate]
  exact ⟨fun ⟨⟨⟨⟨hclear, hmark⟩, hone⟩, hmax⟩, hzero⟩ => ⟨hmark, hclear, hone, hmax, hzero⟩,
    fun ⟨hmark, hclear, hone, hmax, hzero⟩ => ⟨⟨⟨⟨hclear, hmark⟩, hone⟩, hmax⟩, hzero⟩⟩

/-- No other opcode is defined. -/
theorem undefined_opcode (hop : recordNum r 0 1 ∉ [0x00, 0x01, 0x02, 0x03, 0x04, 0x05, 0x10, 0x11, 0x20, 0x21, 0x22, 0x23]) :
    fieldsOf r = none ∧ ¬ OpcodeFieldsFit r := by
  have hop' : (recordOpcode r).toNat ∉ [0x00, 0x01, 0x02, 0x03, 0x04, 0x05, 0x10, 0x11, 0x20, 0x21, 0x22, 0x23] := hop
  simp only [List.mem_cons, List.not_mem_nil, or_false, not_or] at hop hop'
  refine ⟨?_, ?_⟩
  · unfold fieldsOf
    dsimp only
    split <;> grind
  · unfold OpcodeFieldsFit
    grind

theorem judged_relocate (hop : recordNum r 0 1 = 0x23) :
    JudgedBy r (recordNum r 8 2 ≤ 511 ∧ BytesZero r 10 64) (.relocate (Fin.ofNat 512 (recordNum r 8 2))) := by
  have hop' : (recordOpcode r).toNat = 0x23 := hop
  unfold JudgedBy OpcodeFieldsFit commandAt fieldsOf
  simp only [hop, hop']
  refine ⟨by simp, trivial, checked_cases _ ?_⟩
  rw [Bool.and_eq_true, decide_eq_true_eq, reservedZero_iff_bytesZero (by decide)]
  rfl

/-- A record is judged by its opcode's row, and fails with no such row. -/
theorem fieldsOf_cases (r : BitVec 512) :
    (OpcodeFieldsFit r → fieldsOf r = some (commandAt r)) ∧ (¬ OpcodeFieldsFit r → fieldsOf r = none) := by
  have hjudged {fits : Prop} {cmd : Command} (hrow : JudgedBy r fits cmd) :
      (OpcodeFieldsFit r → fieldsOf r = some (commandAt r)) ∧ (¬ OpcodeFieldsFit r → fieldsOf r = none) := by
    obtain ⟨hfits, hcmd, hgood, hbad⟩ := hrow
    rw [hfits, hcmd]
    exact ⟨hgood, hbad⟩
  by_cases hop : recordNum r 0 1 ∈ [0x00, 0x01, 0x02, 0x03, 0x04, 0x05, 0x10, 0x11, 0x20, 0x21, 0x22, 0x23]
  · simp only [List.mem_cons, List.not_mem_nil, or_false] at hop
    rcases hop with hop | hop | hop | hop | hop | hop | hop | hop | hop | hop | hop | hop
    · exact hjudged (judged_nop hop)
    · exact hjudged (judged_read hop)
    · exact hjudged (judged_write hop)
    · exact hjudged (judged_fill hop)
    · exact hjudged (judged_copy hop)
    · exact hjudged (judged_scan hop)
    · exact hjudged (judged_acquire hop)
    · exact hjudged (judged_release hop)
    · exact hjudged (judged_mapQuery hop)
    · exact hjudged (judged_incidents hop)
    · exact hjudged (judged_tune hop)
    · exact hjudged (judged_relocate hop)
  · obtain ⟨hnone, hfits⟩ := undefined_opcode hop
    exact ⟨fun h => absurd h hfits, fun _ => hnone⟩

/-! ## The verdict (R115, R116) -/

theorem verdictOf_of_not_fit (h : ¬ (CommonFieldsFit r ∧ OpcodeFieldsFit r)) : verdictOf r = .answered .malformed := by
  unfold verdictOf
  by_cases hcommon : CommonFieldsFit r
  · rw [if_pos ((commonFieldsOk_iff r).mpr hcommon), (fieldsOf_cases r).2 fun hfits => h ⟨hcommon, hfits⟩]
  · exact if_neg (mt (commonFieldsOk_iff r).mp hcommon)

theorem passesStore_iff (x : Nat × Nat) : passesStore x = true ↔ 34359738368 < x.1 + x.2 := decide_eq_true_iff

theorem verdictOf_of_fit (hcommon : CommonFieldsFit r) (hfits : OpcodeFieldsFit r) :
    verdictOf r =
      match commandAt r with
      | .nop => .answered .ok
      | cmd => if (storeRanges cmd).any passesStore then .answered .range else .accepted cmd := by
  unfold verdictOf
  rw [if_pos ((commonFieldsOk_iff r).mpr hcommon), (fieldsOf_cases r).1 hfits]
  cases commandAt r <;> rfl

end

/-- Settles O40: the two tables of checks, then the ranges of the command laid down. -/
theorem recordsAreJudgedByFormThenRange : Obligations.RecordsAreJudgedByFormThenRange := by
  intro r num op host passes
  refine ⟨verdictOf_of_not_fit, fun hcommon hfits => ?_⟩
  rw [verdictOf_of_fit hcommon hfits]
  have hone (start : Nat) : [(start, num 16 4)].any passesStore = true ↔ passes start := by
    rw [List.any_cons, List.any_nil, Bool.or_false, passesStore_iff]
  have htwo (start other : Nat) : [(start, num 16 4), (other, num 16 4)].any passesStore = true ↔ passes start ∨ passes other := by
    rw [List.any_cons, Bool.or_eq_true, passesStore_iff, hone]
  have hcommand {fits : Prop} {cmd : Command} (hrow : JudgedBy r fits cmd) : commandAt r = cmd := by
    obtain ⟨-, hcmd, -⟩ := hrow
    exact hcmd
  refine ⟨fun hop => ?_, fun hlow hhigh hpasses => ?_, fun hstart => ⟨fun hop => ?_, fun hop => ?_, fun hop => ?_, fun hop hother => ?_,
    fun hop => ?_⟩, fun hop => ?_, fun hop => ?_, fun hop => ?_, fun hop => ?_, fun hop => ?_, fun hop => ?_⟩
  · rw [hcommand (judged_nop hop)]
  · obtain hop | hop | hop | hop | hop : op = 1 ∨ op = 2 ∨ op = 3 ∨ op = 4 ∨ op = 5 := by omega
    · rw [hcommand (judged_read hop)]
      exact if_pos ((hone _).mpr (hpasses.resolve_right fun ⟨hcopy, _⟩ => by omega))
    · rw [hcommand (judged_write hop)]
      exact if_pos ((hone _).mpr (hpasses.resolve_right fun ⟨hcopy, _⟩ => by omega))
    · rw [hcommand (judged_fill hop)]
      exact if_pos ((hone _).mpr (hpasses.resolve_right fun ⟨hcopy, _⟩ => by omega))
    · rw [hcommand (judged_copy hop)]
      exact if_pos ((htwo _ _).mpr (hpasses.imp_right And.right))
    · rw [hcommand (judged_scan hop)]
      exact if_pos ((hone _).mpr (hpasses.resolve_right fun ⟨hcopy, _⟩ => by omega))
  · rw [hcommand (judged_read hop)]
    exact if_neg (mt (hone _).mp hstart)
  · rw [hcommand (judged_write hop)]
    exact if_neg (mt (hone _).mp hstart)
  · rw [hcommand (judged_fill hop)]
    exact if_neg (mt (hone _).mp hstart)
  · rw [hcommand (judged_copy hop)]
    exact if_neg fun hany => ((htwo _ _).mp hany).elim hstart hother
  · rw [hcommand (judged_scan hop)]
    exact if_neg (mt (hone _).mp hstart)
  · rw [hcommand (judged_acquire hop)]
    rfl
  · rw [hcommand (judged_release hop)]
    rfl
  · rw [hcommand (judged_mapQuery hop)]
    rfl
  · rw [hcommand (judged_incidents hop)]
    rfl
  · rw [hcommand (judged_tune hop)]
    rfl
  · rw [hcommand (judged_relocate hop)]
    rfl

end Sys2Proof.Machine
end

section
/-! O41. The end of a record fetch (R112, R113, R115 to R117, R119, R120). -/

namespace Sys2Proof.Machine

/-! ## What an accepted record lays down (R115, R116) -/

section
variable {r : BitVec 512}

/-- A range of the store an accepted command may name: whole words, of a length within R115, inside the store. -/
def RangeInStore (x : Nat × Nat) : Prop :=
  x.1 % 8 = 0 ∧ x.2 % 8 = 0 ∧ 8 ≤ x.2 ∧ x.2 ≤ 16777216 ∧ x.1 + x.2 ≤ 34359738368

theorem accepted_fits {cmd : Command} (hverdict : verdictOf r = .accepted cmd) :
    OpcodeFieldsFit r ∧ commandAt r = cmd ∧ cmd ≠ .nop ∧ ∀ x ∈ storeRanges cmd, x.1 + x.2 ≤ 34359738368 := by
  by_cases hfit : CommonFieldsFit r ∧ OpcodeFieldsFit r
  · obtain ⟨hcommon, hfields⟩ := hfit
    rw [verdictOf_of_fit hcommon hfields] at hverdict
    split at hverdict
    · cases hverdict
    · rename_i hnop
      split at hverdict
      · cases hverdict
      · rename_i hranges
        obtain rfl := Verdict.accepted.inj hverdict
        refine ⟨hfields, rfl, hnop, fun x hx => ?_⟩
        by_contra hpasses
        exact hranges (List.any_eq_true.mpr ⟨x, hx, (passesStore_iff x).mpr (by omega)⟩)
  · rw [verdictOf_of_not_fit hfit] at hverdict
    cases hverdict

/-- An accepted transfer names whole words in the store, a COPY two ranges that share none, and every other command no range. -/
theorem accepted_ranges {cmd : Command} (hverdict : verdictOf r = .accepted cmd) :
    (∀ x ∈ storeRanges cmd, RangeInStore x) ∧ (∀ a n d, cmd = .copy a n d → a + n ≤ d ∨ d + n ≤ a) ∧ cmd ≠ .nop ∧ cmd ≠ .rejected := by
  obtain ⟨hfields, hcmd, hnop, hinside⟩ := accepted_fits hverdict
  have hone (hrange : RangeFits r) (hranges : storeRanges cmd = [(recordNum r 8 8, recordNum r 16 4)]) :
      ∀ x ∈ storeRanges cmd, RangeInStore x := by
    intro x hx
    have hle := hinside x hx
    rw [hranges] at hx
    obtain rfl := List.mem_singleton.mp hx
    obtain ⟨hstart, hlen, hmin, hmax⟩ := hrange
    exact ⟨hstart, hlen, hmin, hmax, hle⟩
  have hjudged {fits : Prop} {cmd' : Command} (hrow : JudgedBy r fits cmd') : fits ∧ cmd = cmd' := by
    obtain ⟨hfits, hcmd', -⟩ := hrow
    exact ⟨hfits.mp hfields, hcmd.symm.trans hcmd'⟩
  by_cases hop : recordNum r 0 1 ∈ [0x00, 0x01, 0x02, 0x03, 0x04, 0x05, 0x10, 0x11, 0x20, 0x21, 0x22, 0x23]
  · simp only [List.mem_cons, List.not_mem_nil, or_false] at hop
    rcases hop with hop | hop | hop | hop | hop | hop | hop | hop | hop | hop | hop | hop
    · exact absurd (hjudged (judged_nop hop)).2 hnop
    · obtain ⟨⟨hrange, -⟩, rfl⟩ := hjudged (judged_read hop)
      exact ⟨hone hrange rfl, nofun, nofun, nofun⟩
    · obtain ⟨⟨hrange, -⟩, rfl⟩ := hjudged (judged_write hop)
      exact ⟨hone hrange rfl, nofun, nofun, nofun⟩
    · obtain ⟨⟨hrange, -⟩, rfl⟩ := hjudged (judged_fill hop)
      exact ⟨hone hrange rfl, nofun, nofun, nofun⟩
    · obtain ⟨⟨hrange, hother, hapart, -⟩, rfl⟩ := hjudged (judged_copy hop)
      obtain ⟨hstart, hlen, hmin, hmax⟩ := hrange
      refine ⟨fun x hx => ?_, fun a n d hcopy => ?_, nofun, nofun⟩
      · have hle := hinside x hx
        obtain rfl | hx := List.mem_cons.mp hx
        · exact ⟨hstart, hlen, hmin, hmax, hle⟩
        · obtain rfl := List.mem_singleton.mp hx
          exact ⟨hother, hlen, hmin, hmax, hle⟩
      · obtain ⟨rfl, rfl, rfl⟩ := Command.copy.inj hcopy
        exact hapart
    · obtain ⟨⟨hrange, -⟩, rfl⟩ := hjudged (judged_scan hop)
      exact ⟨hone hrange rfl, nofun, nofun, nofun⟩
    · obtain ⟨-, rfl⟩ := hjudged (judged_acquire hop)
      exact ⟨nofun, nofun, nofun, nofun⟩
    · obtain ⟨-, rfl⟩ := hjudged (judged_release hop)
      exact ⟨nofun, nofun, nofun, nofun⟩
    · obtain ⟨-, rfl⟩ := hjudged (judged_mapQuery hop)
      exact ⟨nofun, nofun, nofun, nofun⟩
    · obtain ⟨-, rfl⟩ := hjudged (judged_incidents hop)
      exact ⟨nofun, nofun, nofun, nofun⟩
    · obtain ⟨-, rfl⟩ := hjudged (judged_tune hop)
      exact ⟨nofun, nofun, nofun, nofun⟩
    · obtain ⟨-, rfl⟩ := hjudged (judged_relocate hop)
      exact ⟨nofun, nofun, nofun, nofun⟩
  · exact absurd hfields (undefined_opcode hop).2

end

/-! ## The taking of a record (R112, R113) -/

section
variable {h : HostPort} {v : SetupValues} {c : CtxId} {r : BitVec 512}

/-- Port `h` with a record of command `cmd` taken into context `c` (R112, R113). -/
def recordTaken (v : SetupValues) (c : CtxId) (r : BitVec 512) (st : CtxState) (cmd : Command) (h : HostPort) : HostPort :=
  { h with
    sqHead := (h.sqHead + 1) % v.sqEntries, taken := h.taken + 1
    hold :=
      if (h.contexts.toList.filter fun x => x.state != .free).length + 1 = #v[16, 32, 48, 64][v.selector] then .paused else h.hold
    contexts := h.contexts.set c ⟨st, h.taken, r, cmd⟩ }

theorem occupyContext_eq (hfree : (h.contexts[c]).state = .free) {st : CtxState} {cmd : Command}
    (htaken : takenContext r h.taken = ⟨st, h.taken, r, cmd⟩) : occupyContext v c r h = recordTaken v c r st cmd h := by
  have hused : (occupyContext v c r h).inUse = h.inUse + 1 := inUse_set_used c _ h hfree (takenContext_used r h.taken)
  have hcount : (h.contexts.toList.filter fun x => x.state != .free).length = h.inUse := contextsUsed_eq h
  have hhold : (occupyContext v c r h).hold = if (occupyContext v c r h).inUse = pauseMark v.selector then .paused else h.hold := rfl
  rw [hused, pauseMark_eq] at hhold
  unfold recordTaken
  rw [hcount, ← hhold, ← htaken]
  rfl

/-- A record answered at once is DONE in its context. -/
theorem takenContext_of_answered {st : Status} (hverdict : verdictOf r = .answered st) (place : Nat) :
    ∃ cmd, takenContext r place = ⟨.done, place, r, cmd⟩ := by
  unfold takenContext
  rw [hverdict]
  split
  · rename_i heq
    cases heq
  · exact ⟨.nop, rfl⟩
  · exact ⟨.rejected, rfl⟩

theorem takenContext_of_accepted {cmd : Command} (hverdict : verdictOf r = .accepted cmd) (place : Nat) :
    takenContext r place = ⟨.waiting, place, r, cmd⟩ := by
  unfold takenContext
  rw [hverdict]

theorem lowestFree_of_lowest (hfree : (h.contexts[c]).state = .free) (hlower : ∀ d : CtxId, d < c → (h.contexts[d]).state ≠ .free) :
    lowestFree h = some c := by
  have hall : (List.range' 0 64).map (Fin.ofNat 64) = List.finRange 64 := by decide
  unfold lowestFree
  rw [hall]
  exact find?_finRange_of_lowest (by simpa using hfree) fun d hd => by simpa using hlower d hd

theorem takeRecord_of_answered {st : Status} (hverdict : verdictOf r = .answered st) :
    takeRecord v c r h = handCompletion c st .none (occupyContext v c r h) := by
  unfold takeRecord
  rw [hverdict]

theorem takeRecord_of_accepted {cmd : Command} (hverdict : verdictOf r = .accepted cmd) :
    takeRecord v c r h = advance { occupyContext v c r h with workList := h.workList ++ [c] } := by
  unfold takeRecord
  rw [hverdict]
  rfl

/-- The test of the work list leaves each context its record and its place. -/
theorem HeadsRun.record {q k : HostPort} {gone : List CtxId} (hheads : HeadsRun q k gone) (d : CtxId) :
    (k.contexts[d]).record = (q.contexts[d]).record ∧ (k.contexts[d]).place = (q.contexts[d]).place := by
  obtain ⟨-, -, hcontexts, -⟩ := hheads
  rw [hcontexts]
  split <;> exact ⟨rfl, rfl⟩

/-- What a context shows of the record it keeps (R117, R121). -/
theorem context_of_record {x : Context} (hrecord : x.record = r) :
    x.tag = r.extractLsb' 16 16 ∧ x.opcode = r.extractLsb' 0 8 ∧ x.flags = r.extractLsb' 8 8 ∧
      x.guard = if r.getLsbD 10 then some (Fin.ofNat 256 (r.extractLsb' 32 16).toNat, r.extractLsb' 48 16) else none := by
  subst hrecord
  refine ⟨rfl, rfl, rfl, ?_⟩
  unfold Context.guard recordGuard
  rw [flagGuard_eq]
  rfl

end

/-! ## The row (R112) -/

section
variable {p : PortId} {s : State} (hfetch : (s.port p).fetch.isSome = true)
include hfetch

theorem exec_recordFetchDone_of_not_running (record : Option (BitVec 512)) (hstate : (s.port p).state ≠ .running) :
    exec (.recordFetchDone p record) s = .next (s.setPort p { s.port p with fetch := none }) := by
  show execRecordFetchDone p record s = _
  rw [execRecordFetchDone, if_pos hfetch, if_neg hstate, modPort_eq]

theorem exec_recordFetchDone_of_failed (hstate : (s.port p).state = .running) :
    exec (.recordFetchDone p none) s = .next (faultPort p .fetchError (s.setPort p { s.port p with fetch := none })) := by
  show execRecordFetchDone p none s = _
  rw [execRecordFetchDone, if_pos hfetch, if_pos hstate, modPort_eq]

theorem exec_recordFetchDone_of_record {v : SetupValues} {c : CtxId} (hstate : (s.port p).state = .running)
    (hv : (s.port p).values = some v) (hfree : lowestFree (s.port p) = some c) (r : BitVec 512) :
    exec (.recordFetchDone p (some r)) s = .next (s.setPort p (takeRecord v c r { s.port p with fetch := none })) := by
  show execRecordFetchDone p (some r) s = _
  rw [execRecordFetchDone, if_pos hfetch, if_pos hstate]
  simp only [hv, hfree, modPort_eq, port_setPort_same, setPort_setPort]

end

/-- Settles O41: the record is in its context by `occupyContext`, and its verdict says what follows. -/
theorem fetchedRecordIsTaken : Obligations.FetchedRecordIsTaken := by
  intro p s record hfetch h s1
  refine ⟨exec_recordFetchDone_of_not_running hfetch record, fun hstate => ⟨?_, ?_⟩⟩
  · rintro rfl
    exact ⟨_, exec_recordFetchDone_of_failed hfetch hstate, faultPort_entered ..⟩
  · rintro r v c rfl hv hfree hlower used hold taking
    refine ⟨_, exec_recordFetchDone_of_record hfetch hstate hv (lowestFree_of_lowest hfree hlower) r, onlyPort_setPort .., ?_⟩
    rw [port_setPort_same]
    cases hverdict : verdictOf r with
    | answered st =>
      obtain ⟨cmd, htaken⟩ := takenContext_of_answered hverdict h.taken
      rw [takeRecord_of_answered hverdict, occupyContext_eq hfree htaken]
      have hhanded : CompletionHanded c st .none (taking .done cmd) (handCompletion c st .none (taking .done cmd)) :=
        handCompletion_handed c st .none _ (by simp [HostPort.inService, taking, hstate])
      obtain ⟨-, ⟨gone, hheads⟩, -⟩ := id hhanded
      obtain ⟨hrecord, hplace⟩ := hheads.record c
      rw [getElem_set_fin, if_pos rfl] at hrecord hplace
      have htaking : (taking .done cmd).contexts[c] = ⟨.done, h.taken, r, cmd⟩ :=
        (getElem_set_fin h.contexts c c _).trans (if_pos rfl)
      rw [htaking] at hrecord hplace
      obtain ⟨htag, hopcode, hflags, hguard⟩ := context_of_record hrecord
      exact ⟨hrecord, hplace, htag, hopcode, hflags, hguard, cmd, hhanded⟩
    | accepted cmd =>
      rw [takeRecord_of_accepted hverdict, occupyContext_eq hfree (takenContext_of_accepted hverdict h.taken)]
      let listed : HostPort := { taking .waiting cmd with workList := h.workList ++ [c] }
      obtain ⟨gone, hheads⟩ := advance_run listed
      have hframe := advance_frame listed
      obtain ⟨hrecord, hplace⟩ := hheads.record c
      obtain ⟨hgone, -, hcontexts, -⟩ := id hheads
      have htaking (d : CtxId) : listed.contexts[d] = if d = c then ⟨.waiting, h.taken, r, cmd⟩ else h.contexts[d] :=
        getElem_set_fin h.contexts c d _
      rw [htaking, if_pos rfl] at hrecord hplace
      obtain ⟨htag, hopcode, hflags, hguard⟩ := context_of_record hrecord
      obtain ⟨hranges, hcopy, hnop, hrejected⟩ := accepted_ranges hverdict
      refine ⟨hrecord, hplace, htag, hopcode, hflags, hguard, hranges, hcopy, hnop, hrejected, hframe, gone, hheads, hgone,
        fun d hd => ?_, fun hc => ?_, fun d hd hdc => ?_⟩
      · refine (congrArg Context.state (hcontexts d)).trans ?_
        rw [if_pos hd]
      · exact (hcontexts c).trans ((if_neg hc).trans ((htaking c).trans (if_pos rfl)))
      · exact (hcontexts d).trans ((if_neg hd).trans ((htaking d).trans (if_neg hdc)))

end Sys2Proof.Machine
end

section
/-! O44, O45. The host reads of a transfer that end: the scatter list and the data of a WRITE (R129, R130, R134, R136, R144 to
R146). -/

namespace Sys2Proof.Machine

/-! ## The data of a read -/

/-- Data of the length asked for is taken as it is. -/
theorem map_getD_range' {α : Type} (l : List α) (d : α) : ((List.range' 0 l.length).map fun k => l.getD k d) = l := by
  refine List.ext_getElem (by simp) fun k hk hl => ?_
  simp [hl]

/-! ## A transfer that stops (R129, R136) -/

/-- A transfer that a failed host read, or a list that fails its checks, has stopped. -/
def stoppedBy (e : Ending) (x : Transfer) : Transfer :=
  { x with phase := .finishing, ending := some e, gathered := [], staged := none }

section
variable {i : SlotId} {h : HostPort} {x : Transfer} {e : Ending}

theorem endEarly_eq :
    endEarly i e x (setSlotRead i none h) =
      if x.outstanding = 0 then
        handCompletion x.ctx (stoppedBy e x).status (stoppedBy e x).results
          { h with slotReads := h.slotReads.set i none, slots := h.slots.set i none }
      else { h with slotReads := h.slotReads.set i none, slots := h.slots.set i (some (stoppedBy e x)) } := by
  let k := setSlot i (some (stoppedBy e x)) (setSlotRead i none h)
  have hslot : k.slots[i] = some (stoppedBy e x) := by simp [k, setSlot]
  have hread : k.slotReads[i] = none := by simp [k, setSlot, setSlotRead]
  have hfreed : setSlot i none k = { h with slotReads := h.slotReads.set i none, slots := h.slots.set i none } := by
    simp [k, setSlot, setSlotRead]
  have hends : ((stoppedBy e x).phase = .finishing ∧ (stoppedBy e x).outstanding = 0 ∧ k.slotReads[i] = none) ↔
      x.outstanding = 0 := ⟨fun hall => hall.2.1, fun hidle => ⟨rfl, hidle, hread⟩⟩
  show endIfDone i k = _
  rw [endIfDone_of_slot hslot, hfreed, if_congr hends rfl rfl]
  rfl

theorem stoppedBy_results (hdecision : x.decision = none) :
    (stoppedBy e x).results =
      .transfer ⟨coveredBytes (rangeOf x.cmd).1 (rangeOf x.cmd).2 x.next, x.corrected, x.bad, x.firstBad, none⟩ := by
  have hfound : (stoppedBy e x).found = none := (transfer_found_cases (stoppedBy e x)).2 (.inl hdecision)
  rw [Transfer.results, hfound]
  rfl

end

/-! ## Scatter lists (R129) -/

/-- A scatter entry passes its checks (R129, section 11.2). -/
def EntryPasses (e : BitVec 128) : Prop :=
  (e.extractLsb' 0 64).toNat % 8 = 0 ∧ (e.extractLsb' 64 32).toNat % 8 = 0 ∧ 8 ≤ (e.extractLsb' 64 32).toNat ∧
    e.extractLsb' 96 32 = 0#32

theorem scatterEntryOk_iff (e : BitVec 128) : scatterEntryOk e = true ↔ EntryPasses e := by
  have hreserved : reservedZero e 12 16 = true ↔ e.extractLsb' 96 32 = 0#32 := by
    rw [reservedZero, beq_iff_eq]
    exact BitVec.toNat_inj (y := 0#32)
  rw [scatterEntryOk, Bool.and_eq_true, Bool.and_eq_true, Bool.and_eq_true, beq_iff_eq, beq_iff_eq, decide_eq_true_eq, hreserved,
    and_assoc, and_assoc]
  rfl

section
variable {l : List (BitVec 128)} {len : Nat}

theorem lengths_sum_mod (hgood : ∀ e ∈ l, EntryPasses e) : (l.map fun e => (scatterEntryOf e).2).sum % 8 = 0 := by
  refine Nat.mod_eq_zero_of_dvd (List.dvd_sum fun m hm => ?_)
  obtain ⟨e, he, rfl⟩ := List.mem_map.mp hm
  obtain ⟨-, hlength, -⟩ := hgood e he
  exact Nat.dvd_of_mod_eq_zero hlength

theorem listFault_of_malformed (hbad : (∃ e ∈ l, ¬ EntryPasses e) ∨ (l.map fun e => (scatterEntryOf e).2).sum ≠ len) :
    listFault len l = some .malformed := by
  unfold listFault
  split
  · rfl
  · rename_i hall
    refine if_pos (hbad.resolve_left fun ⟨e, he, hfails⟩ => hfails ?_)
    rw [Bool.not_eq_true, Bool.not_eq_false', List.all_eq_true] at hall
    exact (scatterEntryOk_iff e).mp (hall e he)

theorem listFault_of_good (hgood : ∀ e ∈ l, EntryPasses e) (hsum : (l.map fun e => (scatterEntryOf e).2).sum = len) :
    listFault len l = none := by
  have hall : l.all scatterEntryOk = true := List.all_eq_true.mpr fun e he => (scatterEntryOk_iff e).mpr (hgood e he)
  rw [listFault, hall, if_neg (by simp), if_neg (not_not.mpr hsum)]

end

/-! ## The first piece of a WRITE (R130, R134) -/

/-- The first piece of a WRITE begins at the host address of its first entry. -/
theorem piecesOf_begins {a n : Nat} {e : Nat × Nat} {es : List (Nat × Nat)} (ha : a % 8 = 0) (hn : n % 8 = 0) (h8 : 8 ≤ e.2)
    (hsum : ((e :: es).map Prod.snd).sum = n) : ∃ q qs, piecesOf (e :: es) a n 0 = q :: qs ∧ q.addr = e.1 := by
  have hlong : 8 ≤ n := by
    rw [← hsum, List.map_cons, List.sum_cons]
    omega
  obtain ⟨hwords, -, hpieces⟩ := piecesOf_are (e :: es) a n 0 hsum
  obtain ⟨m, hm⟩ : ∃ m, min (8 - a / 8 % 8) (n / 8) = m + 1 := ⟨min (8 - a / 8 % 8) (n / 8) - 1, by omega⟩
  rw [wordsOfLine_val, coveredWords_first ha hn, hm, List.range'_succ] at hwords
  match hlist : piecesOf (e :: es) a n 0 with
  | [] => simp [hlist] at hwords
  | q :: qs =>
    obtain ⟨first, more, f, hq, hentry, haddr, hinside⟩ := hpieces q (hlist ▸ List.mem_cons_self ..)
    have hhead : first = a / 8 % 8 := by
      rw [hlist, List.flatMap_cons, hq, List.cons_append] at hwords
      exact (List.cons.inj hwords).1
    have hstart : wordAddress a 0 first = a := by
      rw [hhead, wordAddress]
      omega
    obtain ⟨hoffset, -⟩ := hinside first (hq ▸ List.mem_cons_self ..)
    rw [hstart, Nat.sub_self] at hoffset haddr
    have hzero : q.entry = 0 := by
      cases hk : q.entry with
      | zero => rfl
      | succ k =>
        rw [hk, entryOffset, List.take_succ_cons, List.map_cons, List.sum_cons] at hoffset
        omega
    rw [hzero] at hentry
    obtain rfl : e = f := Option.some.inj hentry
    exact ⟨q, qs, rfl, by rw [haddr, Nat.zero_sub, Nat.add_zero]⟩

/-- The first host-data read of a WRITE begins at the host address of its first entry. -/
theorem pieceRead_begins {x : Transfer} {a n : Nat} {side : HostSide} {e : Nat × Nat} {es : List (Nat × Nat)}
    (hcmd : x.cmd = .write a n side) (hphase : x.phase = .moving) (hnext : x.next = 0) (hpiece : x.piece = 0)
    (hentries : x.entries = e :: es) (ha : a % 8 = 0) (hn : n % 8 = 0) (h8 : 8 ≤ e.2)
    (hsum : ((e :: es).map Prod.snd).sum = n) : ∃ words, x.pieceRead = some (.data e.1 words) := by
  obtain ⟨q, qs, hpieces, haddr⟩ := piecesOf_begins ha hn h8 hsum
  have hmore : x.next < x.lineCount := by
    rw [hnext, Transfer.lineCount, hcmd]
    exact Nat.succ_pos _
  exact ⟨_, haddr ▸ pieceRead_of_first_piece hcmd hphase hmore hpiece (by rw [hentries, hnext, hpieces])⟩

/-! ## The end of a scatter-list read (R129) -/

section
variable {i : SlotId} {h : HostPort} {x : Transfer} {l : List (BitVec 128)}

theorem takeList_of_free (hslot : h.slots[i] = none) (count : Nat) (list : Option (List (BitVec 128))) :
    takeList i count list h = { h with slotReads := h.slotReads.set i none } := by
  unfold takeList
  rw [hslot]
  rfl

theorem takeList_of_failed (hslot : h.slots[i] = some x) (count : Nat) :
    takeList i count none h = endEarly i .hostFault x (setSlotRead i none h) := by
  unfold takeList
  rw [hslot]

theorem takeList_of_fault {e : Ending} (hslot : h.slots[i] = some x) (hfault : listFault (rangeOf x.cmd).2 l = some e) :
    takeList i l.length (some l) h = endEarly i e x (setSlotRead i none h) := by
  have hentries : listEntries l.length l = l := map_getD_range' l 0
  unfold takeList
  rw [hslot]
  dsimp only
  rw [hentries, hfault]

/-- A good list is kept in the slot, which enters MOVING. -/
theorem takeList_of_good (hslot : h.slots[i] = some x) (hgood : listFault (rangeOf x.cmd).2 l = none) :
    let y : Transfer := { x with phase := .moving, entries := l.map scatterEntryOf }
    takeList i l.length (some l) h = slotGoesOn i y y.pieceRead h := by
  have hentries : listEntries l.length l = l := map_getD_range' l 0
  unfold takeList
  rw [hslot]
  dsimp only
  rw [hentries, hgood]
  simp [enterMoving, setSlot, setSlotRead, slotGoesOn]

theorem exec_scatterListReadDone {p : PortId} {s : State} {addr count : Nat}
    (hread : (s.port p).slotReads[i] = some (.list addr count)) (list : Option (List (BitVec 128))) :
    exec (.scatterListReadDone p i list) s = .next (s.setPort p (takeList i count list (s.port p))) := by
  show execScatterListReadDone p i list s = _
  rw [execScatterListReadDone, hread]
  rfl

end

/-- Settles O44: a list that fails its checks stops the transfer with nothing done, and a good one starts it. -/
theorem scatterListStartsOrEndsItsTransfer : Obligations.ScatterListStartsOrEndsItsTransfer := by
  intro p s i addr count list h hread hlength ended
  rw [exec_scatterListReadDone hread]
  refine ⟨fun hslot => by rw [takeList_of_free hslot], ?_⟩
  intro x hslot ends good entry
  have hends (e : Ending) (htaken : takeList i count list h = endEarly i e x (setSlotRead i none h)) :
      ends (stoppedBy e x).status := by
    intro hidle hnext hcorrected hbad hfirst hdecision
    refine ⟨_, rfl, onlyPort_setPort .., ?_⟩
    have hresults : (stoppedBy e x).results = .transfer ⟨0, 0, 0, none, none⟩ := by
      rw [stoppedBy_results hdecision, hnext, hcorrected, hbad, hfirst]
      rfl
    rw [port_setPort_same, htaken, endEarly_eq, if_pos hidle, hresults]
    exact handCompletion_taken ..
  refine ⟨?_, ?_⟩
  · rintro rfl
    exact hends .hostFault (takeList_of_failed hslot count)
  · rintro l rfl
    obtain rfl : l.length = count := hlength l rfl
    refine ⟨fun hbad => hends .malformed (takeList_of_fault hslot (listFault_of_malformed hbad)), fun hgood hsum => ?_⟩
    refine ⟨_, rfl, onlyPort_setPort .., ?_⟩
    rw [port_setPort_same, takeList_of_good hslot (listFault_of_good hgood hsum)]
    have hread' (y : Transfer) (read : Option SlotRead) : (slotGoesOn i y read h).slotReads[i] = read := by simp [slotGoesOn]
    rw [hread']
    refine ⟨rfl, fun hwrite => pieceRead_of_not_write hwrite, ?_⟩
    intro a n side e es hcmd ha hnext hpiece hl
    subst hl
    have hn : (rangeOf x.cmd).2 = n := by rw [hcmd]; rfl
    rw [hn] at hsum
    obtain ⟨-, -, hlong, -⟩ := hgood e (List.mem_cons_self ..)
    exact pieceRead_begins hcmd rfl hnext hpiece rfl ha (hsum ▸ lengths_sum_mod hgood) hlong
      ((congrArg List.sum (List.map_map (l := e :: es))).trans hsum)

/-! ## The end of a host-data read (R134, R136) -/

section
variable {i : SlotId} {h : HostPort} {x : Transfer} {a n : Nat} {side : HostSide} {ws : List Word}

theorem takeData_of_free (hslot : h.slots[i] = none) (count : Nat) (words : Option (List Word)) :
    takeData i count words h = { h with slotReads := h.slotReads.set i none } := by
  unfold takeData
  rw [hslot]
  rfl

theorem takeData_of_failed (hslot : h.slots[i] = some x) (count : Nat) :
    takeData i count none h = endEarly i .hostFault x (setSlotRead i none h) := by
  unfold takeData
  rw [hslot]

theorem takeData_of_words (hslot : h.slots[i] = some x) (hcmd : x.cmd = .write a n side) (ws : List Word) :
    takeData i ws.length (some ws) h =
      if x.piece + 1 < (piecesOf x.entries a n x.next).length then
        let u : Transfer := { x with piece := x.piece + 1, gathered := x.gathered ++ ws }
        slotGoesOn i u u.pieceRead h
      else
        slotGoesOn i
          { x with piece := 0, gathered := [], staged := some (stageLine a n x.next (x.gathered ++ ws)) } none h := by
  have hstart : (rangeOf x.cmd).1 = a := by rw [hcmd]; rfl
  have hlen : (rangeOf x.cmd).2 = n := by rw [hcmd]; rfl
  unfold takeData
  rw [hslot]
  dsimp only
  rw [hstart, hlen, map_getD_range']
  split
  · simp [setSlot, setSlotRead, slotGoesOn]
  · rfl

theorem pieceRead_of_piece {q : Piece} (hcmd : x.cmd = .write a n side) (hphase : x.phase = .moving)
    (hnext : x.next < x.lineCount) (hq : (piecesOf x.entries a n x.next)[x.piece]? = some q) :
    x.pieceRead = some (.data q.addr q.words.length) := by
  simp [Transfer.pieceRead, hcmd, hphase, hnext, hq]

/-- The words gathered stand at the covered words in ascending order: on the first line the words before the start are skipped. -/
theorem stageLine_get {w : Fin 8} {k : Nat} {got : List Word} {y : Word} (ha : a % 8 = 0)
    (hstart : (if k = 0 then a / 8 % 8 else 0) ≤ w.val) (hend : wordAddress a k w.val < a + n)
    (hy : got[w.val - if k = 0 then a / 8 % 8 else 0]? = some y) : (stageLine a n k got).get w = y := by
  have hcovered : covered a n k w.val = true := by
    refine (covered_iff a n k w.val).mpr ⟨?_, hend⟩
    unfold wordAddress
    split at hstart <;> omega
  show (tabulate 8 _)[w.val] = y
  rw [getElem_tabulate, if_pos hcovered, List.getD_eq_getElem?_getD, hy]
  rfl

theorem exec_hostDataReadDone {p : PortId} {s : State} {addr count : Nat}
    (hread : (s.port p).slotReads[i] = some (.data addr count)) (words : Option (List Word)) :
    exec (.hostDataReadDone p i words) s = .next (s.setPort p (takeData i count words (s.port p))) := by
  show execHostDataReadDone p i words s = _
  rw [execHostDataReadDone, hread]
  rfl

end

/-- Settles O45: the words of a piece go on to the next piece or stage the line, and a failed read stops the WRITE. -/
theorem hostDataStagesALineOrStopsTheWrite : Obligations.HostDataStagesALineOrStopsTheWrite := by
  intro p s i addr count words h hread hlength ended
  rw [exec_hostDataReadDone hread]
  refine ⟨fun hslot => by rw [takeData_of_free hslot], ?_⟩
  intro x a n side hslot hcmd hphase hnext pieces stopped
  refine ⟨piecesOf_are x.entries a n x.next, ?_, ?_, ?_⟩
  · rintro rfl hbusy
    rw [takeData_of_failed hslot, endEarly_eq, if_neg hbusy]
    rfl
  · rintro rfl hidle hdecision
    refine ⟨_, rfl, onlyPort_setPort .., ?_⟩
    rw [port_setPort_same, takeData_of_failed hslot, endEarly_eq, if_pos hidle, stoppedBy_results hdecision, hcmd]
    exact handCompletion_taken ..
  · rintro ws rfl
    obtain rfl : ws.length = count := hlength ws rfl
    rw [takeData_of_words hslot hcmd]
    refine ⟨fun q hq => ?_, fun hlast => ⟨_, by rw [if_neg (Nat.not_lt.mpr hlast)]; rfl, ?_⟩⟩
    · have hmore : x.piece + 1 < pieces.length := (List.getElem?_eq_some_iff.mp hq).1
      rw [if_pos hmore]
      dsimp only
      rw [pieceRead_of_piece (by exact hcmd) (by exact hphase) (by exact hnext) (by exact hq)]
      rfl
    · rintro w skipped ha rfl hstart hend y hy
      exact stageLine_get ha hstart hend hy

end Sys2Proof.Machine
end

section
/-! O47, O48. What the kinds of transfer do with the result of a line: the words counted, the host writes, and the examination of
a SCAN (R126, R130, R131, R133, R137, R139, R140, R142). -/

namespace Sys2Proof.Machine

/-! ## Words counted (R142) -/

/-- The covered words of a line's result, ascending, each with its offset in the range (R126, R131). -/
def lineWords (start len i : Nat) (r : LineResult) : List (Nat × WordResult) :=
  (wordsOfLine start len i).map fun w => (wordAddress start i w.val - start, r[w])

theorem lineWords_eq (start len i : Nat) (r : LineResult) :
    lineWords start len i r = (coveredWords start len i).map fun w => (offsetOf start i w, resultWord r w) := by
  rw [lineWords, ← wordsOfLine_val, List.map_map]
  refine List.map_congr_left fun w _ => ?_
  simp only [Function.comp, resultWord, Fin.ofNat_val_eq_self]
  rfl

/-- How many of some words are CORRECTED. -/
def correctedCount (l : List (Nat × WordResult)) : Nat := (l.filter fun v => decide (v.2.outcome = .corrected)).length

/-- The offsets of the bad ones of some words. -/
def badOffsets (l : List (Nat × WordResult)) : List Nat :=
  (l.filter fun v => decide (v.2.outcome = .uncorrectable ∨ v.2.outcome = .poisoned)).map Prod.fst

/-- A transfer that has counted some words (R142). -/
def wordsCounted (l : List (Nat × WordResult)) (t : Transfer) : Transfer :=
  { t with
    corrected := t.corrected + correctedCount l
    bad := t.bad + (badOffsets l).length
    firstBad := (t.firstBad.toList ++ badOffsets l).min? }

section
variable (v : Nat × WordResult) (l : List (Nat × WordResult)) (t : Transfer)

theorem badOffsets_of_none {l : List (Nat × WordResult)}
    (hgood : ∀ v ∈ l, ¬ (v.2.outcome = .uncorrectable ∨ v.2.outcome = .poisoned)) : badOffsets l = [] := by
  rw [badOffsets, List.map_eq_nil_iff, List.filter_eq_nil_iff]
  exact fun v hv => by simpa using hgood v hv

theorem badOffsets_of_bad {v : Nat × WordResult} (hbad : v.2.outcome = .uncorrectable ∨ v.2.outcome = .poisoned) :
    badOffsets [v] = [v.1] := by
  simp [badOffsets, hbad]

/-- Words of which none is bad raise the count of CORRECTED words alone. -/
theorem wordsCounted_of_good {l : List (Nat × WordResult)} (hgood : badOffsets l = []) :
    wordsCounted l t = { t with corrected := t.corrected + correctedCount l } := by
  have hfirst : (t.firstBad.toList ++ []).min? = t.firstBad := by cases t.firstBad <;> rfl
  rw [wordsCounted, hgood, hfirst]
  rfl

theorem wordsCounted_nil : wordsCounted [] t = t := wordsCounted_of_good t rfl

theorem badOffsets_append (m : List (Nat × WordResult)) : badOffsets (l ++ m) = badOffsets l ++ badOffsets m := by
  rw [badOffsets, List.filter_append, List.map_append]
  rfl

/-- The lowest bad offset may be taken word by word. -/
theorem min?_firstBad (o : Nat) (os : List Nat) :
    ((countWord.bad o t).firstBad.toList ++ os).min? = (t.firstBad.toList ++ o :: os).min? := by
  unfold countWord.bad
  cases t.firstBad with
  | none => rfl
  | some f =>
    show (min f o :: os).min? = (f :: o :: os).min?
    rw [List.min?_cons', List.min?_cons', List.foldl_cons]

/-- A bad word first among some. -/
theorem wordsCounted_cons_bad (o : Nat) :
    ({ t with
        corrected := t.corrected + correctedCount l
        bad := t.bad + ((badOffsets l).length + 1)
        firstBad := (t.firstBad.toList ++ o :: badOffsets l).min? } : Transfer) =
      wordsCounted l (countWord.bad o t) := by
  rw [← min?_firstBad, ← Nat.add_assoc, Nat.add_right_comm]
  rfl

theorem wordsCounted_cons : wordsCounted (v :: l) t = wordsCounted l (countWord v.1 v.2.outcome t) := by
  obtain ⟨o, outcome, data⟩ := v
  cases outcome with
  | clean => rfl
  | corrected =>
    have hone : t.corrected + (correctedCount l + 1) = t.corrected + 1 + correctedCount l := by omega
    exact congrArg (fun k => ({ wordsCounted l t with corrected := k } : Transfer)) hone
  | poisoned => exact wordsCounted_cons_bad l t o
  | uncorrectable => exact wordsCounted_cons_bad l t o

theorem foldl_countWord : l.foldl (fun t v => countWord v.1 v.2.outcome t) t = wordsCounted l t := by
  induction l generalizing t with
  | nil => exact (wordsCounted_nil t).symm
  | cons v l ih => rw [List.foldl_cons, ih, wordsCounted_cons]

theorem countLine_eq (start len i : Nat) (r : LineResult) : countLine start len i r t = wordsCounted (lineWords start len i r) t := by
  rw [countLine, ← foldl_countWord, lineWords_eq, List.foldl_map]

/-- The counts of a line over the numbers of its covered words. -/
theorem lineWords_counts (start len i : Nat) (r : LineResult) :
    let words := wordsOfLine start len i
    let bad := words.filter fun w => decide (r[w].outcome = .uncorrectable ∨ r[w].outcome = .poisoned)
    correctedCount (lineWords start len i r) = (words.filter fun w => decide (r[w].outcome = .corrected)).length ∧
      badOffsets (lineWords start len i r) = bad.map fun w => wordAddress start i w.val - start := by
  intro words bad
  constructor
  · rw [correctedCount, lineWords, List.filter_map, List.length_map]
    rfl
  · rw [badOffsets, lineWords, List.filter_map, List.map_map]
    rfl

end

/-! ## The result by kind (R133, R137, R139) -/

section
variable {x : Transfer} {a n : Nat} (i : Nat) (r : LineResult)

/-- A transfer with the reference that has returned no longer outstanding. -/
def returned (x : Transfer) : Transfer := { x with outstanding := x.outstanding - 1 }

theorem takeResult_of_no_line (x : Transfer) : x.takeResult i none = (returned x, []) := by
  obtain ⟨_, cmd⟩ := x
  cases cmd <;> rfl

theorem takeResult_of_read {side : HostSide} (hcmd : x.cmd = .read a n side) :
    x.takeResult i (some r) = (countLine a n i r (returned x), readWrites x.entries a n i r) := by
  cases x
  cases hcmd
  rfl

theorem takeResult_of_copy {d : Nat} (hcmd : x.cmd = .copy a n d) :
    x.takeResult i (some r) = ({ countLine a n i r (returned x) with lines := x.lines ++ [(i, r)] }, []) := by
  cases x
  cases hcmd
  rfl

theorem takeResult_of_scan {pattern mask : Word} (hcmd : x.cmd = .scan a n pattern mask) :
    x.takeResult i (some r) = (scanResult a n pattern mask i r (returned x), []) := by
  cases x
  cases hcmd
  rfl

end

/-- Settles O47: a READ and a COPY count the words of the line, and a WRITE_LINE's result lowers the lines outstanding alone. -/
theorem transferTakesTheResultOfItsLine : Obligations.TransferTakesTheResultOfItsLine := by
  intro i x taken
  refine ⟨takeResult_of_no_line i x, ?_⟩
  intro r a n words bad counted
  have hcounted : countLine a n i r (returned x) = counted := by
    obtain ⟨hcorrected, hbad⟩ := lineWords_counts a n i r
    rw [countLine_eq, wordsCounted, hcorrected, hbad, List.length_map]
    rfl
  refine ⟨fun side hcmd hsum => ⟨_, piecesOf_are x.entries a n i hsum, ?_⟩, fun d hcmd => ?_⟩
  · rw [takeResult_of_read i r hcmd, hcounted]
    rfl
  · rw [takeResult_of_copy i r hcmd, hcounted]

/-! ## Words examined (R139) -/

section
variable (pattern mask : Word)

/-- A word decides a SCAN: it is bad, or it matches (R139). -/
def decidesScan (x : WordResult) : Bool := x.outcome.isBad || wordMatches pattern mask x.data

/-- The decision of a SCAN by the word that decides it. -/
def decisionBy (v : Nat × WordResult) : Decision := if v.2.outcome.isBad then .bad v.1 else .matched v.1

/-- A SCAN that has examined some words, up to the deciding word: `examineWords` of the words of any lines. -/
def examine : List (Nat × WordResult) → Transfer → Transfer
  | [], t => t
  | v :: vs, t =>
    if decidesScan pattern mask v.2 then { countWord v.1 v.2.outcome t with decision := some (decisionBy v) }
    else examine vs (countWord v.1 v.2.outcome t)

theorem wordMatches_iff (d : Word) :
    wordMatches pattern mask d = true ↔
      ∀ b : Fin 64, mask.getLsbD b.val = true → d.getLsbD b.val = pattern.getLsbD b.val := by
  have hbit (b : Nat) : ((d ^^^ pattern) &&& mask).getLsbD b = false ↔
      (mask.getLsbD b = true → d.getLsbD b = pattern.getLsbD b) := by
    rw [BitVec.getLsbD_and, BitVec.getLsbD_xor]
    cases mask.getLsbD b <;> simp
  rw [wordMatches, beq_iff_eq]
  constructor
  · intro hzero b
    rw [← hbit, hzero, BitVec.getLsbD_zero]
  · intro hall
    refine BitVec.eq_of_getLsbD_eq fun b hb => ?_
    rw [BitVec.getLsbD_zero, (hbit b).mpr (hall ⟨b, hb⟩)]

theorem decidesScan_iff (x : WordResult) :
    decidesScan pattern mask x = true ↔
      (x.outcome = .uncorrectable ∨ x.outcome = .poisoned) ∨
        ∀ b : Fin 64, mask.getLsbD b.val = true → x.data.getLsbD b.val = pattern.getLsbD b.val := by
  rw [decidesScan, Bool.or_eq_true, WordOutcome.isBad_iff, wordMatches_iff]

theorem examineWords_eq (start i : Nat) (r : LineResult) (ws : List Nat) (t : Transfer) :
    examineWords start i pattern mask r ws t =
      examine pattern mask (ws.map fun w => (offsetOf start i w, resultWord r w)) t := by
  induction ws generalizing t with
  | nil => rfl
  | cons w ws ih =>
    rw [List.map_cons, examineWords, examine, ih, decidesScan, decisionBy]
    cases (resultWord r w).outcome.isBad with
    | true => rfl
    | false => rfl

section
variable {l : List (Nat × WordResult)}

theorem examine_of_undecided (hnone : ∀ v ∈ l, decidesScan pattern mask v.2 = false) (t : Transfer) :
    examine pattern mask l t = wordsCounted l t := by
  induction l generalizing t with
  | nil => exact (wordsCounted_nil t).symm
  | cons v l ih =>
    obtain ⟨hv, hl⟩ := List.forall_mem_cons.mp hnone
    rw [examine, if_neg (by simp [hv]), ih hl, wordsCounted_cons]

/-- The words up to the deciding one, and none after it, are counted (R140). -/
theorem examine_of_first {before after : List (Nat × WordResult)} {v : Nat × WordResult}
    (hbefore : ∀ u ∈ before, decidesScan pattern mask u.2 = false) (hv : decidesScan pattern mask v.2 = true) (t : Transfer) :
    examine pattern mask (before ++ v :: after) t = { wordsCounted (before ++ [v]) t with decision := some (decisionBy v) } := by
  induction before generalizing t with
  | nil =>
    rw [List.nil_append, List.nil_append, examine, if_pos hv, wordsCounted_cons, wordsCounted_nil]
  | cons u before ih =>
    obtain ⟨hu, hrest⟩ := List.forall_mem_cons.mp hbefore
    rw [List.cons_append, examine, if_neg (by simp [hu]), ih hrest, List.cons_append, wordsCounted_cons]

theorem countWord_decision (o : Nat) (w : WordOutcome) (t : Transfer) : (countWord o w t).decision = t.decision := by
  cases w <;> rfl

/-- A SCAN that is not decided by some words goes on with those behind them. -/
theorem examine_append (m : List (Nat × WordResult)) {t : Transfer} (hnone : t.decision = none) :
    examine pattern mask (l ++ m) t =
      if (examine pattern mask l t).decision.isSome then examine pattern mask l t
      else examine pattern mask m (examine pattern mask l t) := by
  induction l generalizing t with
  | nil => simp [examine, hnone]
  | cons v l ih =>
    rw [List.cons_append, examine, examine]
    split
    · rfl
    · exact ih (by rw [countWord_decision, hnone])

/-- A SCAN with its frontier at line `f` and `lines` held. -/
def withHeld (f : Nat) (lines : List (Nat × LineResult)) (t : Transfer) : Transfer := { t with frontier := f, lines := lines }

theorem withHeld_same (f : Nat) (lines : List (Nat × LineResult)) (t : Transfer) :
    (withHeld f lines t).lines = lines ∧ (withHeld f lines t).frontier = f ∧ (withHeld f lines t).decision = t.decision :=
  ⟨rfl, rfl, rfl⟩

theorem countWord_withHeld (o : Nat) (w : WordOutcome) (t : Transfer) (f : Nat) (lines : List (Nat × LineResult)) :
    countWord o w (withHeld f lines t) = withHeld f lines (countWord o w t) := by
  cases w <;> rfl

/-- An examination neither reads nor writes the frontier and the lines held. -/
theorem examine_withHeld (l : List (Nat × WordResult)) (t : Transfer) (f : Nat) (lines : List (Nat × LineResult)) :
    examine pattern mask l (withHeld f lines t) = withHeld f lines (examine pattern mask l t) := by
  induction l generalizing t with
  | nil => rfl
  | cons v l ih =>
    rw [examine, examine, countWord_withHeld]
    split
    · rfl
    · exact ih _

theorem countWord_same (o : Nat) (w : WordOutcome) (t : Transfer) :
    (countWord o w t).cmd = t.cmd ∧ (countWord o w t).frontier = t.frontier ∧ (countWord o w t).lines = t.lines := by
  cases w <;> exact ⟨rfl, rfl, rfl⟩

theorem examine_same (l : List (Nat × WordResult)) (t : Transfer) :
    (examine pattern mask l t).cmd = t.cmd ∧ (examine pattern mask l t).frontier = t.frontier ∧
      (examine pattern mask l t).lines = t.lines := by
  induction l generalizing t with
  | nil => exact ⟨rfl, rfl, rfl⟩
  | cons v l ih =>
    rw [examine]
    split
    · exact countWord_same ..
    · obtain ⟨hcmd, hfrontier, hlines⟩ := ih (countWord v.1 v.2.outcome t)
      obtain ⟨hcmd', hfrontier', hlines'⟩ := countWord_same v.1 v.2.outcome t
      exact ⟨hcmd.trans hcmd', hfrontier.trans hfrontier', hlines.trans hlines'⟩

end

end

/-! ## Lines examined (R139) -/

section
variable {pattern mask : Word} {start len : Nat}

/-- The words of the `d` lines from line `f` of those held, in order. -/
def heldWords (start len : Nat) (lines : List (Nat × LineResult)) (f d : Nat) : List (Nat × WordResult) :=
  (List.range' f d).flatMap fun k =>
    match stagedLine lines k with
    | some r => lineWords start len k r
    | none => []

theorem heldWords_succ {lines : List (Nat × LineResult)} {f : Nat} {r : LineResult} (hr : stagedLine lines f = some r) (d : Nat) :
    heldWords start len lines f (d + 1) = lineWords start len f r ++ heldWords start len lines (f + 1) d := by
  rw [heldWords, List.range'_succ, List.flatMap_cons, hr]
  rfl

/-- The lines behind the frontier stay held when the frontier line goes. -/
theorem stagedLine_without (lines : List (Nat × LineResult)) {f k : Nat} (hk : f < k) :
    stagedLine (lines.filter fun x => x.1 != f) k = stagedLine lines k := by
  rw [stagedLine_filter (fun m => m != f), if_pos (by simpa using hk.ne')]

theorem heldWords_without (lines : List (Nat × LineResult)) (f d : Nat) :
    heldWords start len (lines.filter fun x => x.1 != f) (f + 1) d = heldWords start len lines (f + 1) d := by
  refine List.flatMap_congr fun k hk => ?_
  rw [stagedLine_without lines (List.mem_range'_1.mp hk).1]

theorem length_without {lines : List (Nat × LineResult)} {f : Nat} {r : LineResult} (hr : stagedLine lines f = some r) :
    (lines.filter fun x => x.1 != f).length < lines.length := by
  obtain ⟨x, hfound, -⟩ := Option.map_eq_some_iff.mp hr
  refine List.length_filter_lt_length_iff_exists.mpr ⟨x, List.mem_of_find?_eq_some hfound, ?_⟩
  simpa using List.find?_some hfound

theorem lineCount_of_cmd {t u : Transfer} (hcmd : t.cmd = u.cmd) : t.lineCount = u.lineCount := by
  rw [Transfer.lineCount, Transfer.lineCount, hcmd]

/-- The `d` lines held from the frontier are examined as one run of words: the first word that decides ends it; else the frontier
comes to the line behind them, and at the end of the range the SCAN is decided NOT_FOUND. -/
theorem examineHeld_eq {d fuel : Nat} {t : Transfer} (hnone : t.decision = none) (hfuel : t.lines.length ≤ fuel)
    (hlow : t.frontier < t.lineCount) (hin : t.frontier + d ≤ t.lineCount)
    (hheld : ∀ k, t.frontier ≤ k → k < t.frontier + d → (stagedLine t.lines k).isSome = true)
    (hend : t.frontier + d = t.lineCount ∨ stagedLine t.lines (t.frontier + d) = none) :
    let u := examine pattern mask (heldWords start len t.lines t.frontier d) t
    ∃ f lines,
      examineHeld start len pattern mask fuel t =
        { withHeld f lines u with
          decision := u.decision.or (if t.frontier + d = t.lineCount then some .notFound else none) } ∧
      (u.decision = none → f = t.frontier + d ∧
        (t.frontier + d < t.lineCount → ∀ k, t.frontier + d ≤ k → stagedLine lines k = stagedLine t.lines k)) := by
  induction d generalizing fuel t with
  | zero =>
    intro u
    have hwaits : stagedLine t.lines t.frontier = none := hend.resolve_left hlow.ne
    have hstays : examineHeld start len pattern mask fuel t = t := by
      cases fuel with
      | zero => rfl
      | succ fuel => rw [examineHeld, hwaits]
    refine ⟨t.frontier, t.lines, ?_, fun _ => ⟨rfl, fun _ _ _ => rfl⟩⟩
    rw [hstays, if_neg (by exact hlow.ne), Option.or_none]
    rfl
  | succ d ih =>
    intro u
    obtain ⟨r, hr⟩ := Option.isSome_iff_exists.mp (hheld t.frontier le_rfl (by omega))
    have hshrinks := length_without hr
    obtain ⟨fuel, rfl⟩ : ∃ m, fuel = m + 1 := ⟨fuel - 1, by omega⟩
    generalize hv : examine pattern mask (lineWords start len t.frontier r) t = v
    have hwords : examineWords start t.frontier pattern mask r (coveredWords start len t.frontier) t = v := by
      rw [examineWords_eq, ← lineWords_eq, hv]
    have hu : u = if v.decision.isSome then v else examine pattern mask (heldWords start len t.lines (t.frontier + 1) d) v := by
      show examine pattern mask (heldWords start len t.lines t.frontier (d + 1)) t = _
      rw [heldWords_succ hr, examine_append pattern mask _ hnone, hv]
    obtain ⟨hcmd, -, hlines⟩ : v.cmd = t.cmd ∧ v.frontier = t.frontier ∧ v.lines = t.lines := hv ▸ examine_same ..
    rw [examineHeld, hr]
    dsimp only
    rw [hwords]
    by_cases hdecided : v.decision.isSome = true
    · rw [if_pos hdecided] at hu ⊢
      refine ⟨v.frontier, v.lines, ?_, fun hopen => ?_⟩
      · rw [hu, Option.or_of_isSome hdecided]
        rfl
      · rw [← hu, hopen] at hdecided
        cases hdecided
    · rw [if_neg hdecided] at hu ⊢
      have hopen : v.decision = none := by simpa using hdecided
      by_cases hlast : t.frontier + 1 = t.lineCount
      · obtain rfl : d = 0 := by omega
        have huv : u = v := hu
        rw [if_pos hlast, huv, hopen, if_pos hlast]
        exact ⟨t.frontier + 1, v.lines, rfl, fun _ => ⟨rfl, fun hmore => absurd hlast hmore.ne⟩⟩
      · rw [if_neg hlast, hlines]
        generalize hrest : (t.lines.filter fun x => x.1 != t.frontier) = rest at hshrinks
        have hkept {k : Nat} (hk : t.frontier < k) : stagedLine rest k = stagedLine t.lines k :=
          hrest ▸ stagedLine_without t.lines hk
        have hcount : (withHeld (t.frontier + 1) rest v).lineCount = t.lineCount := lineCount_of_cmd hcmd
        have hat : t.frontier + 1 + d = t.frontier + (d + 1) := Nat.add_right_comm ..
        have hnext : examine pattern mask (heldWords start len rest (t.frontier + 1) d) (withHeld (t.frontier + 1) rest v) =
            withHeld (t.frontier + 1) rest u := by
          rw [examine_withHeld, ← hrest, heldWords_without, ← hu]
        have hrun := ih (t := withHeld (t.frontier + 1) rest v) (fuel := fuel) hopen
          (Nat.le_of_lt_succ (hshrinks.trans_le hfuel)) (hcount ▸ Nat.lt_of_le_of_ne hlow hlast) (by rw [hcount]; exact hat ▸ hin)
          (fun k hfrom hto => (hkept hfrom).symm ▸ hheld k (Nat.le_of_lt hfrom) (hat ▸ hto))
          (by rw [hcount]; exact hat ▸ (hkept (k := t.frontier + (d + 1)) (by omega)).symm ▸ hend)
        obtain ⟨hlines', hfrontier', -⟩ := withHeld_same (t.frontier + 1) rest v
        rw [hlines', hfrontier', hnext, hcount, hat] at hrun
        obtain ⟨f, lines, hexamined, hundecided⟩ := hrun
        refine ⟨f, lines, hopen ▸ hexamined, fun hundec => ?_⟩
        obtain ⟨hf, hstays⟩ := hundecided hundec
        exact ⟨hf, fun hmore k hk => (hstays hmore k hk).trans (hkept (by omega))⟩

/-- Once a SCAN is decided the results of its lines are discarded (R140). -/
theorem scanResult_of_decided {t : Transfer} (hdecided : t.decision.isSome = true) (i : Nat) (r : LineResult) :
    scanResult start len pattern mask i r t = t := by
  rw [scanResult, if_pos hdecided]

/-- A SCAN not decided yet takes the result of a line: the lines held from the frontier, `d` of them, are examined as one run of
words (R139, R140). -/
theorem scanResult_eq {d i : Nat} {r : LineResult} {x : Transfer} {held : List (Nat × LineResult)}
    {words : List (Nat × WordResult)} (hheld : held = x.lines ++ [(i, r)]) (hwords : words = heldWords start len held x.frontier d)
    (hnone : x.decision = none) (hlow : x.frontier < x.lineCount) (hin : x.frontier + d ≤ x.lineCount)
    (hstaged : ∀ k, x.frontier ≤ k → k < x.frontier + d → (stagedLine held k).isSome = true)
    (hend : x.frontier + d = x.lineCount ∨ stagedLine held (x.frontier + d) = none) :
    let u := examine pattern mask words (withHeld x.frontier held (returned x))
    ∃ f lines,
      (u.decision.isSome = true →
        scanResult start len pattern mask i r (returned x) = { withHeld f [] u with phase := .finishing }) ∧
      (u.decision = none → x.frontier + d = x.lineCount →
        scanResult start len pattern mask i r (returned x) =
          { withHeld (x.frontier + d) [] u with phase := .finishing, decision := some .notFound }) ∧
      (u.decision = none → x.frontier + d < x.lineCount →
        scanResult start len pattern mask i r (returned x) = withHeld (x.frontier + d) lines u ∧
          ∀ k, x.frontier + d ≤ k → stagedLine lines k = stagedLine held k) := by
  subst hheld hwords
  intro u
  have hrun := examineHeld_eq (pattern := pattern) (mask := mask) (start := start) (len := len) (fuel := x.lines.length + 1)
    (t := withHeld x.frontier (x.lines ++ [(i, r)]) (returned x)) hnone
    (by rw [(withHeld_same ..).1, List.length_append, List.length_singleton]) hlow hin hstaged hend
  obtain ⟨f, lines, hexamined, hundecided⟩ : ∃ f lines,
      examineHeld start len pattern mask (x.lines.length + 1) (withHeld x.frontier (x.lines ++ [(i, r)]) (returned x)) =
        { withHeld f lines u with
          decision := u.decision.or (if x.frontier + d = x.lineCount then some .notFound else none) } ∧
      (u.decision = none → f = x.frontier + d ∧
        (x.frontier + d < x.lineCount →
          ∀ k, x.frontier + d ≤ k → stagedLine lines k = stagedLine (x.lines ++ [(i, r)]) k)) := hrun
  have hresult : scanResult start len pattern mask i r (returned x) =
      let y := examineHeld start len pattern mask (x.lines.length + 1) (withHeld x.frontier (x.lines ++ [(i, r)]) (returned x))
      if y.decision.isSome then { y with phase := .finishing, lines := [] } else y := by
    rw [scanResult, if_neg (by simp [returned, hnone])]
    rfl
  rw [hresult, hexamined]
  refine ⟨f, lines, fun hdecided => ?_, fun hopen hlast => ?_, fun hopen hmore => ?_⟩
  · rw [Option.or_of_isSome hdecided]
    exact if_pos hdecided
  · obtain ⟨rfl, -⟩ := hundecided hopen
    rw [hopen, if_pos hlast]
    rfl
  · obtain ⟨rfl, hkept⟩ := hundecided hopen
    rw [if_neg hmore.ne, Option.or_none]
    exact ⟨if_neg (by rw [hopen]; nofun), hkept hmore⟩

end

/-- Settles O48: the lines held from the frontier are examined as one run of words, in which the first that decides ends it. -/
theorem scanIsDecidedByItsLowestWord : Obligations.ScanIsDecidedByItsLowestWord := by
  intro i r x a n pattern mask hcmd taken held
  rw [takeResult_of_scan i r hcmd]
  refine ⟨fun hdecided => by rw [scanResult_of_decided (by exact hdecided)]; rfl, ?_⟩
  intro upTo hnone hlow hfrom hto hheld hend words isBad decides corrected
  obtain ⟨d, rfl⟩ : ∃ d, upTo = x.frontier + d := ⟨upTo - x.frontier, by omega⟩
  have hwords : words = heldWords a n held x.frontier d := by
    show heldWords a n held x.frontier (x.frontier + d - x.frontier) = _
    rw [Nat.add_sub_cancel_left]
  have hdecides (v : Nat × WordResult) : decidesScan pattern mask v.2 = true ↔ decides v := decidesScan_iff pattern mask v.2
  have hpassed {l : List (Nat × WordResult)} (hl : ∀ u ∈ l, ¬ decides u) : ∀ u ∈ l, decidesScan pattern mask u.2 = false :=
    fun u hu => Bool.eq_false_iff.mpr (mt (hdecides u).mp (hl u hu))
  have hgood {l : List (Nat × WordResult)} (hl : ∀ u ∈ l, ¬ decides u) : badOffsets l = [] :=
    badOffsets_of_none fun u hu hbad => hl u hu (.inl hbad)
  obtain ⟨f, lines, hdecided, hlast, hmore⟩ :=
    scanResult_eq (pattern := pattern) (mask := mask) (held := held) rfl hwords hnone hlow hto hheld hend
  refine ⟨_, rfl, fun before v after hsplit hbefore hv => ?_, fun hall => ?_⟩
  · rw [hsplit, examine_of_first pattern mask (hpassed hbefore) ((hdecides v).mpr hv)] at hdecided
    rw [hdecided rfl]
    refine ⟨rfl, fun hbad => ?_, fun hbad => ?_⟩
    · have hoffsets : badOffsets (before ++ [v]) = [v.1] := by
        rw [badOffsets_append, hgood hbefore, badOffsets_of_bad hbad, List.nil_append]
      have hdecision : decisionBy v = .bad v.1 := if_pos ((WordOutcome.isBad_iff _).mpr hbad)
      rw [wordsCounted, hoffsets, hdecision]
      exact ⟨rfl, rfl, rfl⟩
    · have hoffsets : badOffsets (before ++ [v]) = [] := by
        rw [badOffsets_append, hgood hbefore, badOffsets_of_none (List.forall_mem_singleton.mpr hbad), List.nil_append]
      have hdecision : decisionBy v = .matched v.1 := if_neg (mt (WordOutcome.isBad_iff _).mp hbad)
      rw [wordsCounted_of_good _ hoffsets, hdecision]
      exact ⟨rfl, rfl, rfl⟩
  · have hcounted : examine pattern mask words (withHeld x.frontier held (returned x)) =
        { withHeld x.frontier held (returned x) with corrected := x.corrected + correctedCount words } := by
      rw [examine_of_undecided pattern mask (hpassed hall), wordsCounted_of_good _ (hgood hall)]
      rfl
    rw [hcounted] at hlast hmore
    refine ⟨hlast hnone, fun hfew => ?_⟩
    obtain ⟨hresult, hkept⟩ := hmore hnone hfew
    rw [hresult]
    exact ⟨rfl, hkept⟩

end Sys2Proof.Machine
end

section
/-! O19. An append to the Incident List, taken whole (R156, R170 to R172). -/

namespace Sys2Proof.Machine

/-- An append tells each port of the end of an empty list, and reaches no port otherwise (R172). -/
theorem appendIncident_port_cases (x : Incident) (s : State) (p : PortId) :
    if s.incidents.records = [] then Notified .nonEmpty (s.port p) ((appendIncident x s).port p)
    else (appendIncident x s).port p = s.port p := by
  rw [appendIncident, appendTelling_port_eq]
  by_cases hempty : s.incidents.records = []
  · rw [if_pos hempty, if_pos hempty]
    exact giveAlert_notified ..
  · rw [if_neg hempty, if_neg hempty]

/-- Settles O19: the list and the ports by the two laws of an append, and nothing else by its frame. -/
theorem incidentAppendIsTakenWhole : Obligations.IncidentAppendIsTakenWhole := by
  intro x s l t
  refine ⟨appendIncident_frame x s, fun hroom => ?_, fun hfull => ?_, appendIncident_port_cases x s⟩
  · exact (appendIncident_incidents x s).trans (if_pos hroom)
  · exact (appendIncident_incidents x s).trans (if_neg (Nat.not_lt.mpr hfull))

end Sys2Proof.Machine
end

section
/-! O54. The records the part writes: each field of a record read back from its bytes (R148, R165, R166, R171, R177). -/

namespace Sys2Proof.Machine

/-! ## The number in the bytes of a field (R177) -/

/-- A field of no byte. -/
theorem leAt_none (l : List Byte) (k : Nat) : leAt l k 0 = 0 := by rw [leAt, List.take_zero, List.foldr_nil]

theorem leAt_cons (b : Byte) (l : List Byte) (n : Nat) : leAt (b :: l) 0 (n + 1) = b.toNat + 256 * leAt l 0 n := rfl

/-- A field wholly behind the first bytes. -/
theorem leAt_append_right {a : List Byte} {k : Nat} (hbehind : a.length ≤ k) (b : List Byte) (n : Nat) :
    leAt (a ++ b) k n = leAt b (k - a.length) n := by
  rw [leAt, List.drop_append, List.drop_eq_nil_of_le hbehind, List.nil_append, ← leAt]

/-- A field wholly in the first bytes. -/
theorem leAt_append_left {a : List Byte} {k n : Nat} (hin : k + n ≤ a.length) (b : List Byte) :
    leAt (a ++ b) k n = leAt a k n := by
  rw [leAt, List.drop_append_of_le_length (by omega), List.take_append_of_le_length (by rw [List.length_drop]; omega), ← leAt]

/-- The bytes of a number give it back, as far as they hold it. -/
theorem leAt_bytesOf (n v : Nat) : leAt (bytesOf n v) 0 n = v % 256 ^ n := by
  induction n generalizing v with
  | zero => rw [leAt_none, Nat.pow_zero, Nat.mod_one]
  | succ n ih =>
    have hmod : v % 256 ^ (n + 1) = v % 256 + 256 * (v / 256 % 256 ^ n) := by rw [Nat.pow_succ', Nat.mod_mul]
    rw [bytesOf, leAt_cons, ih, hmod, BitVec.toNat_ofNat]

/-- A field past the last byte is 0. -/
theorem leAt_of_length_le {l : List Byte} {k : Nat} (hpast : l.length ≤ k) (n : Nat) : leAt l k n = 0 := by
  rw [leAt, List.drop_eq_nil_of_le hpast, List.take_nil, List.foldr_nil]

theorem leAt_bytesOf_past {w k : Nat} (hpast : w ≤ k) (v n : Nat) : leAt (bytesOf w v) k n = 0 :=
  leAt_of_length_le (by rwa [bytesOf_length]) n

/-- Zeros behind the bytes of a number leave the number. -/
theorem foldr_append_zeros (l : List Byte) (m : Nat) :
    (l ++ List.replicate m 0#8).foldr (fun b v => b.toNat + 256 * v) 0 = l.foldr (fun b v => b.toNat + 256 * v) 0 := by
  rw [List.foldr_append]
  congr 1
  induction m with
  | zero => rfl
  | succ m ih => rw [List.replicate_succ, List.foldr_cons, ih]; rfl

/-- The zeros a record is filled up with change no field: a field past the last byte is 0 as well. -/
theorem leAt_padded (m : Nat) (l : List Byte) (k n : Nat) : leAt (padded m l) k n = leAt l k n := by
  rw [padded, leAt, List.drop_append, List.drop_replicate, List.take_append, List.take_replicate, foldr_append_zeros, ← leAt]

/-- An absent value is the number with every bit set. -/
theorem bytesOrAbsent_eq (n : Nat) (v : Option Nat) : bytesOrAbsent n v = bytesOf n (v.getD (256 ^ n - 1)) := by
  cases v with
  | some v => rfl
  | none =>
    show List.replicate n 0xFF#8 = bytesOf n (256 ^ n - 1)
    induction n with
    | zero => rfl
    | succ n ih =>
      have hpos : 0 < 256 ^ n := Nat.pow_pos (by decide)
      have hlow : (BitVec.ofNat 8 (256 ^ (n + 1) - 1)) = 0xFF#8 := BitVec.eq_of_toNat_eq (by
        rw [BitVec.toNat_ofNat, BitVec.toNat_ofNat]; omega)
      have hhigh : (256 ^ (n + 1) - 1) / 256 = 256 ^ n - 1 := by omega
      rw [List.replicate_succ, ih, bytesOf, hlow, hhigh]

/-- Of numbers laid out one behind another, the first stands in the first bytes. -/
theorem leAt_first (n v : Nat) (l : List Byte) : leAt (bytesOf n v ++ l) 0 n = v % 256 ^ n := by
  rw [leAt_append_left (by rw [bytesOf_length, Nat.zero_add]), leAt_bytesOf]

/-- Of numbers laid out one behind another, a field behind the first is a field of the others. -/
theorem leAt_behind {w k : Nat} (hbehind : w ≤ k) (v : Nat) (l : List Byte) (n : Nat) :
    leAt (bytesOf w v ++ l) k n = leAt l (k - w) n := by
  rw [leAt_append_right (by rwa [bytesOf_length]), bytesOf_length]

/-- Entry `i` of numbers laid out in `w` bytes each. -/
theorem leAt_flatMap {α : Type} {w : Nat} {f : α → Nat} {l : List α} {i : Nat} (hi : i < l.length) :
    leAt (l.flatMap fun x => bytesOf w (f x)) (w * i) w = f l[i] % 256 ^ w := by
  induction l generalizing i with
  | nil => cases hi
  | cons x l ih =>
    rw [List.flatMap_cons]
    cases i with
    | zero => exact leAt_first ..
    | succ i =>
      rw [leAt_behind (Nat.le_mul_of_pos_right w i.succ_pos), Nat.mul_succ, Nat.add_sub_cancel]
      exact ih (Nat.lt_of_succ_lt_succ hi)

/-- A value that may be absent fits a field in which each value and the mark of absence fit. -/
theorem getD_map_lt {α : Type} {f : α → Nat} {m d : Nat} (hf : ∀ x, f x < m) (hd : d < m) (v : Option α) :
    (v.map f).getD d < m := by
  cases v with
  | none => exact hd
  | some x => exact hf x

/-- Entry `i` of a field of eight, FFFFh beyond the list (section 11.3). -/
theorem leAt_eightEntries {m i : Nat} (hm : m ≤ 65536) (l : List (Fin m)) (hi : i < 8) :
    leAt (eightEntries (l.map (·.val))) (2 * i) 2 = ((l[i]?).map (·.val)).getD 0xFFFF := by
  unfold eightEntries
  simp only [bytesOrAbsent_eq]
  rw [leAt_flatMap (by simpa using hi), List.getElem_range', Nat.zero_add, Nat.one_mul, List.getElem?_map]
  exact Nat.mod_eq_of_lt (getD_map_lt (fun x => x.isLt.trans_le hm) (by decide) _)

/-! ## Codes fit a byte -/

theorem Status.code_lt (s : Status) : s.code < 256 := by cases s <;> decide
theorem SegState.code_lt (s : SegState) : s.code < 256 := by cases s <;> decide
theorem IncidentKind.code_lt (k : IncidentKind) : k.code < 256 := by cases k <;> decide
theorem IncidentSource.code_lt (s : IncidentSource) : s.code < 256 := by cases s <;> decide
theorem MigState.code_le (s : MigState) : s.code ≤ 3 := by cases s <;> decide
theorem LockStatus.code_le (s : LockStatus) : s.code ≤ 2 := by cases s <;> decide
theorem boolNat_le (b : Bool) : boolNat b ≤ 1 := by cases b <;> decide

/-! ## The completion record (R148) -/

theorem resultBytes_length_le (r : Results) : (resultBytes r).length ≤ 24 := by
  cases r with
  | lock a holder => cases holder <;> simp [resultBytes]
  | _ => simp [resultBytes]

theorem recordBytes_length (c : Completion) (phase : Bool) (sqHead : Nat) : (recordBytes c phase sqHead).length = 32 := by
  have hresults := resultBytes_length_le c.results
  simp only [recordBytes, padded, List.length_append, bytesOf_length, List.length_replicate]
  split
  · rfl
  · omega

/-- The first 8 bytes of a completion record. -/
theorem leAt_recordBytes_head (c : Completion) (phase : Bool) {sqHead : Nat} (hhead : sqHead ≤ 4095) :
    let field := leAt (recordBytes c phase sqHead)
    field 0 1 = c.opcode.toNat ∧ field 1 1 = c.status.code ∧ field 2 2 = c.tag.toNat ∧ field 4 2 = sqHead ∧
      field 6 1 = c.ctx.val ∧ field 7 1 = boolNat phase + 2 * boolNat c.results.abandoned := by
  have hphase := boolNat_le phase
  have habandoned := boolNat_le c.results.abandoned
  simp only [recordBytes, leAt_padded, List.append_assoc, leAt_first, leAt_behind, Nat.reduceLeDiff, Nat.reduceSub, le_refl]
  exact ⟨Nat.mod_eq_of_lt c.opcode.isLt, Nat.mod_eq_of_lt c.status.code_lt, Nat.mod_eq_of_lt c.tag.isLt,
    Nat.mod_eq_of_lt (by omega), Nat.mod_eq_of_lt (by omega), Nat.mod_eq_of_lt (by omega)⟩

/-- From byte 8 a completion record holds its results, and none where it completed MALFORMED or RANGE. -/
theorem leAt_recordBytes_results (c : Completion) (phase : Bool) (sqHead : Nat) {k : Nat} (hk : 8 ≤ k) (n : Nat) :
    leAt (recordBytes c phase sqHead) k n =
      leAt (if c.status = .malformed ∨ c.status = .range then [] else resultBytes c.results) (k - 8) n := by
  rw [recordBytes, leAt_padded, leAt_append_right (by simpa using hk)]
  simp

/-- The bytes of the holder seen of a lock completion, each written as a number. -/
theorem resultBytes_holder (a : Bool) (h : Party) :
    resultBytes (.lock a (some h)) = bytesOf 1 1 ++ bytesOf 1 (portNumber h.port) ++ bytesOf 2 h.owner.toNat := rfl

/-- The flags of a completion record: the phase, and ABANDONED of a lock completion. -/
theorem flags_eq (phase abandoned : Bool) :
    boolNat phase + 2 * boolNat abandoned = (if phase then 1 else 0) + if abandoned then 2 else 0 := by
  cases phase <;> cases abandoned <;> rfl

/-! ## The map report entry (R165) -/

/-- A map report entry by its fields; its destination is that of a MIGRATING segment. -/
theorem leAt_mapEntryBytes {g : SegMap} {l : LogSeg} (hcounter : ∀ p : PhysSeg, (g.phys[p]).counter ≤ 65535)
    (dest : Option PhysSeg) :
    let field := leAt (mapEntryBytes g dest l)
    let e := g.map[l]
    let d := if e.state = .migrating then dest else none
    field 0 2 = l.val ∧ field 2 2 = e.phys.val ∧ field 4 1 = e.state.code ∧ field 5 1 = boolNat e.again ∧
      field 6 2 = (g.phys[e.phys]).counter ∧ field 8 2 = (d.map (·.val)).getD 0xFFFF ∧
      field 10 2 = (d.map fun x => (g.phys[x]).counter).getD 0 ∧ field 12 4 = 0 := by
  intro field e d
  have hagain := boolNat_le e.again
  have hcount (p : PhysSeg) : (g.phys[p]).counter < 65536 := Nat.lt_succ_of_le (hcounter p)
  simp only [field, mapEntryBytes, leAt_padded, List.append_assoc, leAt_first, leAt_behind, leAt_bytesOf, bytesOrAbsent_eq,
    Nat.reduceLeDiff, Nat.reduceSub, le_refl]
  exact ⟨Nat.mod_eq_of_lt (by omega), Nat.mod_eq_of_lt (by omega), Nat.mod_eq_of_lt e.state.code_lt,
    Nat.mod_eq_of_lt (Nat.lt_of_le_of_lt hagain (by decide)), Nat.mod_eq_of_lt (hcount _),
    Nat.mod_eq_of_lt (getD_map_lt (fun p => by omega) (by decide) d), Nat.mod_eq_of_lt (getD_map_lt hcount (by decide) d),
    leAt_bytesOf_past le_rfl _ _⟩

/-! ## The trailer (R166) -/

/-- The recorded count is that of the image in the current slot. -/
theorem recordedCount_eq {r : RetMem} {n : Nat} (hnone : r.current = none → n = 0)
    (h0 : ∀ i, r.current = some .slot0 → r.slot0 = .image i → n = i.entries.length)
    (h1 : ∀ i, r.current = some .slot1 → r.slot1 = .image i → n = i.entries.length)
    (hblank0 : r.current = some .slot0 → r.slot0 ≠ .blank) (hblank1 : r.current = some .slot1 → r.slot1 ≠ .blank) :
    recordedCount r = n := by
  unfold recordedCount
  rcases hcurrent : r.current with _ | slot
  · exact (hnone hcurrent).symm
  · cases slot with
    | slot0 =>
      cases hslot : r.slot0 with
      | blank => exact absurd hslot (hblank0 hcurrent)
      | image i => exact (h0 i hcurrent hslot).symm
    | slot1 =>
      cases hslot : r.slot1 with
      | blank => exact absurd hslot (hblank1 hcurrent)
      | image i => exact (h1 i hcurrent hslot).symm

/-- The reserved byte of a trailer, written as a number. -/
theorem zeroByte_eq : [0#8] = bytesOf 1 0 := rfl

/-- The first 16 bytes of a trailer, with `recorded` entries in the current slot. -/
theorem leAt_trailerBytes_head {g : SegMap} {m : Migration} {r : RetMem} {rate recorded : Nat} (hspares : g.spares.length ≤ 8)
    (hretired : g.retired.length ≤ 8) (hqueue : g.queue.length ≤ 8) (hwatermark : m.watermark ≤ 16384)
    (hthreshold : g.threshold ≤ 65535) (hrate : rate ≤ 4096) (hrecorded : recorded ≤ 8)
    (hcount : recordedCount r = recorded) :
    let field := leAt (trailerBytes g m r rate)
    let ofJob (f : Job → Nat) := (m.job.map f).getD 0xFFFF
    field 0 1 = g.spares.length + 16 * g.retired.length ∧ field 1 1 = recorded + 16 * g.queue.length ∧
      field 2 1 = m.state.code + 16 * m.lock.code ∧ field 3 1 = 0 ∧ field 4 2 = m.watermark ∧
      field 6 2 = ofJob (·.seg.val) ∧ field 8 2 = ofJob (·.source.val) ∧ field 10 2 = ofJob (·.dest.val) ∧
      field 12 2 = g.threshold ∧ field 14 2 = rate := by
  have hstate := m.state.code_le
  have hlock := m.lock.code_le
  have hjob {f : Job → Nat} (hf : ∀ j, f j < 65536) := Nat.mod_eq_of_lt (getD_map_lt hf (d := 0xFFFF) (by decide) m.job)
  simp only [trailerBytes, hcount, zeroByte_eq, List.append_assoc, leAt_first, leAt_behind, bytesOrAbsent_eq,
    Nat.reduceLeDiff, Nat.reduceSub, le_refl]
  exact ⟨Nat.mod_eq_of_lt (by omega), Nat.mod_eq_of_lt (by omega), Nat.mod_eq_of_lt (by omega), rfl,
    Nat.mod_eq_of_lt (by omega), hjob fun j => by omega, hjob fun j => by omega, hjob fun j => by omega, Nat.mod_eq_of_lt (by omega),
    Nat.mod_eq_of_lt (by omega)⟩

/-- The three lists of a trailer, eight entries each, behind its first 16 bytes. -/
theorem leAt_threeLists {head : List Byte} (hlen : head.length = 16) (spares retired : List PhysSeg) (queue : List LogSeg)
    {i : Nat} (hi : i < 8) :
    let field := leAt (head ++ eightEntries (spares.map (·.val)) ++ eightEntries (retired.map (·.val)) ++
      eightEntries (queue.map (·.val)))
    field (16 + 2 * i) 2 = ((spares[i]?).map (·.val)).getD 0xFFFF ∧
      field (32 + 2 * i) 2 = ((retired[i]?).map (·.val)).getD 0xFFFF ∧
      field (48 + 2 * i) 2 = ((queue[i]?).map (·.val)).getD 0xFFFF := by
  have hsecond : (head ++ eightEntries (spares.map (·.val))).length = 32 := by
    rw [List.length_append, hlen, eightEntries_length]
  have hthird : (head ++ eightEntries (spares.map (·.val)) ++ eightEntries (retired.map (·.val))).length = 48 := by
    rw [List.length_append, hsecond, eightEntries_length]
  refine ⟨?_, ?_, ?_⟩
  · rw [leAt_append_left (by omega), leAt_append_left (by omega), leAt_append_right (by omega), hlen, Nat.add_sub_cancel_left]
    exact leAt_eightEntries (by decide) spares hi
  · rw [leAt_append_left (by omega), leAt_append_right (by omega), hsecond, Nat.add_sub_cancel_left]
    exact leAt_eightEntries (by decide) retired hi
  · rw [leAt_append_right (by omega), hthird, Nat.add_sub_cancel_left]
    exact leAt_eightEntries (by decide) queue hi

/-! ## The statement -/

/-- Settles O54: each record is numbers laid out one behind another, and each field reads its own number back. -/
theorem recordsAreLaidOutByTheirTables : Obligations.RecordsAreLaidOutByTheirTables := by
  refine ⟨fun x phase sqHead hhead => ?_, fun g dest l hcounter => ?_, ?_, fun x => ?_⟩
  · intro bytes field abandoned
    obtain ⟨hopcode, hstatus, htag, hsq, hctx, hflags⟩ := leAt_recordBytes_head x phase hhead
    refine ⟨recordBytes_length .., hopcode, hstatus, htag, hsq, hctx, hflags.trans (flags_eq ..), fun hwrong => ?_,
      fun hformed hinside => ?_⟩
    · exact (leAt_recordBytes_results x phase sqHead (Nat.le_refl 8) 24).trans (by rw [if_pos hwrong]; rfl)
    · have hfield {k : Nat} (hk : 8 ≤ k) (n : Nat) : field k n = leAt (resultBytes x.results) (k - 8) n :=
        (leAt_recordBytes_results x phase sqHead hk n).trans (by rw [if_neg (not_or.mpr ⟨hformed, hinside⟩)])
      clear_value field
      cases hresults : x.results with
      | none => exact (hfield (Nat.le_refl 8) 24).trans (by rw [hresults]; rfl)
      | transfer r =>
        have habsent {v : Option Nat} : (∀ o, v = some o → o < 2 ^ 32 → v.getD (256 ^ 4 - 1) % 256 ^ 4 = o) ∧
            (v = none → v.getD (256 ^ 4 - 1) % 256 ^ 4 = 0xFFFFFFFF) :=
          ⟨fun o ho hlt => ho ▸ Nat.mod_eq_of_lt hlt, fun hv => hv ▸ rfl⟩
        simp only [hfield, hresults, resultBytes, List.append_assoc, leAt_first, leAt_behind, leAt_bytesOf, bytesOrAbsent_eq,
          Nat.reduceLeDiff, Nat.reduceSub, le_refl]
        exact ⟨Nat.mod_eq_of_lt, Nat.mod_eq_of_lt, Nat.mod_eq_of_lt, habsent.1, habsent.2, habsent.1, habsent.2,
          leAt_bytesOf_past le_rfl _ _⟩
      | lock reported holder =>
        cases holder with
        | none => exact (hfield (Nat.le_refl 8) 24).trans (by rw [hresults]; rfl)
        | some holder =>
          simp only [hfield, hresults, resultBytes_holder, List.append_assoc, leAt_first, leAt_behind, leAt_bytesOf,
            Nat.reduceLeDiff, Nat.reduceSub, le_refl]
          refine ⟨rfl, ?_, Nat.mod_eq_of_lt holder.owner.isLt, leAt_bytesOf_past le_rfl _ _⟩
          cases holder.port <;> rfl
      | mapQuery n =>
        simp only [hfield, hresults, resultBytes, leAt_bytesOf, Nat.reduceLeDiff, Nat.reduceSub, le_refl]
        exact ⟨Nat.mod_eq_of_lt, leAt_bytesOf_past le_rfl _ _⟩
      | incidents copied dropped =>
        simp only [hfield, hresults, resultBytes, leAt_first, leAt_behind, leAt_bytesOf, Nat.reduceLeDiff, Nat.reduceSub, le_refl]
        exact ⟨Nat.mod_eq_of_lt, Nat.mod_eq_of_lt, leAt_bytesOf_past le_rfl _ _⟩
      | tune threshold rate =>
        simp only [hfield, hresults, resultBytes, leAt_first, leAt_behind, leAt_bytesOf, Nat.reduceLeDiff, Nat.reduceSub, le_refl]
        exact ⟨Nat.mod_eq_of_lt, Nat.mod_eq_of_lt, leAt_bytesOf_past le_rfl _ _⟩
  · intro bytes field e
    obtain ⟨hseg, hphys, hstate, hagain, hcount, hdest, hdestCount, hrest⟩ := leAt_mapEntryBytes (l := l) hcounter dest
    refine ⟨mapEntryBytes_length .., hseg, hphys, hstate, hagain, hcount, fun d hmigrating hd => ?_, fun hnone => ?_, hrest⟩
    · subst hd
      rw [if_pos hmigrating] at hdest hdestCount
      exact ⟨hdest, hdestCount⟩
    · have habsent : (if e.state = .migrating then dest else none) = none := by
        split
        · exact hnone.resolve_left (not_not_intro ‹_›)
        · rfl
      rw [habsent] at hdest hdestCount
      exact ⟨hdest, hdestCount⟩
  · intro g m r rate recorded hspares hretired hqueue hwatermark hthreshold hrate hrecorded hnone h0 h1 hblank0
      hblank1 bytes field orAbsent
    obtain ⟨hlists, hcounts, hstate, hzero, hmark, hseg, hsource, hdest, hlimit, hpace⟩ :=
      leAt_trailerBytes_head (m := m) hspares hretired hqueue hwatermark hthreshold hrate hrecorded
        (recordedCount_eq hnone h0 h1 hblank0 hblank1)
    exact ⟨trailerBytes_length .., hlists, hcounts, hstate, hzero, hmark, hseg, hsource, hdest, hlimit, hpace,
      fun i hi => leAt_threeLists (by simp) g.spares g.retired g.queue hi⟩
  · intro bytes field i
    have hfits {n m : Nat} (hn : n ≤ m) {d : Nat} (hd : d < m) (v : Option (Fin n)) :
        (v.map fun p => p.val).getD d % m = (v.map fun p => p.val).getD d :=
      Nat.mod_eq_of_lt (getD_map_lt (fun p => p.isLt.trans_le hn) hd v)
    refine ⟨by simp [bytes, incidentBytes], ?_⟩
    simp only [field, bytes, incidentBytes, List.append_assoc, leAt_first, leAt_behind, leAt_bytesOf, bytesOrAbsent_eq,
      Nat.reduceLeDiff, Nat.reduceSub, le_refl]
    exact ⟨Nat.mod_eq_of_lt x.seq.isLt, Nat.mod_eq_of_lt i.kind.code_lt, Nat.mod_eq_of_lt i.source.code_lt,
      Nat.mod_eq_of_lt x.timestamp.isLt, rfl, hfits (by decide) (by decide) _, hfits (by decide) (by decide) _,
      hfits (by decide) (by decide) _, rfl, hfits (by decide) (by decide) _, rfl⟩

end Sys2Proof.Machine
end

section
/-! O1. The step: the command at the front of the queue, or a waiting notice of the Incident List (R172). -/

namespace Sys2Proof.Machine

variable {s : State}

theorem step_of_command {c : Instr} {rest : List Instr} (hpending : s.pending = c :: rest) :
    step s = exec c (s.withPending rest) := by
  simp only [step, hpending]

theorem step_of_idle (hpending : s.pending = []) : step s = .next (takeWaitingAlert s) := by
  simp only [step, hpending]

/-- A port takes its oldest notice, and the other port nothing (R172). -/
theorem modPort_takeAlert {p : PortId} {n : AlertNotice} {rest : List AlertNotice} (hn : (s.port p).notices = n :: rest) :
    s.modPort p takeAlert = s.setPort p (alertsTaken [n] rest (s.port p)) := by
  rw [modPort_eq, takeAlert_eq hn]

theorem takeWaitingAlert_of_none (hnone : ∀ p, (s.port p).notices = []) : takeWaitingAlert s = s := by
  have h0 : s.port0.notices = [] := hnone .p0
  have h1 : s.port1.notices = [] := hnone .p1
  simp only [takeWaitingAlert, h0, h1]

theorem takeWaitingAlert_of_one {p : PortId} (hwaits : (s.port p).notices ≠ []) (hother : (s.port p.other).notices = []) :
    takeWaitingAlert s = s.modPort p takeAlert := by
  obtain ⟨n, rest, hn⟩ := List.exists_cons_of_ne_nil hwaits
  cases p with
  | p0 =>
    have h0 : s.port0.notices = n :: rest := hn
    have h1 : s.port1.notices = [] := hother
    simp only [takeWaitingAlert, h0, h1]
  | p1 =>
    have h0 : s.port0.notices = [] := hother
    have h1 : s.port1.notices = n :: rest := hn
    simp only [takeWaitingAlert, h0, h1]

/-- With notices waiting at both ports one of the two takes its oldest (notes/assumptions/18.md). -/
theorem takeWaitingAlert_of_both (hboth : ∀ p, (s.port p).notices ≠ []) :
    ∃ p, takeWaitingAlert s = s.modPort p takeAlert := by
  obtain ⟨n, rest, h0⟩ : ∃ n rest, s.port0.notices = n :: rest := List.exists_cons_of_ne_nil (hboth .p0)
  obtain ⟨m, more, h1⟩ : ∃ m more, s.port1.notices = m :: more := List.exists_cons_of_ne_nil (hboth .p1)
  simp only [takeWaitingAlert, h0, h1]
  split
  · exact ⟨.p0, rfl⟩
  · exact ⟨.p1, rfl⟩

/-- Settles O1: the front command's effect by the step itself, and the idle step by which ports have notices waiting. -/
theorem stepTakesTheFrontCommand : Obligations.StepTakesTheFrontCommand := by
  intro s
  refine ⟨fun c rest => step_of_command, fun hidle => ?_⟩
  rw [step_of_idle hidle]
  refine ⟨fun hnone => ?_, fun p n rest hn hother => ?_, fun hboth => ?_⟩
  · rw [takeWaitingAlert_of_none hnone]
  · have hwaits : (s.port p).notices ≠ [] := hn ▸ List.cons_ne_nil n rest
    rw [takeWaitingAlert_of_one hwaits hother, modPort_takeAlert hn]
  · obtain ⟨p, htaken⟩ := takeWaitingAlert_of_both hboth
    obtain ⟨n, rest, hn⟩ := List.exists_cons_of_ne_nil (hboth p)
    exact ⟨p, n, rest, hn, by rw [htaken, modPort_takeAlert hn]⟩

end Sys2Proof.Machine
end

section
/-! O52. The buffer writes of the running command, and the records an INCIDENTS removes (R163, R165, R172, R173, R179). -/

namespace Sys2Proof.Machine

/-! ## The removal of the oldest record (R172, R173) -/

/-- A removal reaches the list and, by the notice *empty*, the ports. -/
theorem removeIncident_frame (s : State) :
    removeIncident s =
      { s with
        incidents := withoutOldest s.incidents
        port0 := (removeIncident s).port0
        port1 := (removeIncident s).port1 } := by
  unfold removeIncident
  dsimp only
  split <;> rfl

/-- The removal of the last record tells each port, and no other removal reaches a port (R172). -/
theorem removeIncident_port_cases (s : State) (p : PortId) :
    if s.incidents.records.tail = [] then Notified .empty (s.port p) ((removeIncident s).port p)
    else (removeIncident s).port p = s.port p := by
  unfold removeIncident
  dsimp only
  split
  · cases p <;> exact giveAlert_notified ..
  · cases p <;> rfl

/-! ## One buffer write (R163, R179) -/

/-- Write `w` has gone out at port `p`, and the running command stands at `r`. -/
def bufferWritten (p : PortId) (w : LinkWrite) (r : Running) (s : State) : State :=
  { s.setPort p { s.port p with sent := (s.port p).sent ++ [w] } with maint := { s.maint with running := some r } }

section
variable {p : PortId} {w : LinkWrite} {r : Running} {s : State}

theorem bufferWritten_port : (bufferWritten p w r s).port p = { s.port p with sent := (s.port p).sent ++ [w] } := by
  cases p <;> rfl

theorem bufferWritten_port_other : (bufferWritten p w r s).port p.other = s.port p.other := by cases p <;> rfl

theorem bufferWritten_incidents : (bufferWritten p w r s).incidents = s.incidents := setPort_incidents ..

section
variable {x : IncidentRecord} {xs : List IncidentRecord} (hrecords : s.incidents.records = x :: xs)
include hrecords

/-- A write that removes a record reaches the ports, the list and the running command. -/
theorem removeIncident_bufferWritten :
    removeIncident (bufferWritten p w r s) =
      { s with
        port0 := (removeIncident (bufferWritten p w r s)).port0
        port1 := (removeIncident (bufferWritten p w r s)).port1
        incidents := { s.incidents with records := xs }
        maint := { s.maint with running := some r } } := by
  rw [removeIncident_frame, bufferWritten_incidents, withoutOldest, hrecords, List.tail_cons]
  cases p <;> rfl

theorem removeIncident_bufferWritten_port :
    let wrote := { s.port p with sent := (s.port p).sent ++ [w] }
    if xs = [] then Notified .empty wrote ((removeIncident (bufferWritten p w r s)).port p)
    else (removeIncident (bufferWritten p w r s)).port p = wrote := by
  have hcases := removeIncident_port_cases (bufferWritten p w r s) p
  rwa [bufferWritten_incidents, hrecords, List.tail_cons, bufferWritten_port] at hcases

theorem removeIncident_bufferWritten_port_other :
    if xs = [] then Notified .empty (s.port p.other) ((removeIncident (bufferWritten p w r s)).port p.other)
    else (removeIncident (bufferWritten p w r s)).port p.other = s.port p.other := by
  have hcases := removeIncident_port_cases (bufferWritten p w r s) p.other
  rwa [bufferWritten_incidents, hrecords, List.tail_cons, bufferWritten_port_other] at hcases

end

/-- A buffer write goes out at the command's port, and the last is followed by the check read of the 8 bytes before its end,
with the number of the port's posted writes up to it as its mark (R163, R179; notes/assumptions/13.md). -/
theorem wroteBuffer_send (job : MaintJob) (last : Bool) :
    wroteBuffer r job last (s.modPort r.port (send w)) =
      bufferWritten r.port w
        { r with
          job := job
          checkRead := if last then some ⟨job.writtenEnd - 8, 8, (s.port r.port).sent.length + 1⟩ else none } s := by
  have hmark : postedWrites r.port (s.modPort r.port (send w)) = (s.port r.port).sent.length + 1 := by
    rw [postedWrites, port_modPort_same]
    exact List.length_append
  rw [wroteBuffer, hmark, modPort_maint]
  rfl

theorem exec_bufferWrite (hr : s.maint.running = some r) (hcheck : r.checkRead = none) :
    exec .bufferWrite s = .next (issueBufferWrite r s) := by
  show execBufferWrite s = _
  simp only [execBufferWrite, hr, hcheck, Option.isSome_none, Bool.false_eq_true, if_false]

theorem issueBufferWrite_of_mapQuery {count next : Nat} {b : List Byte} {rest : List (List Byte)}
    (hjob : r.job = .mapQuery count next (b :: rest)) :
    issueBufferWrite r s =
      bufferWritten r.port (.buffer next b)
        { r with
          job := .mapQuery count (next + b.length) rest
          checkRead := if rest = [] then some ⟨next + b.length - 8, 8, (s.port r.port).sent.length + 1⟩ else none } s := by
  simp only [issueBufferWrite, hjob, wroteBuffer_send, List.isEmpty_iff]
  rfl

theorem issueBufferWrite_of_incidents {n done buffer : Nat} {x : IncidentRecord} {xs : List IncidentRecord}
    (hjob : r.job = .incidents n done buffer) (hrecords : s.incidents.records = x :: xs) (hmore : done < n) :
    issueBufferWrite r s =
      removeIncident
        (bufferWritten r.port (.buffer (buffer + 32 * done) (incidentBytes x))
          { r with
            job := .incidents n (done + 1) buffer
            checkRead :=
              if done + 1 = n then some ⟨buffer + 32 * (done + 1) - 8, 8, (s.port r.port).sent.length + 1⟩ else none } s) := by
  simp only [issueBufferWrite, hjob, hrecords, if_pos hmore, wroteBuffer_send, beq_iff_eq]
  rfl

end

/-- Settles O52: the write by the command's job, and with an INCIDENTS the removal of the record it carries. -/
theorem bufferWritesGoUpwardAndEndInACheckRead : Obligations.BufferWritesGoUpwardAndEndInACheckRead := by
  intro s r hr hcheck h issued
  rw [exec_bufferWrite hr hcheck]
  refine ⟨fun count next b rest hjob => ?_, fun n done buffer x xs hjob hrecords hmore => ?_⟩
  · rw [issueBufferWrite_of_mapQuery hjob]
    rfl
  · rw [issueBufferWrite_of_incidents hjob hrecords hmore]
    exact ⟨_, rfl, removeIncident_bufferWritten hrecords, removeIncident_bufferWritten_port hrecords,
      removeIncident_bufferWritten_port_other hrecords⟩

end Sys2Proof.Machine
end

section
/-! O3. The writes of the register window: those taken, with the command of each, and those discarded (R174, R175). -/

namespace Sys2Proof.Machine

variable {p : PortId} {w : WindowWrite}

/-! ## The writes that are taken (R174, R175) -/

/-- A CONTROL write that names one action, by the low three bits of its value (R175). -/
def NamesOneAction (w : WindowWrite) : Prop :=
  w.value.extractLsb' 0 3 = 1#3 ∨ w.value.extractLsb' 0 3 = 2#3 ∨ w.value.extractLsb' 0 3 = 4#3

theorem namesOneAction_iff : NamesOneAction w ↔ w.value.toNat % 8 = 1 ∨ w.value.toNat % 8 = 2 ∨ w.value.toNat % 8 = 4 := by
  simp only [NamesOneAction, ← BitVec.toNat_inj, BitVec.extractLsb'_toNat, Nat.shiftRight_zero, BitVec.toNat_ofNat,
    Nat.reducePow, Nat.reduceMod]

/-- A write is taken at SETUP, SUBMIT and CONSUME by its offset and width, and at CONTROL by its action too (R174, R175). -/
theorem discarded_eq_false_iff :
    w.discarded = false ↔
      (w.width = 8 ∧ w.offset = 0x00#12) ∨
        (w.width = 4 ∧ (w.offset = 0x00#12 ∨ w.offset = 0x04#12 ∨ w.offset = 0x0C#12 ∨ w.offset = 0x10#12)) ∨
        (w.width = 4 ∧ w.offset = 0x08#12 ∧ NamesOneAction w) := by
  simp only [WindowWrite.discarded, namesOneAction_iff, Bool.not_eq_false', Bool.or_eq_true, Bool.and_eq_true, beq_iff_eq,
    ← BitVec.toNat_inj, BitVec.toNat_ofNat, or_assoc, and_assoc, Nat.reducePow, Nat.reduceMod]

theorem offset_of_wholeTaken (h : w.discarded = false) (hw : w.width = 8) : w.offset = 0x00#12 := by
  simpa [hw] using discarded_eq_false_iff.mp h

theorem namesOneAction_of_taken (h : w.discarded = false) (ho : w.offset = 0x08#12) : NamesOneAction w := by
  have htaken := discarded_eq_false_iff.mp h
  simp only [ho, BitVec.reduceEq, and_false, or_false, false_or, true_and] at htaken
  exact htaken.2

/-! ## The command of each register -/

theorem decodeWindowWrite_setup (hw : w.width = 8) (ho : w.offset = 0x00#12) :
    decodeWindowWrite p w = .setupWrite p (.whole w.value) := by
  simp [decodeWindowWrite, hw, ho]

theorem decodeWindowWrite_setupLow (hw : w.width = 4) (ho : w.offset = 0x00#12) :
    decodeWindowWrite p w = .setupWrite p (.low (w.value.extractLsb' 0 32)) := by
  simp [decodeWindowWrite, hw, ho, BitVec.setWidth_eq_extractLsb']

theorem decodeWindowWrite_setupHigh (hw : w.width = 4) (ho : w.offset = 0x04#12) :
    decodeWindowWrite p w = .setupWrite p (.high (w.value.extractLsb' 0 32)) := by
  simp [decodeWindowWrite, hw, ho, BitVec.setWidth_eq_extractLsb']

theorem decodeWindowWrite_submit (hw : w.width = 4) (ho : w.offset = 0x0C#12) :
    decodeWindowWrite p w = .submit p (w.value.extractLsb' 0 32) := by
  simp [decodeWindowWrite, hw, ho, BitVec.setWidth_eq_extractLsb']

theorem decodeWindowWrite_consume (hw : w.width = 4) (ho : w.offset = 0x10#12) :
    decodeWindowWrite p w = .consume p (w.value.extractLsb' 0 32) := by
  simp [decodeWindowWrite, hw, ho, BitVec.setWidth_eq_extractLsb']

theorem decodeWindowWrite_enable (hw : w.width = 4) (ho : w.offset = 0x08#12) (ha : w.value.extractLsb' 0 3 = 1#3) :
    decodeWindowWrite p w = .enable p := by
  simp [decodeWindowWrite, hw, ho, ha]

theorem decodeWindowWrite_disable (hw : w.width = 4) (ho : w.offset = 0x08#12) (ha : w.value.extractLsb' 0 3 = 2#3) :
    decodeWindowWrite p w = .disable p := by
  simp [decodeWindowWrite, hw, ho, ha]

theorem decodeWindowWrite_reset (hw : w.width = 4) (ho : w.offset = 0x08#12) (ha : w.value.extractLsb' 0 3 = 4#3) :
    decodeWindowWrite p w = .reset p := by
  simp [decodeWindowWrite, hw, ho, ha]

/-! ## The writes that are discarded -/

theorem decodeWindowWrite_of_noAction (hw : w.width = 4) (ho : w.offset = 0x08#12) (hnone : ¬ NamesOneAction w) :
    decodeWindowWrite p w = .registerWriteDiscarded p w := by
  simp only [decodeWindowWrite, hw, ho, BitVec.reduceEq, Nat.reduceEqDiff, and_false, and_self, if_true, if_false]
  split
  case h_1 henable => exact absurd (.inl henable) hnone
  case h_2 hdisable => exact absurd (.inr (.inl hdisable)) hnone
  case h_3 hreset => exact absurd (.inr (.inr hreset)) hnone
  case h_4 => rfl

theorem decodeWindowWrite_of_discarded (h : w.discarded = true) : decodeWindowWrite p w = .registerWriteDiscarded p w := by
  have hnot : ¬ w.discarded = false := by simp [h]
  rw [discarded_eq_false_iff, not_or, not_or] at hnot
  obtain ⟨hwhole, hhalf, haction⟩ := hnot
  by_cases hcontrol : w.width = 4 ∧ w.offset = 0x08#12
  · exact decodeWindowWrite_of_noAction hcontrol.1 hcontrol.2 fun ha => haction ⟨hcontrol.1, hcontrol.2, ha⟩
  · unfold decodeWindowWrite
    rw [if_neg hwhole, if_neg fun hc => hhalf ⟨hc.1, .inl hc.2⟩, if_neg fun hc => hhalf ⟨hc.1, .inr (.inl hc.2)⟩,
      if_neg hcontrol, if_neg fun hc => hhalf ⟨hc.1, .inr (.inr (.inl hc.2))⟩,
      if_neg fun hc => hhalf ⟨hc.1, .inr (.inr (.inr hc.2))⟩]

theorem decodeWindowWrite_ne_discarded (h : w.discarded = false) :
    decodeWindowWrite p w ≠ .registerWriteDiscarded p w := by
  rcases discarded_eq_false_iff.mp h with ⟨hw, ho⟩ | ⟨hw, ho | ho | ho | ho⟩ | ⟨hw, ho, ha | ha | ha⟩
  · simp [decodeWindowWrite_setup hw ho]
  · simp [decodeWindowWrite_setupLow hw ho]
  · simp [decodeWindowWrite_setupHigh hw ho]
  · simp [decodeWindowWrite_submit hw ho]
  · simp [decodeWindowWrite_consume hw ho]
  · simp [decodeWindowWrite_enable hw ho ha]
  · simp [decodeWindowWrite_disable hw ho ha]
  · simp [decodeWindowWrite_reset hw ho ha]

/-! ## The action of a CONTROL write, by its bits (R175) -/

/-- The bits of CONTROL that name actions are those of its low three bits. -/
theorem getLsbD_low (v : BitVec 64) :
    v.getLsbD 0 = (v.extractLsb' 0 3).getLsbD 0 ∧ v.getLsbD 1 = (v.extractLsb' 0 3).getLsbD 1 ∧
      v.getLsbD 2 = (v.extractLsb' 0 3).getLsbD 2 := by
  simp

/-- A write taken at CONTROL has one of its three bits set, and is the action of that bit. -/
theorem decodeWindowWrite_control (h : w.discarded = false) (hw : w.width = 4) (ho : w.offset = 0x08#12) :
    (decodeWindowWrite p w = .enable p ↔ w.value.getLsbD 0 = true) ∧
      (decodeWindowWrite p w = .disable p ↔ w.value.getLsbD 1 = true) ∧
      (decodeWindowWrite p w = .reset p ↔ w.value.getLsbD 2 = true) := by
  obtain ⟨h0, h1, h2⟩ := getLsbD_low w.value
  rw [h0, h1, h2]
  rcases namesOneAction_of_taken h ho with ha | ha | ha
  · simp [decodeWindowWrite_enable hw ho ha, ha]
  · simp [decodeWindowWrite_disable hw ho ha, ha]
  · simp [decodeWindowWrite_reset hw ho ha, ha]

/-- Settles O3: the command of a write that is taken, by its register and width, and the discard of every other. -/
theorem windowWriteSpellsItsCommand : Obligations.WindowWriteSpellsItsCommand := by
  intro p w
  refine ⟨⟨fun hdec => ?_, decodeWindowWrite_of_discarded⟩, fun h =>
    ⟨fun hw => decodeWindowWrite_setup hw (offset_of_wholeTaken h hw), fun hw =>
      ⟨decodeWindowWrite_setupLow hw, decodeWindowWrite_setupHigh hw, decodeWindowWrite_control h hw,
        decodeWindowWrite_submit hw, decodeWindowWrite_consume hw⟩⟩⟩
  exact Bool.of_not_eq_false fun h => decodeWindowWrite_ne_discarded h hdec

end Sys2Proof.Machine
end

section
/-! O2. Every command answers a next state, and the queue of the commands that wait is as it was (notes/assumptions/1.md, 33.md). -/

namespace Sys2Proof.Machine

/-! ## What the shared operations leave of the queue -/

@[simp] theorem deliver_pending (as : Answers) (s : State) : (deliver as s).pending = s.pending := by rw [deliver_frame]

@[simp] theorem takeNotice_pending (v : LockView) (p : PortId) (f : LockUnit → LockUnit × Answers) (s : State) :
    (takeNotice v p f s).pending = s.pending := by
  rw [takeNotice_frame]

@[simp] theorem faultPort_pending (p : PortId) (code : FaultCode) (s : State) : (faultPort p code s).pending = s.pending := by
  rw [faultPort_frame]

@[simp] theorem resetPort_pending (p : PortId) (s : State) : (resetPort p s).pending = s.pending := by rw [resetPort_frame]

@[simp] theorem appendTelling_pending (atOnce : PortId → Bool) (i : Incident) (s : State) :
    (appendTelling atOnce i s).pending = s.pending := by
  rw [appendTelling_frame]

@[simp] theorem appendIncidents_pending (is : List Incident) (s : State) : (appendIncidents is s).pending = s.pending := by
  rw [appendIncidents_frame]

@[simp] theorem removeIncident_pending (s : State) : (removeIncident s).pending = s.pending := by rw [removeIncident_frame]

@[simp] theorem absorbReport_pending (r : HealthReport) (s : State) : (absorbReport r s).pending = s.pending := by
  rw [absorbReport_frame]

@[simp] theorem issueRef_pending (src : Source) (r : Ref) (s : State) : (issueRef src r s).pending = s.pending := rfl

@[simp] theorem scrubIssue_pending (s : State) : (scrubIssue s).pending = s.pending := by rw [scrubIssue_frame]

@[simp] theorem patrolIssue_pending (s : State) : (patrolIssue s).pending = s.pending := by
  unfold patrolIssue
  split
  · exact scrubIssue_pending s
  · rfl

@[simp] theorem arbiterAct_pending (b : Bank) (s : State) : (arbiterAct b s).pending = s.pending := by rw [arbiterAct_frame]

@[simp] theorem operationEnded_pending (b : Bank) (arbiterFirst : Bool) (o : BankOp) (s : State) :
    (operationEnded b arbiterFirst o s).pending = s.pending := by
  rw [operationEnded_frame]

theorem endChunk_pending (j : Job) (s : State) : (endChunk j s).pending = s.pending := by
  unfold endChunk
  dsimp only
  split
  · rfl
  · rw [switchOver_frame]

/-- What a source does with its result leaves the queue. -/
theorem ResultGiven.pending {o : BankOp} {s t : State} (h : ResultGiven o s t) : t.pending = s.pending := by
  cases h with
  | none => rfl
  | taken p f => exact modPort_pending s p f
  | scrubbed u hcredit => exact scrubIssue_pending _
  | issued j k r => rw [issueCopyLine_eq]
  | held k r => rfl
  | ended j hstate hjob => exact endChunk_pending j s

@[simp] theorem startCommand_pending (p : PortId) (s : State) : (startCommand p s).pending = s.pending :=
  modPort_pending s p _

@[simp] theorem setRunning_pending (p : PortId) (c : CtxId) (job : MaintJob) (s : State) :
    (setRunning p c job s).pending = s.pending := rfl

@[simp] theorem endRunning_pending (s : State) : (endRunning s).pending = s.pending := rfl

@[simp] theorem wroteBuffer_pending (r : Running) (job : MaintJob) (last : Bool) (s : State) :
    (wroteBuffer r job last s).pending = s.pending := rfl

@[simp] theorem failCheckRead_pending (p : PortId) (s : State) : (failCheckRead p s).pending = s.pending := by
  unfold failCheckRead
  split <;> rfl

@[simp] theorem completeIncidents_pending (p : PortId) (c : CtxId) (st : Status) (n : Nat) (s : State) :
    (completeIncidents p c st n s).pending = s.pending :=
  modPort_pending _ p _

@[simp] theorem tuneThreshold_pending (v : Option Nat) (s : State) : (tuneThreshold v s).pending = s.pending := by
  cases v <;> rfl

@[simp] theorem tuneRate_pending (v : Option Nat) (s : State) : (tuneRate v s).pending = s.pending := by cases v <;> rfl

@[simp] theorem completeMaint_pending (r : Running) (st : Status) (s : State) : (completeMaint r st s).pending = s.pending := by
  unfold completeMaint
  split <;> simp

@[simp] theorem issueBufferWrite_pending (r : Running) (s : State) : (issueBufferWrite r s).pending = s.pending := by
  unfold issueBufferWrite
  split
  · simp
  · split
    · split <;> simp
    · rfl
  · rfl

@[simp] theorem endCheckRead_pending (r : Running) (mark : Nat) (returned : Bool) (s : State) :
    (endCheckRead r mark returned s).pending = s.pending := by
  have hconfirmed : (if returned then s.modPort r.port (confirmSent mark) else s).pending = s.pending := by
    cases returned
    · rfl
    · exact modPort_pending s r.port _
  unfold endCheckRead
  dsimp only
  split <;> simp [hconfirmed]

/-! ## Outcomes -/

/-- The outcome goes on to a next state, with the queue of `s`. -/
def GoesOn (s : State) (o : Host.Outcome State Fault Refusal) : Prop := ∃ t, o = .next t ∧ t.pending = s.pending

section
variable {s : State}

theorem GoesOn.next {t : State} (h : t.pending = s.pending) : GoesOn s (.next t) := ⟨t, rfl, h⟩

/-- An event whose conditions do not hold (notes/assumptions/1.md). -/
theorem GoesOn.unchanged : GoesOn s (.next s) := .next rfl

/-- A row that works on one port. -/
theorem GoesOn.modPort (p : PortId) (f : HostPort → HostPort) : GoesOn s (.next (s.modPort p f)) :=
  .next (modPort_pending s p f)

theorem GoesOn.faultPort (p : PortId) (code : FaultCode) : GoesOn s (.next (faultPort p code s)) :=
  .next (faultPort_pending p code s)

theorem GoesOn.ite {c : Prop} [Decidable c] {a b : Host.Outcome State Fault Refusal} (ha : GoesOn s a) (hb : GoesOn s b) :
    GoesOn s (if c then a else b) := by
  split
  · exact ha
  · exact hb

end

/-! ## The rows -/

section
variable (p : PortId) (s : State)

theorem execSubmit_goesOn (v : BitVec 32) : GoesOn s (execSubmit p v s) := by
  refine .ite ?_ .unchanged
  split
  · exact .ite (.modPort p _) (.faultPort p _)
  · exact .unchanged

theorem execConsume_goesOn (v : BitVec 32) : GoesOn s (execConsume p v s) := by
  refine .ite ?_ .unchanged
  split
  · exact .ite (.modPort p _) (.faultPort p _)
  · exact .unchanged

theorem execLinkDown_goesOn (delivered : Nat) : GoesOn s (execLinkDown p delivered s) := by
  have hreset : (if (s.port p).state = .resetting then s else resetPort p s).pending = s.pending := by
    split
    · rfl
    · exact resetPort_pending p s
  exact .ite (.next (by simp [hreset])) .unchanged

theorem execSetupFetchDone_goesOn (block : Option (BitVec 512)) : GoesOn s (execSetupFetchDone p block s) := by
  refine .ite (.ite ?_ (.modPort p _)) .unchanged
  split
  · exact .next (by simp)
  · split
    · exact .next (by simp)
    · exact .next (by simp)

theorem execRecordFetch_goesOn : GoesOn s (execRecordFetch p s) := by
  unfold execRecordFetch
  split
  · exact .ite (.modPort p _) .unchanged
  · exact .unchanged

theorem execRecordFetchDone_goesOn (record : Option (BitVec 512)) : GoesOn s (execRecordFetchDone p record s) := by
  refine .ite (.ite ?_ (.modPort p _)) .unchanged
  split
  · exact .next (by simp)
  · split
    · exact .next (by simp)
    · exact .modPort p _

theorem execScatterListReadDone_goesOn (i : SlotId) (l : Option (List (BitVec 128))) :
    GoesOn s (execScatterListReadDone p i l s) := by
  unfold execScatterListReadDone
  split
  · exact .modPort p _
  · exact .unchanged

theorem execHostDataReadDone_goesOn (i : SlotId) (ws : Option (List Word)) : GoesOn s (execHostDataReadDone p i ws s) := by
  unfold execHostDataReadDone
  split
  · exact .modPort p _
  · exact .unchanged

theorem execReferenceIssue_goesOn : GoesOn s (execReferenceIssue p s) := by
  refine .ite ?_ .unchanged
  split
  · exact .next (by simp)
  · exact .unchanged

theorem execCompletionWriteAccepted_goesOn (stale : Bool) : GoesOn s (execCompletionWriteAccepted p stale s) := by
  refine .ite (.modPort p _) ?_
  split
  · exact .unchanged
  · exact .ite (.modPort p _) (.ite (.modPort p _) .unchanged)

theorem execCompletionWriteRefused_goesOn (stale : Bool) : GoesOn s (execCompletionWriteRefused p stale s) := by
  refine .ite (.modPort p _) ?_
  dsimp only
  split
  · exact .unchanged
  · exact .ite (.next (by simp)) (.ite (.next (by simp)) .unchanged)

theorem execAcquire_goesOn : GoesOn s (execAcquire p s) := by
  unfold execAcquire
  split
  · exact .next (by simp)
  · exact .unchanged

theorem execRelease_goesOn : GoesOn s (execRelease p s) := by
  unfold execRelease
  split
  · exact .next (by simp)
  · exact .unchanged

theorem execGuardCheck_goesOn : GoesOn s (execGuardCheck p s) := by
  unfold execGuardCheck
  split
  · exact .next (by simp)
  · exact .unchanged

theorem execRetirementReadDone_goesOn (answered : Bool) : GoesOn s (execRetirementReadDone answered s) := by
  refine .ite (.next ((scrubIssue_pending _).trans ?_)) .unchanged
  dsimp only
  split
  · exact appendTelling_pending _ _ _
  · rfl

theorem execOperationDone_goesOn (b : Bank) (arbiterFirst : Bool) : GoesOn s (exec (.operationDone b arbiterFirst) s) := by
  cases hb : s.sched.banks[b] with
  | none =>
    show GoesOn s (execOperationDone b arbiterFirst s)
    simp only [execOperationDone, hb]
    exact .unchanged
  | some o =>
    rw [exec_operationDone arbiterFirst hb]
    exact .next ((giveResult_given o _ _).pending.trans (operationEnded_pending b arbiterFirst o s))

theorem execHealthReport_goesOn (b : Bank) : GoesOn s (execHealthReport b s) := by
  unfold execHealthReport
  split
  · exact .unchanged
  · exact .next (absorbReport_pending _ _)

theorem execMigrationStart_goesOn : GoesOn s (execMigrationStart s) := by
  refine .ite ?_ .unchanged
  split
  · exact .next rfl
  · exact .unchanged

theorem execChunkLockHeld_goesOn : GoesOn s (execChunkLockHeld s) := by
  unfold execChunkLockHeld
  split
  · exact .unchanged
  · exact .ite (.next (issueRef_pending _ _ _)) .unchanged

theorem execRetirementWriteDone_goesOn (outcome : WriteOutcome) : GoesOn s (execRetirementWriteDone outcome s) := by
  unfold execRetirementWriteDone
  split
  · exact .ite (.next (by simp)) .unchanged
  · exact .unchanged

theorem execMapQuery_goesOn : GoesOn s (execMapQuery s) := by
  unfold execMapQuery
  split
  · exact .next (by simp)
  · exact .unchanged

theorem execIncidents_goesOn : GoesOn s (execIncidents s) := by
  unfold execIncidents
  split
  · exact .ite (.next (by simp)) (.next (by simp))
  · exact .unchanged

theorem execTune_goesOn : GoesOn s (execTune s) := by
  unfold execTune
  split
  · exact .next (by simp)
  · exact .unchanged

theorem execRelocate_goesOn : GoesOn s (execRelocate s) := by
  unfold execRelocate
  split
  · dsimp only
    split <;> exact .next (by simp)
  · exact .unchanged

theorem execBufferWrite_goesOn : GoesOn s (execBufferWrite s) := by
  unfold execBufferWrite
  split
  · exact .ite .unchanged (.next (issueBufferWrite_pending _ s))
  · exact .unchanged

theorem execMaintCheckReadDone_goesOn (returned : Bool) : GoesOn s (execMaintCheckReadDone returned s) := by
  unfold execMaintCheckReadDone
  split
  · split
    · exact .next (endCheckRead_pending _ _ _ s)
    · exact .unchanged
  · exact .unchanged

end

/-- Settles O2: each row by the branches of its meaning, all of which go on by operations that leave the queue. -/
theorem everyCommandAnswersANextState : Obligations.EveryCommandAnswersANextState := by
  intro i s
  show GoesOn s (exec i s)
  cases i with
  | powerOnReset left => exact .next rfl
  | retirementReadDone answered => exact execRetirementReadDone_goesOn s answered
  | setupWrite p part => exact .modPort p _
  | enable p => exact .ite (.ite (.modPort p _) (.next (by simp))) .unchanged
  | disable p => exact .ite (.modPort p _) .unchanged
  | reset p => exact .ite .unchanged (.next (resetPort_pending p s))
  | submit p v => exact execSubmit_goesOn p s v
  | consume p v => exact execConsume_goesOn p s v
  | registerWriteDiscarded p w => exact .unchanged
  | linkDown p delivered => exact execLinkDown_goesOn p s delivered
  | linkUp p => exact .modPort p _
  | setupFetchDone p block => exact execSetupFetchDone_goesOn p s block
  | recordFetch p => exact execRecordFetch_goesOn p s
  | recordFetchDone p record => exact execRecordFetchDone_goesOn p s record
  | read p => exact .modPort p _
  | write p => exact .modPort p _
  | fill p => exact .modPort p _
  | copy p => exact .modPort p _
  | scan p => exact .modPort p _
  | guardCheck p => exact execGuardCheck_goesOn p s
  | scatterListReadDone p slot l => exact execScatterListReadDone_goesOn p s slot l
  | hostDataReadDone p slot ws => exact execHostDataReadDone_goesOn p s slot ws
  | referenceIssue p => exact execReferenceIssue_goesOn p s
  | grant b => exact .next (arbiterAct_pending b s)
  | operationDone b arbiterFirst => exact execOperationDone_goesOn s b arbiterFirst
  | healthReport b => exact execHealthReport_goesOn s b
  | migrationStart => exact execMigrationStart_goesOn s
  | chunkLockHeld => exact execChunkLockHeld_goesOn s
  | retirementWriteDone outcome => exact execRetirementWriteDone_goesOn s outcome
  | pacingTick => exact .next (patrolIssue_pending (tickedState s))
  | acquire p => exact execAcquire_goesOn p s
  | release p => exact execRelease_goesOn p s
  | waiterDeadlineExpiry p c => exact .next (deliver_pending _ _)
  | lockRunningNotice p => exact .next (takeNotice_pending _ p _ s)
  | lockDrainNotice p => exact .next (takeNotice_pending _ p _ s)
  | lockFaultNotice p => exact .next (takeNotice_pending _ p _ s)
  | lockResetNotice p => exact .next (takeNotice_pending _ p _ s)
  | mapQuery => exact execMapQuery_goesOn s
  | incidents => exact execIncidents_goesOn s
  | tune => exact execTune_goesOn s
  | relocate => exact execRelocate_goesOn s
  | maintCheckReadDone returned => exact execMaintCheckReadDone_goesOn s returned
  | completionWriteAccepted p stale => exact execCompletionWriteAccepted_goesOn p s stale
  | completionWriteRefused p stale => exact execCompletionWriteRefused_goesOn p s stale
  | quietTimerExpiry p => exact .ite (.modPort p _) .unchanged
  | drainEnd p => exact .ite (.modPort p _) .unchanged
  | resetComplete p => exact .ite (.modPort p _) .unchanged
  | bufferWrite => exact execBufferWrite_goesOn s
  | bitInError line word bit => exact .next rfl

end Sys2Proof.Machine
end
